-- ==== Sys2Proof/Word.lean ====
section
/-! DEFINITION. The characters the card exchanges, and the index types of its lines, modules, rows,
terminals and slots (00_scope.md 0.5 and 0.6). -/

namespace Sys2Proof

/-- One eight-bit character of a feed, upstream, terminal or ticker line (R41, R203). -/
abbrev Byte := BitVec 8

/-- One nine-bit character of a board line (R203). -/
abbrev BoardChar := BitVec 9

/-- A run of characters: a body, a message or a rendered text. -/
abbrev Text := List Byte

/-- A board line or a terminal line, 0 to 3. -/
abbrev LineNo := Fin 4

/-- A module's place on its board line, 0 to 31. -/
abbrev ModuleNo := Fin 32

/-- A board row, line * 32 + module (R197). -/
abbrev RowNo := Fin 128

/-- A terminal's place on its line, 0 to 7. -/
abbrev DropNo := Fin 8

/-- A terminal number, line * 8 + drop (R129). -/
abbrev TermNo := Fin 32

/-- One of a terminal's eight alert positions (R155). -/
abbrev SlotNo := Fin 8

end Sys2Proof
end

