-- ==== Sys2Proof/Config.lean ====
section
/-! DEFINITION. The capacities, ranges and durations that the manual fixes for every card, and the
free values of what it leaves open. -/

namespace Sys2Proof.Config

/-- Every counter is 16 bits wide and stops here (0.6). -/
def counterMax : Nat := 65535

/-- The highest issue number (0.4, R18). -/
def maxIssue : Nat := 1023

/-- The highest price in price units (R1). -/
def maxPrice : Nat := 2559999

/-- The greatest net change, either sign (R1). -/
def maxChange : Int := 2559998

/-- The limit of an issue's cumulative volume (R10). -/
def maxVolume : Nat := 999999999

/-- The limit of a single print's volume (R11). -/
def maxPrintVolume : Nat := 99999999

/-- The limit of the smoothed lateness (R81). -/
def maxLateness : Nat := 360000

/-- Messages waiting in the hand-over queue (R54). -/
def handOverPlaces : Nat := 32

/-- Messages waiting in the through queue (R61). -/
def throughPlaces : Nat := 4

/-- Entries in a print queue (R70). -/
def tapePlaces : Nat := 256

/-- Places of the flash list (R25). -/
def flashPlaces : Nat := 16

/-- Rows in an issue's row list (R23). -/
def rowPlaces : Nat := 4

/-- Entries of a watch list (R146). -/
def watchPlaces : Nat := 24

/-- Messages of an outbound queue (R143). -/
def outboundPlaces : Nat := 8

/-- Places of the reply queue (R188). -/
def replyPlaces : Nat := 8

/-- Frames of the pass-through buffer (R188). -/
def passPlaces : Nat := 2

/-- The board answer wait in cs (R103). -/
def boardWait : Nat := 2

/-- The hold back-off in cs (R105). -/
def backOff : Nat := 5

/-- The terminal answer wait in cs (R133). -/
def terminalWait : Nat := 10

/-- Missed answers in a row that make a module DARK or a terminal OFFLINE (R108, R135). -/
def missLimit : Nat := 3

/-- The value at which the mark register is renumbered (R98). -/
def markMax : Nat := 65535

/-- The model code READ UNIT returns (R186). -/
def modelCode : Nat := 260

/-- The functional revision READ UNIT returns (R186). -/
def revision : Nat := 1

/-- FREE VALUES: the characters of read data and replies whose value the manual does not state
(log 8). The n-th character drawn since reset is `freeByte n`; nothing constrains it. -/
opaque freeByte : Nat → Byte

end Sys2Proof.Config
end

