-- ==== Sys2Proof/Syntax.lean ====
section
/-! DEFINITION. The commands of the card: one constructor for each row of spec/opcode_table.json.
A row that takes a message from the hand-over queue has no operand, since the message holds its
operands (R54, R199, R200). -/

namespace Sys2Proof

/-- Tape A or Tape B (R67). -/
inductive Channel where
  | a
  | b
deriving DecidableEq, Repr

/-- The steps of the card, each whole and indivisible (95_what_each_step_holds.md). -/
inductive Instr where
  /-- POWER_ON, with the two switches as set before power came on (0.7, R65, R195). -/
  | powerOn (unitAddress : Byte) (throughOn : Bool)
  /-- FEED_IN_CHARACTER: one character from Feed In (R42). -/
  | feedInCharacter (c : Byte)
  /-- THROUGH_FRAME_END: a frame on Feed Through has ended (R61). -/
  | throughFrameEnd
  /-- SILENCE_TIMER_EXPIRY (R57). -/
  | silenceTimerExpiry
  /-- HEARTBEAT taken by the Issue Table (R27). -/
  | heartbeat
  /-- TRADE with the out-of-sequence flag clear (R30). -/
  | trade
  /-- TRADE with the out-of-sequence flag set (R31). -/
  | outOfSequenceTrade
  /-- An alternate print (R32). -/
  | alternatePrint
  /-- QUOTE (R33). -/
  | quote
  /-- ISSUE STATUS (R34). -/
  | issueStatus
  /-- CORRECTION (R35). -/
  | correction
  /-- MARKET with the event OPEN (R36). -/
  | marketOpen
  /-- MARKET with the event CLOSE (R37). -/
  | marketClose
  /-- A control message that names no operation (R164, R167). -/
  | noOperationCode
  /-- LOAD ISSUE (R38). -/
  | loadIssue
  /-- DELETE ISSUE (R39). -/
  | deleteIssue
  /-- SET ROW (R95, R96). -/
  | setRow
  /-- SET WATCH LIST (R147). -/
  | setWatchList
  /-- ADD WATCH (R147). -/
  | addWatch
  /-- DROP WATCH (R147). -/
  | dropWatch
  /-- SET ALERT (R162). -/
  | setAlert
  /-- CLEAR ALERT (R162). -/
  | clearAlert
  /-- SET TAPE (R87, R88). -/
  | setTape
  /-- SET FLASH LIST (R174). -/
  | setFlashList
  /-- SET LAMPS (R124, R125). -/
  | setLamps
  /-- SET FEED (R176). -/
  | setFeed
  /-- SET TERMINAL (R130, R131). -/
  | setTerminal
  /-- CLEAR COUNTS (R178). -/
  | clearCounts
  /-- RESTART (R179). -/
  | restart
  /-- READ ISSUE (R182). -/
  | readIssue
  /-- READ ROW (R183). -/
  | readRow
  /-- READ LINE (R183). -/
  | readLine
  /-- READ WATCH LIST (R184). -/
  | readWatchList
  /-- READ ALERTS (R184). -/
  | readAlerts
  /-- READ TAPE (R185). -/
  | readTape
  /-- READ COUNTS (R185). -/
  | readCounts
  /-- READ UNIT (R186). -/
  | readUnit
  /-- TAPE_ENTRY_JOIN: the channel takes the next entry handed to it (R69 to R73). -/
  | tapeEntryJoin (ch : Channel)
  /-- TAPE_CHARACTER_SENT: the character on the ticker line has ended (R80). -/
  | tapeCharacterSent (ch : Channel)
  /-- FLASH_TIMER_EXPIRY (R86). -/
  | flashTimerExpiry (ch : Channel)
  /-- BOARD_CHANGE_NOTICE: the Board Line Controllers take the next notice (R99). -/
  | boardChangeNotice
  /-- TRANSFER_SENT: the sum character of an update, refresh or blanking has gone (R103). -/
  | transferSent (line : LineNo)
  /-- BROADCAST_SENT: the sum character of a broadcast has gone (R114). -/
  | broadcastSent (line : LineNo)
  /-- ACCEPT, the character 06h from a module (R104). -/
  | accept (line : LineNo)
  /-- HOLD, the character 13h from a module (R105). -/
  | hold (line : LineNo)
  /-- BOARD_ANSWER_WAIT_EXPIRY (R106). -/
  | boardAnswerWaitExpiry (line : LineNo)
  /-- HOLD_BACK_OFF_EXPIRY (R112). -/
  | holdBackOffExpiry (line : LineNo) (module : ModuleNo)
  /-- BOARD_OTHER_CHARACTER: a character that is not an awaited answer (R103). -/
  | boardOtherCharacter (line : LineNo) (c : Byte)
  /-- LAMP_CHANGE_NOTICE: the Lamp Generators take the next notice (R120, R123, R127). -/
  | lampChangeNotice
  /-- PHASE_TIMER_EXPIRY of one row (R121). -/
  | phaseTimerExpiry (row : RowNo)
  /-- TERMINAL_CHANGE_NOTICE: the Terminal Line Controllers take the next notice (R150). -/
  | terminalChangeNotice
  /-- POLL_SENT: the poll character has gone (R133). -/
  | pollSent (line : LineNo)
  /-- NOTHING, the answer 04h to a poll (R137). -/
  | nothing (line : LineNo)
  /-- A QUOTE request with its four-character symbol field (R140). -/
  | quoteRequest (line : LineNo) (symbol : Text)
  /-- A WATCH ADD request (R141). -/
  | watchAdd (line : LineNo) (symbol : Text)
  /-- A WATCH DROP request (R142). -/
  | watchDrop (line : LineNo) (symbol : Text)
  /-- An ALERT SET request with its operands as they stand in the request (R161, R203). -/
  | alertSet (line : LineNo) (slot : Byte) (symbol : Text) (condition : Byte) (negate : Byte) (limit : BitVec 32)
  /-- An ALERT CLEAR request (R161). -/
  | alertClear (line : LineNo) (slot : Byte)
  /-- A request of unknown kind, or too short for its kind, with its characters from the kind on (R139). -/
  | requestBadOperation (line : LineNo) (request : Text)
  /-- SELECT_SENT: the sum character of the select has gone (R138). -/
  | selectSent (line : LineNo)
  /-- RECEIVED, the answer 06h to a select (R138). -/
  | received (line : LineNo)
  /-- BUSY, the answer 13h to a select (R138). -/
  | busy (line : LineNo)
  /-- TERMINAL_ANSWER_WAIT_EXPIRY (R135). -/
  | terminalAnswerWaitExpiry (line : LineNo)
  /-- TERMINAL_OTHER_CHARACTER: a character that makes no awaited answer (R133, R138). -/
  | terminalOtherCharacter (line : LineNo) (c : Byte)
  /-- ALERT_CHANGE_NOTICE: the Alert Table takes the next notice (R157). -/
  | alertChangeNotice
  /-- UPSTREAM_IN_CHARACTER: one character from the downstream card (R190). -/
  | upstreamInCharacter (c : Byte)
  /-- UPSTREAM_FRAME_END: the frame on Upstream Out has ended (R193). -/
  | upstreamFrameEnd
  /-- READY_LINE_CHANGE: the ready line from above takes a level (R192). -/
  | readyLineChange (active : Bool)
  /-- MARKET_CLOCK_TICK: one centisecond of the time base (R13, R15). -/
  | marketClockTick
  /-- THROUGH_SWITCH_CHANGE: the through switch takes a position (R63). -/
  | throughSwitchChange (on : Bool)
deriving DecidableEq, Repr

end Sys2Proof
end

