-- ==== Sys2Proof/Machine/State.lean ====
section
/-! DEFINITION. The state of the card as plain data, block by block (00_scope.md 0.3), its reasons to
stop, and its state after power-on. -/

namespace Sys2Proof.Machine

/-! ### Field sets and the issue record (chapter 2) -/

/-- A set of the display fields SYMBOL, LAST, CHANGE, VOLUME, LAMPS, BIDASK and STATE (0.4, R28). -/
structure FieldSet where
  symbol : Bool
  last : Bool
  change : Bool
  volume : Bool
  lamps : Bool
  bidask : Bool
  state : Bool
deriving DecidableEq, Repr

/-- The tick of an issue (R5). -/
inductive Tick where
  | none
  | up
  | down
  | zeroUp
  | zeroDown
deriving DecidableEq, Repr

/-- The fields of a LISTED issue record (R18). A FREE record is an absent one. -/
structure IssueRecord where
  symbol : Text
  denom : Nat
  eligA : Bool
  eligB : Bool
  close : Nat
  last : Nat
  netChange : Int
  tick : Tick
  traded : Bool
  high : Option Nat
  low : Option Nat
  volume : Nat
  bid : Option Nat
  ask : Option Nat
  halted : Bool
  /-- The row list, in the order the rows were set (R23). -/
  rows : List RowNo
  /-- The watcher mask: bit t marks terminal t (R24). -/
  watchers : BitVec 32
deriving DecidableEq, Repr

/-- The records in use, each with its issue number, in ascending order of number. -/
abbrev Records := List (Nat × IssueRecord)

/-- The session state (R26). -/
inductive SessionState where
  | opened
  | closed
deriving DecidableEq, Repr

/-- The state the Issue Table holds besides notices on their way (R40). -/
structure IssueTable where
  records : Records
  session : SessionState
  /-- The market clock, in centiseconds (R13). -/
  clock : BitVec 32
  flashList : List Nat
  /-- The correction mismatch count (R40). -/
  mismatches : Nat
deriving DecidableEq, Repr

/-- A change notice: the issue, the fields, the tick and halted flag as the application left them (R28), and
the row list and watcher mask as they stood when it was issued (R23, R24). -/
structure ChangeNotice where
  issue : Nat
  fields : FieldSet
  tick : Tick
  halted : Bool
  rows : List RowNo
  watchers : BitVec 32
deriving DecidableEq, Repr

/-! ### The Feed Receiver (chapter 3) -/

/-- The frame assembler. BODY and CHECK may be holding one sync character (R42). -/
inductive Assembler where
  | hunt
  | firstSync
  | synced
  /-- BODY: the length, the characters taken so far, and whether a sync is held. -/
  | body (length : Nat) (got : Text) (held : Bool)
  /-- CHECK: the whole body, the high-order check character once taken, and whether a sync is held. -/
  | check (got : Text) (high : Option Byte) (held : Bool)
deriving DecidableEq, Repr

/-- A checked frame: its body and its two check characters (R198). -/
structure Frame where
  body : Text
  checkHigh : Byte
  checkLow : Byte
deriving DecidableEq, Repr

/-- The feed state (R57, R58). -/
inductive FeedState where
  | live
  | quiet
deriving DecidableEq, Repr

/-- A message in the through queue or in transmission on Feed Through (R61). -/
structure ThroughEntry where
  frame : Frame
  /-- The serial of the frame's check; a RESTART removes entries checked before it (R66). -/
  serial : Nat
  /-- It waited when the through switch was turned off, and is discarded at the head (R63). -/
  doomed : Bool
deriving DecidableEq, Repr

/-- The data messages the Issue Table takes: the six types of R46 and the alternate print. -/
inductive DataKind where
  | heartbeat
  | trade
  | quote
  | issueStatus
  | correction
  | market
  | alternate
deriving DecidableEq, Repr

/-- How a message in the hand-over queue was sorted (R46, R49). -/
inductive Sorted where
  | data (kind : DataKind)
  | control (addressed : Bool)
deriving DecidableEq, Repr

/-- A message in the hand-over queue (R54), with the serial of its frame's check. -/
structure Handed where
  sorted : Sorted
  body : Text
  serial : Nat
deriving DecidableEq, Repr

/-- The nine counters of the Feed Receiver (R64). -/
structure FeedCounts where
  received : Nat
  checkFailure : Nat
  gap : Nat
  refused : Nat
  discarded : Nat
  malformed : Nat
  quiet : Nat
  throughLoss : Nat
  handOverLoss : Nat
deriving DecidableEq, Repr

/-- The Feed Receiver (R65). -/
structure FeedReceiver where
  assembler : Assembler
  /-- The expected sequence number, without meaning while the lock is clear (R51). -/
  expected : Byte
  lock : Bool
  /-- The silence timer: none while stopped, else the centiseconds left (R56). -/
  silence : Option Nat
  feedState : FeedState
  through : List ThroughEntry
  transmitting : Option ThroughEntry
  handOver : List Handed
  counts : FeedCounts
  /-- How many frames have been checked; the model's own (log 20). -/
  serial : Nat
deriving DecidableEq, Repr

/-! ### The Tape Channels (chapter 4) -/

/-- The suffix of a PRINT (R68). -/
inductive Suffix where
  | none
  | star
  | hash
deriving DecidableEq, Repr

/-- What a tape entry shows (R68): a PRINT, one of the four markers, or a FLASH. -/
inductive TapeItem where
  | print (issue : Nat) (symbol : Text) (denom : Nat) (price : Nat) (volume : Nat) (suffix : Suffix)
  | halt (issue : Nat) (symbol : Text)
  | resume (issue : Nat) (symbol : Text)
  | corr (issue : Nat) (symbol : Text) (denom : Nat) (price : Nat)
  | quiet
  | flash
deriving DecidableEq, Repr

/-- A queued tape entry: its item, its arrival and its length in the backlog sum (R68). -/
structure TapeEntry where
  item : TapeItem
  arrival : BitVec 32
  counted : Nat
deriving DecidableEq, Repr

/-- The entry in emission: its rendered characters and how many have been sent (R79). -/
structure Emission where
  text : Text
  sent : Nat
deriving DecidableEq, Repr

/-- A threshold as it was loaded: a value and a scale code, 0 for 1 cs to 3 for 1,000 cs (R84, R200). -/
structure Threshold where
  value : Nat
  scale : Nat
deriving DecidableEq, Repr

/-- The six thresholds (R84). -/
structure Thresholds where
  up1 : Threshold
  up2 : Threshold
  up3 : Threshold
  down1 : Threshold
  down2 : Threshold
  down3 : Threshold
deriving DecidableEq, Repr

/-- The parameters SET TAPE loads (R87). -/
structure TapeParams where
  normal : Nat
  rush : Nat
  thresholds : Thresholds
  block : Nat
  minimum : Nat
  interval : Nat
deriving DecidableEq, Repr

/-- The thresholds, block size and minimum in use (R88). -/
structure TapeWorking where
  thresholds : Thresholds
  block : Nat
  minimum : Nat
deriving DecidableEq, Repr

/-- A Tape Channel (R67). -/
structure TapeChannel where
  queue : List TapeEntry
  emission : Option Emission
  /-- The smoothed lateness S. -/
  lateness : Nat
  level : Nat
  /-- The crawl rate R. -/
  rate : Nat
  /-- The flash timer: none while stopped, else the centiseconds left (R85). -/
  flashTimer : Option Nat
  backlog : Nat
  loaded : TapeParams
  working : TapeWorking
  dropped : Nat
  merged : Nat
  /-- Entries handed to the channel and not yet taken, oldest first (R29, R69, log 3). -/
  arrivals : List TapeItem
deriving DecidableEq, Repr

/-! ### The Board Line Controllers (chapter 5) -/

/-- The state of a module (R108). -/
inductive ModuleState where
  | unknown
  | live
  | dark
deriving DecidableEq, Repr

/-- What a row that is not blank shows (R94). -/
structure Mapping where
  issue : Nat
  mask : FieldSet
  priority : Nat
deriving DecidableEq, Repr

/-- A module and its row (R94). -/
structure BoardModule where
  /-- None for a blank row. -/
  mapping : Option Mapping
  state : ModuleState
  dirty : FieldSet
  blanking : Bool
  mark : Option Nat
  timeouts : Nat
  /-- The hold back-off: none while not running, else the centiseconds left (R112). -/
  backOff : Option Nat
deriving DecidableEq, Repr

/-- The kind of a transfer, with what the controller holds of it (R101). -/
inductive TransferBody where
  | update (module : ModuleNo) (issue : Nat) (fields : FieldSet)
  | refresh (module : ModuleNo) (issue : Nat) (fields : FieldSet)
  | blanking (module : ModuleNo)
  | broadcast (indication : FeedState)
deriving DecidableEq, Repr

/-- A transfer in flight: what it is, its characters, and the answer wait once the sum has gone (R103). -/
structure Transfer where
  body : TransferBody
  chars : List BoardChar
  /-- None while characters are being sent, else the centiseconds left of the answer wait. -/
  wait : Option Nat
deriving DecidableEq, Repr

/-- A Board Line Controller (R94, R115). -/
structure BoardLine where
  modules : Vector BoardModule 32
  markReg : Nat
  sweep : ModuleNo
  inFlight : Option Transfer
  /-- The pending broadcast: QUIET, QUIET-clear (live), or none (R114). -/
  broadcast : Option FeedState
  holds : Nat
  timeouts : Nat
deriving DecidableEq, Repr

/-! ### The Lamp Generators (chapter 6) -/

/-- ON or OFF (R118). -/
inductive Phase where
  | on
  | off
deriving DecidableEq, Repr

/-- What a flashing row holds besides its direction (R118): the timer is the centiseconds left. -/
structure Flash where
  phase : Phase
  remaining : Nat
  timer : Nat
deriving DecidableEq, Repr

/-- The arrow state; phase, remaining and timer are absent in the steady states (R118). -/
inductive Arrow where
  | steadyNone
  | steadyUp
  | steadyDown
  | flashUp (f : Flash)
  | flashDown (f : Flash)
deriving DecidableEq, Repr

/-- The lamps of a row (R118). -/
structure RowLamps where
  arrow : Arrow
  halt : Bool
deriving DecidableEq, Repr

/-- The lamp parameters, times in steps of 10 ms, that is, in cs (R124). -/
structure LampParams where
  onTime : Nat
  offTime : Nat
  flashCount : Nat
deriving DecidableEq, Repr

/-! ### The Terminal Line Controllers (chapter 7) -/

/-- The state of a terminal (R129). -/
inductive TerminalState where
  | disabled
  | unknown
  | online
  | offline
deriving DecidableEq, Repr

/-- An entry of a watch list with its pending set (R146). -/
structure WatchEntry where
  issue : Nat
  pending : FieldSet
deriving DecidableEq, Repr

/-- A message in an outbound queue, its content fixed when it joined (R137, R143). -/
inductive OutMessage where
  | reply (chars : Text)
  | alert (chars : Text)
  | feedStatus (state : FeedState)
deriving DecidableEq, Repr

/-- A terminal (R129). -/
structure Terminal where
  state : TerminalState
  watch : List WatchEntry
  lengthOwed : Bool
  /-- The service cursor (R137). -/
  cursor : Nat
  queue : List OutMessage
  feedOwed : Bool
  timeouts : Nat
deriving DecidableEq, Repr

/-- What a select carries (R137). -/
inductive Carried where
  /-- The head of the outbound queue. -/
  | queued
  /-- An entry update: the issue, the fields sent and whether the length was owed at its start (R151). -/
  | entry (issue : Nat) (fields : FieldSet) (lengthWasOwed : Bool)
  | length
deriving DecidableEq, Repr

/-- A select: what it carries and its characters (R203). -/
structure Select where
  carried : Carried
  chars : Text
deriving DecidableEq, Repr

/-- Where a transaction stands: the poll character being sent, a wait with the centiseconds left, a select
(R133, R138, R203). -/
inductive Stage where
  | pollSending (char : Byte)
  | pollWait (left : Nat)
  | selectSending (sel : Select)
  | selectWait (sel : Select) (left : Nat)
deriving DecidableEq, Repr

/-- A transaction in flight (R132). -/
structure Transaction where
  drop : DropNo
  stage : Stage
  /-- Its terminal has been disabled since it began, so that its answer is taken for a DISABLED terminal, also
  when the terminal has been enabled again (R131). -/
  cut : Bool
deriving DecidableEq, Repr

/-- A Terminal Line Controller's line (R129, R152). -/
structure TermLine where
  pollPtr : DropNo
  inFlight : Option Transaction
  timeouts : Nat
  busies : Nat
  retries : Nat
  /-- The acknowledgement last sent, 06h TAKEN or 15h RETRY; the model's own record (log 22). -/
  lastAck : Option Byte
deriving DecidableEq, Repr

/-! ### The Alert Table (chapter 8) -/

/-- The condition of an alert (R156). -/
inductive Condition where
  | lastAbove
  | lastBelow
  | changeAbove
  | changeBelow
  | uptick
  | atHigh
  | atLow
  | halted
deriving DecidableEq, Repr

/-- An ARMED or FIRED slot (R155). -/
structure AlertSetting where
  fired : Bool
  issue : Nat
  condition : Condition
  negate : Bool
  limit : Int
  owed : Bool
deriving DecidableEq, Repr

/-- A slot; none is EMPTY (R155). -/
abbrev AlertSlot := Option AlertSetting

/-! ### The Control Unit and the Upstream Port (chapters 9 and 10) -/

/-- An addressed operation in hand: its message has been taken and its place claimed (R164, R165). -/
structure Operation where
  body : Text
  /-- The number of the message's frame (log 20). -/
  serial : Nat
deriving DecidableEq, Repr

/-- What the Control Unit holds (R187). -/
structure ControlUnit where
  /-- The silence window in seconds (R56). -/
  window : Nat
  altCode : Byte
  discards : Nat
  /-- The operation in hand (R165, R187). -/
  inHand : Option Operation
deriving DecidableEq, Repr

/-- The source of an upstream frame (R188). -/
inductive Source where
  | own
  | passed
deriving DecidableEq, Repr

/-- The Upstream Port (R188). -/
structure UpstreamPort where
  /-- The bodies of this card's waiting frames, oldest first; their check is formed when sent (R192). -/
  replies : List Text
  /-- Places of the reply queue held by claims (R189). -/
  claims : Nat
  buffer : List Frame
  transmitting : Option (Source × Frame)
  lastServed : Source
  assembler : Assembler
  /-- The start-up hold (R194, R195). -/
  hold : Bool
  lost : Nat
  /-- The ready line read from the card above (R192); an input. -/
  readyAbove : Bool
deriving DecidableEq, Repr

/-! ### The card -/

/-- The whole card. -/
structure State where
  feed : FeedReceiver
  issues : IssueTable
  boardNotices : List ChangeNotice
  lampNotices : List ChangeNotice
  terminalNotices : List ChangeNotice
  alertNotices : List ChangeNotice
  tapeA : TapeChannel
  tapeB : TapeChannel
  boards : Vector BoardLine 4
  lamps : Vector RowLamps 128
  lampParams : LampParams
  terminals : Vector Terminal 32
  termLines : Vector TermLine 4
  alerts : Vector (Vector AlertSlot 8) 32
  control : ControlUnit
  upstream : UpstreamPort
  unitSwitch : Byte
  throughSwitch : Bool
  freeCount : Nat
  pending : List Instr
deriving DecidableEq, Repr

/-- Why the model stops. -/
inductive Fault where
  /-- Raised by UPSTREAM_IN_CHARACTER when a frame from below passes its check and the pass-through buffer
  already holds 2 frames. R190 says a checked frame always finds a place, since the ready line holds the
  downstream card; only a downstream card that does not obey the line brings this about. SAFE (log 7). -/
  | upstreamOverrun
deriving DecidableEq, Repr

/-- Why the model has no meaning for a command. -/
inductive Refusal where
  /-- Raised by exec alone, for a command that has no meaning yet. SAFE. -/
  | notModelled (mnemonic : String)
deriving DecidableEq, Repr

/-! ### Power-on values -/

/-- No field. -/
def FieldSet.empty : FieldSet := ⟨false, false, false, false, false, false, false⟩

/-- The nine counters at 0 (R65). -/
def FeedCounts.zero : FeedCounts := ⟨0, 0, 0, 0, 0, 0, 0, 0, 0⟩

/-- The Feed Receiver after power-on (R65). -/
def FeedReceiver.powerOn : FeedReceiver where
  assembler := .hunt
  expected := 0
  lock := false
  silence := none
  feedState := .live
  through := []
  transmitting := none
  handOver := []
  counts := .zero
  serial := 0

/-- The Issue Table after power-on (R40). -/
def IssueTable.powerOn : IssueTable where
  records := []
  session := .closed
  clock := 0
  flashList := []
  mismatches := 0

/-- The default thresholds (R84). -/
def Thresholds.default : Thresholds where
  up1 := ⟨300, 1⟩
  up2 := ⟨600, 1⟩
  up3 := ⟨120, 2⟩
  down1 := ⟨150, 1⟩
  down2 := ⟨450, 1⟩
  down3 := ⟨900, 1⟩

/-- The default tape parameters (R87). -/
def TapeParams.default : TapeParams where
  normal := 12
  rush := 20
  thresholds := .default
  block := 100
  minimum := 0
  interval := 60

/-- The parameters a print start copies (R88). -/
def TapeParams.toWorking (p : TapeParams) : TapeWorking := ⟨p.thresholds, p.block, p.minimum⟩

/-- A Tape Channel after power-on (R91). -/
def TapeChannel.powerOn : TapeChannel where
  queue := []
  emission := none
  lateness := 0
  level := 0
  rate := 12
  flashTimer := none
  backlog := 0
  loaded := .default
  working := TapeParams.default.toWorking
  dropped := 0
  merged := 0
  arrivals := []

/-- A module after power-on, its row blank (R116). -/
def BoardModule.powerOn : BoardModule where
  mapping := none
  state := .unknown
  dirty := .empty
  blanking := false
  mark := none
  timeouts := 0
  backOff := none

/-- A board line after power-on (R116). -/
def BoardLine.powerOn : BoardLine where
  modules := Vector.replicate 32 .powerOn
  markReg := 0
  sweep := 31
  inFlight := none
  broadcast := none
  holds := 0
  timeouts := 0

/-- The lamps of a row after power-on (R128). -/
def RowLamps.dark : RowLamps := ⟨.steadyNone, false⟩

/-- The default lamp parameters (R124). -/
def LampParams.default : LampParams := ⟨50, 50, 3⟩

/-- A terminal after power-on (R153). -/
def Terminal.powerOn : Terminal where
  state := .disabled
  watch := []
  lengthOwed := false
  cursor := 23
  queue := []
  feedOwed := false
  timeouts := 0

/-- A terminal line after power-on (R153). -/
def TermLine.powerOn : TermLine where
  pollPtr := 7
  inFlight := none
  timeouts := 0
  busies := 0
  retries := 0
  lastAck := none

/-- The Control Unit after power-on (R187). -/
def ControlUnit.powerOn : ControlUnit := ⟨5, 0, 0, none⟩

/-- The body of a RESTARTED notice: kind 01h, cause 00h POWER_ON or 01h RESTART (R201). -/
def restartedBody (unitAddress : Byte) (cause : Byte) : Text := [0x42, unitAddress, 0x01, cause]

/-- The Upstream Port after power-on (R188, R195); the ready line from above is an input. -/
def UpstreamPort.powerOn (unitAddress : Byte) (readyAbove : Bool) : UpstreamPort where
  replies := [restartedBody unitAddress 0]
  claims := 0
  buffer := []
  transmitting := none
  lastServed := .own
  assembler := .hunt
  hold := true
  lost := 0
  readyAbove := readyAbove

/-- The card right after power-on with its switches at the given positions and the ready line from above
at the given level. -/
def State.powerOn (unitAddress : Byte) (throughOn readyAbove : Bool) (pending : List Instr) : State where
  feed := .powerOn
  issues := .powerOn
  boardNotices := []
  lampNotices := []
  terminalNotices := []
  alertNotices := []
  tapeA := .powerOn
  tapeB := .powerOn
  boards := Vector.replicate 4 .powerOn
  lamps := Vector.replicate 128 .dark
  lampParams := .default
  terminals := Vector.replicate 32 .powerOn
  termLines := Vector.replicate 4 .powerOn
  alerts := Vector.replicate 32 (Vector.replicate 8 none)
  control := .powerOn
  upstream := .powerOn unitAddress readyAbove
  unitSwitch := unitAddress
  throughSwitch := throughOn
  freeCount := 0
  pending := pending

/-- The machine right after reset: the power-on state of every block. DESIGN CHOICE (log 5): the unit address
switch stands at 0, the through switch is off and the ready line from above is inactive. -/
def State.reset : State := State.powerOn 0 false false []

end Sys2Proof.Machine
end

