-- ==== Sys2Proof/Machine/Ops.lean ====
section
/-! DEFINITION. The small operations every block uses: counters, vectors, field sets, rows and terminals,
and the table of issue records. -/

namespace Sys2Proof.Machine

/-- A counter goes up by one and stops at 65,535 (0.6). -/
def satInc (n : Nat) : Nat := min (n + 1) Config.counterMax

/-- One element of a vector changed. -/
def vupd {α : Type} {n : Nat} (v : Vector α n) (i : Fin n) (f : α → α) : Vector α n :=
  v.set i (f v[i])

/-- A running timer counts one centisecond; at 0 it is due and stays due (log 9). -/
def tickTimer (t : Option Nat) : Option Nat := t.map (· - 1)

/-! ### Field sets -/

/-- Every field, as a full notice names them (R28). -/
def FieldSet.full : FieldSet := ⟨true, true, true, true, true, true, true⟩

/-- The six fields a terminal is sent (R129). -/
def FieldSet.terminal : FieldSet := ⟨true, true, true, true, false, true, true⟩

/-- LAMPS alone. -/
def FieldSet.lampsOnly : FieldSet := { FieldSet.empty with lamps := true }

/-- The fields of either set. -/
def FieldSet.union (x y : FieldSet) : FieldSet where
  symbol := x.symbol || y.symbol
  last := x.last || y.last
  change := x.change || y.change
  volume := x.volume || y.volume
  lamps := x.lamps || y.lamps
  bidask := x.bidask || y.bidask
  state := x.state || y.state

/-- The fields of both sets. -/
def FieldSet.inter (x y : FieldSet) : FieldSet where
  symbol := x.symbol && y.symbol
  last := x.last && y.last
  change := x.change && y.change
  volume := x.volume && y.volume
  lamps := x.lamps && y.lamps
  bidask := x.bidask && y.bidask
  state := x.state && y.state

/-- Whether a set names no field. -/
def FieldSet.isEmpty (x : FieldSet) : Bool := x == FieldSet.empty

/-- A field set as a character: SYMBOL bit 0 to STATE bit 6 (R197). -/
def FieldSet.toByte (x : FieldSet) : Byte :=
  BitVec.ofNat 8 (x.symbol.toNat + 2 * x.last.toNat + 4 * x.change.toNat + 8 * x.volume.toNat
    + 16 * x.lamps.toNat + 32 * x.bidask.toNat + 64 * x.state.toNat)

/-- The field set a character stands for; bit 7 is not read here (R197). -/
def FieldSet.ofByte (b : Byte) : FieldSet where
  symbol := b.getLsbD 0
  last := b.getLsbD 1
  change := b.getLsbD 2
  volume := b.getLsbD 3
  lamps := b.getLsbD 4
  bidask := b.getLsbD 5
  state := b.getLsbD 6

/-! ### Rows and terminals -/

/-- Row line.module (R197). -/
def rowOf (l : LineNo) (m : ModuleNo) : RowNo := ⟨l.val * 32 + m.val, by omega⟩

/-- The board line of a row. -/
def rowLine (r : RowNo) : LineNo := ⟨r.val / 32, by omega⟩

/-- The module of a row on its line. -/
def rowModule (r : RowNo) : ModuleNo := ⟨r.val % 32, by omega⟩

/-- The terminal at a drop of a line (R129). -/
def termOf (l : LineNo) (d : DropNo) : TermNo := ⟨l.val * 8 + d.val, by omega⟩

/-- The line of a terminal. -/
def termLine (t : TermNo) : LineNo := ⟨t.val / 8, by omega⟩

/-- The drop of a terminal on its line. -/
def termDrop (t : TermNo) : DropNo := ⟨t.val % 8, by omega⟩

/-! ### The issue records -/

/-- The record of a number, none when it is FREE (R18). -/
def findRecord : Records → Nat → Option IssueRecord
  | [], _ => none
  | (k, r) :: t, n => if k = n then some r else findRecord t n

/-- The records with the record of a number set, in ascending order of number. -/
def putRecord : Records → Nat → IssueRecord → Records
  | [], n, r => [(n, r)]
  | (k, q) :: t, n, r =>
    if n < k then (n, r) :: (k, q) :: t
    else if n = k then (n, r) :: t
    else (k, q) :: putRecord t n r

/-- The records with a number set FREE. -/
def freeRecord : Records → Nat → Records
  | [], _ => []
  | (k, q) :: t, n => if k = n then freeRecord t n else (k, q) :: freeRecord t n

/-- The records with every record changed. -/
def mapRecords (f : Nat → IssueRecord → IssueRecord) (rs : Records) : Records :=
  rs.map fun p => (p.1, f p.1 p.2)

/-- The number of the LISTED record that holds a symbol (R22). -/
def findSymbol : Records → Text → Option Nat
  | [], _ => none
  | (k, r) :: t, sym => if r.symbol = sym then some k else findSymbol t sym

/-- The form the records keep: numbers strictly rising, each 1 to 1023 (R18). -/
def recordsOk (rs : Records) : Bool :=
  decide ((rs.map Prod.fst).Pairwise (· < ·)) && rs.all fun p => decide (1 ≤ p.1 ∧ p.1 ≤ Config.maxIssue)

/-- The record of a number of the issue range: issue 0, a number over 1023 and a FREE record give none. -/
def listed (s : State) (n : Nat) : Option IssueRecord :=
  if n = 0 ∨ Config.maxIssue < n then none else findRecord s.issues.records n

/-! ### Access to the blocks of the card -/

/-- The channel A or B. -/
def State.tape (s : State) (ch : Channel) : TapeChannel :=
  match ch with
  | .a => s.tapeA
  | .b => s.tapeB

/-- The card with one channel set. -/
def State.setTape (s : State) (ch : Channel) (c : TapeChannel) : State :=
  match ch with
  | .a => { s with tapeA := c }
  | .b => { s with tapeB := c }

/-- The card with one board line set. -/
def State.setBoard (s : State) (l : LineNo) (b : BoardLine) : State :=
  { s with boards := s.boards.set l b }

/-- The card with one terminal set. -/
def State.setTerm (s : State) (t : TermNo) (x : Terminal) : State :=
  { s with terminals := s.terminals.set t x }

/-- The card with one terminal line set. -/
def State.setTermLine (s : State) (l : LineNo) (x : TermLine) : State :=
  { s with termLines := s.termLines.set l x }

/-- The card with one alert slot set. -/
def State.setAlert (s : State) (t : TermNo) (k : SlotNo) (a : AlertSlot) : State :=
  { s with alerts := s.alerts.set t ((s.alerts[t]).set k a) }

/-- The card with one row's lamps set. -/
def State.setLamps (s : State) (r : RowNo) (x : RowLamps) : State :=
  { s with lamps := s.lamps.set r x }

/-- The card with the records replaced. -/
def State.setRecords (s : State) (rs : Records) : State :=
  { s with issues := { s.issues with records := rs } }

/-- The card with the Feed Receiver's counters changed. -/
def State.countFeed (s : State) (f : FeedCounts → FeedCounts) : State :=
  { s with feed := { s.feed with counts := f s.feed.counts } }

/-- The next free value, and how many have now been drawn (log 8). -/
def State.freeAt (s : State) (k : Nat) : Byte := Config.freeByte (s.freeCount + k)

/-- The card after n free values have been drawn. -/
def State.drawFree (s : State) (n : Nat) : State := { s with freeCount := s.freeCount + n }

end Sys2Proof.Machine
end

