-- ==== Sys2Proof/Machine/Operands.lean ====
section
/-! DEFINITION. Reading the operands that stand in a message and writing numbers into characters
(R2, R197, R199, R200). -/

namespace Sys2Proof.Machine

/-- The character at a position; a message read here is long enough to hold it. -/
def byteAt (body : Text) (i : Nat) : Byte := body.getD i 0

/-- The number in w characters from position i, high-order character first (R197). -/
def readNat (body : Text) (i : Nat) : Nat → Nat
  | 0 => 0
  | w + 1 => readNat body i w * 256 + (byteAt body (i + w)).toNat

/-- The signed number in the 4 characters from position i, in two's complement (R197). -/
def readInt32 (body : Text) (i : Nat) : Int := (BitVec.ofNat 32 (readNat body i 4)).toInt

/-- A number in w characters, high-order character first (R197). -/
def writeNat : Nat → Nat → Text
  | 0, _ => []
  | w + 1, n => writeNat w (n / 256) ++ [BitVec.ofNat 8 n]

/-- A signed number in w characters, in two's complement (R197). -/
def writeInt (w : Nat) (i : Int) : Text := writeNat w (i % (256 ^ w : Nat)).toNat

/-- A price, or 0 for an absent one, in 3 characters (R197). -/
def writePrice (p : Option Nat) : Text := writeNat 3 (p.getD 0)

/-- A yes, set, lit, on or present is 1 and its opposite 0 (R197). -/
def flagByte (b : Bool) : Byte := if b then 1 else 0

/-- A feed price in price units, none when it is refused: the whole part W, the numerator N and the code K,
which names the denominator 2 to the power K (R2). -/
def normalise (w n k : Nat) : Option Nat :=
  if 9999 < w ∨ k = 0 ∨ 8 < k ∨ 2 ^ k ≤ n then none
  else
    let p := w * 256 + n * (256 / 2 ^ k)
    if p = 0 then none else some p

/-- The feed price in the 4 characters from position i (R197). -/
def feedPriceAt (body : Text) (i : Nat) : Option Nat :=
  normalise (readNat body i 2) (readNat body (i + 2) 1) (readNat body (i + 3) 1)

/-- A letter A to Z. -/
def isLetter (c : Byte) : Bool := decide (0x41 ≤ c.toNat ∧ c.toNat ≤ 0x5A)

/-- The symbol a field of four characters holds: its letters, followed by padding 20h alone. None when the
field is not a symbol (R197). -/
def symbolOf (field : Text) : Option Text :=
  let letters := field.takeWhile isLetter
  let rest := field.drop letters.length
  if field.length = 4 ∧ letters ≠ [] ∧ rest.all (· == 0x20) then some letters else none

/-- A symbol as a field of four characters, padded with 20h (R197). -/
def symbolField (symbol : Text) : Text := symbol ++ List.replicate (4 - symbol.length) 0x20

/-- The symbol field from position i of a body. -/
def symbolAt (body : Text) (i : Nat) : Option Text := symbolOf ((body.drop i).take 4)

/-- The condition a code stands for, 01h LAST_ABOVE to 08h HALTED (R197, R200). -/
def conditionOf (c : Byte) : Option Condition :=
  match c.toNat with
  | 1 => some .lastAbove
  | 2 => some .lastBelow
  | 3 => some .changeAbove
  | 4 => some .changeBelow
  | 5 => some .uptick
  | 6 => some .atHigh
  | 7 => some .atLow
  | 8 => some .halted
  | _ => none

/-- The code of a condition (R197). -/
def conditionCode : Condition → Byte
  | .lastAbove => 1
  | .lastBelow => 2
  | .changeAbove => 3
  | .changeBelow => 4
  | .uptick => 5
  | .atHigh => 6
  | .atLow => 7
  | .halted => 8

/-- An operand of 00h or 01h, none for any other value (R200). -/
def yesNo (c : Byte) : Option Bool :=
  if c = 0 then some false else if c = 1 then some true else none

/-- The channel a code stands for, 41h A or 42h B (R197). -/
def channelOf (c : Byte) : Option Channel :=
  if c = 0x41 then some .a else if c = 0x42 then some .b else none

/-- The code of a channel (R197). -/
def channelCode : Channel → Byte
  | .a => 0x41
  | .b => 0x42

/-- The issue numbers of n places of 2 characters from position i. -/
def readIssues (body : Text) (i : Nat) : Nat → List Nat
  | 0 => []
  | n + 1 => readNat body i 2 :: readIssues body (i + 2) n

/-- A value brought to the nearest end of its range. -/
def clamp (lo hi n : Nat) : Nat := max lo (min hi n)

/-- A threshold operand, its value clamped to 1,023 (R87). -/
def thresholdAt (body : Text) (i : Nat) : Threshold :=
  ⟨min (readNat body i 2) 1023, readNat body (i + 2) 1⟩

/-- A threshold in cs: its value times 1, 10, 100 or 1,000 (R84, R200). -/
def Threshold.cs (t : Threshold) : Nat := t.value * 10 ^ t.scale

/-- The result codes of replies (R167, R201). -/
inductive Result where
  | done
  | badOperation
  | badTable
  | badOperand
  | noIssue
  | inUse
  | duplicate
  | listFull
  | notPresent
  | rowLimit
deriving DecidableEq, Repr

/-- The code of a result (R201). -/
def resultCode : Result → Byte
  | .done => 0
  | .badOperation => 1
  | .badTable => 2
  | .badOperand => 3
  | .noIssue => 4
  | .inUse => 5
  | .duplicate => 6
  | .listFull => 7
  | .notPresent => 8
  | .rowLimit => 9

end Sys2Proof.Machine
end

