-- ==== Sys2Proof/Machine/Flags.lean ====
section
/-! DEFINITION. The tick test and the codes in which states and flags are read back
(R5, R197, R202, R203). -/

namespace Sys2Proof.Machine

/-- The tick test of a price against a reference (R5). -/
def tickTest (p reference : Nat) (previous : Tick) : Tick :=
  if reference < p then .up
  else if p < reference then .down
  else
    match previous with
    | .up => .zeroUp
    | .zeroUp => .zeroUp
    | .down => .zeroDown
    | .zeroDown => .zeroDown
    | .none => .none

/-- Whether a new tick names LAMPS in the notice of its print (R5, R30). -/
def tickNamesLamps (t : Tick) : Bool := t == .up || t == .down

/-- NONE 0, UP 1, DOWN 2, ZERO_UP 3, ZERO_DOWN 4 (R197). -/
def tickCode : Tick → Byte
  | .none => 0
  | .up => 1
  | .down => 2
  | .zeroUp => 3
  | .zeroDown => 4

/-- STATE as one character: traded bit 0, halted bit 1, the tick in bits 4 to 6 (R203). -/
def stateChar (r : IssueRecord) : Byte :=
  flagByte r.traded ||| (flagByte r.halted <<< 1) ||| (tickCode r.tick <<< 4)

/-- LIVE 0, QUIET 1 (R203). -/
def feedStateCode : FeedState → Byte
  | .live => 0
  | .quiet => 1

/-- OPEN 0, CLOSED 1 (R26, log 17). -/
def sessionCode : SessionState → Byte
  | .opened => 0
  | .closed => 1

/-- UNKNOWN 0, LIVE 1, DARK 2 (R197). -/
def moduleStateCode : ModuleState → Nat
  | .unknown => 0
  | .live => 1
  | .dark => 2

/-- DISABLED 0, UNKNOWN 1, ONLINE 2, OFFLINE 3 (R129, log 17). -/
def terminalStateCode : TerminalState → Nat
  | .disabled => 0
  | .unknown => 1
  | .online => 2
  | .offline => 3

/-- STEADY_NONE 0 to FLASH_DOWN 4 (R118, log 17). -/
def arrowCode : Arrow → Byte
  | .steadyNone => 0
  | .steadyUp => 1
  | .steadyDown => 2
  | .flashUp _ => 3
  | .flashDown _ => 4

/-- ON 1, OFF 0: an on is 1 and its opposite 0 (R197). -/
def phaseCode : Phase → Byte
  | .on => 1
  | .off => 0

/-- none 0, QUIET 1, QUIET-clear 2 (R94, log 17). -/
def broadcastCode : Option FeedState → Byte
  | none => 0
  | some .quiet => 1
  | some .live => 2

/-- The first character of a board module record: state in bits 0 and 1, blanking owed bit 2, back-off bit 3,
the consecutive timeout count in bits 4 and 5 (R202). -/
def moduleFlags (m : BoardModule) : Byte :=
  BitVec.ofNat 8 (moduleStateCode m.state + 4 * m.blanking.toNat + 8 * m.backOff.isSome.toNat
    + 16 * (m.timeouts % 4))

/-- What a row's lamps show: bit 0 the up arrow, bit 1 the down arrow, bit 2 the halt lamp (R118, R203). -/
def lampChar (x : RowLamps) : Byte :=
  let arrows : Byte :=
    match x.arrow with
    | .steadyNone => 0
    | .steadyUp => 1
    | .steadyDown => 2
    | .flashUp f => if f.phase = .on then 1 else 0
    | .flashDown f => if f.phase = .on then 2 else 0
  arrows ||| (flagByte x.halt <<< 2)

/-- Bit t of a watcher mask set (R24). -/
def markWatcher (mask : BitVec 32) (t : TermNo) : BitVec 32 := mask ||| (1#32 <<< t.val)

/-- Bit t of a watcher mask cleared (R24). -/
def clearWatcher (mask : BitVec 32) (t : TermNo) : BitVec 32 := mask &&& ~~~(1#32 <<< t.val)

end Sys2Proof.Machine
end

