-- ==== Sys2Proof/Machine/Render.lean ====
section
/-! DEFINITION. Prices, changes and volumes as text (R6, R7, R8, R12), and the text fields of messages
(R197). -/

namespace Sys2Proof.Machine

/-- The decimal digits of a number, written before a text; the fuel bounds their count. -/
def digitsOnto : Nat → Nat → Text → Text
  | 0, _, acc => acc
  | fuel + 1, n, acc =>
    let acc := BitVec.ofNat 8 (0x30 + n % 10) :: acc
    if n / 10 = 0 then acc else digitsOnto fuel (n / 10) acc

/-- A number in decimal digits, with no leading zeros and at least the digit 0 (R6, R12). -/
def decimal (n : Nat) : Text := digitsOnto (n + 1) n []

/-- Halving of numerator and denominator while the numerator is even and over 0 (step 4 of R6). -/
def reduceFraction : Nat → Nat → Nat → Nat × Nat
  | 0, n, d => (n, d)
  | fuel + 1, n, d => if n % 2 = 0 ∧ 0 < n then reduceFraction fuel (n / 2) (d / 2) else (n, d)

/-- The reduced fraction of a count of price units over a display denominator (steps 1 to 4 of R6). -/
def fractionOf (d v : Nat) : Nat × Nat :=
  let n := (v % 256) / (256 / d)
  reduceFraction n n d

/-- A fraction n/d as text. -/
def fractionText (nd : Nat × Nat) : Text := decimal nd.1 ++ 0x2F :: decimal nd.2

/-- The whole digits, then one space and the fraction when the numerator is over 0 (step 5 of R6). -/
def withFraction (whole : Text) (nd : Nat × Nat) : Text :=
  if nd.1 = 0 then whole else whole ++ 0x20 :: fractionText nd

/-- A price in full (R6). -/
def priceText (d v : Nat) : Text := withFraction (decimal (v / 256)) (fractionOf d v)

/-- A price with digit dropping (R8). -/
def droppedText (d v : Nat) : Text := withFraction (decimal (v / 256 % 10)) (fractionOf d v)

/-- A net change as text (R7). -/
def changeText (d : Nat) (c : Int) : Text :=
  let m := c.natAbs
  let whole := m / 256
  let nd := fractionOf d m
  let sign : Byte := if c < 0 then 0x2D else 0x2B
  if whole = 0 then
    if nd.1 = 0 then [0x30] else sign :: fractionText nd
  else sign :: withFraction (decimal whole) nd

/-- The lot count of a number of shares (R12). -/
def lots (shares : Nat) : Nat := shares / 100

/-- A volume as its lot count (R12). -/
def volumeText (shares : Nat) : Text := decimal (lots shares)

/-- A text field: a length character and the text (R197). -/
def textField (t : Text) : Text := BitVec.ofNat 8 t.length :: t

/-- A price that may be absent, as a text field; a length of 0 stands for an absent value (R197). -/
def priceField (d : Nat) (p : Option Nat) : Text :=
  match p with
  | none => textField []
  | some v => textField (priceText d v)

end Sys2Proof.Machine
end

