-- ==== Sys2Proof/Machine/Framing.lean ====
section
/-! DEFINITION. Frames on Feed In, Feed Through, Upstream In and Upstream Out: the cyclic check, the frame
assembler and the characters of a frame (R41 to R45, R198). -/

namespace Sys2Proof.Machine

/-- The sync character. -/
def syncChar : Byte := 0x96

/-- The fill character. -/
def fillChar : Byte := 0x00

/-- One bit entering the check register (R45). -/
def crcBit (reg : BitVec 16) (b : Bool) : BitVec 16 :=
  let shifted := reg >>> 1
  if b ^^ reg.getLsbD 0 then shifted ^^^ 0xA001#16 else shifted

/-- One character entering the register, least significant bit first (R45). -/
def crcChar (reg : BitVec 16) (c : Byte) : BitVec 16 :=
  (List.range 8).foldl (fun r i => crcBit r (c.getLsbD i)) reg

/-- The register after a run of characters, from 0 (R45). -/
def crcOf (cs : Text) : BitVec 16 := cs.foldl crcChar 0

/-- The register after the length character and the body (R45). -/
def frameCheck (body : Text) : BitVec 16 := crcOf (BitVec.ofNat 8 body.length :: body)

/-- The frame of a body, with the check the card forms (R45, R192). -/
def frameOf (body : Text) : Frame where
  body := body
  checkHigh := (frameCheck body).extractLsb' 8 8
  checkLow := (frameCheck body).extractLsb' 0 8

/-- Whether a frame's check characters equal the register (R45). -/
def frameGood (f : Frame) : Bool := f == frameOf f.body

/-- Characters inside a frame, with a fill character after each of value 96h (R41). -/
def stuff : Text → Text
  | [] => []
  | c :: cs => if c = syncChar then syncChar :: fillChar :: stuff cs else c :: stuff cs

/-- The characters of a frame on a line: two sync characters, then the length, body and check with their
fill characters (R41, R61, R192). -/
def wireChars (f : Frame) : Text :=
  syncChar :: syncChar :: stuff (BitVec.ofNat 8 f.body.length :: (f.body ++ [f.checkHigh, f.checkLow]))

/-- What a character brings about besides the assembler's move (R42 to R45). -/
inductive Assembled where
  | nothing
  /-- A length error, a sync pair or broken sync inside a frame, or a failed check. -/
  | failure
  | frame (f : Frame)
deriving DecidableEq, Repr

/-- A character taken as a body character (R42). -/
def takeBody (length : Nat) (got : Text) (c : Byte) : Assembler × Assembled :=
  let got := got ++ [c]
  if got.length < length then (.body length got false, .nothing) else (.check got none false, .nothing)

/-- A character taken as a check character; after the second the frame is tested (R42, R45). -/
def takeCheck (got : Text) (high : Option Byte) (c : Byte) : Assembler × Assembled :=
  match high with
  | none => (.check got (some c) false, .nothing)
  | some h =>
    let f : Frame := ⟨got, h, c⟩
    (.hunt, if frameGood f then .frame f else .failure)

/-- One character at the frame assembler (R42, R43, R44). -/
def assemble (a : Assembler) (c : Byte) : Assembler × Assembled :=
  match a with
  | .hunt => (if c = syncChar then .firstSync else .hunt, .nothing)
  | .firstSync => (if c = syncChar then .synced else .hunt, .nothing)
  | .synced =>
      if c = syncChar then (.synced, .nothing)
      else if 2 ≤ c.toNat ∧ c.toNat ≤ 60 then (.body c.toNat [] false, .nothing)
      else (.hunt, .failure)
  | .body length got false =>
      if c = syncChar then (.body length got true, .nothing) else takeBody length got c
  | .body length got true =>
      if c = syncChar then (.synced, .failure)
      else if c = fillChar then takeBody length got syncChar
      else (.hunt, .failure)
  | .check got high false =>
      if c = syncChar then (.check got high true, .nothing) else takeCheck got high c
  | .check got high true =>
      if c = syncChar then (.synced, .failure)
      else if c = fillChar then takeCheck got high syncChar
      else (.hunt, .failure)

/-- A run of characters at the assembler: where it ends and what it brings about, in order. -/
def assembleAll (a : Assembler) : Text → Assembler × List Assembled
  | [] => (a, [])
  | c :: cs =>
    let (b, out) := assemble a c
    let (e, outs) := assembleAll b cs
    (e, out :: outs)

end Sys2Proof.Machine
end

