-- ==== Sys2Proof/Machine/Upstream.lean ====
section
/-! DEFINITION. The Upstream Port: the reply queue, the pass-through buffer and the arbiter
(chapter 10), and the port's own steps. -/

namespace Sys2Proof.Machine

/-- Places of the reply queue that are taken, by frames and claims (R189). -/
def UpstreamPort.occupied (u : UpstreamPort) : Nat := u.replies.length + u.claims

/-- The ready line toward the downstream card (R191). -/
def UpstreamPort.readyBelow (u : UpstreamPort) : Bool :=
  !u.hold && decide (u.buffer.length < Config.passPlaces)

/-- Whether a frame of this card is a RESTARTED notice (R201). -/
def isRestarted (body : Text) : Bool := byteAt body 0 == 0x42 && byteAt body 2 == 0x01

/-- The head of the reply queue is begun; a RESTARTED notice clears the start-up hold (R193, R194). -/
def UpstreamPort.beginOwn (u : UpstreamPort) (body : Text) (rest : List Text) : UpstreamPort :=
  { u with
    replies := rest
    transmitting := some (.own, frameOf body)
    lastServed := .own
    hold := u.hold && !isRestarted body }

/-- The head of the pass-through buffer is begun, with the check it arrived with (R192, R193). -/
def UpstreamPort.beginPassed (u : UpstreamPort) (f : Frame) (rest : List Frame) : UpstreamPort :=
  { u with
    buffer := rest
    transmitting := some (.passed, f)
    lastServed := .passed }

/-- The arbiter's choice, when Upstream Out is free and the ready line from above is active (R193). -/
def UpstreamPort.arbitrate (u : UpstreamPort) : UpstreamPort :=
  if u.transmitting.isSome || !u.readyAbove then u
  else
    match u.replies, u.buffer with
    | [], [] => u
    | r :: rs, [] => u.beginOwn r rs
    | [], f :: fs => u.beginPassed f fs
    | r :: rs, f :: fs => if u.lastServed = .passed then u.beginOwn r rs else u.beginPassed f fs

/-- A notice offered to the reply queue: it joins, or is lost and counted (R189). -/
def UpstreamPort.offer (u : UpstreamPort) (body : Text) : UpstreamPort :=
  if u.occupied < Config.replyPlaces then { u with replies := u.replies ++ [body] }.arbitrate
  else { u with lost := satInc u.lost }

/-- A reply joins at the tail and gives its claim up in the same step (R189). -/
def UpstreamPort.fill (u : UpstreamPort) (body : Text) : UpstreamPort :=
  { u with replies := u.replies ++ [body], claims := u.claims - 1 }.arbitrate

/-- The body of a notice: 42h, the unit address, the kind and its fields (R201). -/
def noticeBody (unitAddress kind : Byte) (fields : Text) : Text := 0x42 :: unitAddress :: kind :: fields

/-- A notice raised by a block of this card (R188, R189). -/
def State.raise (s : State) (kind : Byte) (fields : Text) : State :=
  { s with upstream := s.upstream.offer (noticeBody s.unitSwitch kind fields) }

/-- Notices raised one after another. -/
def State.raiseAll (s : State) : List (Byte × Text) → State
  | [] => s
  | n :: ns => (s.raise n.1 n.2).raiseAll ns

/-- The port's part of a RESTART; `replies` are the frames that join the emptied queue (R194). DESIGN CHOICE: the
line is free at once after the cut, so the first of them is begun in the same step (log 38). -/
def UpstreamPort.restart (u : UpstreamPort) (replies : List Text) : UpstreamPort :=
  { u with
    replies := replies
    claims := 0
    buffer := []
    transmitting := none
    lastServed := .own
    assembler := .hunt
    hold := true
    lost := 0 }.arbitrate

/-- UPSTREAM_IN_CHARACTER: the assembler takes the character; a checked frame joins the pass-through buffer,
and a failed one is discarded uncounted (R190). A checked frame that finds 2 frames held is the fault of
log 7. DESIGN CHOICE: one that comes while the start-up hold is set, which R194 says cannot arrive, joins like any
other (log 39). -/
def execUpstreamInCharacter (c : Byte) (s : State) : Host.Outcome State Fault Refusal :=
  let u := s.upstream
  let (a, out) := assemble u.assembler c
  let u := { u with assembler := a }
  match out with
  | .frame f =>
      if u.buffer.length < Config.passPlaces then
        .next { s with upstream := { u with buffer := u.buffer ++ [f] }.arbitrate }
      else .fault .upstreamOverrun
  | .failure => .next { s with upstream := u }
  | .nothing => .next { s with upstream := u }

/-- UPSTREAM_FRAME_END: the line is free and the arbiter chooses (R193). -/
def execUpstreamFrameEnd (s : State) : Host.Outcome State Fault Refusal :=
  match s.upstream.transmitting with
  | none => .next s
  | some _ => .next { s with upstream := { s.upstream with transmitting := none }.arbitrate }

/-- READY_LINE_CHANGE: the level of the ready line from above; a frame begun is sent to its end whatever the
line does (R192, R193). -/
def execReadyLineChange (active : Bool) (s : State) : Host.Outcome State Fault Refusal :=
  .next { s with upstream := { s.upstream with readyAbove := active }.arbitrate }

end Sys2Proof.Machine
end

