-- ==== Sys2Proof/Machine/Boards.lean ====
section
/-! DEFINITION. The Board Line Controllers (chapter 5): dirty sets and marks, transfers, module states, the
choice of the next transfer and the sweep, and the controllers' own steps. -/

namespace Sys2Proof.Machine

/-! ### Dirty sets and marks -/

/-- The fields a module's row shows; a blank row shows none (R94). -/
def BoardModule.shown (m : BoardModule) : FieldSet :=
  match m.mapping with
  | none => .empty
  | some p => p.mask

/-- A module waits while its dirty set is not empty or it owes a blanking (R98). -/
def BoardModule.waits (m : BoardModule) : Bool := !m.dirty.isEmpty || m.blanking

/-- How many modules of a line hold a mark. -/
def BoardLine.marksHeld (b : BoardLine) : Nat :=
  ((List.finRange 32).filter fun i => (b.modules[i]).mark.isSome).length

/-- How many modules of a line hold a lower mark than n. -/
def BoardLine.marksBelow (b : BoardLine) (n : Nat) : Nat :=
  ((List.finRange 32).filter fun i => (b.modules[i]).mark.any (· < n)).length

/-- The marks renumbered 0, 1, 2 and on in their old order, and the register set to their number (R98). -/
def BoardLine.renumber (b : BoardLine) : BoardLine :=
  { b with
    modules := b.modules.map fun m => { m with mark := m.mark.map b.marksBelow }
    markReg := b.marksHeld }

/-- A mark taken by a module that begins to wait; the line first renumbers when the register stands at
65,535 (R98). -/
def BoardLine.takeMark (b : BoardLine) (i : ModuleNo) : BoardLine :=
  let c := if b.markReg = Config.markMax then b.renumber else b
  { c with
    modules := vupd c.modules i fun m => { m with mark := some c.markReg }
    markReg := c.markReg + 1 }

/-- The mark of a module brought into line with its waiting: taken when it begins to wait, kept while it
waits, given up when it stops (R98). -/
def BoardLine.settleMark (b : BoardLine) (i : ModuleNo) : BoardLine :=
  let m := b.modules[i]
  if m.waits then
    if m.mark.isNone then b.takeMark i else b
  else { b with modules := vupd b.modules i fun m => { m with mark := none } }

/-- A module changed, with its mark settled. -/
def BoardLine.change (b : BoardLine) (i : ModuleNo) (f : BoardModule → BoardModule) : BoardLine :=
  { b with modules := vupd b.modules i f }.settleMark i

/-- Fields marked dirty: those the row shows join the set, unless the module is DARK. Where the row shows
none of them there is no effect (R99, R100). -/
def BoardLine.markFields (b : BoardLine) (i : ModuleNo) (fs : FieldSet) : BoardLine :=
  if (b.modules[i]).state = .dark ∨ (fs.inter (b.modules[i]).shown).isEmpty = true then b
  else b.change i fun m => { m with dirty := m.dirty.union (fs.inter m.shown) }

/-! ### Transfers -/

/-- The field blocks of an update or refresh, in the order SYMBOL, LAST, CHANGE, VOLUME, LAMPS
(R101, R102, R203). -/
def fieldBlocks (r : IssueRecord) (lamps : RowLamps) (fs : FieldSet) : Text :=
  (if fs.symbol then 0x01 :: textField r.symbol else [])
  ++ (if fs.last then 0x02 :: textField (priceText r.denom r.last) else [])
  ++ (if fs.change then 0x03 :: textField (changeText r.denom r.netChange) else [])
  ++ (if fs.volume then 0x04 :: textField (volumeText r.volume) else [])
  ++ (if fs.lamps then 0x05 :: textField [lampChar lamps] else [])

/-- The field blocks of an issue's row. A row names a LISTED issue (R39); for a FREE one there is no text
(log 29). -/
def rowBlocks (records : Records) (lamps : RowLamps) (issue : Nat) (fs : FieldSet) : Text :=
  match findRecord records issue with
  | none => []
  | some r => fieldBlocks r lamps fs

/-- The characters of a transfer: the address character with its ninth bit set, the data, and the sum of the
data (R101, R203). -/
def transferChars (address : Nat) (data : Text) : List BoardChar :=
  BitVec.ofNat 9 (256 + address)
    :: ((data ++ [data.foldl (· + ·) 0]).map fun c : Byte => c.setWidth 9)

/-- The address of a broadcast (R101). -/
def broadcastAddress : Nat := 63

/-- The indication block of a broadcast: 0Fh, then 01h for QUIET or 00h for QUIET-clear (R203). -/
def indicationBlock (f : FeedState) : Text := [0x0F, feedStateCode f]

/-- The module a transfer is addressed to; none for a broadcast (R101). -/
def TransferBody.module? : TransferBody → Option ModuleNo
  | .update m _ _ => some m
  | .refresh m _ _ => some m
  | .blanking m => some m
  | .broadcast _ => none

/-- A broadcast started; the pending broadcast becomes none (R110, R114). -/
def BoardLine.startBroadcast (b : BoardLine) (f : FeedState) : BoardLine :=
  { b with
    broadcast := none
    inFlight := some ⟨.broadcast f, transferChars broadcastAddress (indicationBlock f), none⟩ }

/-- An update or refresh started: the sent fields leave the dirty set (R102). -/
def BoardLine.startFields (b : BoardLine) (records : Records) (lamps : RowLamps) (i : ModuleNo)
    (body : TransferBody) (issue : Nat) (fs : FieldSet) : BoardLine :=
  { b with inFlight := some ⟨body, transferChars i.val (rowBlocks records lamps issue fs), none⟩ }.change i
    fun m => { m with dirty := .empty }

/-- A blanking started: it is no longer owed (R113). -/
def BoardLine.startBlanking (b : BoardLine) (i : ModuleNo) : BoardLine :=
  { b with inFlight := some ⟨.blanking i, transferChars i.val [0x0E], none⟩ }.change i
    fun m => { m with blanking := false }

/-! ### Choosing the next transfer -/

/-- Whether step 2 of R110 may choose a module. -/
def BoardModule.eligible (m : BoardModule) : Bool := m.waits && m.backOff.isNone

/-- The class a waiting module is ranked at; a blanking is ranked as class 3 (R110). -/
def BoardModule.rank (m : BoardModule) : Nat :=
  if m.blanking then 3
  else
    match m.mapping with
    | none => 3
    | some p => p.priority

/-- Whether a module goes before another: a higher class, or the same class and a lower mark (R110). -/
def BoardModule.outranks (x y : BoardModule) : Bool :=
  decide (y.rank < x.rank) || (decide (x.rank = y.rank) && decide (x.mark.getD 0 < y.mark.getD 0))

/-- The waiting module that step 2 of R110 chooses. -/
def BoardLine.bestWaiting (b : BoardLine) : Option ModuleNo :=
  (List.finRange 32).foldl (fun best i =>
    if (b.modules[i]).eligible then
      match best with
      | none => some i
      | some j => if (b.modules[i]).outranks b.modules[j] then some i else some j
    else best) none

/-- The module k places after the sweep pointer, in module order (R111). -/
def BoardLine.sweepPlace (b : BoardLine) (k : Nat) : ModuleNo :=
  ⟨(b.sweep.val + 1 + k) % 32, Nat.mod_lt _ (by decide)⟩

/-- The module the sweep finds: the first after the pointer that is not blank and not in hold back-off
(R111). -/
def BoardLine.sweepNext (b : BoardLine) : Option ModuleNo :=
  ((List.range 32).map b.sweepPlace).find? fun i =>
    (b.modules[i]).mapping.isSome && (b.modules[i]).backOff.isNone

/-- The transfer chosen for a waiting module (step 2 of R110). -/
def BoardLine.serve (b : BoardLine) (records : Records) (lampsOf : ModuleNo → RowLamps) (i : ModuleNo) :
    BoardLine :=
  let fs := (b.modules[i]).dirty
  match (b.modules[i]).mapping, fs.isEmpty with
  | some p, false => b.startFields records (lampsOf i) i (.update i p.issue fs) p.issue fs
  | _, _ => b.startBlanking i

/-- The refresh of a row by the sweep (R111). -/
def BoardLine.refresh (b : BoardLine) (records : Records) (lampsOf : ModuleNo → RowLamps) (i : ModuleNo) :
    BoardLine :=
  match (b.modules[i]).mapping with
  | none => b
  | some p =>
    { b with sweep := i }.startFields records (lampsOf i) i (.refresh i p.issue p.mask) p.issue p.mask

/-- The choice of an idle line: a pending broadcast, a waiting module, the sweep, or nothing (R110). A line
with a transfer in flight does not choose. -/
def BoardLine.choose (b : BoardLine) (records : Records) (lampsOf : ModuleNo → RowLamps) : BoardLine :=
  if b.inFlight.isSome then b
  else
    match b.broadcast with
    | some f => b.startBroadcast f
    | none =>
      match b.bestWaiting with
      | some i => b.serve records lampsOf i
      | none =>
        match b.sweepNext with
        | some i => b.refresh records lampsOf i
        | none => b

/-- The choice of one line of the card, with its records and lamps as they stand. -/
def State.chooseBoard (s : State) (l : LineNo) : State :=
  s.setBoard l (s.boards[l].choose s.issues.records fun m => s.lamps[rowOf l m])

/-- The choice of every line that is idle (R110). -/
def State.chooseBoards (s : State) : State := (List.finRange 4).foldl State.chooseBoard s

/-! ### The end of a transfer -/

/-- What a transfer sent, put back for the mapping the row now has (R107). -/
def BoardModule.restored (m : BoardModule) (body : TransferBody) : BoardModule :=
  match body, m.mapping with
  | .update _ issue fs, some p =>
      if p.issue = issue then { m with dirty := m.dirty.union (fs.inter p.mask) } else m
  | .refresh _ issue fs, some p =>
      if p.issue = issue then { m with dirty := m.dirty.union (fs.inter p.mask) } else m
  | .blanking _, none => { m with blanking := true }
  | _, _ => m

/-- A module that has answered: its count is 0 and it is LIVE; one that was DARK and whose row is now blank
owes a blanking (R104, R105, R109). -/
def BoardModule.answered (m : BoardModule) : BoardModule :=
  { m with
    state := .live
    timeouts := 0
    blanking := m.blanking || (decide (m.state = .dark) && m.mapping.isNone) }

/-- The fields of a MODULE_DARK or MODULE_BACK notice: line, module, and the issue the row names or 0
(R108, R201). -/
def moduleNotice (l : LineNo) (i : ModuleNo) (m : BoardModule) : Text :=
  BitVec.ofNat 8 l.val :: BitVec.ofNat 8 i.val :: writeNat 2 ((m.mapping.map Mapping.issue).getD 0)

/-- The MODULE_BACK notice of an answer, when the module was DARK (R108). -/
def backNotice (l : LineNo) (i : ModuleNo) (m : BoardModule) : List (Byte × Text) :=
  if m.state = .dark then [(0x07, moduleNotice l i m)] else []

/-- The module a line awaits an answer from, with the transfer (R103). -/
def BoardLine.awaiting (b : BoardLine) : Option (ModuleNo × Transfer) :=
  match b.inFlight with
  | none => none
  | some t =>
    match t.wait, t.body.module? with
    | some _, some i => some (i, t)
    | _, _ => none

/-- A line whose transfer has ended, its module changed. -/
def BoardLine.ended (b : BoardLine) (i : ModuleNo) (f : BoardModule → BoardModule) : BoardLine :=
  { b with inFlight := none }.change i f

/-- A module that has missed an answer (R106, R109). -/
def BoardModule.missed (m : BoardModule) (body : TransferBody) : BoardModule :=
  if m.state = .dark then m
  else if m.timeouts + 1 < Config.missLimit then
    { m with timeouts := m.timeouts + 1 }.restored body
  else
    { m with
      timeouts := Config.missLimit
      state := .dark
      dirty := .empty
      blanking := false }

/-- The MODULE_DARK notice of a third missed answer (R106, R108). -/
def darkNotice (l : LineNo) (i : ModuleNo) (m : BoardModule) : List (Byte × Text) :=
  if m.state ≠ .dark ∧ Config.missLimit ≤ m.timeouts + 1 then [(0x06, moduleNotice l i m)] else []

/-- ACCEPT taken by a line that awaits it (R104). -/
def acceptAt (l : LineNo) (i : ModuleNo) (s : State) : State :=
  let m := (s.boards[l]).modules[i]
  ((s.setBoard l (s.boards[l].ended i BoardModule.answered)).raiseAll (backNotice l i m)).chooseBoard l

/-- ACCEPT (R104). A character that comes while the line awaits no answer is discarded (R103). -/
def execAccept (l : LineNo) (s : State) : Host.Outcome State Fault Refusal :=
  match s.boards[l].awaiting with
  | none => .next s
  | some (i, _) => .next (acceptAt l i s)

/-- HOLD taken by a line that awaits it (R105). -/
def holdAt (l : LineNo) (i : ModuleNo) (t : Transfer) (s : State) : State :=
  let m := (s.boards[l]).modules[i]
  let b := s.boards[l].ended i fun m => { m.answered.restored t.body with backOff := some Config.backOff }
  ((s.setBoard l { b with holds := satInc b.holds }).raiseAll (backNotice l i m)).chooseBoard l

/-- HOLD (R105). -/
def execHold (l : LineNo) (s : State) : Host.Outcome State Fault Refusal :=
  match s.boards[l].awaiting with
  | none => .next s
  | some (i, t) => .next (holdAt l i t s)

/-- A transfer ended with no answer (R106). -/
def missAt (l : LineNo) (i : ModuleNo) (t : Transfer) (s : State) : State :=
  let m := (s.boards[l]).modules[i]
  let b := s.boards[l].ended i fun m => m.missed t.body
  ((s.setBoard l { b with timeouts := satInc b.timeouts }).raiseAll (darkNotice l i m)).chooseBoard l

/-- BOARD_ANSWER_WAIT_EXPIRY, due when the wait has run out (R103, R106). -/
def execBoardAnswerWaitExpiry (l : LineNo) (s : State) : Host.Outcome State Fault Refusal :=
  match s.boards[l].awaiting with
  | none => .next s
  | some (i, t) => if t.wait = some 0 then .next (missAt l i t s) else .next s

/-- TRANSFER_SENT: the sum character has gone and the answer wait starts (R103). -/
def execTransferSent (l : LineNo) (s : State) : Host.Outcome State Fault Refusal :=
  match s.boards[l].inFlight with
  | none => .next s
  | some t =>
    match t.wait, t.body.module? with
    | none, some _ =>
        .next (s.setBoard l { s.boards[l] with inFlight := some { t with wait := some Config.boardWait } })
    | _, _ => .next s

/-- BROADCAST_SENT: the line is free and chooses (R114). -/
def execBroadcastSent (l : LineNo) (s : State) : Host.Outcome State Fault Refusal :=
  match s.boards[l].inFlight with
  | none => .next s
  | some t =>
    match t.body.module? with
    | none => .next ((s.setBoard l { s.boards[l] with inFlight := none }).chooseBoard l)
    | some _ => .next s

/-- HOLD_BACK_OFF_EXPIRY, due when the back-off has run out; an idle line chooses (R112). -/
def execHoldBackOffExpiry (l : LineNo) (i : ModuleNo) (s : State) : Host.Outcome State Fault Refusal :=
  if ((s.boards[l]).modules[i]).backOff = some 0 then
    .next ((s.setBoard l { s.boards[l] with
      modules := vupd s.boards[l].modules i fun m => { m with backOff := none } }).chooseBoard l)
  else .next s

/-- BOARD_OTHER_CHARACTER: discarded without count, and a running wait runs on (R103). -/
def execBoardOtherCharacter (_l : LineNo) (_c : Byte) (s : State) : Host.Outcome State Fault Refusal := .next s

/-! ### Notices and broadcasts -/

/-- Fields of one row marked (R99). -/
def State.markRow (s : State) (fs : FieldSet) (r : RowNo) : State :=
  s.setBoard (rowLine r) (s.boards[rowLine r].markFields (rowModule r) fs)

/-- Fields of several rows marked, in order (R99). -/
def State.markRows (s : State) (fs : FieldSet) : List RowNo → State
  | [] => s
  | r :: rs => (s.markRow fs r).markRows fs rs

/-- BOARD_CHANGE_NOTICE: the rows of the notice are marked in row-list order, and idle lines choose
(R99, R110). -/
def execBoardChangeNotice (s : State) : Host.Outcome State Fault Refusal :=
  match s.boardNotices with
  | [] => .next s
  | n :: rest =>
    .next (({ s with boardNotices := rest }.markRows n.fields n.rows).chooseBoards)

/-- The new feed state made each line's pending broadcast, and idle lines choose (R114). -/
def State.tellBoards (s : State) (f : FeedState) : State :=
  State.chooseBoards { s with boards := s.boards.map fun b : BoardLine => { b with broadcast := some f } }

/-- A module at RESTART, before marks are taken (R117). -/
def BoardModule.restart (m : BoardModule) : BoardModule :=
  { m with
    state := .unknown
    dirty := m.shown
    blanking := m.mapping.isNone && (m.blanking || decide (m.state = .dark))
    mark := none
    timeouts := 0
    backOff := none }

/-- A line's part of RESTART, before it chooses (R117). DESIGN CHOICE: a transfer whose characters are being sent is
cut in the RESTART's own step; the end of the character being sent is no event of its own (log 40). -/
def BoardLine.restart (b : BoardLine) (f : FeedState) : BoardLine :=
  let c : BoardLine :=
    { modules := b.modules.map BoardModule.restart
      markReg := 0
      sweep := 31
      inFlight := none
      broadcast := some f
      holds := 0
      timeouts := 0 }
  (List.finRange 32).foldl BoardLine.settleMark c

end Sys2Proof.Machine
end

