-- ==== Sys2Proof/Machine/Lamps.lean ====
section
/-! DEFINITION. The Lamp Generators (chapter 6): ticks, phases, the halt lamp, re-mapping and the open, and
the generators' own steps. -/

namespace Sys2Proof.Machine

/-- The arrow state with its phase, which a marking watches; remaining and timer are not among it (R119). -/
def Arrow.face : Arrow → Arrow
  | .flashUp f => .flashUp { f with remaining := 0, timer := 0 }
  | .flashDown f => .flashDown { f with remaining := 0, timer := 0 }
  | a => a

/-- Whether a change of a row's lamps marks LAMPS: its arrow state, phase or halt lamp changes (R119). -/
def lampsMark (x y : RowLamps) : Bool := x.arrow.face != y.arrow.face || x.halt != y.halt

/-- A row's lamps changed, with the marking that follows (R100, R119). -/
def State.moveLamps (s : State) (r : RowNo) (y : RowLamps) : State :=
  let t := s.setLamps r y
  if lampsMark s.lamps[r] y then t.markRow .lampsOnly r else t

/-- A fresh flash: phase ON, the full count, the on time (R120). -/
def LampParams.freshFlash (p : LampParams) : Flash := ⟨.on, p.flashCount, p.onTime⟩

/-- An arrow at an UP tick notice (R120). -/
def Arrow.tickUp (p : LampParams) (a : Arrow) : Arrow :=
  match a with
  | .flashUp f => .flashUp f
  | _ => .flashUp p.freshFlash

/-- An arrow at a DOWN tick notice (R120). -/
def Arrow.tickDown (p : LampParams) (a : Arrow) : Arrow :=
  match a with
  | .flashDown f => .flashDown f
  | _ => .flashDown p.freshFlash

/-- Whether a notice is a tick notice: it names LAST and LAMPS, carries UP or DOWN, and is not full (R120). -/
def ChangeNotice.isTick (n : ChangeNotice) : Bool :=
  n.fields.last && n.fields.lamps && tickNamesLamps n.tick && n.fields != .full

/-- A row's lamps after a notice: a full notice resets the arrow (R127), a tick notice flashes it (R120), and
every notice sets the halt lamp (R123). -/
def RowLamps.noticed (x : RowLamps) (p : LampParams) (n : ChangeNotice) : RowLamps where
  arrow :=
    if n.fields = .full then .steadyNone
    else if n.isTick then
      if n.tick = .up then x.arrow.tickUp p else x.arrow.tickDown p
    else x.arrow
  halt := n.halted

/-- The issue a row shows. -/
def State.rowIssue (s : State) (r : RowNo) : Option Nat :=
  ((s.boards[rowLine r]).modules[rowModule r]).mapping.map Mapping.issue

/-- A notice at one row. A row that no longer shows the notice's issue is left alone, so that its halt lamp
follows the issue it shows and a blank row stays dark (R118, R123, R126; log 4). -/
def State.noticeRow (s : State) (n : ChangeNotice) (r : RowNo) : State :=
  if s.rowIssue r = some n.issue then s.moveLamps r ((s.lamps[r]).noticed s.lampParams n) else s

/-- A notice at the rows of its list. DESIGN CHOICE: the rows hand over their LAMPS markings, and so their modules
take marks, in the order of the row list; R120, R123 and R122 give none (log 41). -/
def State.noticeRows (s : State) (n : ChangeNotice) : List RowNo → State
  | [] => s
  | r :: rs => (s.noticeRow n r).noticeRows n rs

/-- LAMP_CHANGE_NOTICE (R120, R123, R127). -/
def execLampChangeNotice (s : State) : Host.Outcome State Fault Refusal :=
  match s.lampNotices with
  | [] => .next s
  | n :: rest => .next ({ s with lampNotices := rest }.noticeRows n n.rows).chooseBoards

/-- A flash at the expiry of its phase timer; none when it ends on its steady arrow (R121). -/
def Flash.expire (p : LampParams) (f : Flash) : Option Flash :=
  match f.phase with
  | .on => some { f with phase := .off, timer := p.offTime }
  | .off => if 2 ≤ f.remaining then some ⟨.on, f.remaining - 1, p.onTime⟩ else none

/-- An arrow at the expiry of its phase timer (R121). -/
def Arrow.expire (p : LampParams) (a : Arrow) : Arrow :=
  match a with
  | .flashUp f =>
    match f.expire p with
    | some g => .flashUp g
    | none => .steadyUp
  | .flashDown f =>
    match f.expire p with
    | some g => .flashDown g
    | none => .steadyDown
  | a => a

/-- The time left of an arrow's phase timer; none while it is stopped. -/
def Arrow.timer : Arrow → Option Nat
  | .flashUp f => some f.timer
  | .flashDown f => some f.timer
  | _ => none

/-- PHASE_TIMER_EXPIRY, due when the phase timer has run out (R121). -/
def execPhaseTimerExpiry (r : RowNo) (s : State) : Host.Outcome State Fault Refusal :=
  let x := s.lamps[r]
  if x.arrow.timer = some 0 then
    .next ((s.moveLamps r { x with arrow := x.arrow.expire s.lampParams }).chooseBoards)
  else .next s

/-- The lamps of a row that is given an issue, or set blank (R126). -/
def RowLamps.remapped (halted : Bool) : RowLamps := ⟨.steadyNone, halted⟩

/-- The lamps of several rows put out, each marked where it changes (R127). -/
def State.darkenRows (s : State) : List RowNo → State
  | [] => s
  | r :: rs => (s.moveLamps r .dark).darkenRows rs

/-- A flash under a SET LAMPS: a remaining count above the new flash count is cut to it (R125). -/
def Arrow.cut (count : Nat) (a : Arrow) : Arrow :=
  match a with
  | .flashUp f => .flashUp { f with remaining := min f.remaining count }
  | .flashDown f => .flashDown { f with remaining := min f.remaining count }
  | a => a

/-- A centisecond of a phase timer. -/
def Arrow.tickTimer (a : Arrow) : Arrow :=
  match a with
  | .flashUp f => .flashUp { f with timer := f.timer - 1 }
  | .flashDown f => .flashDown { f with timer := f.timer - 1 }
  | a => a

/-- Whether the issue a row shows is halted; a blank row is not (R128). -/
def State.rowHalted (s : State) (r : RowNo) : Bool :=
  match s.rowIssue r with
  | none => false
  | some n => ((findRecord s.issues.records n).map IssueRecord.halted).getD false

/-- The Lamp Generators' part of RESTART (R128). -/
def State.restartLamps (s : State) : State :=
  { s with lamps := Vector.ofFn fun r => RowLamps.remapped (s.rowHalted r) }

end Sys2Proof.Machine
end

