-- ==== Sys2Proof/Machine/Tape.lean ====
section
/-! DEFINITION. The Tape Channels (chapter 4): rendering, the backlog sum, the print start and its pacing,
joining and merging, and the channels' own steps. A channel operation answers the channel and the notices it
raises; `fl` is the text of a flash group from the flash list and records as they stand. -/

namespace Sys2Proof.Machine

/-- Word HALT. -/
def haltWord : Text := [0x48, 0x41, 0x4C, 0x54]
/-- Word RESUME. -/
def resumeWord : Text := [0x52, 0x45, 0x53, 0x55, 0x4D, 0x45]
/-- Word CORR. -/
def corrWord : Text := [0x43, 0x4F, 0x52, 0x52]
/-- Word QUIET. -/
def quietWord : Text := [0x51, 0x55, 0x49, 0x45, 0x54]
/-- Word FLASH. -/
def flashWord : Text := [0x46, 0x4C, 0x41, 0x53, 0x48]
/-- The two-space separator. -/
def separator : Text := [0x20, 0x20]

/-- The suffix of a PRINT as text (R74). -/
def suffixText : Suffix → Text
  | .none => []
  | .star => [0x2A]
  | .hash => [0x23]

/-- The lot count from which the volume group is shown: 2 at level 0, else the block size (R74). -/
def groupFrom (level block : Nat) : Nat := if level = 0 then 2 else block

/-- A PRINT as text (R74). -/
def printText (level block : Nat) (symbol : Text) (denom price volume : Nat) (suffix : Suffix) : Text :=
  let group := if groupFrom level block ≤ lots volume then volumeText volume ++ [0x4C, 0x20] else []
  let priced := if level < 2 then priceText denom price else droppedText denom price
  symbol ++ 0x20 :: (group ++ priced ++ suffixText suffix ++ separator)

/-- The issues of the flash list that have traded, each as symbol, price and separator (R76). -/
def flashIssues (records : Records) : List Nat → Text
  | [] => []
  | n :: ns =>
    match findRecord records n with
    | none => flashIssues records ns
    | some r =>
      if r.traded then r.symbol ++ 0x20 :: (priceText r.denom r.last ++ separator ++ flashIssues records ns)
      else flashIssues records ns

/-- A flash group as text (R76). -/
def flashText (records : Records) (list : List Nat) : Text :=
  match flashIssues records list with
  | [] => flashWord ++ separator
  | shown => flashWord ++ 0x20 :: shown

/-- An entry as text at a level and block size (R74, R75, R76). -/
def itemText (level block : Nat) (fl : Text) : TapeItem → Text
  | .print _ symbol denom price volume suffix => printText level block symbol denom price volume suffix
  | .halt _ symbol => haltWord ++ 0x20 :: (symbol ++ separator)
  | .resume _ symbol => resumeWord ++ 0x20 :: (symbol ++ separator)
  | .corr _ symbol denom price =>
      corrWord ++ 0x20 :: (symbol ++ 0x20 :: (priceText denom price ++ separator))
  | .quiet => quietWord ++ separator
  | .flash => fl

/-- The rendered length of an entry at the channel's level and working block size (R77, R78). -/
def TapeChannel.lengthOf (c : TapeChannel) (fl : Text) (i : TapeItem) : Nat :=
  (itemText c.level c.working.block fl i).length

/-- The sum of the counted lengths of the queued entries (R78). -/
def countedSum (q : List TapeEntry) : Nat := (q.map TapeEntry.counted).sum

/-- Every queued entry counted again at the level and block size in force (R78). -/
def TapeChannel.recount (c : TapeChannel) (fl : Text) : TapeChannel :=
  let q := c.queue.map fun e => { e with counted := c.lengthOf fl e.item }
  { c with queue := q, backlog := countedSum q }

/-- The target rate: normal at levels 0 and 1, rush at 2 and 3 (R67, R80). -/
def TapeChannel.target (c : TapeChannel) : Nat := if c.level < 2 then c.loaded.normal else c.loaded.rush

/-- The crawl rate after a character: one step toward the target (R80). -/
def stepRate (rate target : Nat) : Nat :=
  if rate < target then rate + 1 else if target < rate then rate - 1 else rate

/-- The flash interval in cs (R87). -/
def TapeChannel.flashInterval (c : TapeChannel) : Nat := c.loaded.interval * 100

/-- The fields of a TAPE_LEVEL notice, S and the backlog sum as they stand when it is queued (R89, R201,
log 13). -/
def levelNotice (ch : Channel) (before after : Nat) (cause : Byte) (lateness backlog : Nat) : Byte × Text :=
  (0x05, channelCode ch :: BitVec.ofNat 8 before :: BitVec.ofNat 8 after :: cause
    :: (writeNat 3 lateness ++ writeNat 3 backlog))

/-- The smoothed lateness after a print or marker that has waited since `arrival` (R81). -/
def smooth (s : Nat) (now arrival : BitVec 32) : Nat :=
  let waited : Int := if now.toNat < arrival.toNat then 0 else (now.toNat - arrival.toNat : Nat)
  min ((s : Int) + (waited - s) / 8).toNat Config.maxLateness

/-- up_k in cs. -/
def Thresholds.up (t : Thresholds) (k : Nat) : Nat :=
  if k = 1 then t.up1.cs else if k = 2 then t.up2.cs else t.up3.cs

/-- down_k in cs. -/
def Thresholds.down (t : Thresholds) (k : Nat) : Nat :=
  if k = 1 then t.down1.cs else if k = 2 then t.down2.cs else t.down3.cs

/-- The level the pacing decides from E (R82). -/
def decideLevel (t : Thresholds) (level e : Nat) : Nat :=
  if level < 3 ∧ t.up (level + 1) ≤ e then level + 1
  else if 0 < level ∧ e < t.down level then level - 1
  else level

/-- The flash timer through a change of level at a print start: started at 1 to 2, stopped at 2 to 1 (R85). -/
def flashThrough (before after interval : Nat) (t : Option Nat) : Option Nat :=
  if before < 2 ∧ 2 ≤ after then some interval
  else if 2 ≤ before ∧ after < 2 then none
  else t

/-- Step 1 of a print start: the working parameters, and the backlog sum when the block size changes (R79). -/
def TapeChannel.copyWorking (c : TapeChannel) (fl : Text) : TapeChannel :=
  let d := { c with working := c.loaded.toWorking }
  if c.working.block = c.loaded.block then d else d.recount fl

/-- The pacing computation, S first, then E and the level (R81, R82). `q` is the backlog behind the starting
entry. -/
def TapeChannel.paced (c : TapeChannel) (now : BitVec 32) (e : TapeEntry) (q : Nat) : Nat × Nat :=
  let s := if e.item = .flash then c.lateness else smooth c.lateness now e.arrival
  let w := q * 100 / c.rate
  (s, decideLevel c.working.thresholds c.level (max s w))

/-- A print start, when the queue is not empty (R79, R83). -/
def TapeChannel.printStart (ch : Channel) (fl : Text) (now : BitVec 32) (c : TapeChannel) :
    TapeChannel × List (Byte × Text) :=
  let c := c.copyWorking fl
  match c.queue with
  | [] => (c, [])
  | e :: rest =>
    let q := c.backlog - e.counted
    let (s, level) := c.paced now e q
    let d := { c with queue := rest, backlog := q, lateness := s }
    let (d, notices) :=
      if level = c.level then (d, [])
      else
        ({ d with level := level, flashTimer := flashThrough c.level level c.flashInterval c.flashTimer }.recount fl,
          [levelNotice ch c.level level 0 s q])
    ({ d with emission := some ⟨itemText d.level d.working.block fl e.item, 0⟩ }, notices)

/-- An idle channel starts the entry that has joined (R79). -/
def TapeChannel.startIfIdle (ch : Channel) (fl : Text) (now : BitVec 32) (c : TapeChannel) :
    TapeChannel × List (Byte × Text) :=
  if c.emission.isNone then c.printStart ch fl now else (c, [])

/-- The level forced to 3 by a print that meets a full queue (R72). -/
def TapeChannel.force (ch : Channel) (fl : Text) (c : TapeChannel) : TapeChannel × List (Byte × Text) :=
  if c.level = 3 then (c, [])
  else
    ({ c with level := 3, flashTimer := flashThrough c.level 3 c.flashInterval c.flashTimer }.recount fl,
      [levelNotice ch c.level 3 1 c.lateness c.backlog])

/-- Whether a queued tail takes a print of the same issue, symbol, price and suffix (R71). -/
def mergesInto (tail : TapeItem) (i : TapeItem) : Bool :=
  match tail, i with
  | .print n sym _ p _ x, .print n' sym' _ p' _ x' => n == n' && sym == sym' && p == p' && x == x'
  | _, _ => false

/-- A tail with the volume of a merged print added, left at 99,999,999 (R71). -/
def mergedItem (tail : TapeItem) (i : TapeItem) : TapeItem :=
  match tail, i with
  | .print n sym d p v x, .print _ _ _ _ v' _ => .print n sym d p (min (v + v') Config.maxPrintVolume) x
  | t, _ => t

/-- The merge of a print into the tail entry: its volume, its counted length and the sum (R71, R78). -/
def TapeChannel.mergeTail (c : TapeChannel) (fl : Text) (tail : TapeEntry) (i : TapeItem) : TapeChannel :=
  let item := mergedItem tail.item i
  let n := c.lengthOf fl item
  { c with
    queue := c.queue.dropLast ++ [{ tail with item := item, counted := n }]
    backlog := c.backlog - tail.counted + n
    merged := satInc c.merged }

/-- An entry joins at the tail (R70). -/
def TapeChannel.joinTail (c : TapeChannel) (fl : Text) (now : BitVec 32) (i : TapeItem) : TapeChannel :=
  let n := c.lengthOf fl i
  { c with queue := c.queue ++ [⟨i, now, n⟩], backlog := c.backlog + n }

/-- Whether a PRINT's lot count is below the working minimum (R69). -/
def TapeChannel.belowMinimum (c : TapeChannel) (i : TapeItem) : Bool :=
  match i with
  | .print _ _ _ _ v _ => decide (lots v < c.working.minimum)
  | _ => false

/-- The tail a print merges into, when the level is 3 (R71). -/
def TapeChannel.mergeTarget (c : TapeChannel) (i : TapeItem) : Option TapeEntry :=
  if c.level = 3 then c.queue.getLast?.filter fun e => mergesInto e.item i else none

/-- Whether an item is a PRINT. -/
def isPrint : TapeItem → Bool
  | .print _ _ _ _ _ _ => true
  | _ => false

/-- An entry handed to the channel: passed over, merged, joined, dropped with a force, or discarded
(R69 to R73). -/
def TapeChannel.take (ch : Channel) (fl : Text) (now : BitVec 32) (i : TapeItem) (c : TapeChannel) :
    TapeChannel × List (Byte × Text) :=
  if c.belowMinimum i then (c, [])
  else
    match c.mergeTarget i with
    | some tail => (c.mergeTail fl tail i, [])
    | none =>
      if c.queue.length < Config.tapePlaces then (c.joinTail fl now i).startIfIdle ch fl now
      else
        let d := { c with dropped := satInc c.dropped }
        if isPrint i then d.force ch fl else (d, [])

/-- A character on the ticker line has ended: the rate steps, and after the last character the next print
start comes or the channel falls idle (R79, R80). -/
def TapeChannel.charSent (ch : Channel) (fl : Text) (now : BitVec 32) (c : TapeChannel) :
    TapeChannel × List (Byte × Text) :=
  match c.emission with
  | none => (c, [])
  | some e =>
    let c := { c with rate := stepRate c.rate c.target }
    if e.sent + 1 < e.text.length then ({ c with emission := some ⟨e.text, e.sent + 1⟩ }, [])
    else
      let c := { c with emission := none }
      if c.queue.isEmpty then (c, []) else c.printStart ch fl now

/-- Whether a FLASH entry is queued (R86). -/
def TapeChannel.flashQueued (c : TapeChannel) : Bool := c.queue.any fun e => e.item == .flash

/-- A FLASH entry inserted at the head (R86). -/
def TapeChannel.joinFlash (c : TapeChannel) (fl : Text) (now : BitVec 32) : TapeChannel :=
  let n := c.lengthOf fl .flash
  { c with queue := ⟨.flash, now, n⟩ :: c.queue, backlog := c.backlog + n }

/-- The expiry of the flash timer: it starts again, and a FLASH entry joins at the head unless the queue is
full or holds one (R85, R86). -/
def TapeChannel.flashExpiry (ch : Channel) (fl : Text) (now : BitVec 32) (c : TapeChannel) :
    TapeChannel × List (Byte × Text) :=
  let c := { c with flashTimer := some c.flashInterval }
  if c.queue.length < Config.tapePlaces ∧ c.flashQueued = false then
    (c.joinFlash fl now).startIfIdle ch fl now
  else (c, [])

/-- A channel's part of RESTART (R92). Entries handed over and not yet taken stay (R93, log 3). DESIGN CHOICE: the
channel is idle at once, in the RESTART's own step; the end of the character being sent, at which R92 cuts the entry
in emission, is no event of its own (log 40). -/
def TapeChannel.restart (c : TapeChannel) : TapeChannel :=
  { c with
    queue := []
    emission := none
    lateness := 0
    level := 0
    rate := c.loaded.normal
    flashTimer := none
    backlog := 0
    working := c.loaded.toWorking
    dropped := 0
    merged := 0 }

/-- The text of a flash group as the table now stands. -/
def State.flashNow (s : State) : Text := flashText s.issues.records s.issues.flashList

/-- A channel's new state and the notices it raises, taken into the card. -/
def State.tookTape (s : State) (ch : Channel) (r : TapeChannel × List (Byte × Text)) : State :=
  (s.setTape ch r.1).raiseAll r.2

/-- An entry handed to a channel (R29). -/
def State.handTape (s : State) (ch : Channel) (i : TapeItem) : State :=
  s.setTape ch { s.tape ch with arrivals := (s.tape ch).arrivals ++ [i] }

/-- TAPE_ENTRY_JOIN: the channel takes the oldest entry handed to it (R69 to R73). -/
def execTapeEntryJoin (ch : Channel) (s : State) : Host.Outcome State Fault Refusal :=
  let c := s.tape ch
  match c.arrivals with
  | [] => .next s
  | i :: rest =>
    .next (s.tookTape ch ({ c with arrivals := rest }.take ch s.flashNow s.issues.clock i))

/-- TAPE_CHARACTER_SENT (R79, R80). -/
def execTapeCharacterSent (ch : Channel) (s : State) : Host.Outcome State Fault Refusal :=
  match (s.tape ch).emission with
  | none => .next s
  | some _ => .next (s.tookTape ch ((s.tape ch).charSent ch s.flashNow s.issues.clock))

/-- FLASH_TIMER_EXPIRY, due when the timer has run out (R86). -/
def execFlashTimerExpiry (ch : Channel) (s : State) : Host.Outcome State Fault Refusal :=
  if (s.tape ch).flashTimer = some 0 then
    .next (s.tookTape ch ((s.tape ch).flashExpiry ch s.flashNow s.issues.clock))
  else .next s

end Sys2Proof.Machine
end

