-- ==== Sys2Proof/WellFormed.lean ====
section
/-! DEFINITION. The checks that make a command well-formed: the widths of the operands of a terminal
request (R203), and that REQUEST_BAD_OPERATION carries a request that no other row takes (R139). -/

namespace Sys2Proof

/-- A symbol field is four characters (R197). -/
def symbolFieldOk (symbol : Text) : Bool := symbol.length == 4

/-- The shortest request of each kind, its kind character counted (R203); none for an unknown kind. -/
def requestLength (kind : Byte) : Option Nat :=
  match kind.toNat with
  | 1 => some 5
  | 2 => some 5
  | 3 => some 5
  | 4 => some 12
  | 5 => some 2
  | _ => none

/-- A request is bad when its kind is unknown or it is shorter than the length of its kind (R139). -/
def badRequest (request : Text) : Bool :=
  match request with
  | [] => true
  | kind :: rest =>
    match requestLength kind with
    | none => true
    | some n => rest.length + 1 < n

/-- What a command must satisfy beyond its types. -/
def WellFormed (i : Instr) : Bool :=
  match i with
  | .quoteRequest _ symbol => symbolFieldOk symbol
  | .watchAdd _ symbol => symbolFieldOk symbol
  | .watchDrop _ symbol => symbolFieldOk symbol
  | .alertSet _ _ symbol _ _ _ => symbolFieldOk symbol
  | .requestBadOperation _ request =>
      badRequest request && decide (request.length < 256)
  | .powerOn _ _ => true
  | .feedInCharacter _ => true
  | .throughFrameEnd => true
  | .silenceTimerExpiry => true
  | .heartbeat => true
  | .trade => true
  | .outOfSequenceTrade => true
  | .alternatePrint => true
  | .quote => true
  | .issueStatus => true
  | .correction => true
  | .marketOpen => true
  | .marketClose => true
  | .noOperationCode => true
  | .loadIssue => true
  | .deleteIssue => true
  | .setRow => true
  | .setWatchList => true
  | .addWatch => true
  | .dropWatch => true
  | .setAlert => true
  | .clearAlert => true
  | .setTape => true
  | .setFlashList => true
  | .setLamps => true
  | .setFeed => true
  | .setTerminal => true
  | .clearCounts => true
  | .restart => true
  | .readIssue => true
  | .readRow => true
  | .readLine => true
  | .readWatchList => true
  | .readAlerts => true
  | .readTape => true
  | .readCounts => true
  | .readUnit => true
  | .tapeEntryJoin _ => true
  | .tapeCharacterSent _ => true
  | .flashTimerExpiry _ => true
  | .boardChangeNotice => true
  | .transferSent _ => true
  | .broadcastSent _ => true
  | .accept _ => true
  | .hold _ => true
  | .boardAnswerWaitExpiry _ => true
  | .holdBackOffExpiry _ _ => true
  | .boardOtherCharacter _ _ => true
  | .lampChangeNotice => true
  | .phaseTimerExpiry _ => true
  | .terminalChangeNotice => true
  | .pollSent _ => true
  | .nothing _ => true
  | .alertClear _ _ => true
  | .selectSent _ => true
  | .received _ => true
  | .busy _ => true
  | .terminalAnswerWaitExpiry _ => true
  | .terminalOtherCharacter _ _ => true
  | .alertChangeNotice => true
  | .upstreamInCharacter _ => true
  | .upstreamFrameEnd => true
  | .readyLineChange _ => true
  | .marketClockTick => true
  | .throughSwitchChange _ => true

end Sys2Proof
end

