-- ==== Sys2Proof/Decode.lean ====
section
/-! DEFINITION. Reading commands from characters. spec/opcode_table.json gives no row any bits, so
`decodeTableWord` answers none (log 27). What the card does decode are the answers that its modules and
terminals give in characters (R203): `boardAnswer` and `terminalAnswer` read them, total on any
characters, and `answerChars` writes them. -/

namespace Sys2Proof

/-- The command a word of the opcode table spells: none, since the table gives its rows no bits (log 27). -/
def decodeTableWord (_nbits _w : Nat) : Option Instr := none

/-- The modulo-256 sum of a run of characters (R101, R203). -/
def sumChars (cs : Text) : Byte := cs.foldl (· + ·) 0

/-- What one character from a module on a board line makes (R103, R203). -/
def boardAnswer (line : LineNo) (c : Byte) : Instr :=
  if c = 0x06 then .accept line
  else if c = 0x13 then .hold line
  else .boardOtherCharacter line c

/-- The request its characters make, from the kind character on. Characters past the length of the
kind are not read (R203, log 21); the limit stands highest character first (R197). -/
def requestOf (line : LineNo) (request : Text) : Instr :=
  if badRequest request then .requestBadOperation line request
  else
    match request with
    | 0x01 :: s => .quoteRequest line (s.take 4)
    | 0x02 :: s => .watchAdd line (s.take 4)
    | 0x03 :: s => .watchDrop line (s.take 4)
    | 0x04 :: slot :: s1 :: s2 :: s3 :: s4 :: cond :: neg :: l1 :: l2 :: l3 :: l4 :: _ =>
        .alertSet line slot [s1, s2, s3, s4] cond neg (l1 ++ l2 ++ l3 ++ l4)
    | 0x05 :: slot :: _ => .alertClear line slot
    | _ => .requestBadOperation line request

/-- The answer a terminal's characters make: NOTHING, RECEIVED, BUSY, or 05h with a length, a request and
its sum (R203). None when the characters are no answer: a wrong sum, a broken request or another character
(R133). -/
def terminalAnswer (line : LineNo) (chars : Text) : Option Instr :=
  match chars with
  | [0x04] => some (.nothing line)
  | [0x06] => some (.received line)
  | [0x13] => some (.busy line)
  | 0x05 :: len :: rest =>
      if rest.length = len.toNat + 1 ∧ rest.getLast? = some (sumChars (len :: rest.dropLast)) then
        some (requestOf line rest.dropLast)
      else none
  | _ => none

/-- A request answer: 05h, the length, the request and the sum of the length and the request (R203). -/
def requestAnswer (request : Text) : Text :=
  let len : Byte := BitVec.ofNat 8 request.length
  0x05 :: len :: (request ++ [sumChars (len :: request)])

/-- The four characters of a limit, highest first (R197). -/
def limitChars (limit : BitVec 32) : Text :=
  [limit.extractLsb' 24 8, limit.extractLsb' 16 8, limit.extractLsb' 8 8, limit.extractLsb' 0 8]

/-- The characters by which a terminal gives the answer a command stands for (R203); none for a command
that is no terminal answer. -/
def answerChars (i : Instr) : Option Text :=
  match i with
  | .nothing _ => some [0x04]
  | .received _ => some [0x06]
  | .busy _ => some [0x13]
  | .quoteRequest _ symbol => some (requestAnswer (0x01 :: symbol))
  | .watchAdd _ symbol => some (requestAnswer (0x02 :: symbol))
  | .watchDrop _ symbol => some (requestAnswer (0x03 :: symbol))
  | .alertSet _ slot symbol cond neg limit =>
      some (requestAnswer (0x04 :: slot :: (symbol ++ cond :: neg :: limitChars limit)))
  | .alertClear _ slot => some (requestAnswer [0x05, slot])
  | .requestBadOperation _ request => some (requestAnswer request)
  | _ => none

end Sys2Proof
end

