-- ==== Sys2Proof/Machine/Alerts.lean ====
section
/-! DEFINITION. The Alert Table (chapter 8) and the outbound queues its messages join: conditions,
evaluation, firing, owed messages, and ALERT_CHANGE_NOTICE. -/

namespace Sys2Proof.Machine

/-- A message put at the tail of a terminal's outbound queue (R143). -/
def Terminal.push (t : Terminal) (m : OutMessage) : Terminal := { t with queue := t.queue ++ [m] }

/-- Whether an ALERT or FEED status message offered to the queue is taken (R143). -/
def Terminal.takesOffer (t : Terminal) : Bool :=
  decide (t.queue.length < Config.outboundPlaces) && decide (t.state ≠ .disabled)

/-- A condition tested against a record, before negation (R156). -/
def conditionTrue (c : Condition) (limit : Int) (r : IssueRecord) : Bool :=
  match c with
  | .lastAbove => r.traded && decide (limit < (r.last : Int))
  | .lastBelow => r.traded && decide ((r.last : Int) < limit)
  | .changeAbove => r.traded && decide (limit < r.netChange)
  | .changeBelow => r.traded && decide (r.netChange < limit)
  | .uptick => r.tick == .up || r.tick == .zeroUp
  | .atHigh => r.traded && r.high == some r.last
  | .atLow => r.traded && r.low == some r.last
  | .halted => r.halted

/-- A slot's condition after negation (R156). -/
def AlertSetting.holds (a : AlertSetting) (r : IssueRecord) : Bool :=
  conditionTrue a.condition a.limit r != a.negate

/-- The limit of an ALERT message: a price, a change, or nothing, by its condition (R159, R203). -/
def limitText (a : AlertSetting) (r : IssueRecord) : Text :=
  match a.condition with
  | .lastAbove => priceText r.denom a.limit.toNat
  | .lastBelow => priceText r.denom a.limit.toNat
  | .changeAbove => changeText r.denom a.limit
  | .changeBelow => changeText r.denom a.limit
  | _ => []

/-- An ALERT message as built from the slot, the record and the clock (R159, R203). -/
def alertChars (k : SlotNo) (a : AlertSetting) (r : IssueRecord) (clock : BitVec 32) : Text :=
  0x02 :: BitVec.ofNat 8 k.val ::
    (textField r.symbol ++ conditionCode a.condition :: flagByte a.negate ::
      (textField (limitText a r) ++ textField (priceText r.denom r.last)
        ++ textField (changeText r.denom r.netChange) ++ flagByte r.halted :: writeNat 4 clock.toNat))

/-- A slot fires: it becomes FIRED and its message joins the queue, or is owed (R158, R159). -/
def State.fire (s : State) (t : TermNo) (k : SlotNo) (a : AlertSetting) (r : IssueRecord) : State :=
  if (s.terminals[t]).takesOffer then
    (s.setAlert t k (some { a with fired := true, owed := false })).setTerm t
      ((s.terminals[t]).push (.alert (alertChars k a r s.issues.clock)))
  else s.setAlert t k (some { a with fired := true, owed := true })

/-- A slot evaluated against its issue's record (R157, R158). A slot names a LISTED issue (R39). -/
def State.evaluate (s : State) (t : TermNo) (k : SlotNo) : State :=
  match (s.alerts[t])[k] with
  | none => s
  | some a =>
    match findRecord s.issues.records a.issue with
    | none => s
    | some r =>
      if a.holds r then
        if a.fired then s else s.fire t k a r
      else s.setAlert t k (some { a with fired := false, owed := false })

/-- Whether a slot is not EMPTY and names an issue. -/
def slotNames (a : AlertSlot) (n : Nat) : Bool := a.any fun x => x.issue == n

/-- One slot at a change notice for an issue (R157). -/
def State.noticeSlot (n : Nat) (s : State) (p : TermNo × SlotNo) : State :=
  if slotNames (s.alerts[p.1])[p.2] n then s.evaluate p.1 p.2 else s

/-- Every slot, in ascending terminal number and within a terminal in ascending slot number (R157). -/
def allSlots : List (TermNo × SlotNo) :=
  (List.finRange 32).flatMap fun t => (List.finRange 8).map fun k => (t, k)

/-- ALERT_CHANGE_NOTICE (R157). -/
def execAlertChangeNotice (s : State) : Host.Outcome State Fault Refusal :=
  match s.alertNotices with
  | [] => .next s
  | n :: rest => .next (allSlots.foldl (State.noticeSlot n.issue) { s with alertNotices := rest })

/-- Whether any slot that is not EMPTY names an issue (R155). -/
def State.alertNames (s : State) (n : Nat) : Bool := allSlots.any fun p => slotNames (s.alerts[p.1])[p.2] n

/-- An owed slot's message built and queued, while a place is free (R160). -/
def State.payOwed (t : TermNo) (s : State) (k : SlotNo) : State :=
  match (s.alerts[t])[k] with
  | none => s
  | some a =>
    match findRecord s.issues.records a.issue with
    | none => s
    | some r =>
      if a.owed ∧ (s.terminals[t]).takesOffer = true then
        (s.setAlert t k (some { a with owed := false })).setTerm t
          ((s.terminals[t]).push (.alert (alertChars k a r s.issues.clock)))
      else s

/-- An owed FEED status queued with the feed state as it stands (R144). -/
def State.payFeed (s : State) (t : TermNo) : State :=
  let x := s.terminals[t]
  if x.feedOwed ∧ x.queue.length < Config.outboundPlaces then
    s.setTerm t { x.push (.feedStatus s.feed.feedState) with feedOwed := false }
  else s

/-- A freeing of places: the owed FEED status first, then the owed alerts in ascending slot number
(R144, R160). -/
def State.freePlaces (s : State) (t : TermNo) : State :=
  (List.finRange 8).foldl (State.payOwed t) (s.payFeed t)

end Sys2Proof.Machine
end

