-- ==== Sys2Proof/Machine/Terminals.lean ====
section
/-! DEFINITION. The Terminal Line Controllers (chapter 7): polls and selects, answers, requests, watch lists,
feed status, and the controllers' own steps. -/

namespace Sys2Proof.Machine

/-! ### Transactions -/

/-- Whether a terminal is enabled (R132). -/
def Terminal.enabled (t : Terminal) : Bool := decide (t.state ≠ .disabled)

/-- The drop k places after the poll pointer (R132). -/
def TermLine.pollPlace (x : TermLine) (k : Nat) : DropNo :=
  ⟨(x.pollPtr.val + 1 + k) % 8, Nat.mod_lt _ (by decide)⟩

/-- The next enabled drop after the poll pointer, the pointer's own last (R132). -/
def State.nextDrop (s : State) (l : LineNo) : Option DropNo :=
  ((List.range 8).map (s.termLines[l]).pollPlace).find? fun d => (s.terminals[termOf l d]).enabled

/-- The poll character: 70h plus the drop (R203). -/
def pollChar (d : DropNo) : Byte := BitVec.ofNat 8 (0x70 + d.val)

/-- The choice of an idle line: the poll of the next enabled terminal, or nothing (R132). -/
def State.chooseTerm (s : State) (l : LineNo) : State :=
  if (s.termLines[l]).inFlight.isSome then s
  else
    match s.nextDrop l with
    | none => s
    | some d =>
      s.setTermLine l { s.termLines[l] with pollPtr := d, inFlight := some ⟨d, .pollSending (pollChar d), false⟩ }

/-- The transaction ended and the next chosen (R132). -/
def State.endTransaction (s : State) (l : LineNo) : State :=
  (s.setTermLine l { s.termLines[l] with inFlight := none }).chooseTerm l

/-- The transaction in flight taken on to its next stage. -/
def State.setStage (s : State) (l : LineNo) (x : Transaction) (st : Stage) : State :=
  s.setTermLine l { s.termLines[l] with inFlight := some { x with stage := st } }

/-! ### Messages -/

/-- A message of the outbound queue as characters (R203). -/
def OutMessage.chars : OutMessage → Text
  | .reply cs => cs
  | .alert cs => cs
  | .feedStatus f => [0x03, feedStateCode f]

/-- The fields of an entry update, in the order SYMBOL, LAST, CHANGE, VOLUME, BIDASK, STATE (R151, R203). -/
def entryFields (r : IssueRecord) (fs : FieldSet) : Text :=
  (if fs.symbol then textField r.symbol else [])
  ++ (if fs.last then textField (priceText r.denom r.last) else [])
  ++ (if fs.change then textField (changeText r.denom r.netChange) else [])
  ++ (if fs.volume then textField (volumeText r.volume) else [])
  ++ (if fs.bidask then priceField r.denom r.bid ++ priceField r.denom r.ask else [])
  ++ (if fs.state then [stateChar r] else [])

/-- An entry update as characters: kind, position, list length, the field set sent, the fields (R151, R203).
A watched issue is LISTED (R39); for a FREE one there are no fields (log 29). -/
def entryUpdate (records : Records) (position length issue : Nat) (fs : FieldSet) : Text :=
  0x04 :: BitVec.ofNat 8 position :: BitVec.ofNat 8 length :: fs.toByte ::
    (match findRecord records issue with
      | none => []
      | some r => entryFields r fs)

/-- A length update as characters (R203). -/
def lengthUpdate (length : Nat) : Text := [0x05, BitVec.ofNat 8 length]

/-- The characters of a select: 78h plus the drop, the length, the message and the sum (R203). -/
def selectChars (d : DropNo) (message : Text) : Text :=
  let len : Byte := BitVec.ofNat 8 message.length
  BitVec.ofNat 8 (0x78 + d.val) :: len :: (message ++ [sumChars (len :: message)])

/-! ### Selecting -/

/-- The position of the entry the search from the service cursor finds: the first with a non-empty pending set
after the cursor, else the first up to and including it (R137). -/
def Terminal.nextEntry (t : Terminal) : Option Nat :=
  let ready := (List.range t.watch.length).filter fun i => t.watch[i]?.any fun e => !e.pending.isEmpty
  match ready.find? (fun i => decide (t.cursor < i)) with
  | some i => some i
  | none => ready.find? fun i => decide (i ≤ t.cursor)

/-- The pending set at a position emptied. -/
def clearPending (watch : List WatchEntry) (i : Nat) : List WatchEntry :=
  watch.modify i fun e => { e with pending := .empty }

/-- The select a terminal's turn carries, with the terminal as its start leaves it (R137, R151). -/
def Terminal.select (records : Records) (d : DropNo) (t : Terminal) : Option (Select × Terminal) :=
  match t.queue with
  | m :: _ => some (⟨.queued, selectChars d m.chars⟩, t)
  | [] =>
    match t.nextEntry with
    | some i =>
      match t.watch[i]? with
      | some e =>
        some (⟨.entry e.issue e.pending t.lengthOwed,
            selectChars d (entryUpdate records i t.watch.length e.issue e.pending)⟩,
          { t with cursor := i, watch := clearPending t.watch i, lengthOwed := false })
      | none => none
    | none =>
      if t.lengthOwed then
        some (⟨.length, selectChars d (lengthUpdate t.watch.length)⟩, { t with lengthOwed := false })
      else none

/-- After an answer to the poll: the select is begun, or the transaction ends (R137). -/
def State.beginSelect (s : State) (l : LineNo) (x : Transaction) : State :=
  match (s.terminals[termOf l x.drop]).select s.issues.records x.drop with
  | some (sel, t) => (s.setTerm (termOf l x.drop) t).setStage l x (.selectSending sel)
  | none => s.endTransaction l

/-! ### Feed status -/

/-- Whether the head of a terminal's queue is carried by a select in flight; a disable has emptied the queue since
where the transaction is cut (R131, R145). -/
def State.headCarried (s : State) (t : TermNo) : Bool :=
  match (s.termLines[termLine t]).inFlight with
  | none => false
  | some x =>
    decide (x.drop = termDrop t) && !x.cut &&
      (match x.stage with
        | .selectSending sel => sel.carried == .queued
        | .selectWait sel _ => sel.carried == .queued
        | _ => false)

/-- Whether a message is a FEED status message. -/
def OutMessage.isFeed : OutMessage → Bool
  | .feedStatus _ => true
  | _ => false

/-- A message with its feed state replaced, when it is a FEED status message. -/
def OutMessage.withFeed (f : FeedState) : OutMessage → OutMessage
  | .feedStatus _ => .feedStatus f
  | m => m

/-- The FEED status messages of a queue that no select carries given a new feed state, each in its place; none when
there is none. Two wait after a BUSY has left a carried one, and both are given it (step 1 of R145, log 36). -/
def replaceFeed (f : FeedState) (carried : Bool) (queue : List OutMessage) : Option (List OutMessage) :=
  let n := if carried then 1 else 0
  if (queue.drop n).any OutMessage.isFeed then some (queue.take n ++ (queue.drop n).map (OutMessage.withFeed f))
  else none

/-- A FEED status message offered to a terminal: replaced in its place, joined, or owed (R145). -/
def Terminal.offerFeed (t : Terminal) (f : FeedState) (carried : Bool) : Terminal :=
  match replaceFeed f carried t.queue with
  | some q => { t with queue := q }
  | none =>
    if t.queue.length < Config.outboundPlaces then t.push (.feedStatus f) else { t with feedOwed := true }

/-- A FEED status offered to one terminal with the feed state as it stands. -/
def State.offerFeed (s : State) (t : TermNo) : State :=
  s.setTerm t ((s.terminals[t]).offerFeed s.feed.feedState (s.headCarried t))

/-- The new feed state offered to each ONLINE terminal (R145). -/
def State.tellTerminals (s : State) : State :=
  { s with terminals := Vector.ofFn fun t =>
      let x := s.terminals[t]
      if x.state = .online then x.offerFeed s.feed.feedState (s.headCarried t) else x }

/-! ### Answers -/

/-- Every entry fully pending. -/
def allPending (watch : List WatchEntry) : List WatchEntry :=
  watch.map fun e => { e with pending := .terminal }

/-- An answer taken from an enabled terminal: its count is 0, and one that was UNKNOWN or OFFLINE becomes
ONLINE with its notice, its list fully pending, the length owed and the feed status offered (R134). -/
def State.answerTaken (s : State) (t : TermNo) : State :=
  let x := { s.terminals[t] with timeouts := 0 }
  if x.state = .online then s.setTerm t x
  else
    ((s.setTerm t { x with state := .online, watch := allPending x.watch, lengthOwed := true }).raise 0x08
      [BitVec.ofNat 8 t.val]).offerFeed t

/-- The counters of a terminal line changed. -/
def State.countLine (s : State) (l : LineNo) (f : TermLine → TermLine) : State :=
  s.setTermLine l (f s.termLines[l])

/-- A missed answer at an enabled terminal, and the TERMINAL_OFFLINE notice of the third (R135). -/
def State.missTerm (s : State) (t : TermNo) : State :=
  let x := s.terminals[t]
  if x.state = .offline then s
  else if x.timeouts + 1 < Config.missLimit then s.setTerm t { x with timeouts := x.timeouts + 1 }
  else
    (s.setTerm t { x with timeouts := Config.missLimit, state := .offline }).raise 0x09
      [BitVec.ofNat 8 t.val]

/-- Fields added to the pending set of the entry of an issue. -/
def addPending (watch : List WatchEntry) (issue : Nat) (fs : FieldSet) : List WatchEntry :=
  watch.map fun e => if e.issue = issue then { e with pending := e.pending.union fs } else e

/-- What a select sent, put back after BUSY or no answer (R138, R151). -/
def Terminal.restored (t : Terminal) (c : Carried) : Terminal :=
  match c with
  | .queued => t
  | .entry issue fs owed =>
      { t with watch := addPending t.watch issue fs, lengthOwed := t.lengthOwed || owed }
  | .length => { t with lengthOwed := true }

/-- The transaction whose answer to a poll is awaited (R133). -/
def TermLine.pollAwaited (x : TermLine) : Option Transaction :=
  x.inFlight.filter fun y =>
    match y.stage with
    | .pollWait _ => true
    | _ => false

/-- The transaction whose answer to a select is awaited, with what the select carries (R138). -/
def TermLine.selectAwaited (x : TermLine) : Option (Transaction × Carried) :=
  x.inFlight.bind fun y =>
    match y.stage with
    | .selectWait sel _ => some (y, sel.carried)
    | _ => none

/-- Whether the answer of a transaction is taken from an enabled terminal: not when its terminal is DISABLED, or has
been since the transaction began (R131). -/
def State.heard (s : State) (l : LineNo) (x : Transaction) : Bool :=
  (s.terminals[termOf l x.drop]).enabled && !x.cut

/-- POLL_SENT: the answer wait starts (R133). -/
def execPollSent (l : LineNo) (s : State) : Host.Outcome State Fault Refusal :=
  match (s.termLines[l]).inFlight with
  | none => .next s
  | some x =>
    match x.stage with
    | .pollSending _ => .next (s.setStage l x (.pollWait Config.terminalWait))
    | _ => .next s

/-- SELECT_SENT: the answer wait starts (R138). -/
def execSelectSent (l : LineNo) (s : State) : Host.Outcome State Fault Refusal :=
  match (s.termLines[l]).inFlight with
  | none => .next s
  | some x =>
    match x.stage with
    | .selectSending sel => .next (s.setStage l x (.selectWait sel Config.terminalWait))
    | _ => .next s

/-- NOTHING (R131, R134, R137). An answer that is not awaited is discarded (R133). -/
def execNothing (l : LineNo) (s : State) : Host.Outcome State Fault Refusal :=
  match (s.termLines[l]).pollAwaited with
  | none => .next s
  | some x =>
    if s.heard l x then .next ((s.answerTaken (termOf l x.drop)).beginSelect l x) else .next (s.endTransaction l)

/-- What a request's execution leaves: the card, the reply's characters, and the slot to be evaluated once the
reply has joined (R136, R161). -/
structure Answered where
  card : State
  reply : Text
  slot : Option SlotNo

/-- A reply to a request: 01h, the request kind, the result code and the content (R203). -/
def replyChars (kind : Byte) (r : Result) (content : Text) : Text := 0x01 :: kind :: resultCode r :: content

/-- A reply placed at the head of the outbound queue (R136). -/
def State.pushReply (s : State) (t : TermNo) (chars : Text) : State :=
  s.setTerm t { s.terminals[t] with queue := .reply chars :: (s.terminals[t]).queue }

/-- RETRY sent and counted (R136). -/
def State.retry (s : State) (l : LineNo) : State :=
  s.countLine l fun x => { x with retries := satInc x.retries, lastAck := some 0x15 }

/-- TAKEN sent (R136). -/
def State.takenAck (s : State) (l : LineNo) : State :=
  s.countLine l fun x => { x with lastAck := some 0x06 }

/-- A taken request executed, its reply queued, and its slot evaluated (R136, R161). -/
def State.runRequest (s : State) (l : LineNo) (t : TermNo) (run : State → Answered) : State :=
  let a := run (s.takenAck l)
  let s := a.card.pushReply t a.reply
  match a.slot with
  | none => s
  | some k => s.evaluate t k

/-- A REQUEST answer (R131, R134, R136, R137): RETRY from a DISABLED terminal ends the transaction; a full
queue is answered RETRY, else the request is executed; the select follows. -/
def State.request (s : State) (l : LineNo) (run : TermNo → State → Answered) : State :=
  match (s.termLines[l]).pollAwaited with
  | none => s
  | some x =>
    let t := termOf l x.drop
    if s.heard l x then
      let s := s.answerTaken t
      if (s.terminals[t]).queue.length < Config.outboundPlaces then
        (s.runRequest l t (run t)).beginSelect l x
      else (s.retry l).beginSelect l x
    else (s.retry l).endTransaction l

/-! ### Watch lists -/

/-- The lowest position at which two lists hold different issues or one has ended (R148). -/
def firstChanged : List Nat → List Nat → Nat
  | a :: as, b :: bs => if a = b then firstChanged as bs + 1 else 0
  | _, _ => 0

/-- The pending set an issue has on a list; empty when it is not on it. -/
def pendingOf : List WatchEntry → Nat → FieldSet
  | [], _ => .empty
  | e :: es, n => if e.issue = n then e.pending else pendingOf es n

/-- The entries of a new list: issues on both lists keep their pending set (R147). -/
def newEntries (old : List WatchEntry) (new : List Nat) : List WatchEntry :=
  new.map fun n => ⟨n, pendingOf old n⟩

/-- The entries from a position on made fully pending (R148). -/
def markFrom : Nat → List WatchEntry → List WatchEntry
  | _, [] => []
  | 0, e :: es => { e with pending := .terminal } :: markFrom 0 es
  | k + 1, e :: es => e :: markFrom k es

/-- A terminal given a new list, marked as R148 gives; a DISABLED terminal is not marked. -/
def Terminal.rewatch (t : Terminal) (new : List Nat) : Terminal :=
  let old := t.watch.map WatchEntry.issue
  let entries := newEntries t.watch new
  if t.state = .disabled then { t with watch := entries }
  else
    { t with
      watch := markFrom (firstChanged old new) entries
      lengthOwed := t.lengthOwed || decide (old.length ≠ new.length) }

/-- The watcher masks after a terminal's list changes from `old` to `new` (R24). -/
def remask (t : TermNo) (old new : List Nat) (n : Nat) (r : IssueRecord) : IssueRecord :=
  if n ∈ new then { r with watchers := markWatcher r.watchers t }
  else if n ∈ old then { r with watchers := clearWatcher r.watchers t }
  else r

/-- A terminal's watch list changed, with the watcher masks (R24, R148). -/
def State.rewatch (s : State) (t : TermNo) (new : List Nat) : State :=
  let old := (s.terminals[t]).watch.map WatchEntry.issue
  (s.setRecords (mapRecords (remask t old new) s.issues.records)).setTerm t ((s.terminals[t]).rewatch new)

/-- The issues of a terminal's watch list, in order. -/
def State.watchIssues (s : State) (t : TermNo) : List Nat := (s.terminals[t]).watch.map WatchEntry.issue

/-- An issue appended to a list: its checks after the LISTED one, and the change (R141, R147). -/
def State.watchAppend (s : State) (t : TermNo) (n : Nat) : State × Result :=
  let w := s.watchIssues t
  if n ∈ w then (s, .duplicate)
  else if w.length < Config.watchPlaces then (s.rewatch t (w ++ [n]), .done)
  else (s, .listFull)

/-- An issue removed from a list (R142, R147). -/
def State.watchRemove (s : State) (t : TermNo) (n : Nat) : State × Result :=
  let w := s.watchIssues t
  if n ∈ w then (s.rewatch t (w.erase n), .done) else (s, .notPresent)

/-! ### Requests -/

/-- The issue a request's symbol field finds (R22). -/
def State.lookup (s : State) (field : Text) : Option Nat :=
  match symbolOf field with
  | none => none
  | some sym => findSymbol s.issues.records sym

/-- The record view of a QUOTE reply (R140, R203). -/
def recordView (r : IssueRecord) : Text :=
  textField r.symbol ++ priceField r.denom (some r.last) ++ priceField r.denom (some r.close)
    ++ textField (changeText r.denom r.netChange) ++ priceField r.denom r.high ++ priceField r.denom r.low
    ++ textField (volumeText r.volume) ++ priceField r.denom r.bid ++ priceField r.denom r.ask
    ++ [stateChar r]

/-- QUOTE (R140). -/
def quoteRun (field : Text) (_t : TermNo) (s : State) : Answered :=
  match (s.lookup field).bind (findRecord s.issues.records) with
  | none => ⟨s, replyChars 0x01 .noIssue [], none⟩
  | some r => ⟨s, replyChars 0x01 .done (recordView r), none⟩

/-- WATCH ADD (R141). -/
def watchAddRun (field : Text) (t : TermNo) (s : State) : Answered :=
  match s.lookup field with
  | none => ⟨s, replyChars 0x02 .noIssue [], none⟩
  | some n =>
    let (s, r) := s.watchAppend t n
    ⟨s, replyChars 0x02 r [], none⟩

/-- WATCH DROP (R142). -/
def watchDropRun (field : Text) (t : TermNo) (s : State) : Answered :=
  match s.lookup field with
  | none => ⟨s, replyChars 0x03 .notPresent [], none⟩
  | some n =>
    let (s, r) := s.watchRemove t n
    ⟨s, replyChars 0x03 r [], none⟩

/-- Whether a limit lies in the range of its condition; the other conditions do not read it (R3, R161). -/
def limitOk (c : Condition) (limit : Int) : Bool :=
  match c with
  | .lastAbove => decide (1 ≤ limit ∧ limit ≤ Config.maxPrice)
  | .lastBelow => decide (1 ≤ limit ∧ limit ≤ Config.maxPrice)
  | .changeAbove => decide (-Config.maxChange ≤ limit ∧ limit ≤ Config.maxChange)
  | .changeBelow => decide (-Config.maxChange ≤ limit ∧ limit ≤ Config.maxChange)
  | _ => true

/-- The limit a slot takes: the operand for the price and change conditions, 0 for the others (R161). -/
def limitTaken (c : Condition) (limit : Int) : Int :=
  match c with
  | .lastAbove => limit
  | .lastBelow => limit
  | .changeAbove => limit
  | .changeBelow => limit
  | _ => 0

/-- A slot number of 0 to 7 (R161). -/
def slotOf (slot : Byte) : Option SlotNo :=
  if h : slot.toNat < 8 then some ⟨slot.toNat, h⟩ else none

/-- The checks of a setting in the order of R161, and the slot set ARMED. `issue` answers the issue or the
result code of its own check, made in its place in the order (R161, R162). -/
def State.setSlot (s : State) (t : TermNo) (slot cond neg : Byte) (limit : Int) (issue : Except Result Nat) :
    Except Result (State × SlotNo) :=
  match slotOf slot, conditionOf cond, yesNo neg with
  | some k, some c, some ng =>
    match issue with
    | .error e => .error e
    | .ok n =>
      if limitOk c limit then
        .ok (s.setAlert t k (some ⟨false, n, c, ng, limitTaken c limit, false⟩), k)
      else .error .badOperand
  | _, _, _ => .error .badOperand

/-- ALERT SET (R161). -/
def alertSetRun (slot : Byte) (field : Text) (cond neg : Byte) (limit : BitVec 32) (t : TermNo) (s : State) :
    Answered :=
  let issue : Except Result Nat :=
    match s.lookup field with
    | none => .error .noIssue
    | some n => .ok n
  match s.setSlot t slot cond neg limit.toInt issue with
  | .error e => ⟨s, replyChars 0x04 e [], none⟩
  | .ok (s, k) => ⟨s, replyChars 0x04 .done [], some k⟩

/-- ALERT CLEAR (R161). -/
def alertClearRun (slot : Byte) (t : TermNo) (s : State) : Answered :=
  match slotOf slot with
  | none => ⟨s, replyChars 0x05 .badOperand [], none⟩
  | some k => ⟨s.setAlert t k none, replyChars 0x05 .done [], none⟩

/-- A request of unknown kind or too short for its kind (R139). A request of no character has no kind to be
carried by its reply: a free value stands there (logs 8 and 23). -/
def badRequestRun (request : Text) (_t : TermNo) (s : State) : Answered :=
  match request with
  | kind :: _ => ⟨s, replyChars kind .badOperation [], none⟩
  | [] => ⟨s.drawFree 1, replyChars (s.freeAt 0) .badOperation [], none⟩

/-- QUOTE_REQUEST (R140). -/
def execQuoteRequest (l : LineNo) (symbol : Text) (s : State) : Host.Outcome State Fault Refusal :=
  .next (s.request l (quoteRun symbol))

/-- WATCH_ADD (R141). -/
def execWatchAdd (l : LineNo) (symbol : Text) (s : State) : Host.Outcome State Fault Refusal :=
  .next (s.request l (watchAddRun symbol))

/-- WATCH_DROP (R142). -/
def execWatchDrop (l : LineNo) (symbol : Text) (s : State) : Host.Outcome State Fault Refusal :=
  .next (s.request l (watchDropRun symbol))

/-- ALERT_SET (R161). -/
def execAlertSet (l : LineNo) (slot : Byte) (symbol : Text) (cond neg : Byte) (limit : BitVec 32) (s : State) :
    Host.Outcome State Fault Refusal :=
  .next (s.request l (alertSetRun slot symbol cond neg limit))

/-- ALERT_CLEAR (R161). -/
def execAlertClear (l : LineNo) (slot : Byte) (s : State) : Host.Outcome State Fault Refusal :=
  .next (s.request l (alertClearRun slot))

/-- REQUEST_BAD_OPERATION (R139). -/
def execRequestBadOperation (l : LineNo) (request : Text) (s : State) : Host.Outcome State Fault Refusal :=
  .next (s.request l (badRequestRun request))

/-! ### Answers to a select -/

/-- A RECEIVED taken from an enabled terminal (R134, R138, R144). -/
def State.receivedAt (s : State) (t : TermNo) (c : Carried) : State :=
  let s := s.answerTaken t
  match c with
  | .queued =>
      (s.setTerm t { s.terminals[t] with queue := (s.terminals[t]).queue.tail }).freePlaces t
  | _ => s

/-- RECEIVED (R131, R138). -/
def execReceived (l : LineNo) (s : State) : Host.Outcome State Fault Refusal :=
  match (s.termLines[l]).selectAwaited with
  | none => .next s
  | some (x, c) =>
    if s.heard l x then .next ((s.receivedAt (termOf l x.drop) c).endTransaction l)
    else .next (s.endTransaction l)

/-- A BUSY counted (R138, R152). -/
def State.countBusy (s : State) (l : LineNo) : State :=
  s.countLine l fun x => { x with busies := satInc x.busies }

/-- BUSY (R131, R138). -/
def execBusy (l : LineNo) (s : State) : Host.Outcome State Fault Refusal :=
  match (s.termLines[l]).selectAwaited with
  | none => .next s
  | some (x, c) =>
    let t := termOf l x.drop
    let u := s.countBusy l
    if s.heard l x then
      let v := u.answerTaken t
      .next ((v.setTerm t ((v.terminals[t]).restored c)).endTransaction l)
    else .next (u.endTransaction l)

/-- A missed answer counted on its line (R135, R152). -/
def State.countMiss (s : State) (l : LineNo) : State :=
  s.countLine l fun x => { x with timeouts := satInc x.timeouts }

/-- What a missed select restores (R138, R151). -/
def State.restoreMissed (s : State) (t : TermNo) (st : Stage) : State :=
  match st with
  | .selectWait sel _ => s.setTerm t ((s.terminals[t]).restored sel.carried)
  | _ => s

/-- Whether the wait of a stage has run out. -/
def Stage.due : Stage → Bool
  | .pollWait 0 => true
  | .selectWait _ 0 => true
  | _ => false

/-- TERMINAL_ANSWER_WAIT_EXPIRY, due when the wait has run out (R131, R135, R138). -/
def execTerminalAnswerWaitExpiry (l : LineNo) (s : State) : Host.Outcome State Fault Refusal :=
  match (s.termLines[l]).inFlight with
  | none => .next s
  | some x =>
    if x.stage.due then
      let t := termOf l x.drop
      let u := s.countMiss l
      if s.heard l x then .next (((u.missTerm t).restoreMissed t x.stage).endTransaction l)
      else .next (u.endTransaction l)
    else .next s

/-- TERMINAL_OTHER_CHARACTER: discarded, and a running wait runs on (R133, R138). -/
def execTerminalOtherCharacter (_l : LineNo) (_c : Byte) (s : State) : Host.Outcome State Fault Refusal :=
  .next s

/-! ### Change notices -/

/-- A terminal at a notice: the fields it names join the pending set of its entry of the issue, unless it is
DISABLED (R150). -/
def Terminal.noticed (x : Terminal) (n : ChangeNotice) : Terminal :=
  if x.state = .disabled then x
  else { x with watch := addPending x.watch n.issue (n.fields.inter .terminal) }

/-- TERMINAL_CHANGE_NOTICE: each terminal marked in the notice's watcher mask (R150). -/
def execTerminalChangeNotice (s : State) : Host.Outcome State Fault Refusal :=
  match s.terminalNotices with
  | [] => .next s
  | n :: rest =>
    .next { s with
      terminalNotices := rest
      terminals := Vector.ofFn fun t =>
        if n.watchers.getLsbD t.val then (s.terminals[t]).noticed n else s.terminals[t] }

/-! ### Enabling, disabling and RESTART -/

/-- A terminal disabled (R131). -/
def Terminal.disable (x : Terminal) : Terminal :=
  { x with
    state := .disabled
    queue := []
    watch := x.watch.map fun e => { e with pending := .empty }
    lengthOwed := false
    feedOwed := false
    timeouts := 0 }

/-- SET TERMINAL DISABLE; a transaction in flight to the terminal runs on, cut (R130, R131). -/
def State.disableTerm (s : State) (t : TermNo) : State :=
  if (s.terminals[t]).enabled then
    let s := s.setTerm t (s.terminals[t]).disable
    s.countLine (termLine t) fun x =>
      { x with inFlight := x.inFlight.map fun y => if y.drop = termDrop t then { y with cut := true } else y }
  else s

/-- SET TERMINAL ENABLE: the eight places are freed and an idle line chooses (R130, R132, R144). -/
def State.enableTerm (s : State) (t : TermNo) : State :=
  if (s.terminals[t]).enabled then s
  else
    ((s.setTerm t { s.terminals[t] with state := .unknown, timeouts := 0 }).freePlaces t).chooseTerm
      (termLine t)

/-- A terminal at RESTART, before its places are freed (R154). -/
def Terminal.restart (x : Terminal) : Terminal :=
  if x.state = .disabled then x
  else
    { x with
      state := .unknown
      timeouts := 0
      queue := []
      feedOwed := false
      watch := allPending x.watch
      lengthOwed := true
      cursor := 23 }

/-- The Terminal Line Controllers' part of RESTART, before the lines choose (R154). DESIGN CHOICE: characters being
sent are cut in the RESTART's own step; the end of the character being sent is no event of its own (log 40). -/
def State.restartTerminals (s : State) : State :=
  let s := { s with
    terminals := s.terminals.map Terminal.restart
    termLines := s.termLines.map fun x =>
      { pollPtr := 7, inFlight := none, timeouts := 0, busies := 0, retries := 0, lastAck := x.lastAck } }
  (List.finRange 32).foldl
    (fun s t => if (s.terminals[t]).enabled then s.freePlaces t else s) s

/-- The choice of every terminal line that is idle. -/
def State.chooseTerms (s : State) : State := (List.finRange 4).foldl State.chooseTerm s

end Sys2Proof.Machine
end

