-- ==== Sys2Proof/Machine/DataSteps.lean ====
section
/-! DEFINITION. The Issue Table (chapter 2): taking the data message at the head of the hand-over queue, its
verdict (R27), its application to the record, and the change notice and tape entries that follow. -/

namespace Sys2Proof.Machine

/-! ### Notices and tape entries -/

/-- The change notice of an issue, its record as the application left it (R28). -/
def noticeOf (n : Nat) (r : IssueRecord) (fs : FieldSet) : ChangeNotice where
  issue := n
  fields := fs
  tick := r.tick
  halted := r.halted
  rows := r.rows
  watchers := r.watchers

/-- Notices delivered, in order, to the four blocks (R28, log 3). -/
def State.deliver (s : State) (ns : List ChangeNotice) : State :=
  { s with
    boardNotices := s.boardNotices ++ ns
    lampNotices := s.lampNotices ++ ns
    terminalNotices := s.terminalNotices ++ ns
    alertNotices := s.alertNotices ++ ns }

/-- A record stored, with the notice of its application. -/
def State.applyRecord (s : State) (n : Nat) (r : IssueRecord) (fs : FieldSet) : State :=
  (s.setRecords (putRecord s.issues.records n r)).deliver [noticeOf n r fs]

/-- A tape entry handed to each eligible channel (R29). -/
def State.handEligible (s : State) (r : IssueRecord) (i : TapeItem) : State :=
  let s := if r.eligA then s.handTape .a i else s
  if r.eligB then s.handTape .b i else s

/-! ### What an application does to a record -/

/-- Last set, and the net change with it (R4). -/
def IssueRecord.setLast (r : IssueRecord) (p : Nat) : IssueRecord :=
  { r with last := p, netChange := (p : Int) - r.close }

/-- High and low widened to a price, or set to it where absent (R20). -/
def IssueRecord.widen (r : IssueRecord) (p : Nat) : IssueRecord :=
  { r with
    high := some (max p (r.high.getD p))
    low := some (min p (r.low.getD p)) }

/-- High and low as a last-setting print leaves them: set to its price when traded was clear, else widened
(R20, R30). -/
def IssueRecord.range (r : IssueRecord) (p : Nat) : IssueRecord :=
  if r.traded then r.widen p else { r with high := some p, low := some p }

/-- A volume added, up to the limit (R10). -/
def IssueRecord.addVolume (r : IssueRecord) (v : Nat) : IssueRecord :=
  { r with volume := min (r.volume + v) Config.maxVolume }

/-- What the tick test compares with: last when traded is set, close when clear (R5). -/
def IssueRecord.reference (r : IssueRecord) : Nat := if r.traded then r.last else r.close

/-- A last-setting print (R30). -/
def IssueRecord.print (r : IssueRecord) (p v : Nat) : IssueRecord :=
  { ((r.setLast p).range p).addVolume v with
    tick := tickTest p r.reference r.tick
    traded := true }

/-- The opening values of the trading fields, over a close (R19). -/
def IssueRecord.opening (r : IssueRecord) (close : Nat) : IssueRecord :=
  { r with
    close := close
    last := close
    netChange := 0
    tick := .none
    traded := false
    high := none
    low := none
    volume := 0
    bid := none
    ask := none
    halted := false }

/-- The open of one record (R36). -/
def IssueRecord.openDay (r : IssueRecord) (roll : Bool) : IssueRecord :=
  r.opening (if roll && r.traded then r.last else r.close)

/-! ### Verdicts -/

/-- What the Issue Table decides of a data message (R27). -/
inductive Verdict where
  | applied
  | discarded
  | refused
deriving DecidableEq, Repr

/-- A verdict counted by the Feed Receiver (R54). -/
def Verdict.count (v : Verdict) (c : FeedCounts) : FeedCounts :=
  match v with
  | .applied => c
  | .discarded => { c with discarded := satInc c.discarded }
  | .refused => { c with refused := satInc c.refused }

/-- The issue number a data message carries (R199). -/
def issueAt (body : Text) : Nat := readNat body 3 2

/-- The volume of a print, none for 0; one over 99,999,999 is clamped (R11). -/
def printVolume (body : Text) : Option Nat :=
  let v := readNat body 9 4
  if v = 0 then none else some (min v Config.maxPrintVolume)

/-- Steps 3 and 4 of R27 for a message that a closed session discards: the record it names, or its verdict. -/
def State.gate (s : State) (body : Text) : Except Verdict IssueRecord :=
  match s.issues.session, listed s (issueAt body) with
  | .closed, _ => .error .discarded
  | .opened, none => .error .refused
  | .opened, some r => .ok r

/-- The price and volume of a print that passes R27, with its record. -/
def State.gatePrint (s : State) (body : Text) : Except Verdict (IssueRecord × Nat × Nat) :=
  match s.gate body with
  | .error v => .error v
  | .ok r =>
    match feedPriceAt body 5, printVolume body with
    | some p, some v => .ok (r, p, v)
    | _, _ => .error .refused

/-! ### Applications -/

/-- The PRINT entry of a print (R29). -/
def printItem (n : Nat) (r : IssueRecord) (p v : Nat) (x : Suffix) : TapeItem :=
  .print n r.symbol r.denom p v x

/-- The fields a last-setting print names (R5, R30). -/
def printFields (t : Tick) : FieldSet :=
  { FieldSet.empty with last := true, change := true, volume := true, state := true, lamps := tickNamesLamps t }

/-- VOLUME alone. -/
def FieldSet.volumeOnly : FieldSet := { FieldSet.empty with volume := true }

/-- BIDASK alone. -/
def FieldSet.bidaskOnly : FieldSet := { FieldSet.empty with bidask := true }

/-- STATE and LAMPS. -/
def FieldSet.stateLamps : FieldSet := { FieldSet.empty with state := true, lamps := true }

/-- LAST and CHANGE. -/
def FieldSet.lastChange : FieldSet := { FieldSet.empty with last := true, change := true }

/-- A regular print applied (R30). -/
def State.tradePrint (s : State) (n : Nat) (r : IssueRecord) (p v : Nat) : State :=
  let q := r.print p v
  (s.applyRecord n q (printFields q.tick)).handEligible q (printItem n q p v .none)

/-- TRADE with the out-of-sequence flag clear (R30). -/
def applyTrade (body : Text) (s : State) : State × Verdict :=
  match s.gatePrint body with
  | .error v => (s, v)
  | .ok (r, p, v) => (s.tradePrint (issueAt body) r p v, .applied)

/-- An out-of-sequence print applied (R31). -/
def State.latePrint (s : State) (n : Nat) (r : IssueRecord) (p v : Nat) : State :=
  let q := r.addVolume v
  (s.applyRecord n q .volumeOnly).handEligible q (printItem n q p v .star)

/-- TRADE with the out-of-sequence flag set (R31). -/
def applyLate (body : Text) (s : State) : State × Verdict :=
  match s.gatePrint body with
  | .error v => (s, v)
  | .ok (r, p, v) => (s.latePrint (issueAt body) r p v, .applied)

/-- An alternate print applied: Tape B alone is handed its entry (R32). -/
def State.alternatePrint (s : State) (n : Nat) (r : IssueRecord) (p v : Nat) : State :=
  let q := r.addVolume v
  let s := s.applyRecord n q .volumeOnly
  if q.eligB then s.handTape .b (printItem n q p v .hash) else s

/-- An alternate print (R32). -/
def applyAlternate (body : Text) (s : State) : State × Verdict :=
  match s.gatePrint body with
  | .error v => (s, v)
  | .ok (r, p, v) => (s.alternatePrint (issueAt body) r p v, .applied)

/-- One side of a QUOTE: absent when its flag is clear, its price when set; none when that price is refused
(R2, R33). -/
def quoteSide (present : Bool) (body : Text) (i : Nat) : Option (Option Nat) :=
  if present then (feedPriceAt body i).map some else some none

/-- A quote applied (R33). -/
def State.setQuote (s : State) (n : Nat) (r : IssueRecord) (bid ask : Option Nat) : State :=
  s.applyRecord n { r with bid := bid, ask := ask } .bidaskOnly

/-- QUOTE (R33). -/
def applyQuote (body : Text) (s : State) : State × Verdict :=
  match s.gate body with
  | .error v => (s, v)
  | .ok r =>
    let flags := byteAt body 5
    match quoteSide (flags.getLsbD 0) body 6, quoteSide (flags.getLsbD 1) body 10 with
    | some bid, some ask => (s.setQuote (issueAt body) r bid ask, .applied)
    | _, _ => (s, .refused)

/-- The event of an ISSUE STATUS: whether it halts (R199). -/
def haltEvent (c : Byte) : Option Bool := if c = 1 then some true else if c = 2 then some false else none

/-- The marker of an ISSUE STATUS (R34). -/
def statusItem (n : Nat) (symbol : Text) (halt : Bool) : TapeItem :=
  if halt then .halt n symbol else .resume n symbol

/-- A halt or resumption applied (R34). -/
def State.setHalted (s : State) (n : Nat) (r : IssueRecord) (halt : Bool) : State :=
  let q := { r with halted := halt }
  (s.applyRecord n q .stateLamps).handEligible q (statusItem n q.symbol halt)

/-- ISSUE STATUS, applied in either session state (R27, R34). -/
def applyStatus (body : Text) (s : State) : State × Verdict :=
  match listed s (issueAt body), haltEvent (byteAt body 5) with
  | some r, some halt => (s.setHalted (issueAt body) r halt, .applied)
  | _, _ => (s, .refused)

/-- A correction mismatched (R35). -/
def State.mismatch (s : State) : State :=
  { s with issues := { s.issues with mismatches := satInc s.issues.mismatches } }

/-- A correction applied (R35). -/
def State.correct (s : State) (n : Nat) (r : IssueRecord) (p : Nat) : State :=
  let q := (r.setLast p).widen p
  (s.applyRecord n q .lastChange).handEligible q (.corr n q.symbol q.denom p)

/-- A correction that passes R27: applied when traded is set and last is the old price, else mismatched
(R35). -/
def State.correction (s : State) (n : Nat) (r : IssueRecord) (old new : Nat) : State :=
  if r.traded ∧ r.last = old then s.correct n r new else s.mismatch

/-- CORRECTION (R35). -/
def applyCorrection (body : Text) (s : State) : State × Verdict :=
  match s.gate body with
  | .error v => (s, v)
  | .ok r =>
    match feedPriceAt body 5, feedPriceAt body 9 with
    | some old, some new => (s.correction (issueAt body) r old new, .applied)
    | _, _ => (s, .refused)

/-! ### The session -/

/-- The full silence window in cs (R56). -/
def State.windowCs (s : State) : Nat := s.control.window * 100

/-- The return of the feed to LIVE, with its notice and deliveries (R58). -/
def State.returnLive (s : State) : State :=
  match s.feed.feedState with
  | .live => s
  | .quiet =>
    (({ s with feed := { s.feed with feedState := .live } }.raise 0x04 []).tellBoards .live).tellTerminals

/-- Steps 1 and 2 of R36: the clock when present, the session OPEN, and the silence timer started when the
session was CLOSED (R14, R56). -/
def State.openSession (s : State) (clockPresent : Bool) (clock : BitVec 32) : State :=
  { s with
    issues := { s.issues with
      clock := if clockPresent then clock else s.issues.clock
      session := .opened }
    feed := { s.feed with
      silence := if s.issues.session = .closed then some s.windowCs else s.feed.silence } }

/-- Step 3 of R36: every row's lamps put out, and idle lines choose (R127). DESIGN CHOICE: the rows are marked in
ascending number, where the manual gives no order among them (log 37). -/
def State.announceOpen (s : State) : State := (s.darkenRows (List.finRange 128)).chooseBoards

/-- Step 4 of R36: each LISTED record opened and its full notice issued, in ascending order of number. -/
def State.openRecords (s : State) (roll : Bool) : State :=
  let rs := mapRecords (fun _ r => r.openDay roll) s.issues.records
  (s.setRecords rs).deliver (rs.map fun p => noticeOf p.1 p.2 .full)

/-- MARKET OPEN (R36). One whose event is neither OPEN nor CLOSE is refused (R27, log 15). -/
def applyOpen (body : Text) (s : State) : State × Verdict :=
  if byteAt body 3 = 1 then
    let flags := byteAt body 4
    (((s.openSession (flags.getLsbD 0) (BitVec.ofNat 32 (readNat body 5 4))).announceOpen).openRecords
      (flags.getLsbD 1), .applied)
  else (s, .refused)

/-- The session CLOSED and the silence timer stopped (R37, R56). -/
def State.closeSession (s : State) : State :=
  { s with
    issues := { s.issues with session := .closed }
    feed := { s.feed with silence := none } }

/-- MARKET CLOSE (R37). The feed is LIVE whenever the session is CLOSED, so a feed still QUIET first returns
to LIVE (R59, log 12). -/
def applyClose (body : Text) (s : State) : State × Verdict :=
  if byteAt body 3 = 2 then (s.returnLive.closeSession, .applied) else (s, .refused)

/-! ### Taking the head of the hand-over queue -/

/-- The body at the head of the hand-over queue, when it is a data message of a kind and no operation is in hand:
the message after an operation waits until it has been executed (R50, R54). -/
def State.dataHead (s : State) (k : DataKind) : Option Text :=
  match s.control.inHand, s.feed.handOver with
  | none, h :: _ => if h.sorted = .data k then some h.body else none
  | _, _ => none

/-- The card with the head of the hand-over queue taken (R54). -/
def State.dropHead (s : State) : State :=
  { s with feed := { s.feed with handOver := s.feed.handOver.tail } }

/-- A data message taken: applied, discarded or refused, and its verdict counted (R27, R54). When the head is
not a message of this step, the step is not due (log 1). -/
def State.takeData (s : State) (k : DataKind) (mine : Text → Bool) (apply : Text → State → State × Verdict) :
    Host.Outcome State Fault Refusal :=
  match s.dataHead k with
  | none => .next s
  | some body =>
    if mine body then
      let r := apply body s.dropHead
      .next (r.1.countFeed r.2.count)
    else .next s

/-- The out-of-sequence flag of a TRADE (R199). -/
def outOfSequence (body : Text) : Bool := (byteAt body 13).getLsbD 0

/-- HEARTBEAT (R27). -/
def execHeartbeat (s : State) : Host.Outcome State Fault Refusal :=
  s.takeData .heartbeat (fun _ => true) fun _ s => (s, .applied)

/-- TRADE (R30). -/
def execTrade (s : State) : Host.Outcome State Fault Refusal :=
  s.takeData .trade (fun b => !outOfSequence b) applyTrade

/-- OUT_OF_SEQUENCE_TRADE (R31). -/
def execOutOfSequenceTrade (s : State) : Host.Outcome State Fault Refusal :=
  s.takeData .trade outOfSequence applyLate

/-- ALTERNATE_PRINT (R32). -/
def execAlternatePrint (s : State) : Host.Outcome State Fault Refusal :=
  s.takeData .alternate (fun _ => true) applyAlternate

/-- QUOTE (R33). -/
def execQuote (s : State) : Host.Outcome State Fault Refusal :=
  s.takeData .quote (fun _ => true) applyQuote

/-- ISSUE_STATUS (R34). -/
def execIssueStatus (s : State) : Host.Outcome State Fault Refusal :=
  s.takeData .issueStatus (fun _ => true) applyStatus

/-- CORRECTION (R35). -/
def execCorrection (s : State) : Host.Outcome State Fault Refusal :=
  s.takeData .correction (fun _ => true) applyCorrection

/-- MARKET_OPEN (R36); it also takes a MARKET message of unknown event, which it refuses (log 15). -/
def execMarketOpen (s : State) : Host.Outcome State Fault Refusal :=
  s.takeData .market (fun b => byteAt b 3 != 2) applyOpen

/-- MARKET_CLOSE (R37); it also takes a MARKET message of unknown event, which it refuses (log 15). -/
def execMarketClose (s : State) : Host.Outcome State Fault Refusal :=
  s.takeData .market (fun b => byteAt b 3 != 1) applyClose

end Sys2Proof.Machine
end

