-- ==== Sys2Proof/Machine/FeedSteps.lean ====
section
/-! DEFINITION. The Feed Receiver (chapter 3): sorting a checked frame, the sequence check, silence, the
hand-over queue and the through path; and the power-on, clock and switch steps of the card. -/

namespace Sys2Proof.Machine

/-! ### The through path -/

/-- The through queue served: messages doomed by the switch are discarded at the head, the next is sent
(R61, R63). -/
def nextThrough : List ThroughEntry → Option ThroughEntry × List ThroughEntry
  | [] => (none, [])
  | e :: es => if e.doomed then nextThrough es else (some e, es)

/-- Feed Through begins the next frame when it is free (R61). -/
def FeedReceiver.pump (f : FeedReceiver) : FeedReceiver :=
  if f.transmitting.isSome then f
  else { f with transmitting := (nextThrough f.through).1, through := (nextThrough f.through).2 }

/-- A message at the tail of the through queue, with the serial of its check (R61). -/
def FeedReceiver.queueThrough (f : FeedReceiver) (x : Frame) : FeedReceiver :=
  { f with through := f.through ++ [⟨x, f.serial, false⟩] }

/-- A checked message placed in the through queue, or lost and counted; nothing while the switch is off
(R61, R62, R63). -/
def State.repeatFrame (s : State) (f : Frame) : State :=
  if s.throughSwitch then
    if s.feed.through.length < Config.throughPlaces then
      { s with feed := (s.feed.queueThrough f).pump }
    else s.countFeed fun c => { c with throughLoss := satInc c.throughLoss }
  else s

/-- THROUGH_FRAME_END: the transmitter is free and begins the next frame (R61). -/
def execThroughFrameEnd (s : State) : Host.Outcome State Fault Refusal :=
  match s.feed.transmitting with
  | none => .next s
  | some _ => .next { s with feed := { s.feed with transmitting := none }.pump }

/-! ### Sorting -/

/-- Whether a type is a data message's: the data block or the alternate print code (R46, R48). -/
def isDataType (alt t : Byte) : Bool :=
  decide (0x30 ≤ t.toNat ∧ t.toNat ≤ 0x36) || (alt != 0 && t == alt)

/-- The data message a type names; none for 36h (R46). -/
def kindOf (alt t : Byte) : Option DataKind :=
  if t = 0x30 then some .heartbeat
  else if t = 0x31 then some .trade
  else if t = 0x32 then some .quote
  else if t = 0x33 then some .issueStatus
  else if t = 0x34 then some .correction
  else if t = 0x35 then some .market
  else if alt ≠ 0 ∧ t = alt then some .alternate
  else none

/-- The body length of a type (R199). -/
def kindLength : DataKind → Nat
  | .heartbeat => 3
  | .trade => 14
  | .quote => 14
  | .issueStatus => 6
  | .correction => 13
  | .market => 9
  | .alternate => 14

/-- A message joins the hand-over queue, or is lost and counted (R54). -/
def State.handOn (s : State) (x : Sorted) (body : Text) : State :=
  if s.feed.handOver.length < Config.handOverPlaces then
    { s with feed := { s.feed with handOver := s.feed.handOver ++ [⟨x, body, s.feed.serial⟩] } }
  else s.countFeed fun c => { c with handOverLoss := satInc c.handOverLoss }

/-- A malformed message counted (R47). -/
def State.malformed (s : State) : State := s.countFeed fun c => { c with malformed := satInc c.malformed }

/-- The sequence check of a number (R51, R52). -/
def State.sequence (s : State) (n : Byte) : State :=
  let t : State := { s with feed := { s.feed with expected := n + 1, lock := true } }
  if s.feed.lock ∧ s.feed.expected ≠ n then
    (t.countFeed fun c => { c with gap := satInc c.gap }).raise 0x02 [s.feed.expected, n]
  else t

/-- A running silence timer restarted with the full window (R56). -/
def State.restartSilence (s : State) : State :=
  if s.issues.session = .opened then { s with feed := { s.feed with silence := some s.windowCs } } else s

/-- What every data message brings about at its check: the sequence check, the return to LIVE and the restart
of the silence timer (R46, R47, R52, R56, R58). -/
def State.dataChecked (s : State) (body : Text) : State :=
  ((if 3 ≤ body.length then s.sequence (byteAt body 2) else s).returnLive).restartSilence

/-- A data message handed on, or counted malformed (R46, R47, R54). -/
def State.sortData (s : State) (body : Text) : State :=
  match kindOf s.control.altCode (byteAt body 0) with
  | none => s.malformed
  | some k => if body.length < kindLength k then s.malformed else s.handOn (.data k) body

/-- Whether a control message is addressed to this card (R49). -/
def State.addressedHere (s : State) (body : Text) : Bool :=
  byteAt body 1 != 0 && byteAt body 1 == s.unitSwitch

/-- A control message sorted by its unit address: executed here as broadcast or addressed, or passed by; one
of 2 characters is malformed (R47, R49, R50). -/
def State.sortControl (s : State) (body : Text) : State :=
  if body.length < 3 then s.malformed
  else if byteAt body 1 = 0 then s.handOn (.control false) body
  else if s.addressedHere body then s.handOn (.control true) body
  else s

/-- Whether a checked message is repeated, the through path allowing (R49, R61). -/
def State.repeats (s : State) (body : Text) : Bool :=
  !(byteAt body 0 == 0x40 && s.addressedHere body)

/-- A checked message sorted and handed on (R46). -/
def State.sortChecked (s : State) (body : Text) : State :=
  if isDataType s.control.altCode (byteAt body 0) then (s.dataChecked body).sortData body
  else if byteAt body 0 = 0x40 then s.sortControl body
  else s.malformed

/-- A checked frame counted and numbered (R46, log 20). -/
def State.countFrame (s : State) : State :=
  { s with feed := { s.feed with
    counts := { s.feed.counts with received := satInc s.feed.counts.received }
    serial := s.feed.serial + 1 } }

/-- A checked frame counted, sorted, handed on and repeated (R46, R61). -/
def State.checked (s : State) (f : Frame) : State :=
  let t := s.countFrame.sortChecked f.body
  if s.repeats f.body then t.repeatFrame f else t

/-- FEED_IN_CHARACTER (R42 to R47). -/
def execFeedInCharacter (c : Byte) (s : State) : Host.Outcome State Fault Refusal :=
  let t : State := { s with feed := { s.feed with assembler := (assemble s.feed.assembler c).1 } }
  match (assemble s.feed.assembler c).2 with
  | .nothing => .next t
  | .failure => .next (t.countFeed fun n => { n with checkFailure := satInc n.checkFailure })
  | .frame f => .next (t.checked f)

/-! ### Silence -/

/-- The feed goes QUIET (R57). -/
def State.goQuiet (s : State) : State :=
  let s : State := { s with feed := { s.feed with
    feedState := .quiet
    silence := none
    lock := false
    counts := { s.feed.counts with quiet := satInc s.feed.counts.quiet } } }
  ((((s.raise 0x03 []).handTape .a .quiet).handTape .b .quiet).tellBoards .quiet).tellTerminals

/-- SILENCE_TIMER_EXPIRY, due when the silence timer has run out (R57). -/
def execSilenceTimerExpiry (s : State) : Host.Outcome State Fault Refusal :=
  if s.feed.silence = some 0 then .next s.goQuiet else .next s

/-! ### Switches, clock and power -/

/-- THROUGH_SWITCH_CHANGE: turned off, the switch dooms the messages that wait (R63). -/
def execThroughSwitchChange (on : Bool) (s : State) : Host.Outcome State Fault Refusal :=
  if on then .next { s with throughSwitch := true }
  else
    .next { s with
      throughSwitch := false
      feed := { s.feed with through := s.feed.through.map fun e => { e with doomed := true } } }

/-- A centisecond of a module's hold back-off. -/
def BoardModule.tick (m : BoardModule) : BoardModule := { m with backOff := tickTimer m.backOff }

/-- A centisecond of a transfer's answer wait. -/
def Transfer.tick (t : Transfer) : Transfer := { t with wait := tickTimer t.wait }

/-- A centisecond of a board line's timers. -/
def BoardLine.tick (b : BoardLine) : BoardLine :=
  { b with modules := b.modules.map BoardModule.tick, inFlight := b.inFlight.map Transfer.tick }

/-- A centisecond of an answer wait. -/
def Stage.tick (st : Stage) : Stage :=
  match st with
  | .pollSending c => .pollSending c
  | .pollWait left => .pollWait (left - 1)
  | .selectSending sel => .selectSending sel
  | .selectWait sel left => .selectWait sel (left - 1)

/-- A centisecond of a terminal line's answer wait. -/
def TermLine.tick (x : TermLine) : TermLine :=
  { x with inFlight := x.inFlight.map fun y => { y with stage := y.stage.tick } }

/-- A centisecond of a channel's flash timer. -/
def TapeChannel.tick (c : TapeChannel) : TapeChannel := { c with flashTimer := tickTimer c.flashTimer }

/-- A centisecond of a row's phase timer. -/
def RowLamps.tick (x : RowLamps) : RowLamps := { x with arrow := x.arrow.tickTimer }

/-- One centisecond of the time base: the market clock counts, and so does every running timer
(R13, R15, log 9). -/
def State.tick (s : State) : State :=
  { s with
    issues := { s.issues with clock := s.issues.clock + 1 }
    feed := { s.feed with silence := tickTimer s.feed.silence }
    tapeA := s.tapeA.tick
    tapeB := s.tapeB.tick
    boards := s.boards.map BoardLine.tick
    lamps := s.lamps.map RowLamps.tick
    termLines := s.termLines.map TermLine.tick }

/-- MARKET_CLOCK_TICK (R13, R15). -/
def execMarketClockTick (s : State) : Host.Outcome State Fault Refusal := .next s.tick

/-- POWER_ON: every block in its power-on state; the ready line from above is an input and keeps its level,
and the RESTARTED notice is begun as soon as that line is active (R65, R195, logs 6 and 28). -/
def execPowerOn (unitAddress : Byte) (throughOn : Bool) (s : State) : Host.Outcome State Fault Refusal :=
  let t := State.powerOn unitAddress throughOn s.upstream.readyAbove s.pending
  .next { t with upstream := t.upstream.arbitrate, freeCount := s.freeCount }

end Sys2Proof.Machine
end

