-- ==== Sys2Proof/Machine/ControlSteps.lean ====
section
/-! DEFINITION. The Control Unit (chapter 9): taking the control message at the head of the hand-over queue,
its claim and reply, and every operation but the reads (log 11). -/

namespace Sys2Proof.Machine

/-! ### Taking a control message -/

/-- What an operation leaves: the card, its result, and the data of a read (R166). -/
structure Done where
  card : State
  result : Result
  data : Text

/-- An operation refused changes nothing (R167). -/
def State.refuse (s : State) (r : Result) : Done := ⟨s, r, []⟩

/-- An operation executed (R167). -/
def State.done (s : State) : Done := ⟨s, .done, []⟩

/-- A body too short for its operands is refused before the operation's own checks (step 2 of R167). -/
def withLength (n : Nat) (run : Text → State → Done) (body : Text) (s : State) : Done :=
  if body.length < n then s.refuse .badOperand else run body s

/-- The operation code of a body; 00h stands for the one a body of 3 characters does not hold (R201). -/
def opCode (body : Text) : Byte := if body.length < 4 then 0 else byteAt body 3

/-- Whether a body carries an operation code (R200). -/
def opIs (code : Byte) (body : Text) : Bool := decide (4 ≤ body.length) && byteAt body 3 == code

/-- A reply body (R201). -/
def replyBody (unitAddress : Byte) (body : Text) (table : Byte) (d : Result) (data : Text) : Text :=
  0x41 :: unitAddress :: byteAt body 2 :: opCode body :: table :: resultCode d :: data

/-- The card with the operation in hand finished (R165). -/
def State.finished (s : State) : State := { s with control := { s.control with inHand := none } }

/-- An addressed message taken: a place of the reply queue is claimed and the operation is in hand (R164, R189). -/
def State.claim (s : State) (op : Operation) : State :=
  { s with
    upstream := { s.upstream with claims := s.upstream.claims + 1 }
    control := { s.control with inHand := some op } }

/-- A control message discarded for want of a reply place (R164, R187). -/
def State.discardControl (s : State) : State :=
  { s with control := { s.control with discards := satInc s.control.discards } }

/-- The reply of an operation joins the reply queue and fills its claim (R166, R189). -/
def Done.replied (d : Done) (body : Text) (table : Byte) : State :=
  { d.card with
    upstream := d.card.upstream.fill (replyBody d.card.unitSwitch body table d.result d.data) }

/-- Whether the reply queue has a free place (R164). -/
def State.replyFree (s : State) : Bool := decide (s.upstream.occupied < Config.replyPlaces)

/-- The claim of an addressed message at the head of the hand-over queue: it is taken into hand, or discarded when
no place is free (R164, R189). -/
def State.takeClaim (s : State) (op : Operation) : State :=
  if s.replyFree then s.claim op else s.discardControl

/-- The control message at the head of the hand-over queue: whether it was addressed, its body and the serial
of its frame (R54). -/
def State.controlHead (s : State) : Option (Bool × Operation) :=
  match s.feed.handOver with
  | [] => none
  | h :: _ =>
    match h.sorted with
    | .data _ => none
    | .control addressed => some (addressed, ⟨h.body, h.serial⟩)

/-- What a control command finds to do (R164, R165). -/
inductive Turn where
  /-- The operation in hand is to be executed. -/
  | execute (op : Operation)
  /-- The addressed message at the head is to be taken, with its claim. -/
  | claim (op : Operation)
  /-- The broadcast message at the head is to be taken and executed. -/
  | broadcast (op : Operation)
  /-- The command is not due (log 1). -/
  | waits
deriving DecidableEq, Repr

/-- The turn of a command that takes the messages `mine` tells: the operation in hand comes before the head, which
waits until it is executed (R165). -/
def State.turn (s : State) (mine : Text → Bool) : Turn :=
  match s.control.inHand with
  | some op => if mine op.body then .execute op else .waits
  | none =>
    match s.controlHead with
    | none => .waits
    | some (addressed, op) => if mine op.body then (if addressed then .claim op else .broadcast op) else .waits

/-- A control message taken. An addressed one takes two commands of its row: the first takes it from the queue and
claims its reply's place, the second executes it and its reply fills the claim; a broadcast one takes one command
and gets no reply (R164, R165, R166, R189, log 11). `table` is the table code of the reply, and `whole` what a
broadcast one does. -/
def State.takeControl (s : State) (mine : Text → Bool) (table : Text → Byte) (run whole : Text → State → Done) :
    Host.Outcome State Fault Refusal :=
  match s.turn mine with
  | .execute op => .next ((run op.body s.finished).replied op.body (table op.body))
  | .claim op => .next (s.dropHead.takeClaim op)
  | .broadcast op => .next (whole op.body s.dropHead).card
  | .waits => .next s

/-- An operation that is no read taken; a broadcast one does what an addressed one does. -/
def State.takeOperation (s : State) (mine : Text → Bool) (run : Text → State → Done) :
    Host.Outcome State Fault Refusal :=
  s.takeControl mine (fun _ => 0) run run

/-! ### No operation -/

/-- Whether an operation code names an operation, 01h to 10h (R200). -/
def opKnown (c : Byte) : Bool := decide (1 ≤ c.toNat ∧ c.toNat ≤ 16)

/-- Whether a table code is in use, 01h to 08h (R200). -/
def tableKnown (c : Byte) : Bool := decide (1 ≤ c.toNat ∧ c.toNat ≤ 8)

/-- A control message that no other step takes: one with no operation code, one with an unknown code, and a
READ with no table code or an unknown one (R164, R167, R181, log 14). -/
def noOperation (body : Text) : Bool :=
  if opIs 0x10 body then decide (body.length < 5) || !tableKnown (byteAt body 4)
  else !opKnown (opCode body)

/-- The result of a message that names no operation (R164, R167, R181). -/
def noOperationResult (body : Text) : Result :=
  if opIs 0x10 body then if body.length < 5 then .badOperand else .badTable else .badOperation

/-- The table code its reply carries: the code a READ carries, 00h for no read. A READ of 4 characters has no
table code, and a free value stands there (R201, log 8). -/
def noOperationTable (s : State) (body : Text) : Byte :=
  if opIs 0x10 body then if body.length < 5 then s.freeAt 0 else byteAt body 4 else 0

/-- The refusal of a message that names no operation. -/
def noOperationRun (body : Text) (s : State) : Done :=
  (if opIs 0x10 body ∧ body.length < 5 then s.drawFree 1 else s).refuse (noOperationResult body)

/-- NO_OPERATION_CODE (R164, R167). -/
def execNoOperationCode (s : State) : Host.Outcome State Fault Refusal :=
  s.takeControl noOperation (noOperationTable s) noOperationRun fun _ s => s.done

/-! ### Issues -/

/-- A display denominator of 8, 16, 32 or 64 (R9). -/
def denomOk (c : Byte) : Bool := c == 8 || c == 16 || c == 32 || c == 64

/-- Whether a record other than n holds a symbol (R21, R38). -/
def symbolHeld (records : Records) (n : Nat) (symbol : Text) : Bool :=
  records.any fun p => p.1 != n && p.2.symbol == symbol

/-- A record with no issue in it; LOAD ISSUE fills one for a FREE number (R18). -/
def IssueRecord.vacant : IssueRecord where
  symbol := []
  denom := 8
  eligA := false
  eligB := false
  close := 0
  last := 0
  netChange := 0
  tick := .none
  traded := false
  high := none
  low := none
  volume := 0
  bid := none
  ask := none
  halted := false
  rows := []
  watchers := 0

/-- A record as LOAD ISSUE leaves it; the links are kept (R38). -/
def IssueRecord.load (r : IssueRecord) (symbol : Text) (denom close : Nat) (a b : Bool) : IssueRecord :=
  { r.opening close with symbol := symbol, denom := denom, eligA := a, eligB := b }

/-- An issue loaded, with its full notice (R38). -/
def State.loadIssue (s : State) (n : Nat) (symbol : Text) (denom close : Nat) (a b : Bool) : State :=
  s.applyRecord n (((findRecord s.issues.records n).getD .vacant).load symbol denom close a b) .full

/-- LOAD ISSUE: its checks in the order of R38 and R169. -/
def loadIssueRun (body : Text) (s : State) : Done :=
  let n := readNat body 4 2
  let close := readNat body 11 3
  if n = 0 then s.refuse .noIssue
  else if Config.maxIssue < n then s.refuse .badOperand
  else
    match symbolAt body 6, denomOk (byteAt body 10), yesNo (byteAt body 14), yesNo (byteAt body 15) with
    | some symbol, true, some a, some b =>
      if close = 0 ∨ Config.maxPrice < close then s.refuse .badOperand
      else if symbolHeld s.issues.records n symbol then s.refuse .duplicate
      else (s.loadIssue n symbol (byteAt body 10).toNat close a b).done
    | _, _, _, _ => s.refuse .badOperand

/-- LOAD_ISSUE (R38, R169). -/
def execLoadIssue (s : State) : Host.Outcome State Fault Refusal :=
  s.takeOperation (opIs 0x01) (withLength 16 loadIssueRun)

/-- Whether a row, a terminal, an alert slot or the flash list names an issue (R39). -/
def State.inUse (s : State) (n : Nat) (r : IssueRecord) : Bool :=
  !r.rows.isEmpty || r.watchers != 0 || s.alertNames n || s.issues.flashList.contains n

/-- DELETE ISSUE (R39). -/
def deleteIssueRun (body : Text) (s : State) : Done :=
  let n := readNat body 4 2
  if Config.maxIssue < n then s.refuse .badOperand
  else
    match listed s n with
    | none => s.refuse .noIssue
    | some r =>
      if s.inUse n r then s.refuse .inUse else (s.setRecords (freeRecord s.issues.records n)).done

/-- DELETE_ISSUE (R39). -/
def execDeleteIssue (s : State) : Host.Outcome State Fault Refusal :=
  s.takeOperation (opIs 0x02) (withLength 6 deleteIssueRun)

/-! ### The board map -/

/-- A record's row list as a row moves from one issue to another (R23). -/
def relink (r : RowNo) (old new : Option Nat) (n : Nat) (x : IssueRecord) : IssueRecord :=
  if old = new then x
  else if some n = old then { x with rows := x.rows.erase r }
  else if some n = new then { x with rows := x.rows ++ [r] }
  else x

/-- A module whose row is set: its dirty set and blanking, unless it is DARK (R96, R109). -/
def BoardModule.remap (m : BoardModule) (p : Option Mapping) : BoardModule :=
  if m.state = .dark then { m with mapping := p, dirty := .empty, blanking := false }
  else { m with mapping := p, dirty := { m with mapping := p }.shown, blanking := p.isNone }

/-- Whether the issue of a mapping is halted; a blank row is not (R126). -/
def State.mappingHalted (s : State) (p : Option Mapping) : Bool :=
  match p with
  | none => false
  | some q => ((findRecord s.issues.records q.issue).map IssueRecord.halted).getD false

/-- An accepted SET ROW: the row lists, the mapping and what waits, the lamps when the issue changed, and the
choice of an idle line (R23, R96, R110, R126). -/
def State.mapRow (s : State) (r : RowNo) (p : Option Mapping) : State :=
  let old := s.rowIssue r
  let new := p.map Mapping.issue
  let l := rowLine r
  let t := s.setRecords (mapRecords (relink r old new) s.issues.records)
  let t := t.setBoard l (t.boards[l].change (rowModule r) fun m => m.remap p)
  let t := if old = new then t else t.moveLamps r (RowLamps.remapped (s.mappingHalted p))
  t.chooseBoard l

/-- A field mask names one or more of SYMBOL, LAST, CHANGE, VOLUME and LAMPS, and no other field (R95). -/
def maskOk (c : Byte) : Bool := c &&& 0x1F != 0 && c &&& 0xE0 == 0

/-- SET ROW: its checks in the order of R95. -/
def setRowRun (body : Text) (s : State) : Done :=
  if hl : (byteAt body 4).toNat < 4 then
    if hm : (byteAt body 5).toNat < 32 then
      let r := rowOf ⟨_, hl⟩ ⟨_, hm⟩
      if byteAt body 6 = 1 then (s.mapRow r none).done
      else
        let n := readNat body 7 2
        if Config.maxIssue < n then s.refuse .badOperand
        else
          match listed s n with
          | none => s.refuse .noIssue
          | some x =>
            if maskOk (byteAt body 9) = false ∨ 3 < (byteAt body 10).toNat then s.refuse .badOperand
            else if (x.rows.filter fun q => q != r).length < Config.rowPlaces then
              (s.mapRow r (some ⟨n, FieldSet.ofByte (byteAt body 9), (byteAt body 10).toNat⟩)).done
            else s.refuse .rowLimit
    else s.refuse .badOperand
  else s.refuse .badOperand

/-- SET_ROW (R95, R96, R170). -/
def execSetRow (s : State) : Host.Outcome State Fault Refusal :=
  s.takeOperation (opIs 0x03) (withLength 11 setRowRun)

/-! ### Watch lists and alerts -/

/-- The terminal an operation names; a number over 31 is refused (R171, R172, R177). -/
def withTerminal (run : TermNo → Text → State → Done) (body : Text) (s : State) : Done :=
  if h : (byteAt body 4).toNat < 32 then run ⟨_, h⟩ body s else s.refuse .badOperand

/-- What an operation over a list of issues answers for the issues themselves: any over 1023, any that is 0 or
FREE, any twice (R147, R174). -/
def State.checkIssues (s : State) (ns : List Nat) : Option Result :=
  if ns.any (fun n => decide (Config.maxIssue < n)) then some .badOperand
  else if ns.any (fun n => (listed s n).isNone) then some .noIssue
  else if ns.Nodup then none
  else some .duplicate

/-- SET WATCH LIST (R147, R171). -/
def setWatchListRun (t : TermNo) (body : Text) (s : State) : Done :=
  let n := (byteAt body 5).toNat
  if body.length < 6 + 2 * n ∨ Config.watchPlaces < n then s.refuse .badOperand
  else
    match s.checkIssues (readIssues body 6 n) with
    | some e => s.refuse e
    | none => (s.rewatch t (readIssues body 6 n)).done

/-- SET_WATCH_LIST (R147). -/
def execSetWatchList (s : State) : Host.Outcome State Fault Refusal :=
  s.takeOperation (opIs 0x04) (withLength 6 (withTerminal setWatchListRun))

/-- A watch list change with its result (R141, R142, R147). -/
def doneOf (r : State × Result) : Done := ⟨r.1, r.2, []⟩

/-- ADD WATCH (R147, R171). -/
def addWatchRun (t : TermNo) (body : Text) (s : State) : Done :=
  let n := readNat body 5 2
  if Config.maxIssue < n then s.refuse .badOperand
  else
    match listed s n with
    | none => s.refuse .noIssue
    | some _ => doneOf (s.watchAppend t n)

/-- ADD_WATCH (R147). -/
def execAddWatch (s : State) : Host.Outcome State Fault Refusal :=
  s.takeOperation (opIs 0x05) (withLength 7 (withTerminal addWatchRun))

/-- DROP WATCH (R147, R171). -/
def dropWatchRun (t : TermNo) (body : Text) (s : State) : Done := doneOf (s.watchRemove t (readNat body 5 2))

/-- DROP_WATCH (R147). -/
def execDropWatch (s : State) : Host.Outcome State Fault Refusal :=
  s.takeOperation (opIs 0x06) (withLength 7 (withTerminal dropWatchRun))

/-- The issue of a SET ALERT, by number (R162). -/
def State.alertIssue (s : State) (n : Nat) : Except Result Nat :=
  if Config.maxIssue < n then .error .badOperand
  else if (listed s n).isNone then .error .noIssue
  else .ok n

/-- SET ALERT: the slot is set ARMED and evaluated (R161, R162, R172). -/
def setAlertRun (t : TermNo) (body : Text) (s : State) : Done :=
  match s.setSlot t (byteAt body 5) (byteAt body 8) (byteAt body 9) (readInt32 body 10)
      (s.alertIssue (readNat body 6 2)) with
  | .error e => s.refuse e
  | .ok (u, k) => (u.evaluate t k).done

/-- SET_ALERT (R162, R172). -/
def execSetAlert (s : State) : Host.Outcome State Fault Refusal :=
  s.takeOperation (opIs 0x07) (withLength 14 (withTerminal setAlertRun))

/-- CLEAR ALERT (R162, R172). -/
def clearAlertRun (t : TermNo) (body : Text) (s : State) : Done :=
  match slotOf (byteAt body 5) with
  | none => s.refuse .badOperand
  | some k => (s.setAlert t k none).done

/-- CLEAR_ALERT (R162, R172). -/
def execClearAlert (s : State) : Host.Outcome State Fault Refusal :=
  s.takeOperation (opIs 0x08) (withLength 6 (withTerminal clearAlertRun))

/-! ### Parameters -/

/-- The parameters of a SET TAPE, every value clamped (R87, R200). -/
def tapeOperands (body : Text) : TapeParams where
  normal := clamp 4 40 (byteAt body 5).toNat
  rush := clamp 4 40 (byteAt body 6).toNat
  thresholds :=
    { up1 := thresholdAt body 7
      up2 := thresholdAt body 10
      up3 := thresholdAt body 13
      down1 := thresholdAt body 16
      down2 := thresholdAt body 19
      down3 := thresholdAt body 22 }
  block := clamp 1 999999 (readNat body 25 3)
  minimum := clamp 0 999999 (readNat body 28 3)
  interval := clamp 10 600 (readNat body 31 2)

/-- Whether every scale is known and the thresholds stand in their order (R84, R87). -/
def Thresholds.ok (t : Thresholds) : Bool :=
  [t.up1, t.up2, t.up3, t.down1, t.down2, t.down3].all (fun x => decide (x.scale ≤ 3))
    && decide (t.down1.cs < t.up1.cs) && decide (t.down2.cs < t.up2.cs) && decide (t.down3.cs < t.up3.cs)
    && decide (t.up1.cs < t.up2.cs) && decide (t.up2.cs < t.up3.cs)

/-- Parameters loaded; an idle channel with an empty queue takes them up at once (R88). -/
def TapeChannel.loadParams (c : TapeChannel) (p : TapeParams) : TapeChannel :=
  { c with
    loaded := p
    working := if c.emission.isNone ∧ c.queue = [] then p.toWorking else c.working }

/-- SET TAPE (R87, R173). -/
def setTapeRun (body : Text) (s : State) : Done :=
  match channelOf (byteAt body 4) with
  | none => s.refuse .badOperand
  | some ch =>
    let p := tapeOperands body
    if p.thresholds.ok then (s.setTape ch ((s.tape ch).loadParams p)).done else s.refuse .badOperand

/-- SET_TAPE (R87, R88, R173). -/
def execSetTape (s : State) : Host.Outcome State Fault Refusal :=
  s.takeOperation (opIs 0x09) (withLength 33 setTapeRun)

/-- SET FLASH LIST (R25, R174). -/
def setFlashListRun (body : Text) (s : State) : Done :=
  let n := (byteAt body 4).toNat
  if body.length < 5 + 2 * n ∨ Config.flashPlaces < n then s.refuse .badOperand
  else
    match s.checkIssues (readIssues body 5 n) with
    | some e => s.refuse e
    | none => { s with issues := { s.issues with flashList := readIssues body 5 n } : State }.done

/-- SET_FLASH_LIST (R25, R174). -/
def execSetFlashList (s : State) : Host.Outcome State Fault Refusal :=
  s.takeOperation (opIs 0x0A) (withLength 5 setFlashListRun)

/-- Lamp parameters loaded; a remaining count above the new flash count is cut to it (R125). -/
def State.loadLamps (s : State) (p : LampParams) : State :=
  { s with
    lampParams := p
    lamps := s.lamps.map fun x : RowLamps => { x with arrow := x.arrow.cut p.flashCount } }

/-- SET LAMPS, its values clamped (R124, R125, R175). -/
def setLampsRun (body : Text) (s : State) : Done :=
  (s.loadLamps ⟨clamp 1 255 (byteAt body 4).toNat, clamp 1 255 (byteAt body 5).toNat,
    clamp 1 15 (byteAt body 6).toNat⟩).done

/-- SET_LAMPS (R124, R125, R175). -/
def execSetLamps (s : State) : Host.Outcome State Fault Refusal :=
  s.takeOperation (opIs 0x0B) (withLength 7 setLampsRun)

/-- An alternate print code SET FEED takes: 0, or 50h to 5Fh (R48, R176). -/
def altCodeOk (c : Byte) : Bool := c == 0 || decide (0x50 ≤ c.toNat ∧ c.toNat ≤ 0x5F)

/-- SET FEED (R176). -/
def setFeedRun (body : Text) (s : State) : Done :=
  if altCodeOk (byteAt body 5) then
    { s with control := { s.control with
        window := clamp 1 60 (byteAt body 4).toNat
        altCode := byteAt body 5 } : State }.done
  else s.refuse .badOperand

/-- SET_FEED (R176). -/
def execSetFeed (s : State) : Host.Outcome State Fault Refusal :=
  s.takeOperation (opIs 0x0C) (withLength 6 setFeedRun)

/-- SET TERMINAL: 01h ENABLE, 02h DISABLE (R130, R131, R177). -/
def setTerminalRun (t : TermNo) (body : Text) (s : State) : Done :=
  if byteAt body 5 = 1 then (s.enableTerm t).done
  else if byteAt body 5 = 2 then (s.disableTerm t).done
  else s.refuse .badOperand

/-- SET_TERMINAL (R130, R131, R177). -/
def execSetTerminal (s : State) : Host.Outcome State Fault Refusal :=
  s.takeOperation (opIs 0x0D) (withLength 6 (withTerminal setTerminalRun))

/-! ### Counters and restart -/

/-- A channel's counters at 0 (R90, R178). -/
def TapeChannel.clearCounts (c : TapeChannel) : TapeChannel := { c with dropped := 0, merged := 0 }

/-- A board line's counters at 0 (R115, R178). -/
def BoardLine.clearCounts (b : BoardLine) : BoardLine := { b with holds := 0, timeouts := 0 }

/-- A terminal line's counters at 0 (R152, R178). -/
def TermLine.clearCounts (x : TermLine) : TermLine := { x with timeouts := 0, busies := 0, retries := 0 }

/-- The 36 counters at 0, and nothing else changed (R178). -/
def State.clearCounts (s : State) : State :=
  { s with
    feed := { s.feed with counts := .zero }
    issues := { s.issues with mismatches := 0 }
    tapeA := s.tapeA.clearCounts
    tapeB := s.tapeB.clearCounts
    boards := s.boards.map BoardLine.clearCounts
    termLines := s.termLines.map TermLine.clearCounts
    control := { s.control with discards := 0 }
    upstream := { s.upstream with lost := 0 } }

/-- CLEAR_COUNTS (R178). -/
def execClearCounts (s : State) : Host.Outcome State Fault Refusal :=
  s.takeOperation (opIs 0x0E) fun _ s => s.clearCounts.done

/-- The Feed Receiver's part of a RESTART whose frame has the given serial: messages placed before it are
removed or cut, and Feed Through goes on with the next (R66, R180, log 18). -/
def FeedReceiver.restart (f : FeedReceiver) (serial : Nat) : FeedReceiver :=
  { f with
    lock := false
    through := f.through.filter fun e => decide (serial ≤ e.serial)
    transmitting := f.transmitting.filter fun e => decide (serial ≤ e.serial)
    counts := .zero : FeedReceiver }.pump

/-- Every block's part of a RESTART but the Upstream Port's (R179). -/
def State.restartBlocks (s : State) (serial : Nat) : State :=
  let t : State := { s with
    feed := s.feed.restart serial
    issues := { s.issues with mismatches := 0 }
    tapeA := s.tapeA.restart
    tapeB := s.tapeB.restart
    boards := s.boards.map fun b : BoardLine => b.restart s.feed.feedState
    control := { s.control with discards := 0 } }
  (t.restartLamps.chooseBoards).restartTerminals.chooseTerms

/-- The frames that join the emptied reply queue: DONE for an addressed RESTART, then RESTARTED (R179, R194). -/
def restartReplies (unitAddress : Byte) (addressed : Bool) (body : Text) : List Text :=
  (if addressed then [replyBody unitAddress body 0 .done []] else []) ++ [restartedBody unitAddress 1]

/-- A RESTART executed; the Upstream Port takes its part last (R179, R194). -/
def State.restart (s : State) (addressed : Bool) (body : Text) (serial : Nat) : State :=
  let t := s.restartBlocks serial
  { t with upstream := t.upstream.restart (restartReplies s.unitSwitch addressed body) }

/-- RESTART (R179, R180). An addressed one whose claim fails is discarded (R164); once it has been taken, the
emptying of the reply queue satisfies its claim. -/
def execRestart (s : State) : Host.Outcome State Fault Refusal :=
  match s.turn (opIs 0x0F) with
  | .execute op => .next (s.finished.restart true op.body op.serial)
  | .claim op => .next (s.dropHead.takeClaim op)
  | .broadcast op => .next (s.dropHead.restart false op.body op.serial)
  | .waits => .next s

end Sys2Proof.Machine
end

