-- ==== Sys2Proof/Machine/ReadSteps.lean ====
section
/-! DEFINITION. The reads of the Control Unit (R181 to R186) and the layout of their data (R202). -/

namespace Sys2Proof.Machine

/-- Whether a body is a READ of a table (R181, R200). -/
def readIs (table : Byte) (body : Text) : Bool :=
  opIs 0x10 body && decide (5 ≤ body.length) && byteAt body 4 == table

/-- A read taken: an addressed one is claimed for, executed and answered; a broadcast one is discarded without
effect (R166, R168). -/
def State.takeRead (s : State) (table : Byte) (run : Text → State → Done) : Host.Outcome State Fault Refusal :=
  s.takeControl (readIs table) (fun _ => table) run fun _ s => s.done

/-- The data of a read that draws n free values (R166, log 8). -/
def State.answer (s : State) (n : Nat) (data : Text) : Done := ⟨s.drawFree n, .done, data⟩

/-- A counter in two characters. -/
def count2 (n : Nat) : Text := writeNat 2 n

/-! ### READ ISSUE -/

/-- A row list as up to four rows, unused places FFh (R202). -/
def rowPlaces (rows : List RowNo) : Text :=
  let cs : Text := rows.map fun r => BitVec.ofNat 8 r.val
  cs ++ List.replicate (Config.rowPlaces - cs.length) 0xFF

/-- The data of READ ISSUE; `isListed` is 1 for LISTED and 0 for FREE (R182, R202, log 17). -/
def issueData (isListed : Bool) (r : IssueRecord) : Text :=
  flagByte isListed :: (symbolField r.symbol
    ++ BitVec.ofNat 8 r.denom :: (flagByte r.eligA ||| (flagByte r.eligB <<< 1)) ::
      (writeNat 3 r.close ++ writeNat 3 r.last ++ writePrice r.high ++ writePrice r.low ++ writePrice r.bid
        ++ writePrice r.ask ++ writeInt 3 r.netChange
        ++ tickCode r.tick :: (flagByte r.traded ||| (flagByte r.halted <<< 1)) ::
          (writeNat 4 r.volume ++ BitVec.ofNat 8 r.rows.length ::
            (rowPlaces r.rows ++ writeNat 4 r.watchers.toNat))))

/-- READ ISSUE (R182). A FREE record reads with the third column of R18 (log 16). -/
def readIssueRun (body : Text) (s : State) : Done :=
  let n := readNat body 5 2
  if Config.maxIssue < n then s.refuse .badOperand
  else if n = 0 then s.refuse .noIssue
  else
    match findRecord s.issues.records n with
    | some r => s.answer 0 (issueData true r)
    | none => s.answer 0 (issueData false .vacant)

/-- READ_ISSUE (R182). -/
def execReadIssue (s : State) : Host.Outcome State Fault Refusal :=
  s.takeRead 0x01 (withLength 7 readIssueRun)

/-! ### READ ROW and READ LINE -/

/-- A board module record (R202). -/
def moduleRecord (m : BoardModule) : Text :=
  moduleFlags m :: m.dirty.toByte :: writeNat 2 (m.mark.getD 0xFFFF)

/-- The mapping of a row: blank, issue, mask and class (R202); a blank row reads 0 for the rest (log 24). -/
def mappingData (p : Option Mapping) : Text :=
  match p with
  | none => [1, 0, 0, 0, 0]
  | some q => 0 :: (writeNat 2 q.issue ++ [q.mask.toByte, BitVec.ofNat 8 q.priority])

/-- The flash an arrow runs, if it runs one. -/
def Arrow.flash? : Arrow → Option Flash
  | .flashUp f => some f
  | .flashDown f => some f
  | _ => none

/-- The lamp data of a row, with the free values that stand for the phase and remaining count of a steady
arrow, which are absent (R118, R202, log 8). -/
def lampData (x : RowLamps) (free : Nat → Byte) : Text :=
  match x.arrow.flash? with
  | some f => [arrowCode x.arrow, phaseCode f.phase, BitVec.ofNat 8 f.remaining, flagByte x.halt]
  | none => [arrowCode x.arrow, free 0, free 1, flagByte x.halt]

/-- READ ROW (R183, R202). -/
def readRowRun (body : Text) (s : State) : Done :=
  if hl : (byteAt body 5).toNat < 4 then
    if hm : (byteAt body 6).toNat < 32 then
      let l : LineNo := ⟨_, hl⟩
      let i : ModuleNo := ⟨_, hm⟩
      let m := (s.boards[l]).modules[i]
      let x := s.lamps[rowOf l i]
      s.answer (if x.arrow.flash?.isSome then 0 else 2)
        (mappingData m.mapping ++ moduleRecord m ++ lampData x s.freeAt)
    else s.refuse .badOperand
  else s.refuse .badOperand

/-- READ_ROW (R183). -/
def execReadRow (s : State) : Host.Outcome State Fault Refusal :=
  s.takeRead 0x02 (withLength 7 readRowRun)

/-- The kind of a transfer, in the order of R101; FFh for none (R197, R202, log 17). -/
def transferCode (t : Option Transfer) : Byte :=
  match t with
  | none => 0xFF
  | some t =>
    match t.body with
    | .update _ _ _ => 0
    | .refresh _ _ _ => 1
    | .blanking _ => 2
    | .broadcast _ => 3

/-- The module of a transfer; a broadcast's is its address, 63 (log 25), and with no transfer a free value
stands there (log 8). -/
def transferModule (t : Option Transfer) (free : Byte) : Byte :=
  match t with
  | none => free
  | some t =>
    match t.body.module? with
    | some i => BitVec.ofNat 8 i.val
    | none => BitVec.ofNat 8 broadcastAddress

/-- The modules 8k to 8k + 7. -/
def partModules (k : Fin 4) : List ModuleNo :=
  (List.finRange 8).map fun j => ⟨k.val * 8 + j.val, by omega⟩

/-- The data of READ LINE for part k of a board line (R183, R202). -/
def boardLineData (b : BoardLine) (k : Fin 4) (free : Byte) : Text :=
  count2 b.holds ++ count2 b.timeouts ++ count2 b.markReg
    ++ BitVec.ofNat 8 b.sweep.val :: transferCode b.inFlight :: transferModule b.inFlight free
      :: broadcastCode b.broadcast :: (partModules k).flatMap fun i => moduleRecord b.modules[i]

/-- The stage of a transaction, 00h poll and 01h select; with no transaction a free value stands there (R202,
log 8). -/
def stageCode (x : Option Transaction) (free : Byte) : Byte :=
  match x with
  | none => free
  | some t =>
    match t.stage with
    | .pollSending _ => 0
    | .pollWait _ => 0
    | .selectSending _ => 1
    | .selectWait _ _ => 1

/-- A drop's record in READ LINE (R202). -/
def dropRecord (x : Terminal) : Text :=
  [BitVec.ofNat 8 (terminalStateCode x.state + 16 * (x.timeouts % 4)), BitVec.ofNat 8 x.queue.length,
    flagByte x.feedOwed ||| (flagByte x.lengthOwed <<< 1)]

/-- The data of READ LINE for a terminal line (R152, R202). -/
def termLineData (s : State) (l : LineNo) (free : Byte) : Text :=
  let x := s.termLines[l]
  count2 x.timeouts ++ count2 x.busies ++ count2 x.retries
    ++ BitVec.ofNat 8 x.pollPtr.val :: (x.inFlight.map fun y => BitVec.ofNat 8 y.drop.val).getD 0xFF
      :: stageCode x.inFlight free
      :: (List.finRange 8).flatMap fun d => dropRecord s.terminals[termOf l d]

/-- How many free values a read draws: one when nothing is in flight. -/
def freeWhenIdle (idle : Bool) : Nat := if idle then 1 else 0

/-- READ LINE: kind 01h BOARD with parts 0 to 3, 02h TERMINAL with part 0 (R183). -/
def readLineRun (body : Text) (s : State) : Done :=
  if hl : (byteAt body 6).toNat < 4 then
    let l : LineNo := ⟨_, hl⟩
    if byteAt body 5 = 1 then
      if hk : (byteAt body 7).toNat < 4 then
        s.answer (freeWhenIdle s.boards[l].inFlight.isNone) (boardLineData s.boards[l] ⟨_, hk⟩ (s.freeAt 0))
      else s.refuse .badOperand
    else if byteAt body 5 = 2 ∧ byteAt body 7 = 0 then
      s.answer (freeWhenIdle (s.termLines[l]).inFlight.isNone) (termLineData s l (s.freeAt 0))
    else s.refuse .badOperand
  else s.refuse .badOperand

/-- READ_LINE (R183). -/
def execReadLine (s : State) : Host.Outcome State Fault Refusal :=
  s.takeRead 0x06 (withLength 8 readLineRun)

/-! ### READ WATCH LIST and READ ALERTS -/

/-- A read of a terminal's table in two parts: a terminal over 31 or a part over 1 is refused (R181, R184). -/
def withPart (run : TermNo → Nat → State → Done) (body : Text) (s : State) : Done :=
  if h : (byteAt body 5).toNat < 32 then
    if (byteAt body 6).toNat < 2 then run ⟨_, h⟩ (byteAt body 6).toNat s else s.refuse .badOperand
  else s.refuse .badOperand

/-- A position of a watch list; one beyond the list reads 0 and an empty set (R184, R202). -/
def watchPlace (watch : List WatchEntry) (i : Nat) : Text :=
  match watch[i]? with
  | none => [0, 0, 0]
  | some e => writeNat 2 e.issue ++ [e.pending.toByte]

/-- The data of READ WATCH LIST (R184, R202). -/
def watchData (x : Terminal) (part : Nat) : Text :=
  BitVec.ofNat 8 (terminalStateCode x.state) :: BitVec.ofNat 8 x.watch.length :: BitVec.ofNat 8 x.cursor
    :: flagByte x.lengthOwed :: (List.range 12).flatMap fun j => watchPlace x.watch (12 * part + j)

/-- READ WATCH LIST (R184). -/
def readWatchListRun (t : TermNo) (part : Nat) (s : State) : Done :=
  s.answer 0 (watchData s.terminals[t] part)

/-- READ_WATCH_LIST (R184). -/
def execReadWatchList (s : State) : Host.Outcome State Fault Refusal :=
  s.takeRead 0x03 (withLength 7 (withPart readWatchListRun))

/-- A slot's fields: EMPTY 0, ARMED 1, FIRED 2 (R155, R184, R197, R202). -/
def slotData (a : AlertSlot) : Text :=
  match a with
  | none => [0, 0, 0, 0, 0, 0, 0, 0, 0, 0]
  | some x =>
    (if x.fired then 2 else 1) :: (writeNat 2 x.issue
      ++ conditionCode x.condition :: flagByte x.negate :: (writeInt 4 x.limit ++ [flagByte x.owed]))

/-- The slots 4p to 4p + 3. -/
def partSlots (part : Nat) : List SlotNo :=
  (List.finRange 4).map fun j => ⟨(4 * part + j.val) % 8, Nat.mod_lt _ (by decide)⟩

/-- READ ALERTS (R184, R202). -/
def readAlertsRun (t : TermNo) (part : Nat) (s : State) : Done :=
  s.answer 0 ((partSlots part).flatMap fun k => slotData (s.alerts[t])[k])

/-- READ_ALERTS (R184). -/
def execReadAlerts (s : State) : Host.Outcome State Fault Refusal :=
  s.takeRead 0x04 (withLength 7 (withPart readAlertsRun))

/-! ### READ TAPE, READ COUNTS and READ UNIT -/

/-- A threshold as it was loaded (R185, R202). -/
def thresholdData (t : Threshold) : Text := writeNat 2 t.value ++ [BitVec.ofNat 8 t.scale]

/-- The data of READ TAPE (R90, R185, R202). -/
def tapeData (c : TapeChannel) : Text :=
  let p := c.loaded
  let th := p.thresholds
  BitVec.ofNat 8 p.normal :: BitVec.ofNat 8 p.rush ::
    ([th.up1, th.up2, th.up3, th.down1, th.down2, th.down3].flatMap thresholdData
      ++ writeNat 3 p.block ++ writeNat 3 p.minimum ++ writeNat 2 p.interval
      ++ BitVec.ofNat 8 c.level :: (writeNat 3 c.lateness
        ++ BitVec.ofNat 8 c.rate :: BitVec.ofNat 8 c.target :: (writeNat 2 c.queue.length
          ++ writeNat 3 c.backlog
          ++ (flagByte c.emission.isSome ||| (flagByte c.flashTimer.isSome <<< 1)) ::
            (count2 c.dropped ++ count2 c.merged))))

/-- READ TAPE (R185). -/
def readTapeRun (body : Text) (s : State) : Done :=
  match channelOf (byteAt body 5) with
  | none => s.refuse .badOperand
  | some ch => s.answer 0 (tapeData (s.tape ch))

/-- READ_TAPE (R185). -/
def execReadTape (s : State) : Host.Outcome State Fault Refusal :=
  s.takeRead 0x05 (withLength 6 readTapeRun)

/-- Part 0 of READ COUNTS (R185, R202). The expected number reads as held (log 32). -/
def countsPart0 (s : State) : Text :=
  let c := s.feed.counts
  [c.received, c.checkFailure, c.gap, c.refused, c.discarded, c.malformed, c.quiet, c.throughLoss,
      c.handOverLoss].flatMap count2
    ++ feedStateCode s.feed.feedState :: flagByte s.feed.lock :: s.feed.expected ::
      [s.issues.mismatches, s.tapeA.dropped, s.tapeA.merged, s.tapeB.dropped, s.tapeB.merged,
        s.control.discards, s.upstream.lost].flatMap count2

/-- Part 1 of READ COUNTS (R185, R202). -/
def countsPart1 (s : State) : Text :=
  (List.finRange 4).flatMap (fun l => count2 (s.boards[l]).holds ++ count2 (s.boards[l]).timeouts)
    ++ (List.finRange 4).flatMap fun l =>
      count2 (s.termLines[l]).timeouts ++ count2 (s.termLines[l]).busies ++ count2 (s.termLines[l]).retries

/-- READ COUNTS (R185). -/
def readCountsRun (body : Text) (s : State) : Done :=
  if byteAt body 5 = 0 then s.answer 0 (countsPart0 s)
  else if byteAt body 5 = 1 then s.answer 0 (countsPart1 s)
  else s.refuse .badOperand

/-- READ_COUNTS (R185). -/
def execReadCounts (s : State) : Host.Outcome State Fault Refusal :=
  s.takeRead 0x07 (withLength 6 readCountsRun)

/-- The capacities, in the order of R186 (R202). -/
def capacities : Text :=
  writeNat 2 Config.maxIssue
    ++ [128, 32, BitVec.ofNat 8 Config.watchPlaces, 8]
    ++ writeNat 2 Config.tapePlaces
    ++ [BitVec.ofNat 8 Config.flashPlaces, BitVec.ofNat 8 Config.outboundPlaces,
        BitVec.ofNat 8 Config.replyPlaces]

/-- The data of READ UNIT (R186, R202). -/
def unitData (s : State) : Text :=
  s.unitSwitch :: (writeNat 2 Config.modelCode ++ BitVec.ofNat 8 Config.revision :: (capacities
    ++ [flagByte s.throughSwitch, BitVec.ofNat 8 s.control.window, s.control.altCode,
        BitVec.ofNat 8 s.lampParams.onTime, BitVec.ofNat 8 s.lampParams.offTime,
        BitVec.ofNat 8 s.lampParams.flashCount, sessionCode s.issues.session]
    ++ writeNat 4 s.issues.clock.toNat))

/-- READ_UNIT (R186). -/
def execReadUnit (s : State) : Host.Outcome State Fault Refusal :=
  s.takeRead 0x08 fun _ s => s.answer 0 (unitData s)

end Sys2Proof.Machine
end

