-- ==== Sys2Proof/Machine/Dispatch.lean ====
section
/-! DEFINITION. The meaning of every command: one arm per constructor of Instr. -/

namespace Sys2Proof.Machine

def exec (i : Instr) (s : State) : Host.Outcome State Fault Refusal :=
  match i with
  | .powerOn unitAddress throughOn => Sys2Proof.Machine.execPowerOn unitAddress throughOn s
  | .feedInCharacter c => Sys2Proof.Machine.execFeedInCharacter c s
  | .throughFrameEnd => Sys2Proof.Machine.execThroughFrameEnd s
  | .silenceTimerExpiry => Sys2Proof.Machine.execSilenceTimerExpiry s
  | .heartbeat => Sys2Proof.Machine.execHeartbeat s
  | .trade => Sys2Proof.Machine.execTrade s
  | .outOfSequenceTrade => Sys2Proof.Machine.execOutOfSequenceTrade s
  | .alternatePrint => Sys2Proof.Machine.execAlternatePrint s
  | .quote => Sys2Proof.Machine.execQuote s
  | .issueStatus => Sys2Proof.Machine.execIssueStatus s
  | .correction => Sys2Proof.Machine.execCorrection s
  | .marketOpen => Sys2Proof.Machine.execMarketOpen s
  | .marketClose => Sys2Proof.Machine.execMarketClose s
  | .noOperationCode => Sys2Proof.Machine.execNoOperationCode s
  | .loadIssue => Sys2Proof.Machine.execLoadIssue s
  | .deleteIssue => Sys2Proof.Machine.execDeleteIssue s
  | .setRow => Sys2Proof.Machine.execSetRow s
  | .setWatchList => Sys2Proof.Machine.execSetWatchList s
  | .addWatch => Sys2Proof.Machine.execAddWatch s
  | .dropWatch => Sys2Proof.Machine.execDropWatch s
  | .setAlert => Sys2Proof.Machine.execSetAlert s
  | .clearAlert => Sys2Proof.Machine.execClearAlert s
  | .setTape => Sys2Proof.Machine.execSetTape s
  | .setFlashList => Sys2Proof.Machine.execSetFlashList s
  | .setLamps => Sys2Proof.Machine.execSetLamps s
  | .setFeed => Sys2Proof.Machine.execSetFeed s
  | .setTerminal => Sys2Proof.Machine.execSetTerminal s
  | .clearCounts => Sys2Proof.Machine.execClearCounts s
  | .restart => Sys2Proof.Machine.execRestart s
  | .readIssue => Sys2Proof.Machine.execReadIssue s
  | .readRow => Sys2Proof.Machine.execReadRow s
  | .readLine => Sys2Proof.Machine.execReadLine s
  | .readWatchList => Sys2Proof.Machine.execReadWatchList s
  | .readAlerts => Sys2Proof.Machine.execReadAlerts s
  | .readTape => Sys2Proof.Machine.execReadTape s
  | .readCounts => Sys2Proof.Machine.execReadCounts s
  | .readUnit => Sys2Proof.Machine.execReadUnit s
  | .tapeEntryJoin ch => Sys2Proof.Machine.execTapeEntryJoin ch s
  | .tapeCharacterSent ch => Sys2Proof.Machine.execTapeCharacterSent ch s
  | .flashTimerExpiry ch => Sys2Proof.Machine.execFlashTimerExpiry ch s
  | .boardChangeNotice => Sys2Proof.Machine.execBoardChangeNotice s
  | .transferSent line => Sys2Proof.Machine.execTransferSent line s
  | .broadcastSent line => Sys2Proof.Machine.execBroadcastSent line s
  | .accept line => Sys2Proof.Machine.execAccept line s
  | .hold line => Sys2Proof.Machine.execHold line s
  | .boardAnswerWaitExpiry line => Sys2Proof.Machine.execBoardAnswerWaitExpiry line s
  | .holdBackOffExpiry line module => Sys2Proof.Machine.execHoldBackOffExpiry line module s
  | .boardOtherCharacter line c => Sys2Proof.Machine.execBoardOtherCharacter line c s
  | .lampChangeNotice => Sys2Proof.Machine.execLampChangeNotice s
  | .phaseTimerExpiry row => Sys2Proof.Machine.execPhaseTimerExpiry row s
  | .terminalChangeNotice => Sys2Proof.Machine.execTerminalChangeNotice s
  | .pollSent line => Sys2Proof.Machine.execPollSent line s
  | .nothing line => Sys2Proof.Machine.execNothing line s
  | .quoteRequest line symbol => Sys2Proof.Machine.execQuoteRequest line symbol s
  | .watchAdd line symbol => Sys2Proof.Machine.execWatchAdd line symbol s
  | .watchDrop line symbol => Sys2Proof.Machine.execWatchDrop line symbol s
  | .alertSet line slot symbol condition negate limit => Sys2Proof.Machine.execAlertSet line slot symbol condition negate limit s
  | .alertClear line slot => Sys2Proof.Machine.execAlertClear line slot s
  | .requestBadOperation line request => Sys2Proof.Machine.execRequestBadOperation line request s
  | .selectSent line => Sys2Proof.Machine.execSelectSent line s
  | .received line => Sys2Proof.Machine.execReceived line s
  | .busy line => Sys2Proof.Machine.execBusy line s
  | .terminalAnswerWaitExpiry line => Sys2Proof.Machine.execTerminalAnswerWaitExpiry line s
  | .terminalOtherCharacter line c => Sys2Proof.Machine.execTerminalOtherCharacter line c s
  | .alertChangeNotice => Sys2Proof.Machine.execAlertChangeNotice s
  | .upstreamInCharacter c => Sys2Proof.Machine.execUpstreamInCharacter c s
  | .upstreamFrameEnd => Sys2Proof.Machine.execUpstreamFrameEnd s
  | .readyLineChange active => Sys2Proof.Machine.execReadyLineChange active s
  | .marketClockTick => Sys2Proof.Machine.execMarketClockTick s
  | .throughSwitchChange on => Sys2Proof.Machine.execThroughSwitchChange on s

end Sys2Proof.Machine
end

