-- ==== Sys2Proof/Safety.lean ====
section
/-! DEFINITION. What the manual promises of the card's state, block by block, in the words of its rules: the
invariants that every step keeps. Each is decidable. -/

namespace Sys2Proof.Machine

/-- A price in price units (R1). -/
abbrev PriceOk (p : Nat) : Prop := 1 ≤ p ∧ p ≤ Config.maxPrice

/-- A price that may be absent. -/
abbrev PriceOk? (p : Option Nat) : Prop := p.all (fun v => decide (PriceOk v)) = true

/-- A counter of the card (0.6). -/
abbrev CountOk (n : Nat) : Prop := n ≤ Config.counterMax

/-- A symbol is 1 to 4 letters, each from A to Z (R21). -/
abbrev SymbolOk (symbol : Text) : Prop :=
  1 ≤ symbol.length ∧ symbol.length ≤ 4 ∧ symbol.all isLetter = true

/-! ### Issue records -/

/-- High and low: absent while traded is clear, both present around last while it is set (R20). -/
def IssueRecord.rangeOk (r : IssueRecord) : Bool :=
  match r.traded, r.high, r.low with
  | false, none, none => true
  | true, some h, some l => decide (l ≤ r.last ∧ r.last ≤ h ∧ 1 ≤ l ∧ h ≤ Config.maxPrice)
  | _, _, _ => false

/-- A LISTED record (R1, R4, R10, R18, R19, R20, R21). -/
abbrev IssueRecord.Ok (r : IssueRecord) : Prop :=
  SymbolOk r.symbol ∧ r.denom ∈ [8, 16, 32, 64] ∧ PriceOk r.close ∧ PriceOk r.last
    ∧ r.netChange = (r.last : Int) - (r.close : Int) ∧ r.rangeOk = true
    ∧ (r.traded = false → r.last = r.close ∧ r.tick = .none)
    ∧ r.volume ≤ Config.maxVolume ∧ PriceOk? r.bid ∧ PriceOk? r.ask

/-- The records: numbers rising in 1 to 1023, each record as its rules say, and no symbol twice
(R4, R10, R18, R20, R21). -/
abbrev State.RecordsInv (s : State) : Prop :=
  recordsOk s.issues.records = true ∧ (∀ p ∈ s.issues.records, p.2.Ok)
    ∧ (s.issues.records.map fun p => p.2.symbol).Nodup

/-! ### Links -/

/-- Whether a number names a LISTED issue. -/
abbrev State.Names (s : State) (n : Nat) : Prop := (findRecord s.issues.records n).isSome = true

/-- The row lists and the board map agree; no row list holds a row twice or more than 4 rows (R23). -/
abbrev State.RowLinks (s : State) : Prop :=
  (∀ p ∈ s.issues.records, p.2.rows.Nodup ∧ p.2.rows.length ≤ Config.rowPlaces
      ∧ ∀ r ∈ p.2.rows, s.rowIssue r = some p.1)
    ∧ ∀ r : RowNo, (s.rowIssue r).all (fun n =>
        (findRecord s.issues.records n).any fun x => x.rows.contains r) = true

/-- The watcher masks and the watch lists agree; no watch list holds an issue twice, more than 24 issues or a
FREE one (R24, R39, R146). -/
abbrev State.WatchLinks (s : State) : Prop :=
  (∀ p ∈ s.issues.records, ∀ t : TermNo, p.2.watchers.getLsbD t.val = decide (p.1 ∈ s.watchIssues t))
    ∧ ∀ t : TermNo, (s.watchIssues t).Nodup ∧ (s.watchIssues t).length ≤ Config.watchPlaces
        ∧ ∀ n ∈ s.watchIssues t, s.Names n

/-- The flash list and the alert slots name LISTED issues alone; the flash list holds at most 16 issues and
none twice (R25, R39). -/
abbrev State.NameLinks (s : State) : Prop :=
  s.issues.flashList.Nodup ∧ s.issues.flashList.length ≤ Config.flashPlaces
    ∧ (∀ n ∈ s.issues.flashList, s.Names n)
    ∧ ∀ t : TermNo, ∀ k : SlotNo, ((s.alerts[t])[k]).all (fun a =>
        (findRecord s.issues.records a.issue).isSome) = true

/-- No board row, watch list, alert slot or flash list names a FREE issue, and the links agree
(R23, R24, R25, R39). -/
abbrev State.LinksInv (s : State) : Prop :=
  recordsOk s.issues.records = true ∧ s.RowLinks ∧ s.WatchLinks ∧ s.NameLinks

/-! ### The feed -/

/-- The silence timer runs exactly while the session is OPEN and the feed LIVE; the feed is LIVE whenever the
session is CLOSED; while QUIET the sequence lock is clear (R56, R57, R59). -/
abbrev State.FeedInv (s : State) : Prop :=
  (s.feed.silence.isSome = true ↔ s.issues.session = .opened ∧ s.feed.feedState = .live)
    ∧ (s.issues.session = .closed → s.feed.feedState = .live)
    ∧ (s.feed.feedState = .quiet → s.feed.lock = false)

/-- The hand-over and through queues keep their places, and a free Feed Through leaves none waiting
(R54, R61). -/
abbrev State.QueuesInv (s : State) : Prop :=
  s.feed.handOver.length ≤ Config.handOverPlaces ∧ s.feed.through.length ≤ Config.throughPlaces
    ∧ (s.feed.transmitting = none → s.feed.through = [])

/-! ### The tapes -/

/-- Loaded parameters lie in their ranges, the thresholds in their order (R84, R87). -/
abbrev TapeParams.Ok (p : TapeParams) : Prop :=
  (4 ≤ p.normal ∧ p.normal ≤ 40) ∧ (4 ≤ p.rush ∧ p.rush ≤ 40) ∧ p.thresholds.ok = true
    ∧ (1 ≤ p.block ∧ p.block ≤ 999999) ∧ p.minimum ≤ 999999 ∧ (10 ≤ p.interval ∧ p.interval ≤ 600)

/-- A Tape Channel: its queue, level, rate and lateness in range, the backlog the sum of the counted lengths,
the flash timer running exactly at levels 2 and 3, and an idle channel with nothing queued
(R67, R70, R78, R79, R80, R81, R85, R87). -/
abbrev TapeChannel.Inv (c : TapeChannel) : Prop :=
  c.queue.length ≤ Config.tapePlaces ∧ c.level ≤ 3 ∧ (4 ≤ c.rate ∧ c.rate ≤ 40)
    ∧ c.lateness ≤ Config.maxLateness ∧ c.backlog = countedSum c.queue
    ∧ (c.flashTimer.isSome = true ↔ 2 ≤ c.level) ∧ (c.emission = none → c.queue = []) ∧ c.loaded.Ok

/-- Both Tape Channels. -/
abbrev State.TapeInv (s : State) : Prop := s.tapeA.Inv ∧ s.tapeB.Inv

/-! ### The board lines -/

/-- A mapping's mask names fields a row can show, at least one, and its class is 0 to 3 (R94). -/
abbrev Mapping.Ok (p : Mapping) : Prop :=
  p.mask.bidask = false ∧ p.mask.state = false ∧ p.mask ≠ .empty ∧ p.priority ≤ 3

/-- A module: only shown fields are dirty, nothing waits at a DARK module, only a blank row owes a blanking,
and a module is DARK exactly at three timeouts in a row (R94, R97, R106, R108, R109, R113). -/
abbrev BoardModule.Ok (m : BoardModule) : Prop :=
  m.dirty.inter m.shown = m.dirty
    ∧ (m.state = .dark → m.dirty = .empty ∧ m.blanking = false)
    ∧ (m.blanking = true → m.mapping = none)
    ∧ m.timeouts ≤ Config.missLimit ∧ (m.state = .dark ↔ m.timeouts = Config.missLimit)
    ∧ m.mapping.all (fun p => decide p.Ok) = true

/-- The marks of a line: a module holds one exactly while it waits, below the mark register, and no two
modules hold the same (R94, R98). -/
abbrev BoardLine.MarksOk (b : BoardLine) : Prop :=
  b.markReg ≤ Config.markMax
    ∧ (∀ i : ModuleNo, (b.modules[i]).mark.isSome = (b.modules[i]).waits)
    ∧ (∀ i : ModuleNo, (b.modules[i]).mark.all (fun n => decide (n < b.markReg)) = true)
    ∧ ∀ i j : ModuleNo, (b.modules[i]).mark.isSome = true → (b.modules[i]).mark = (b.modules[j]).mark → i = j

/-- A line with no transfer in flight has none to choose (R110). -/
abbrev BoardLine.IdleOk (b : BoardLine) : Prop :=
  b.inFlight = none → b.broadcast = none ∧ b.bestWaiting = none ∧ b.sweepNext = none

/-- The board lines. -/
abbrev State.BoardInv (s : State) : Prop :=
  ∀ l : LineNo, (∀ i : ModuleNo, ((s.boards[l]).modules[i]).Ok) ∧ (s.boards[l]).MarksOk ∧ (s.boards[l]).IdleOk

/-! ### The lamps -/

/-- A flash has 1 to the flash count lit phases left (R118, R125). -/
abbrev Arrow.Ok (a : Arrow) (count : Nat) : Prop :=
  a.flash?.all (fun f => decide (1 ≤ f.remaining ∧ f.remaining ≤ count)) = true

/-- The lamp parameters lie in their ranges, every flash in its count, and a blank row is dark
(R118, R124, R125). -/
abbrev State.LampInv (s : State) : Prop :=
  (1 ≤ s.lampParams.onTime ∧ s.lampParams.onTime ≤ 255) ∧ (1 ≤ s.lampParams.offTime ∧ s.lampParams.offTime ≤ 255)
    ∧ (1 ≤ s.lampParams.flashCount ∧ s.lampParams.flashCount ≤ 15)
    ∧ ∀ r : RowNo, (s.lamps[r]).arrow.Ok s.lampParams.flashCount
        ∧ (s.rowIssue r = none → s.lamps[r] = .dark)

/-! ### The terminals and alerts -/

/-- A terminal: a DISABLED one has nothing queued, pending or owed, one is OFFLINE exactly at three timeouts in
a row, and no queue holds more than 8 messages (R131, R135, R143, R146). -/
abbrev Terminal.Ok (x : Terminal) : Prop :=
  (x.state = .disabled → x.queue = [] ∧ x.lengthOwed = false ∧ x.feedOwed = false ∧ x.timeouts = 0
      ∧ ∀ e ∈ x.watch, e.pending = .empty)
    ∧ x.timeouts ≤ Config.missLimit ∧ (x.state = .offline ↔ x.timeouts = Config.missLimit)
    ∧ x.queue.length ≤ Config.outboundPlaces ∧ x.watch.length ≤ Config.watchPlaces ∧ x.cursor < Config.watchPlaces

/-- A transaction in flight to a DISABLED terminal is cut (R131). -/
abbrev State.CutOk (s : State) (l : LineNo) : Prop :=
  (s.termLines[l]).inFlight.all (fun x => (s.terminals[termOf l x.drop]).enabled || x.cut) = true

/-- The terminals, no line idle while one of its terminals is enabled, and no answer of a DISABLED terminal taken
(R129, R131, R132, R143). -/
abbrev State.TermInv (s : State) : Prop :=
  (∀ t : TermNo, (s.terminals[t]).Ok)
    ∧ (∀ l : LineNo, (s.termLines[l]).inFlight = none → s.nextDrop l = none) ∧ ∀ l : LineNo, s.CutOk l

/-- A slot: only a FIRED one owes a message, and its limit lies in the range of its condition (R155, R161). -/
abbrev AlertSetting.Ok (a : AlertSetting) : Prop :=
  (a.owed = true → a.fired = true) ∧ limitOk a.condition a.limit = true
    ∧ limitTaken a.condition a.limit = a.limit

/-- The alert slots. -/
abbrev State.AlertInv (s : State) : Prop :=
  ∀ t : TermNo, ∀ k : SlotNo, ((s.alerts[t])[k]).all (fun a => decide a.Ok) = true

/-! ### The Control Unit and the Upstream Port -/

/-- The silence window is 1 to 60 s and the alternate print code 0 or 50h to 5Fh (R48, R56). -/
abbrev State.ControlInv (s : State) : Prop :=
  (1 ≤ s.control.window ∧ s.control.window ≤ 60) ∧ altCodeOk s.control.altCode = true

/-- The Upstream Port: at most 8 places and 2 frames are held, one place is claimed exactly while an operation is in
hand, one RESTARTED notice waits while the start-up hold is set and none when it is clear, and a free line with the
card above ready leaves no frame waiting (R164, R188, R189, R193, R194). -/
abbrev State.UpstreamInv (s : State) : Prop :=
  s.upstream.occupied ≤ Config.replyPlaces ∧ s.upstream.claims = s.control.inHand.isSome.toNat
    ∧ s.upstream.buffer.length ≤ Config.passPlaces
    ∧ (s.upstream.replies.filter isRestarted).length = s.upstream.hold.toNat
    ∧ (s.upstream.transmitting = none → s.upstream.readyAbove = true →
        s.upstream.replies = [] ∧ s.upstream.buffer = [])

/-! ### Counters -/

/-- The nine counters of the Feed Receiver, in the order of R64. -/
def FeedCounts.list (c : FeedCounts) : List Nat :=
  [c.received, c.checkFailure, c.gap, c.refused, c.discarded, c.malformed, c.quiet, c.throughLoss, c.handOverLoss]

/-- The 36 counters of the card, in the order of R178. -/
def State.counters (s : State) : List Nat :=
  s.feed.counts.list ++ [s.issues.mismatches, s.tapeA.dropped, s.tapeA.merged, s.tapeB.dropped, s.tapeB.merged]
    ++ (s.boards.toList.flatMap fun b => [b.holds, b.timeouts])
    ++ (s.termLines.toList.flatMap fun x => [x.timeouts, x.busies, x.retries])
    ++ [s.control.discards, s.upstream.lost]

/-- Every counter stays in its 16 bits (0.6, R178). -/
abbrev State.CountersInv (s : State) : Prop := ∀ n ∈ s.counters, CountOk n

/-! ### Words the statements use -/

/-- The card with the message of a turn taken: the hand-over queue as it then stands, and no operation in hand
(R54, R165). -/
def State.taken (s : State) (rest : List Handed) : State :=
  { s with feed := { s.feed with handOver := rest }, control := { s.control with inHand := none } }

/-- The head of the hand-over queue is a data message of a kind, and no operation is in hand (R50, R54). -/
abbrev State.DataTurn (s : State) (k : DataKind) (body : Text) (rest : List Handed) : Prop :=
  s.control.inHand = none ∧ ∃ serial, s.feed.handOver = ⟨.data k, body, serial⟩ :: rest

/-- A control message is due to be executed: an addressed one is in hand, its place claimed, and a broadcast one
stands at the head of the hand-over queue with none in hand. `rest` is the queue that its execution leaves
(R54, R164, R165, log 11). -/
abbrev State.ControlTurn (s : State) (addressed : Bool) (body : Text) (serial : Nat) (rest : List Handed) :
    Prop :=
  if addressed then s.control.inHand = some ⟨body, serial⟩ ∧ s.feed.handOver = rest
  else s.control.inHand = none ∧ s.feed.handOver = ⟨.control false, body, serial⟩ :: rest

/-- The constructors that take a control message, each with its operation code and, for a read, its table
code. -/
def operationCodes : List (Instr × Byte × Option Byte) :=
  [(.loadIssue, 0x01, none), (.deleteIssue, 0x02, none), (.setRow, 0x03, none), (.setWatchList, 0x04, none),
    (.addWatch, 0x05, none), (.dropWatch, 0x06, none), (.setAlert, 0x07, none), (.clearAlert, 0x08, none),
    (.setTape, 0x09, none), (.setFlashList, 0x0A, none), (.setLamps, 0x0B, none), (.setFeed, 0x0C, none),
    (.setTerminal, 0x0D, none), (.clearCounts, 0x0E, none), (.restart, 0x0F, none),
    (.readIssue, 0x10, some 0x01), (.readRow, 0x10, some 0x02), (.readWatchList, 0x10, some 0x03),
    (.readAlerts, 0x10, some 0x04), (.readTape, 0x10, some 0x05), (.readLine, 0x10, some 0x06),
    (.readCounts, 0x10, some 0x07), (.readUnit, 0x10, some 0x08)]

/-- Whether a body carries an operation, and for a read a table. -/
def carries (body : Text) (x : Instr × Byte × Option Byte) : Prop :=
  4 ≤ body.length ∧ byteAt body 3 = x.2.1 ∧ ∀ t, x.2.2 = some t → 5 ≤ body.length ∧ byteAt body 4 = t

/-- The card with the reply of an addressed operation queued in the place it claimed; a broadcast one gets none
(R166, R189). -/
def State.answered (s : State) (addressed : Bool) (reply : Text) : State :=
  if addressed then { s with upstream := s.upstream.fill reply } else s

/-- What a new feed state brings about at the board lines: a busy line holds it as its pending broadcast, an
idle one sends it (R110, R114). -/
def BoardLine.Told (b c : BoardLine) (f : FeedState) (code : Byte) : Prop :=
  (b.inFlight.isSome = true → c = { b with broadcast := some f })
    ∧ (b.inFlight = none → c = { b with
        broadcast := none
        inFlight := some ⟨.broadcast f, [319#9, 0x0F#9, code.setWidth 9, (0x0F + code).setWidth 9], none⟩ })

/-- Whether a select in flight carries the head of a terminal's outbound queue, the terminal not having been disabled
since (R131, R137, R145). -/
def State.Carries (s : State) (t : TermNo) : Prop :=
  ∃ (x : Transaction) (sel : Select), (s.termLines[termLine t]).inFlight = some x ∧ x.drop = termDrop t
    ∧ x.cut = false ∧ sel.carried = .queued
    ∧ (x.stage = .selectSending sel ∨ ∃ left, x.stage = .selectWait sel left)

/-- A FEED status message offered to a terminal behind the first n messages of its queue: one that waits there takes
the new state and keeps its place; else the message joins where fewer than 8 are queued; else it is owed (R145). That
two which wait both take it is log 36. -/
def Terminal.Offered (x y : Terminal) (f : FeedState) (n : Nat) : Prop :=
  ((∃ g, .feedStatus g ∈ x.queue.drop n) → y = { x with
      queue := x.queue.take n ++ (x.queue.drop n).map fun m =>
        match m with
        | .feedStatus _ => .feedStatus f
        | m => m })
    ∧ ((¬ ∃ g, .feedStatus g ∈ x.queue.drop n) →
      (x.queue.length < 8 → y = { x with queue := x.queue ++ [.feedStatus f] })
        ∧ (8 ≤ x.queue.length → y = { x with feedOwed := true }))

/-- A terminal of the card offered a FEED status message (R145). -/
def State.FeedOffered (s : State) (t : TermNo) (x y : Terminal) (f : FeedState) : Prop :=
  (s.Carries t → x.Offered y f 1) ∧ (¬ s.Carries t → x.Offered y f 0)

/-- What a new feed state brings about at the terminals: each ONLINE one is offered it, the others are left
alone (R145). -/
def State.ToldTerminals (s t : State) (f : FeedState) : Prop :=
  ∀ x : TermNo,
    ((s.terminals[x]).state = .online → s.FeedOffered x s.terminals[x] t.terminals[x] f)
      ∧ ((s.terminals[x]).state ≠ .online → t.terminals[x] = s.terminals[x])

/-- The owed slots of a terminal in ascending number, each with the message that is built for it (R159, R160). -/
def State.owedSlots (s : State) (t : TermNo) : List (SlotNo × OutMessage) :=
  (List.finRange 8).filterMap fun k =>
    match (s.alerts[t])[k] with
    | none => none
    | some a =>
      if a.owed then
        (findRecord s.issues.records a.issue).map fun r => (k, .alert (alertChars k a r s.issues.clock))
      else none

/-- A freeing of places at a terminal whose queue then holds `kept`: an owed FEED status joins first, then the owed
slots' messages in ascending slot number while a place is free (R144, R160). -/
def State.Freed (s u : State) (t : TermNo) (kept : List OutMessage) : Prop :=
  let x := s.terminals[t]
  let feed : List OutMessage := if x.feedOwed ∧ kept.length < 8 then [.feedStatus s.feed.feedState] else []
  let sent := (s.owedSlots t).take (8 - (kept ++ feed).length)
  (u.terminals[t]).queue = kept ++ feed ++ sent.map Prod.snd
    ∧ (u.terminals[t]).feedOwed = (x.feedOwed && feed.isEmpty)
    ∧ ∀ k : SlotNo, (u.alerts[t])[k] =
        if k ∈ sent.map Prod.fst then ((s.alerts[t])[k]).map fun a => { a with owed := false }
        else (s.alerts[t])[k]

/-- The arrow state of a row with its phase, whose changes mark LAMPS; the remaining count and the timer are not among
them (R118, R119). -/
def Arrow.stateAndPhase : Arrow → Nat × Option Phase
  | .steadyNone => (0, none)
  | .steadyUp => (1, none)
  | .steadyDown => (2, none)
  | .flashUp f => (3, some f.phase)
  | .flashDown f => (4, some f.phase)

/-- How far a drop stands behind the poll pointer, the pointer's own drop last (R132). -/
def TermLine.behind (x : TermLine) (d : DropNo) : Nat := (d.val + 7 - x.pollPtr.val) % 8

/-- A terminal line that chooses its next transaction: it polls the next enabled terminal after the poll pointer,
and with none enabled it is idle; nothing else of the line changes (R132, R203). `x` is the line before the choice
and `u` the card after it. -/
def State.Polls (x : TermLine) (u : State) (l : LineNo) : Prop :=
  ((∀ e : DropNo, (u.terminals[termOf l e]).state = .disabled) → u.termLines[l] = { x with inFlight := none })
    ∧ ∀ e : DropNo, (u.terminals[termOf l e]).state ≠ .disabled →
        (∀ f : DropNo, (u.terminals[termOf l f]).state ≠ .disabled → x.behind e ≤ x.behind f) →
        u.termLines[l] =
          { x with pollPtr := e, inFlight := some ⟨e, .pollSending (0x70 + BitVec.ofNat 8 e.val), false⟩ }

/-- A terminal's watch list changed to `new`: its entries and their pending sets, the owed length, and its bit of
every watcher mask (R24, R147, R148). -/
def State.Rewatched (s u : State) (t : TermNo) (new : List Nat) : Prop :=
  let x := s.terminals[t]
  let old := x.watch.map WatchEntry.issue
  let kept (n : Nat) : FieldSet := ((x.watch.find? fun e => e.issue == n).map WatchEntry.pending).getD .empty
  (u.terminals[t]).watch.map WatchEntry.issue = new
    ∧ (∀ (p : Nat) (e : WatchEntry), (u.terminals[t]).watch[p]? = some e →
        (x.state ≠ .disabled → (∃ j, j ≤ p ∧ old[j]? ≠ new[j]?) →
            e.pending = ⟨true, true, true, true, false, true, true⟩)
          ∧ (x.state = .disabled ∨ (∀ j, j ≤ p → old[j]? = new[j]?) → e.pending = kept e.issue))
    ∧ (u.terminals[t]).lengthOwed = (x.lengthOwed || decide (x.state ≠ .disabled ∧ old.length ≠ new.length))
    ∧ u.terminals[t] =
        { x with watch := (u.terminals[t]).watch, lengthOwed := (u.terminals[t]).lengthOwed }
    ∧ (∀ y : TermNo, y ≠ t → u.terminals[y] = s.terminals[y])
    ∧ (∃ mask : Nat → BitVec 32 → BitVec 32,
        u.issues.records = s.issues.records.map (fun p => (p.1, { p.2 with watchers := mask p.1 p.2.watchers }))
          ∧ ∀ (n : Nat) (m : BitVec 32) (y : TermNo), (mask n m).getLsbD y.val =
              if y = t then decide (n ∈ new) || (m.getLsbD y.val && decide (n ∉ old)) else m.getLsbD y.val)
    ∧ u = { s with
        issues := { s.issues with records := u.issues.records }
        terminals := u.terminals }

/-- Fields marked at rows of the board one after another, in the order of `rows`, and the choice of each idle line
that follows with the given records and lamps. At a module that is not DARK the fields its row shows join the dirty
set, and its mark is settled as by every other change of a module; at any other nothing changes. So nothing else of a
module changes but its mark, and nothing else of a line but the mark register (R98, R99, R100, R109, R110, log 26). -/
def State.Marked (s u : State) (records : Records) (lamps : RowNo → RowLamps) (rows : List RowNo)
    (fields : RowNo → FieldSet) : Prop :=
  ∀ l : LineNo,
    let marked (i : ModuleNo) : FieldSet :=
      let m := (s.boards[l]).modules[i]
      if m.state = .dark then .empty else (fields (rowOf l i)).inter ((m.mapping.map Mapping.mask).getD .empty)
    let x : BoardLine := (rows.filter fun r => rowLine r = l).foldl (fun b r =>
      let i := rowModule r
      if marked i = .empty then b else b.change i fun m => { m with dirty := m.dirty.union (marked i) }) s.boards[l]
    x = { s.boards[l] with modules := x.modules, markReg := x.markReg }
      ∧ (∀ i : ModuleNo,
          let m := (s.boards[l]).modules[i]
          x.modules[i] = { m with
            dirty := if rowOf l i ∈ rows then m.dirty.union (marked i) else m.dirty
            mark := (x.modules[i]).mark })
      ∧ u.boards[l] = x.choose records fun i => lamps (rowOf l i)

end Sys2Proof.Machine
end

