-- ==== Sys2Proof/Certificates/Slice0/Obligations.lean ====
section
/-! DEFINITION. The statements for the provers. A premise about the hand-over queue, a timer or a line says when
the command is due (log 1). -/

open Sys2Proof Sys2Proof.Machine

/-! ### The machine as a whole -/

/-- The step of the card is the meaning of the command at the front of its queue, run with the queue's rest. -/
def Obligations.StepRunsFrontCommand : Prop :=
  ∀ (c : Instr) (s : State), step { s with pending := c :: s.pending } = exec c s

/-- No command touches the queue of waiting commands, and every command answers a next state, but a checked frame
from below that finds 2 frames in the pass-through buffer, which stops by name (log 7). -/
def Obligations.CommandsAnswer : Prop :=
  (∀ (c : Instr) (s t : State), exec c s = .next t → t.pending = s.pending)
    ∧ (∀ (c : Instr) (s : State),
     (∃ t, exec c s = .next t)
       ∨ ∃ b f, c = .upstreamInCharacter b ∧ (assemble s.upstream.assembler b).2 = .frame f
           ∧ 2 ≤ s.upstream.buffer.length ∧ exec c s = .fault .upstreamOverrun)

/-! ### Numbers -/

/-- Numbers in and out. A feed price is refused by each of the four conditions, else it is W x 256 + N x (256 / D),
which is exact and in the price range. In a message the whole part stands in 2 characters, then the numerator and the
code in 1 each. A number stands in its characters high-order character first (R197), a signed one in two's complement,
and is read back as it was written; a run of issue numbers stands in 2 characters each; decimal digits have no leading
zeros and are read back. -/
def Obligations.NumbersReadAndWritten : Prop :=
  ((∀ w n k p, normalise w n k = some p ↔
       w ≤ 9999 ∧ 1 ≤ k ∧ k ≤ 8 ∧ n < 2 ^ k ∧ p = w * 256 + n * (256 / 2 ^ k) ∧ p ≠ 0)
     ∧ (∀ w n k p, normalise w n k = some p → p * 2 ^ k = (w * 2 ^ k + n) * 256 ∧ 1 ≤ p ∧ p ≤ 2559999)
     ∧ ∀ (body : Text) (i : Nat), feedPriceAt body i =
         normalise (readNat body i 2) (byteAt body (i + 2)).toNat (byteAt body (i + 3)).toNat)
    ∧ (∀ m : Nat, (decimal m).foldl (fun a c => a * 10 + (c.toNat - 0x30)) 0 = m
        ∧ (∀ c ∈ decimal m, 0x30 ≤ c.toNat ∧ c.toNat ≤ 0x39)
        ∧ ((decimal m).head? = some 0x30 → decimal m = [0x30]) ∧ decimal m ≠ [])
    ∧ (∀ (w n : Nat) (pre post : Text), n < 256 ^ w →
        (writeNat w n).length = w ∧ readNat (pre ++ writeNat w n ++ post) pre.length w = n)
    ∧ (∀ w n : Nat, writeNat w n = (List.range w).map fun j => BitVec.ofNat 8 (n / 256 ^ (w - 1 - j)))
    ∧ (∀ (w : Nat) (i : Int), writeInt w i = writeNat w (i % 256 ^ w).toNat)
    ∧ (∀ (body : Text) (i n : Nat), readIssues body i n = (List.range n).map fun j => readNat body (i + 2 * j) 2)
    ∧ ∀ (i : Int) (pre post : Text), -(2 ^ 31) ≤ i → i < 2 ^ 31 →
        readInt32 (pre ++ writeInt 4 i ++ post) pre.length = i

/-- The texts of prices, net changes and volumes. The fraction of v over the display denominator d is the numerator
with the remainder discarded, reduced by halving. A price is its whole part in decimal digits and the fraction when
its numerator is over 0; with digit dropping the whole part is its units digit. A net change is "0" with no sign
when neither part of its magnitude shows, else the sign and the parts that show. A volume is its lot count. -/
def Obligations.PriceTextsWritten : Prop :=
  (∀ d v : Nat, d ∈ [8, 16, 32, 64] → ∃ n e,
      n * d = ((v % 256) / (256 / d)) * e ∧ n < e ∧ e ∣ d ∧ (n = 0 ∨ n % 2 = 1)
        ∧ (let fraction : Text := decimal n ++ [0x2F] ++ decimal e
          let tail : Text := if n = 0 then [] else [0x20] ++ fraction
          priceText d v = decimal (v / 256) ++ tail
            ∧ droppedText d v = decimal (v / 256 % 10) ++ tail ∧ (decimal (v / 256 % 10)).length = 1
            ∧ ∀ c : Int, c.natAbs = v →
                let sign : Text := if c < 0 then [0x2D] else [0x2B]
                (v / 256 = 0 → n = 0 → changeText d c = [0x30])
                  ∧ (v / 256 = 0 → n ≠ 0 → changeText d c = sign ++ fraction)
                  ∧ (v / 256 ≠ 0 → changeText d c = sign ++ decimal (v / 256) ++ tail)))
    ∧ ∀ shares : Nat, volumeText shares = decimal (shares / 100)

/-! ### The Feed Receiver -/

/-- The moves of the frame assembler on one character, and what a character that completes no frame does to the
card: a sync pair or broken sync inside a frame and a length error each count one check failure, and the partial
frame is not counted as received, not handed on and not repeated. -/
def Obligations.AssemblerMoves : Prop :=
  (∀ c : Byte,
      assemble .hunt c = (if c = 0x96 then .firstSync else .hunt, .nothing)
        ∧ assemble .firstSync c = (if c = 0x96 then .synced else .hunt, .nothing)
        ∧ (c = 0x96 → assemble .synced c = (.synced, .nothing))
        ∧ (2 ≤ c.toNat → c.toNat ≤ 60 → assemble .synced c = (.body c.toNat [] false, .nothing))
        ∧ (c ≠ 0x96 → c.toNat < 2 ∨ 60 < c.toNat → assemble .synced c = (.hunt, .failure)))
    ∧ (∀ (n : Nat) (got : Text) (high : Option Byte),
        assemble (.body n got false) 0x96 = (.body n got true, .nothing)
          ∧ assemble (.check got high false) 0x96 = (.check got high true, .nothing)
          ∧ assemble (.body n got true) 0x96 = (.synced, .failure)
          ∧ assemble (.check got high true) 0x96 = (.synced, .failure)
          ∧ ∀ c : Byte, c ≠ 0x96 → c ≠ 0x00 →
              assemble (.body n got true) c = (.hunt, .failure)
                ∧ assemble (.check got high true) c = (.hunt, .failure))
    ∧ (∀ (n : Nat) (got : Text) (held : Bool) (c : Byte), (held = false ∧ c ≠ 0x96) ∨ (held = true ∧ c = 0x00) →
        let d : Byte := if held then 0x96 else c
        assemble (.body n got held) c =
            (if got.length + 1 < n then .body n (got ++ [d]) false else .check (got ++ [d]) none false, .nothing)
          ∧ assemble (.check got none held) c = (.check got (some d) false, .nothing)
          ∧ ∀ h : Byte, assemble (.check got (some h) held) c =
              (.hunt, if frameCheck got = h ++ d then .frame ⟨got, h, d⟩ else .failure))
    ∧ ∀ (s : State) (c : Byte),
        ((assemble s.feed.assembler c).2 = .nothing →
            exec (.feedInCharacter c) s =
              .next { s with feed := { s.feed with assembler := (assemble s.feed.assembler c).1 } })
          ∧ ((assemble s.feed.assembler c).2 = .failure →
            exec (.feedInCharacter c) s =
              .next { s with feed := { s.feed with
                assembler := (assemble s.feed.assembler c).1
                counts := { s.feed.counts with checkFailure := min (s.feed.counts.checkFailure + 1) 65535 } } })

/-- Frames as they stand on a line, and the cyclic check. The check register starts at 0 and takes the length and the
body, each character least significant bit first; the first check character is its high half. Two sync characters open
a frame, and a fill character follows each character of value 96h inside it. Every frame of 2 to 60 body characters,
sent with its sync, fill and check characters, is taken whole by the assembler and no sooner than at its last
character; with other check characters it is a check failure. -/
def Obligations.FrameRoundTrip : Prop :=
  (∀ body : Text,
      let enter (reg : BitVec 16) (b : Bool) : BitVec 16 :=
        (reg >>> 1) ^^^ (if (b ^^ reg.getLsbD 0) = true then 0xA001#16 else 0#16)
      let bits : List Bool := (BitVec.ofNat 8 body.length :: body).flatMap fun c => (List.range 8).map c.getLsbD
      frameCheck body = bits.foldl enter 0#16
        ∧ (frameOf body).body = body ∧ (frameOf body).checkHigh ++ (frameOf body).checkLow = frameCheck body)
    ∧ (∀ f : Frame, wireChars f = [0x96, 0x96]
        ++ (BitVec.ofNat 8 f.body.length :: f.body ++ [f.checkHigh, f.checkLow]).flatMap fun c =>
          if c = 0x96 then [0x96, 0x00] else [c])
    ∧ ∀ (body : Text) (h l : Byte), 2 ≤ body.length → body.length ≤ 60 →
    let f : Frame := ⟨body, h, l⟩
    assembleAll .hunt (wireChars f) =
      (.hunt, List.replicate ((wireChars f).length - 1) .nothing
        ++ [if f = frameOf body then .frame f else .failure])

/-- The types of data messages and their body lengths, with the alternate print code unset or set. A checked data
message that is long enough, taken while the feed is LIVE: it is counted, compared with the expected number while the
lock is set (a difference counts a gap and offers FEED_GAP), restarts the silence timer while the session is OPEN, and
joins the hand-over queue or is counted as lost; nothing else of the Feed Receiver changes but its through path, which
ThroughPathFollowed states. The serial number is the model's own (log 20). -/
def Obligations.DataMessageChecked : Prop :=
  (∀ alt : Byte, alt = 0 ∨ (0x50 ≤ alt.toNat ∧ alt.toNat ≤ 0x5F) →
      (∀ x ∈ [((0x30 : Byte), DataKind.heartbeat, 3), (0x31, .trade, 14), (0x32, .quote, 14), (0x33, .issueStatus, 6),
            (0x34, .correction, 13), (0x35, .market, 9)],
          isDataType alt x.1 = true ∧ kindOf alt x.1 = some x.2.1 ∧ kindLength x.2.1 = x.2.2)
        ∧ (isDataType alt 0x36 = true ∧ kindOf alt 0x36 = none)
        ∧ (alt ≠ 0 → isDataType alt alt = true ∧ kindOf alt alt = some .alternate ∧ kindLength .alternate = 14)
        ∧ ∀ t : Byte, t.toNat < 0x30 ∨ 0x36 < t.toNat → alt = 0 ∨ t ≠ alt →
            isDataType alt t = false ∧ kindOf alt t = none)
    ∧ ∀ (s : State) (c : Byte) (f : Frame) (k : DataKind),
    (assemble s.feed.assembler c).2 = .frame f → kindOf s.control.altCode (byteAt f.body 0) = some k →
    kindLength k ≤ f.body.length → s.feed.feedState = .live →
    let n := byteAt f.body 2
    let gap := s.feed.lock = true ∧ s.feed.expected ≠ n
    ∃ t, exec (.feedInCharacter c) s = .next t
      ∧ t.feed = { s.feed with
          assembler := (assemble s.feed.assembler c).1
          expected := n + 1
          lock := true
          silence := if s.issues.session = .opened then some (s.control.window * 100) else s.feed.silence
          through := t.feed.through
          transmitting := t.feed.transmitting
          handOver := t.feed.handOver
          counts := { s.feed.counts with
            received := min (s.feed.counts.received + 1) 65535
            gap := if gap then min (s.feed.counts.gap + 1) 65535 else s.feed.counts.gap
            throughLoss := t.feed.counts.throughLoss
            handOverLoss := t.feed.counts.handOverLoss }
          serial := s.feed.serial + 1 }
      ∧ (s.feed.handOver.length < 32 →
          t.feed.handOver = s.feed.handOver ++ [⟨.data k, f.body, s.feed.serial + 1⟩]
            ∧ t.feed.counts.handOverLoss = s.feed.counts.handOverLoss)
      ∧ (32 ≤ s.feed.handOver.length → t.feed.handOver = s.feed.handOver
            ∧ t.feed.counts.handOverLoss = min (s.feed.counts.handOverLoss + 1) 65535)
      ∧ t.upstream = (if gap then s.upstream.offer [0x42, s.unitSwitch, 0x02, s.feed.expected, n] else s.upstream)
      ∧ t = { s with feed := t.feed, upstream := t.upstream }

/-- A checked message that is no data message: a control message of 3 or more characters is handed on as broadcast
for unit 0, as addressed for this card's own address, and to no block for any other; one of 2 characters and a
message of no known type are malformed. None of them touches the sequence check, the silence timer, the feed state or
anything else but the counts named and the through path, which ThroughPathFollowed states. The types and lengths of
data messages are DataMessageChecked's. A data message of type 36h or shorter than its type is malformed too, and is
handed to no block; while the feed is LIVE it restarts the silence timer of an OPEN session (log 34), and takes the
whole sequence check when it has 3 or more characters and no part of it when it has 2. The serial number is the
model's own (log 20). -/
def Obligations.OtherMessagesSorted : Prop :=
  (∀ (s : State) (c : Byte) (f : Frame), (assemble s.feed.assembler c).2 = .frame f →
     isDataType s.control.altCode (byteAt f.body 0) = false →
     let control := byteAt f.body 0 = 0x40 ∧ 3 ≤ f.body.length
     let unit := byteAt f.body 1
     let handed (addressed : Bool) (t : State) : Prop :=
       (s.feed.handOver.length < 32 →
           t.feed.handOver = s.feed.handOver ++ [⟨.control addressed, f.body, s.feed.serial + 1⟩]
             ∧ t.feed.counts.handOverLoss = s.feed.counts.handOverLoss)
         ∧ (32 ≤ s.feed.handOver.length → t.feed.handOver = s.feed.handOver
             ∧ t.feed.counts.handOverLoss = min (s.feed.counts.handOverLoss + 1) 65535)
     ∃ t, exec (.feedInCharacter c) s = .next t
       ∧ t.feed = { s.feed with
           assembler := (assemble s.feed.assembler c).1
           through := t.feed.through
           transmitting := t.feed.transmitting
           handOver := t.feed.handOver
           counts := { s.feed.counts with
             received := min (s.feed.counts.received + 1) 65535
             malformed := if control then s.feed.counts.malformed else min (s.feed.counts.malformed + 1) 65535
             throughLoss := t.feed.counts.throughLoss
             handOverLoss := t.feed.counts.handOverLoss }
           serial := s.feed.serial + 1 }
       ∧ (control → unit = 0 → handed false t)
       ∧ (control → unit ≠ 0 → unit = s.unitSwitch → handed true t)
       ∧ (¬ control ∨ (unit ≠ 0 ∧ unit ≠ s.unitSwitch) → t.feed.handOver = s.feed.handOver
           ∧ t.feed.counts.handOverLoss = s.feed.counts.handOverLoss)
       ∧ t = { s with feed := t.feed })
    ∧ ∀ (s : State) (c : Byte) (f : Frame), (assemble s.feed.assembler c).2 = .frame f →
      isDataType s.control.altCode (byteAt f.body 0) = true →
      (∀ k, kindOf s.control.altCode (byteAt f.body 0) = some k → f.body.length < kindLength k) →
      let n := byteAt f.body 2
      let numbered := 3 ≤ f.body.length
      let gap := numbered ∧ s.feed.lock = true ∧ s.feed.expected ≠ n
      ∃ t, exec (.feedInCharacter c) s = .next t
        ∧ t.feed.counts.received = min (s.feed.counts.received + 1) 65535
        ∧ t.feed.counts.malformed = min (s.feed.counts.malformed + 1) 65535
        ∧ t.feed.handOver = s.feed.handOver ∧ t.feed.counts.handOverLoss = s.feed.counts.handOverLoss
        ∧ t.issues = s.issues ∧ t.tapeA = s.tapeA ∧ t.tapeB = s.tapeB ∧ t.lamps = s.lamps
        ∧ t.termLines = s.termLines ∧ t.alerts = s.alerts ∧ t.control = s.control
        ∧ (s.feed.feedState = .live →
            t = { s with
              feed := { s.feed with
                assembler := (assemble s.feed.assembler c).1
                expected := if numbered then n + 1 else s.feed.expected
                lock := s.feed.lock || decide numbered
                silence := if s.issues.session = .opened then some (s.control.window * 100) else s.feed.silence
                through := t.feed.through
                transmitting := t.feed.transmitting
                counts := { s.feed.counts with
                  received := min (s.feed.counts.received + 1) 65535
                  malformed := min (s.feed.counts.malformed + 1) 65535
                  gap := if gap then min (s.feed.counts.gap + 1) 65535 else s.feed.counts.gap
                  throughLoss := t.feed.counts.throughLoss }
                serial := s.feed.serial + 1 }
              upstream := if gap then s.upstream.offer [0x42, s.unitSwitch, 0x02, s.feed.expected, n]
                else s.upstream })

/-- The two changes of the feed state. The first data message checked while the feed is QUIET, the sequence lock
being clear: it is counted, a number it has sets the expected number and the lock with no gap, the feed is LIVE, one
FEED_LIVE notice is offered, the board lines and the ONLINE terminals are told, no tape is handed a marker, and the
message joins the hand-over queue, is counted as lost, or is counted malformed; the silence timer of an OPEN session
starts. This holds for a malformed data message too; that it restarts the silence timer of an OPEN session is log 34.
The through path is ThroughPathFollowed's, the serial number the model's own (log 20). The expiry of the silence
timer: the feed is QUIET, the timer stopped, the lock clear, the quiet count up by one, FEED_QUIET offered, a QUIET
marker handed to both tapes, and the board lines and ONLINE terminals told. A timer that has not run out is left
alone. That the markers wait for steps of their own is log 3, that the expected number is kept when the lock is
cleared log 32, and that two waiting FEED status messages both take the new state log 36. -/
def Obligations.FeedStateChanges : Prop :=
  (∀ (s : State) (c : Byte) (f : Frame), (assemble s.feed.assembler c).2 = .frame f →
     isDataType s.control.altCode (byteAt f.body 0) = true → s.feed.feedState = .quiet → s.feed.lock = false →
     let numbered := 3 ≤ f.body.length
     let kind : Option DataKind :=
       (kindOf s.control.altCode (byteAt f.body 0)).filter fun k => decide (kindLength k ≤ f.body.length)
     ∃ t, exec (.feedInCharacter c) s = .next t
       ∧ t.feed = { s.feed with
           assembler := (assemble s.feed.assembler c).1
           expected := if numbered then byteAt f.body 2 + 1 else s.feed.expected
           lock := decide numbered
           silence := if s.issues.session = .opened then some (s.control.window * 100) else s.feed.silence
           feedState := .live
           through := t.feed.through
           transmitting := t.feed.transmitting
           handOver := t.feed.handOver
           counts := { s.feed.counts with
             received := min (s.feed.counts.received + 1) 65535
             malformed := if kind = none then min (s.feed.counts.malformed + 1) 65535 else s.feed.counts.malformed
             throughLoss := t.feed.counts.throughLoss
             handOverLoss := t.feed.counts.handOverLoss }
           serial := s.feed.serial + 1 }
       ∧ (∀ k, kind = some k → s.feed.handOver.length < 32 →
           t.feed.handOver = s.feed.handOver ++ [⟨.data k, f.body, s.feed.serial + 1⟩]
             ∧ t.feed.counts.handOverLoss = s.feed.counts.handOverLoss)
       ∧ (∀ k, kind = some k → 32 ≤ s.feed.handOver.length →
           t.feed.handOver = s.feed.handOver
             ∧ t.feed.counts.handOverLoss = min (s.feed.counts.handOverLoss + 1) 65535)
       ∧ (kind = none → t.feed.handOver = s.feed.handOver
           ∧ t.feed.counts.handOverLoss = s.feed.counts.handOverLoss)
       ∧ t.upstream = s.upstream.offer [0x42, s.unitSwitch, 0x04]
       ∧ (∀ l : LineNo, (s.boards[l]).Told t.boards[l] .live 0x00) ∧ s.ToldTerminals t .live
       ∧ t = { s with feed := t.feed, upstream := t.upstream, boards := t.boards, terminals := t.terminals })
    ∧ ∀ s : State,
      (s.feed.silence = some 0 →
        ∃ t, exec .silenceTimerExpiry s = .next t
          ∧ t.feed = { s.feed with
              feedState := .quiet
              silence := none
              lock := false
              counts := { s.feed.counts with quiet := min (s.feed.counts.quiet + 1) 65535 } }
          ∧ t.upstream = s.upstream.offer [0x42, s.unitSwitch, 0x03]
          ∧ t.tapeA = { s.tapeA with arrivals := s.tapeA.arrivals ++ [.quiet] }
          ∧ t.tapeB = { s.tapeB with arrivals := s.tapeB.arrivals ++ [.quiet] }
          ∧ (∀ l : LineNo, (s.boards[l]).Told t.boards[l] .quiet 0x01) ∧ s.ToldTerminals t .quiet
          ∧ t = { s with
              feed := t.feed, upstream := t.upstream, tapeA := t.tapeA, tapeB := t.tapeB, boards := t.boards
              terminals := t.terminals })
        ∧ (s.feed.silence ≠ some 0 → exec .silenceTimerExpiry s = .next s)

/-- The through path. A checked frame is held back when it is a control message addressed to this card or the switch
is off; else it is sent at once, queued, or counted as lost when 4 frames wait. At the end of a frame the messages
that waited when the switch was turned off are discarded at the head, and the first other one is sent. Turning the
switch off marks the messages that wait; a frame in transmission is sent to its end. Which messages are discarded
after the switch is turned off is log 19, and when it follows a RESTART log 18. The serial number is the model's own
(log 20). -/
def Obligations.ThroughPathFollowed : Prop :=
  (∀ (s : State) (c : Byte) (f : Frame), (assemble s.feed.assembler c).2 = .frame f →
     let mine := byteAt f.body 0 = 0x40 ∧ byteAt f.body 1 ≠ 0 ∧ byteAt f.body 1 = s.unitSwitch
     let e : ThroughEntry := ⟨f, s.feed.serial + 1, false⟩
     ∃ t, exec (.feedInCharacter c) s = .next t ∧ t.throughSwitch = s.throughSwitch
       ∧ (mine ∨ s.throughSwitch = false →
           t.feed.through = s.feed.through ∧ t.feed.transmitting = s.feed.transmitting
             ∧ t.feed.counts.throughLoss = s.feed.counts.throughLoss)
       ∧ (¬ mine → s.throughSwitch = true → 4 ≤ s.feed.through.length →
           t.feed.through = s.feed.through ∧ t.feed.transmitting = s.feed.transmitting
             ∧ t.feed.counts.throughLoss = min (s.feed.counts.throughLoss + 1) 65535)
       ∧ (¬ mine → s.throughSwitch = true → s.feed.through.length < 4 → s.feed.transmitting.isSome = true →
           t.feed.through = s.feed.through ++ [e] ∧ t.feed.transmitting = s.feed.transmitting
             ∧ t.feed.counts.throughLoss = s.feed.counts.throughLoss)
       ∧ (¬ mine → s.throughSwitch = true → s.feed.through = [] → s.feed.transmitting = none →
           t.feed.through = [] ∧ t.feed.transmitting = some e
             ∧ t.feed.counts.throughLoss = s.feed.counts.throughLoss))
    ∧ ((∀ (s : State) (e : ThroughEntry) (gone rest : List ThroughEntry), s.feed.transmitting = some e →
       (∀ x ∈ gone, x.doomed = true) →
       (∀ x, x.doomed = false → s.feed.through = gone ++ x :: rest →
           exec .throughFrameEnd s =
             .next { s with feed := { s.feed with transmitting := some x, through := rest } })
         ∧ (s.feed.through = gone →
           exec .throughFrameEnd s =
             .next { s with feed := { s.feed with transmitting := none, through := [] } }))
     ∧ (∀ s : State, exec (.throughSwitchChange true) s = .next { s with throughSwitch := true })
     ∧ ∀ s : State, exec (.throughSwitchChange false) s = .next
         { s with
           throughSwitch := false
           feed := { s.feed with through := s.feed.through.map fun x => ⟨x.frame, x.serial, true⟩ } })

/-- One centisecond: the market clock goes up by one and wraps, every running timer has one centisecond less, no
timer starts or stops, and nothing else of the card changes. That one tick counts every timer is log 9. -/
def Obligations.ClockTickCounts : Prop :=
  ∀ s : State, ∃ t, exec .marketClockTick s = .next t
    ∧ t.issues = { s.issues with clock := s.issues.clock + 1 }
    ∧ t.feed = { s.feed with silence := s.feed.silence.map (· - 1) }
    ∧ t.tapeA = { s.tapeA with flashTimer := s.tapeA.flashTimer.map (· - 1) }
    ∧ t.tapeB = { s.tapeB with flashTimer := s.tapeB.flashTimer.map (· - 1) }
    ∧ (∀ r : RowNo, (t.lamps[r]).arrow.timer = (s.lamps[r]).arrow.timer.map (· - 1)
        ∧ (t.lamps[r]).arrow.stateAndPhase = (s.lamps[r]).arrow.stateAndPhase ∧ (t.lamps[r]).halt = (s.lamps[r]).halt
        ∧ (t.lamps[r]).arrow.flash?.map Flash.remaining = (s.lamps[r]).arrow.flash?.map Flash.remaining)
    ∧ (∀ l : LineNo,
        (∀ i : ModuleNo, (t.boards[l]).modules[i] =
            { (s.boards[l]).modules[i] with backOff := ((s.boards[l]).modules[i]).backOff.map (· - 1) })
          ∧ t.boards[l] = { s.boards[l] with
              modules := (t.boards[l]).modules
              inFlight := (s.boards[l]).inFlight.map fun x => ⟨x.body, x.chars, x.wait.map (· - 1)⟩ }
          ∧ t.termLines[l] = { s.termLines[l] with
              inFlight := (s.termLines[l]).inFlight.map fun x =>
                ⟨x.drop, match x.stage with
                  | .pollWait n => .pollWait (n - 1)
                  | .selectWait sel n => .selectWait sel (n - 1)
                  | st => st, x.cut⟩ })
    ∧ t = { s with
        issues := t.issues, feed := t.feed, tapeA := t.tapeA, tapeB := t.tapeB, boards := t.boards
        lamps := t.lamps, termLines := t.termLines }

/-- The state after power-on, every part of it: the switches as set, the ready line from above at the level it had, no
notice or tape entry waiting, and the loaded and working parameters of both tapes at their defaults. What the operands
of POWER_ON stand for, and that the waiting commands and the number of free values drawn are kept, is log 6, the
arbiter's run log 28. The waiting notices and entries are log 3, the serial number log 20, and the record of the last
character sent to a terminal log 22. -/
def Obligations.PowerOnState : Prop :=
  ∀ (s : State) (unit : Byte) (on : Bool), ∃ t, exec (.powerOn unit on) s = .next t
    ∧ t.feed.assembler = .hunt ∧ t.feed.lock = false ∧ t.feed.expected = 0 ∧ t.feed.silence = none
    ∧ t.feed.feedState = .live ∧ t.feed.through = [] ∧ t.feed.transmitting = none ∧ t.feed.handOver = []
    ∧ t.feed.counts = ⟨0, 0, 0, 0, 0, 0, 0, 0, 0⟩ ∧ t.feed.serial = 0
    ∧ t.issues = ⟨[], .closed, 0, [], 0⟩
    ∧ (∀ ch : Channel, (t.tape ch).queue = [] ∧ (t.tape ch).emission = none ∧ (t.tape ch).lateness = 0
        ∧ (t.tape ch).level = 0 ∧ (t.tape ch).rate = 12 ∧ (t.tape ch).flashTimer = none
        ∧ (t.tape ch).backlog = 0 ∧ (t.tape ch).dropped = 0 ∧ (t.tape ch).merged = 0 ∧ (t.tape ch).arrivals = []
        ∧ (t.tape ch).working = ⟨(t.tape ch).loaded.thresholds, 100, 0⟩
        ∧ (t.tape ch).loaded = ⟨12, 20, ⟨⟨300, 1⟩, ⟨600, 1⟩, ⟨120, 2⟩, ⟨150, 1⟩, ⟨450, 1⟩, ⟨900, 1⟩⟩, 100, 0, 60⟩)
    ∧ (∀ l : LineNo, (∀ i : ModuleNo, (t.boards[l]).modules[i] = ⟨none, .unknown, .empty, false, none, 0, none⟩)
        ∧ (t.boards[l]).markReg = 0 ∧ (t.boards[l]).sweep = 31 ∧ (t.boards[l]).inFlight = none
        ∧ (t.boards[l]).broadcast = none ∧ (t.boards[l]).holds = 0 ∧ (t.boards[l]).timeouts = 0
        ∧ (t.termLines[l]).pollPtr = 7 ∧ (t.termLines[l]).inFlight = none
        ∧ (t.termLines[l]).timeouts = 0 ∧ (t.termLines[l]).busies = 0 ∧ (t.termLines[l]).retries = 0
        ∧ (t.termLines[l]).lastAck = none)
    ∧ t.boardNotices = [] ∧ t.lampNotices = [] ∧ t.terminalNotices = [] ∧ t.alertNotices = []
    ∧ (∀ r : RowNo, t.lamps[r] = ⟨.steadyNone, false⟩) ∧ t.lampParams = ⟨50, 50, 3⟩
    ∧ (∀ x : TermNo, t.terminals[x] = ⟨.disabled, [], false, 23, [], false, 0⟩
        ∧ ∀ k : SlotNo, (t.alerts[x])[k] = none)
    ∧ t.control = ⟨5, 0, 0, none⟩
    ∧ t.upstream.claims = 0 ∧ t.upstream.buffer = [] ∧ t.upstream.lastServed = .own
    ∧ t.upstream.assembler = .hunt ∧ t.upstream.lost = 0 ∧ t.upstream.readyAbove = s.upstream.readyAbove
    ∧ (s.upstream.readyAbove = false → t.upstream.replies = [[0x42, unit, 0x01, 0x00]]
        ∧ t.upstream.transmitting = none ∧ t.upstream.hold = true)
    ∧ (s.upstream.readyAbove = true → t.upstream.replies = []
        ∧ t.upstream.transmitting = some (.own, frameOf [0x42, unit, 0x01, 0x00]) ∧ t.upstream.hold = false)
    ∧ t.unitSwitch = unit ∧ t.throughSwitch = on ∧ t.pending = s.pending ∧ t.freeCount = s.freeCount

/-! ### The Issue Table: data messages -/

/-- A regular print taken in an open session on a LISTED issue: the whole next state. The tick test of a print
against its reference decides its tick. Its notice and its tape entries wait for steps of their own (log 3). -/
def Obligations.TradeApplied : Prop :=
  (∀ (s : State) (body : Text) (rest : List Handed) (r : IssueRecord) (p : Nat),
     s.DataTurn .trade body rest → (byteAt body 13).getLsbD 0 = false → s.issues.session = .opened →
     listed s (readNat body 3 2) = some r → feedPriceAt body 5 = some p → readNat body 9 4 ≠ 0 →
     let n := readNat body 3 2
     let v := min (readNat body 9 4) 99999999
     let tick := tickTest p (if r.traded then r.last else r.close) r.tick
     let q : IssueRecord :=
       { r with
         last := p
         netChange := (p : Int) - r.close
         tick := tick
         traded := true
         high := some (if r.traded then max p (r.high.getD p) else p)
         low := some (if r.traded then min p (r.low.getD p) else p)
         volume := min (r.volume + v) 999999999 }
     let notice : ChangeNotice :=
       ⟨n, ⟨false, true, true, true, decide (tick = .up ∨ tick = .down), false, true⟩, tick, r.halted, r.rows,
         r.watchers⟩
     let item : TapeItem := .print n r.symbol r.denom p v .none
     exec .trade s = .next
       { s with
         feed := { s.feed with handOver := rest }
         issues := { s.issues with records := putRecord s.issues.records n q }
         boardNotices := s.boardNotices ++ [notice]
         lampNotices := s.lampNotices ++ [notice]
         terminalNotices := s.terminalNotices ++ [notice]
         alertNotices := s.alertNotices ++ [notice]
         tapeA := if r.eligA then { s.tapeA with arrivals := s.tapeA.arrivals ++ [item] } else s.tapeA
         tapeB := if r.eligB then { s.tapeB with arrivals := s.tapeB.arrivals ++ [item] } else s.tapeB })
    ∧ ∀ (p reference : Nat) (previous : Tick),
      (reference < p → tickTest p reference previous = .up)
        ∧ (p < reference → tickTest p reference previous = .down)
        ∧ (p = reference → (previous = .up ∨ previous = .zeroUp → tickTest p reference previous = .zeroUp)
            ∧ (previous = .down ∨ previous = .zeroDown → tickTest p reference previous = .zeroDown)
            ∧ (previous = .none → tickTest p reference previous = .none))

/-- A print that adds its volume alone, out of sequence or alternate: the whole next state. An alternate print is
handed to Tape B alone, and its out-of-sequence flag is not read. The notice and the tape entries wait for steps of
their own (log 3). -/
def Obligations.VolumePrintsApplied : Prop :=
  ∀ (s : State) (body : Text) (rest : List Handed) (r : IssueRecord) (p : Nat),
    s.issues.session = .opened → listed s (readNat body 3 2) = some r → feedPriceAt body 5 = some p →
    readNat body 9 4 ≠ 0 →
    let n := readNat body 3 2
    let v := min (readNat body 9 4) 99999999
    let q : IssueRecord := { r with volume := min (r.volume + v) 999999999 }
    let notice : ChangeNotice :=
      ⟨n, ⟨false, false, false, true, false, false, false⟩, r.tick, r.halted, r.rows, r.watchers⟩
    let after (a b : List TapeItem) : State :=
      { s with
        feed := { s.feed with handOver := rest }
        issues := { s.issues with records := putRecord s.issues.records n q }
        boardNotices := s.boardNotices ++ [notice]
        lampNotices := s.lampNotices ++ [notice]
        terminalNotices := s.terminalNotices ++ [notice]
        alertNotices := s.alertNotices ++ [notice]
        tapeA := { s.tapeA with arrivals := s.tapeA.arrivals ++ a }
        tapeB := { s.tapeB with arrivals := s.tapeB.arrivals ++ b } }
    let star : TapeItem := .print n r.symbol r.denom p v .star
    let hash : TapeItem := .print n r.symbol r.denom p v .hash
    (s.DataTurn .trade body rest → (byteAt body 13).getLsbD 0 = true →
        exec .outOfSequenceTrade s =
          .next (after (if r.eligA then [star] else []) (if r.eligB then [star] else [])))
      ∧ (s.DataTurn .alternate body rest →
        exec .alternatePrint s = .next (after [] (if r.eligB then [hash] else [])))

/-- A QUOTE taken in an open session on a LISTED issue, each side whose flag is set carrying an accepted price: each
present side takes its price, each other side is absent, and nothing else of the record changes. A present side with
a refused price refuses the message. An ISSUE STATUS on a LISTED issue, in either session state: the halted flag,
the notice and the markers, also when the flag already stood so. Notices and markers wait for steps of their own
(log 3). -/
def Obligations.QuotesAndStatusApplied : Prop :=
  (∀ (s : State) (body : Text) (rest : List Handed) (r : IssueRecord),
       s.DataTurn .quote body rest → s.issues.session = .opened → listed s (readNat body 3 2) = some r →
       let n := readNat body 3 2
       let bidIn := (byteAt body 5).getLsbD 0
       let askIn := (byteAt body 5).getLsbD 1
       let good := (bidIn = true → (feedPriceAt body 6).isSome = true)
         ∧ (askIn = true → (feedPriceAt body 10).isSome = true)
       let notice : ChangeNotice :=
         ⟨n, ⟨false, false, false, false, false, true, false⟩, r.tick, r.halted, r.rows, r.watchers⟩
       let q : IssueRecord :=
         { r with
           bid := if bidIn then feedPriceAt body 6 else none
           ask := if askIn then feedPriceAt body 10 else none }
       (good → exec .quote s = .next
         { s with
           feed := { s.feed with handOver := rest }
           issues := { s.issues with records := putRecord s.issues.records n q }
           boardNotices := s.boardNotices ++ [notice]
           lampNotices := s.lampNotices ++ [notice]
           terminalNotices := s.terminalNotices ++ [notice]
           alertNotices := s.alertNotices ++ [notice] })
         ∧ (¬ good → exec .quote s = .next
           { s with feed := { s.feed with
             handOver := rest
             counts := { s.feed.counts with refused := min (s.feed.counts.refused + 1) 65535 } } }))
    ∧ ∀ (s : State) (body : Text) (rest : List Handed) (r : IssueRecord) (halt : Bool),
      s.DataTurn .issueStatus body rest → listed s (readNat body 3 2) = some r →
      byteAt body 5 = (if halt then 0x01 else 0x02) →
      let n := readNat body 3 2
      let notice : ChangeNotice :=
        ⟨n, ⟨false, false, false, false, true, false, true⟩, r.tick, halt, r.rows, r.watchers⟩
      let item : TapeItem := if halt then .halt n r.symbol else .resume n r.symbol
      exec .issueStatus s = .next
        { s with
          feed := { s.feed with handOver := rest }
          issues := { s.issues with records := putRecord s.issues.records n { r with halted := halt } }
          boardNotices := s.boardNotices ++ [notice]
          lampNotices := s.lampNotices ++ [notice]
          terminalNotices := s.terminalNotices ++ [notice]
          alertNotices := s.alertNotices ++ [notice]
          tapeA := if r.eligA then { s.tapeA with arrivals := s.tapeA.arrivals ++ [item] } else s.tapeA
          tapeB := if r.eligB then { s.tapeB with arrivals := s.tapeB.arrivals ++ [item] } else s.tapeB }

/-- A CORRECTION taken in an open session on a LISTED issue, both prices accepted: applied when traded is set and
last is the old price, else mismatched and counted. The notice and the tape entries wait for steps of their own (log
3). -/
def Obligations.CorrectionApplied : Prop :=
  ∀ (s : State) (body : Text) (rest : List Handed) (r : IssueRecord) (old p : Nat),
    s.DataTurn .correction body rest → s.issues.session = .opened → listed s (readNat body 3 2) = some r →
    feedPriceAt body 5 = some old → feedPriceAt body 9 = some p →
    let n := readNat body 3 2
    let notice : ChangeNotice :=
      ⟨n, ⟨false, true, true, false, false, false, false⟩, r.tick, r.halted, r.rows, r.watchers⟩
    let item : TapeItem := .corr n r.symbol r.denom p
    let q : IssueRecord :=
      { r with
        last := p
        netChange := (p : Int) - r.close
        high := some (max p (r.high.getD p))
        low := some (min p (r.low.getD p)) }
    (r.traded = true ∧ r.last = old → exec .correction s = .next
      { s with
        feed := { s.feed with handOver := rest }
        issues := { s.issues with records := putRecord s.issues.records n q }
        boardNotices := s.boardNotices ++ [notice]
        lampNotices := s.lampNotices ++ [notice]
        terminalNotices := s.terminalNotices ++ [notice]
        alertNotices := s.alertNotices ++ [notice]
        tapeA := if r.eligA then { s.tapeA with arrivals := s.tapeA.arrivals ++ [item] } else s.tapeA
        tapeB := if r.eligB then { s.tapeB with arrivals := s.tapeB.arrivals ++ [item] } else s.tapeB })
      ∧ (¬ (r.traded = true ∧ r.last = old) → exec .correction s = .next
        { s with
          feed := { s.feed with handOver := rest }
          issues := { s.issues with mismatches := min (s.issues.mismatches + 1) 65535 } })

/-- A data message that is not applied changes nothing but its verdict's count: a HEARTBEAT; a print, QUOTE or
CORRECTION while the session is CLOSED; a message naming no LISTED issue; a print with a refused price or a volume
of 0; a CORRECTION with a refused price; an ISSUE STATUS or MARKET message of unknown event. A MARKET message of
unknown event is taken by either row (log 15). -/
def Obligations.UnappliedMessagesCounted : Prop :=
  ∀ (s : State) (body : Text) (rest : List Handed),
    let plain : State := s.taken rest
    let discarded : State :=
      plain.countFeed fun c => { c with discarded := min (c.discarded + 1) 65535 }
    let refused : State := plain.countFeed fun c => { c with refused := min (c.refused + 1) 65535 }
    let late := (byteAt body 13).getLsbD 0
    let turn (c : Instr) : Prop :=
      (c = .trade ∧ s.DataTurn .trade body rest ∧ late = false)
        ∨ (c = .outOfSequenceTrade ∧ s.DataTurn .trade body rest ∧ late = true)
        ∨ (c = .alternatePrint ∧ s.DataTurn .alternate body rest)
    let priced (c : Instr) : Prop :=
      turn c ∨ (c = .quote ∧ s.DataTurn .quote body rest) ∨ (c = .correction ∧ s.DataTurn .correction body rest)
    let status (c : Instr) : Prop := c = .issueStatus ∧ s.DataTurn .issueStatus body rest
    (s.DataTurn .heartbeat body rest → exec .heartbeat s = .next plain)
      ∧ (∀ c, priced c → s.issues.session = .closed → exec c s = .next discarded)
      ∧ (∀ c, (priced c ∧ s.issues.session = .opened) ∨ status c → listed s (readNat body 3 2) = none →
          exec c s = .next refused)
      ∧ (∀ c, turn c → s.issues.session = .opened → feedPriceAt body 5 = none ∨ readNat body 9 4 = 0 →
          exec c s = .next refused)
      ∧ (s.DataTurn .correction body rest → s.issues.session = .opened →
          feedPriceAt body 5 = none ∨ feedPriceAt body 9 = none → exec .correction s = .next refused)
      ∧ (∀ c, status c → byteAt body 5 ≠ 1 → byteAt body 5 ≠ 2 → exec c s = .next refused)
      ∧ (s.DataTurn .market body rest → byteAt body 3 ≠ 1 → byteAt body 3 ≠ 2 →
          exec .marketOpen s = .next refused ∧ exec .marketClose s = .next refused)

/-- MARKET OPEN: the clock when present, the session OPEN, the silence timer started when the session was CLOSED,
every row's lamps out, LAMPS marked at the rows whose lamps change, every LISTED record opened with its close rolled
forward when asked, and a full notice for each in ascending order of number. The order in which the rows are marked
is the model's (log 37), the choice of an idle line that follows log 26, and the notices wait for steps of their own
(log 3). MARKET CLOSE while the feed is LIVE: the session CLOSED, the silence timer stopped, and nothing else. While
the feed is QUIET it also returns the feed to LIVE (log 12), where two waiting FEED status messages of a terminal
both take the new state (log 36). -/
def Obligations.MarketMessagesApplied : Prop :=
  (∀ (s : State) (body : Text) (rest : List Handed), s.DataTurn .market body rest → byteAt body 3 = 1 →
       let flags := byteAt body 4
       let opened (r : IssueRecord) : IssueRecord :=
         let c := if flags.getLsbD 1 = true ∧ r.traded = true then r.last else r.close
         { symbol := r.symbol, denom := r.denom, eligA := r.eligA, eligB := r.eligB, close := c, last := c,
           netChange := 0, tick := .none, traded := false, high := none, low := none, volume := 0, bid := none,
           ask := none, halted := false, rows := r.rows, watchers := r.watchers }
       let notices : List ChangeNotice := s.issues.records.map fun x =>
         ⟨x.1, ⟨true, true, true, true, true, true, true⟩, .none, false, x.2.rows, x.2.watchers⟩
       ∃ t, exec .marketOpen s = .next t
         ∧ t.issues = { s.issues with
             records := s.issues.records.map fun x => (x.1, opened x.2)
             session := .opened
             clock := if flags.getLsbD 0 then BitVec.ofNat 32 (readNat body 5 4) else s.issues.clock }
         ∧ t.feed = { s.feed with
             handOver := rest
             silence := if s.issues.session = .closed then some (s.control.window * 100) else s.feed.silence }
         ∧ (∀ r : RowNo, t.lamps[r] = ⟨.steadyNone, false⟩)
         ∧ t.boardNotices = s.boardNotices ++ notices ∧ t.lampNotices = s.lampNotices ++ notices
         ∧ t.terminalNotices = s.terminalNotices ++ notices ∧ t.alertNotices = s.alertNotices ++ notices
         ∧ (∃ order : List RowNo, order.Nodup ∧ (∀ r : RowNo, r ∈ order)
             ∧ s.Marked t s.issues.records (fun r => t.lamps[r]) order fun r =>
                 if (s.lamps[r]).arrow ≠ .steadyNone ∨ (s.lamps[r]).halt = true
                 then ⟨false, false, false, false, true, false, false⟩ else .empty)
         ∧ t = { s with
             issues := t.issues, feed := t.feed, lamps := t.lamps, boards := t.boards, boardNotices := t.boardNotices
             lampNotices := t.lampNotices, terminalNotices := t.terminalNotices, alertNotices := t.alertNotices })
    ∧ ∀ (s : State) (body : Text) (rest : List Handed), s.DataTurn .market body rest → byteAt body 3 = 2 →
      (s.feed.feedState = .live → exec .marketClose s = .next
        { s with
          feed := { s.feed with handOver := rest, silence := none }
          issues := { s.issues with session := .closed } })
        ∧ (s.feed.feedState = .quiet → ∃ t, exec .marketClose s = .next t
          ∧ t.feed = { s.feed with handOver := rest, silence := none, feedState := .live }
          ∧ t.issues = { s.issues with session := .closed }
          ∧ t.upstream = s.upstream.offer [0x42, s.unitSwitch, 0x04]
          ∧ (∀ l : LineNo, (s.boards[l]).Told t.boards[l] .live 0x00) ∧ s.ToldTerminals t .live
          ∧ t = { s with
              feed := t.feed, issues := t.issues, upstream := t.upstream, boards := t.boards
              terminals := t.terminals })

/-! ### The Control Unit -/

/-- The taking of a control message that names an operation. An addressed one at the head of the hand-over queue, no
operation being in hand, claims a place of the reply queue and is then in hand, unexecuted, at the cost of one
command of its row; one that finds all 8 places occupied or claimed is discarded and counted. While an operation is
in hand, every data message and every other control message waits. A broadcast read is discarded without effect. A
body too short for the operands of its operation is refused with BAD_OPERAND, and its reply fills the claim; one too
short for the issues that it counts is refused as WatchOperationsTaken and ParametersLoaded state. That the taking
and the execution of an addressed operation are two commands of its row is log 11. -/
def Obligations.ControlMessagesTaken : Prop :=
  (∀ (s : State) (body : Text) (serial : Nat) (rest : List Handed), s.control.inHand = none →
     ∀ x ∈ operationCodes, carries body x →
     (s.feed.handOver = ⟨.control true, body, serial⟩ :: rest →
         (s.upstream.replies.length + s.upstream.claims < 8 → exec x.1 s = .next
           { s with
             feed := { s.feed with handOver := rest }
             upstream := { s.upstream with claims := s.upstream.claims + 1 }
             control := { s.control with inHand := some ⟨body, serial⟩ } })
           ∧ (8 ≤ s.upstream.replies.length + s.upstream.claims → exec x.1 s = .next
             { s with
               feed := { s.feed with handOver := rest }
               control := { s.control with discards := min (s.control.discards + 1) 65535 } }))
       ∧ (s.feed.handOver = ⟨.control false, body, serial⟩ :: rest → x.2.1 = 0x10 →
         exec x.1 s = .next { s with feed := { s.feed with handOver := rest } }))
    ∧ (∀ (s : State) (op : Operation), s.control.inHand = some op →
     (∀ c ∈ ([.heartbeat, .trade, .outOfSequenceTrade, .alternatePrint, .quote, .issueStatus, .correction, .marketOpen,
         .marketClose] : List Instr), exec c s = .next s)
       ∧ (∀ x ∈ operationCodes, ¬ carries op.body x → exec x.1 s = .next s)
       ∧ ((∃ x ∈ operationCodes, carries op.body x) → exec .noOperationCode s = .next s))
    ∧ (let lengths : List Nat := [16, 6, 11, 6, 7, 7, 14, 6, 33, 5, 7, 6, 6, 4, 4, 7, 7, 7, 7, 6, 8, 6, 5]
   ∀ (s : State) (body : Text) (serial : Nat) (rest : List Handed),
     s.ControlTurn true body serial rest →
     ∀ x ∈ operationCodes.zip lengths, carries body x.1 → body.length < x.2 →
       exec x.1.1 s = .next ((s.taken rest).answered true
         [0x41, s.unitSwitch, byteAt body 2, x.1.2.1, x.1.2.2.getD 0x00, 0x03]))

/-- A control message that names no operation: BAD_OPERATION without a code or with an unknown one, BAD_TABLE for a
READ of an unknown table, BAD_OPERAND for a READ with no table code. A broadcast one changes nothing; an addressed
one is taken with a claim before it is refused (log 11), or is discarded and counted when no place is free. The
table of a short READ is free (log 8), and a READ of no table stands here (log 14). -/
def Obligations.NoOperationRefused : Prop :=
  ∀ (s : State) (body : Text) (serial : Nat) (rest : List Handed),
    let unknown := 4 ≤ body.length ∧ (byteAt body 3 = 0 ∨ 0x10 < (byteAt body 3).toNat)
    let bare := body.length = 3
    let noTable := body.length = 4 ∧ byteAt body 3 = 0x10
    let badTable := 5 ≤ body.length ∧ byteAt body 3 = 0x10 ∧ (byteAt body 4 = 0 ∨ 8 < (byteAt body 4).toNat)
    let reply (op table code : Byte) : Text := [0x41, s.unitSwitch, byteAt body 2, op, table, code]
    (s.ControlTurn true body serial rest →
        (bare → exec .noOperationCode s = .next ((s.taken rest).answered true (reply 0x00 0x00 0x01)))
          ∧ (unknown → exec .noOperationCode s =
              .next ((s.taken rest).answered true (reply (byteAt body 3) 0x00 0x01)))
          ∧ (badTable → exec .noOperationCode s =
              .next ((s.taken rest).answered true (reply 0x10 (byteAt body 4) 0x02)))
          ∧ (noTable → exec .noOperationCode s =
              .next (((s.taken rest).drawFree 1).answered true
                (reply 0x10 (Config.freeByte s.freeCount) 0x03))))
      ∧ (bare ∨ unknown ∨ badTable ∨ noTable →
        (s.ControlTurn false body serial rest → exec .noOperationCode s = .next (s.taken rest))
          ∧ (s.control.inHand = none → s.feed.handOver = ⟨.control true, body, serial⟩ :: rest →
              (s.upstream.replies.length + s.upstream.claims < 8 → exec .noOperationCode s = .next
                { s with
                  feed := { s.feed with handOver := rest }
                  upstream := { s.upstream with claims := s.upstream.claims + 1 }
                  control := { s.control with inHand := some ⟨body, serial⟩ } })
                ∧ (8 ≤ s.upstream.replies.length + s.upstream.claims → exec .noOperationCode s = .next
                  { s with
                    feed := { s.feed with handOver := rest }
                    control := { s.control with discards := min (s.control.discards + 1) 65535 } })))

/-- LOAD ISSUE and DELETE ISSUE. A symbol field is 1 to 4 letters padded with 20h to four characters; a yes or no is
01h or 00h. A number that is put gets its record, one that is freed none, and every other number keeps its own. An
accepted LOAD ISSUE: the record listed or reloaded with opening values, its links kept, a full notice, and DONE to an
addressed one. The checks of both in their order, the first that fails giving the result code; a refused operation
changes nothing, and DELETE ISSUE of an issue that nothing names frees it. That an operation is executed at all its
blocks in one command is log 11, and that the notice waits for steps of its own log 3. -/
def Obligations.IssueOperationsTaken : Prop :=
  (∀ (body : Text) (i : Nat) (symbol : Text), symbolAt body i = some symbol ↔
      SymbolOk symbol ∧ (body.drop i).take 4 = symbol ++ List.replicate (4 - symbol.length) 0x20)
    ∧ (∀ c : Byte, yesNo c = if c = 0x00 then some false else if c = 0x01 then some true else none)
    ∧ (∀ (records : Records) (n m : Nat) (r : IssueRecord), recordsOk records = true →
      (findRecord records m = some r ↔ (m, r) ∈ records)
        ∧ findRecord (putRecord records n r) m = (if m = n then some r else findRecord records m)
        ∧ findRecord (freeRecord records n) m = (if m = n then none else findRecord records m))
    ∧ (∀ (s : State) (n : Nat), listed s n =
      if 1 ≤ n ∧ n ≤ 1023 then findRecord s.issues.records n else none)
    ∧ (∀ (s : State) (addressed : Bool) (body : Text) (serial : Nat) (rest : List Handed) (symbol : Text) (a b : Bool),
     s.ControlTurn addressed body serial rest → 16 ≤ body.length → byteAt body 3 = 0x01 →
     let n := readNat body 4 2
     let d := byteAt body 10
     let close := readNat body 11 3
     1 ≤ n → n ≤ 1023 → symbolAt body 6 = some symbol → d ∈ [0x08#8, 0x10#8, 0x20#8, 0x40#8] →
     1 ≤ close → close ≤ 2559999 → yesNo (byteAt body 14) = some a → yesNo (byteAt body 15) = some b →
     (∀ p ∈ s.issues.records, p.2.symbol = symbol → p.1 = n) →
     let old := findRecord s.issues.records n
     let rows := (old.map IssueRecord.rows).getD []
     let watchers := (old.map IssueRecord.watchers).getD 0
     let r : IssueRecord := ⟨symbol, d.toNat, a, b, close, close, 0, .none, false, none, none, 0, none, none, false,
       rows, watchers⟩
     let notice : ChangeNotice := ⟨n, ⟨true, true, true, true, true, true, true⟩, .none, false, rows, watchers⟩
     exec .loadIssue s = .next (State.answered
       { s.taken rest with
         issues := { s.issues with records := putRecord s.issues.records n r }
         boardNotices := s.boardNotices ++ [notice]
         lampNotices := s.lampNotices ++ [notice]
         terminalNotices := s.terminalNotices ++ [notice]
         alertNotices := s.alertNotices ++ [notice] } addressed
       [0x41, s.unitSwitch, byteAt body 2, 0x01, 0x00, 0x00]))
    ∧ ∀ (s : State) (addressed : Bool) (body : Text) (serial : Nat) (rest : List Handed),
      s.ControlTurn addressed body serial rest →
      let n := readNat body 4 2
      let refused (op code : Byte) : State :=
        (s.taken rest).answered addressed [0x41, s.unitSwitch, byteAt body 2, op, 0x00, code]
      let bad := 1023 < n ∨ symbolAt body 6 = none ∨ byteAt body 10 ∉ [0x08#8, 0x10#8, 0x20#8, 0x40#8]
        ∨ readNat body 11 3 = 0 ∨ 2559999 < readNat body 11 3
        ∨ 1 < (byteAt body 14).toNat ∨ 1 < (byteAt body 15).toNat
      (16 ≤ body.length → byteAt body 3 = 0x01 →
          (n = 0 → exec .loadIssue s = .next (refused 0x01 0x04))
            ∧ (n ≠ 0 → bad → exec .loadIssue s = .next (refused 0x01 0x03))
            ∧ (n ≠ 0 → ¬ bad → (∃ p ∈ s.issues.records, p.1 ≠ n ∧ some p.2.symbol = symbolAt body 6) →
                exec .loadIssue s = .next (refused 0x01 0x06)))
        ∧ (6 ≤ body.length → byteAt body 3 = 0x02 →
          (1023 < n → exec .deleteIssue s = .next (refused 0x02 0x03))
            ∧ (n ≤ 1023 → listed s n = none → exec .deleteIssue s = .next (refused 0x02 0x04))
            ∧ ∀ r, listed s n = some r →
                let named := r.rows ≠ [] ∨ r.watchers ≠ 0 ∨ n ∈ s.issues.flashList
                  ∨ ∃ (t : TermNo) (k : SlotNo) (x : AlertSetting), (s.alerts[t])[k] = some x ∧ x.issue = n
                (named → exec .deleteIssue s = .next (refused 0x02 0x05))
                  ∧ (¬ named → exec .deleteIssue s = .next (State.answered
                    { s.taken rest with
                      issues := { s.issues with records := freeRecord s.issues.records n } } addressed
                    [0x41, s.unitSwitch, byteAt body 2, 0x02, 0x00, 0x00])))

/-- SET ROW: its checks in their order, the first that fails giving the result code, a refused one changing nothing;
and an accepted one: the mapping, the module's dirty set and owed blanking with the marks that MarksTaken states, the
row lists of the issue before and after, the lamps when the issue changed, the choice of an idle line, and nothing at
the other rows of the map. That an operation is executed at all its blocks in one command is log 11. -/
def Obligations.SetRowActs : Prop :=
  (∀ (s : State) (addressed : Bool) (body : Text) (serial : Nat) (rest : List Handed),
     s.ControlTurn addressed body serial rest → 11 ≤ body.length → byteAt body 3 = 0x03 →
     let l := (byteAt body 4).toNat
     let i := (byteAt body 5).toNat
     let n := readNat body 7 2
     let mask := (byteAt body 9).toNat
     let badMask := mask &&& 0xE0 ≠ 0 ∨ mask &&& 0x1F = 0 ∨ 3 < (byteAt body 10).toNat
     let refused (code : Byte) : State :=
       (s.taken rest).answered addressed [0x41, s.unitSwitch, byteAt body 2, 0x03, 0x00, code]
     (3 < l ∨ 31 < i → exec .setRow s = .next (refused 0x03))
       ∧ (l ≤ 3 → i ≤ 31 → byteAt body 6 ≠ 0x01 →
         (1023 < n → exec .setRow s = .next (refused 0x03))
           ∧ (n ≤ 1023 → listed s n = none → exec .setRow s = .next (refused 0x04))
           ∧ ∀ r, listed s n = some r →
               (badMask → exec .setRow s = .next (refused 0x03))
                 ∧ (¬ badMask → 4 ≤ (r.rows.filter fun q => q.val ≠ l * 32 + i).length →
                   exec .setRow s = .next (refused 0x09))))
    ∧ (∀ (s : State) (addressed : Bool) (body : Text) (serial : Nat) (rest : List Handed) (l : LineNo) (i : ModuleNo),
     s.ControlTurn addressed body serial rest → 11 ≤ body.length → byteAt body 3 = 0x03 →
     (byteAt body 4).toNat = l.val → (byteAt body 5).toNat = i.val →
     let n := readNat body 7 2
     let blank := byteAt body 6 = 0x01
     let bit (k : Nat) : Bool := (byteAt body 9).getLsbD k
     let mask : FieldSet := ⟨bit 0, bit 1, bit 2, bit 3, bit 4, bit 5, bit 6⟩
     let row := rowOf l i
     let m := (s.boards[l]).modules[i]
     let old := s.rowIssue row
     (¬ blank → (byteAt body 9).toNat &&& 0xE0 = 0 ∧ (byteAt body 9).toNat &&& 0x1F ≠ 0
       ∧ (byteAt body 10).toNat ≤ 3
       ∧ ∃ r, listed s n = some r ∧ (r.rows.filter (· ≠ row)).length < 4) →
     let p : Option Mapping := if blank then none else some ⟨n, mask, (byteAt body 10).toNat⟩
     let new := p.map Mapping.issue
     ∃ t, exec .setRow s = .next t
       ∧ (let dark := m.state = .dark
         let x : BoardLine := (s.boards[l]).change i fun _ =>
           { m with
             mapping := p
             dirty := if dark ∨ blank then .empty else mask
             blanking := decide (¬ dark ∧ blank) }
         t.boards[l] = x.choose t.issues.records fun j => t.lamps[rowOf l j])
       ∧ (∀ k : LineNo, k ≠ l → t.boards[k] = s.boards[k])
       ∧ t.lamps[row] = (if old = new then s.lamps[row]
           else ⟨.steadyNone, (new.bind (findRecord s.issues.records)).any IssueRecord.halted⟩)
       ∧ (∀ r : RowNo, r ≠ row → t.lamps[r] = s.lamps[r])
       ∧ t.issues = { s.issues with records := s.issues.records.map fun x =>
           (x.1, if old = new then x.2
             else if some x.1 = old then { x.2 with rows := x.2.rows.erase row }
             else if some x.1 = new then { x.2 with rows := x.2.rows ++ [row] }
             else x.2) }
       ∧ t.upstream = (if addressed
           then s.upstream.fill [0x41, s.unitSwitch, byteAt body 2, 0x03, 0x00, 0x00] else s.upstream)
       ∧ t = { s.taken rest with
           issues := t.issues, boards := t.boards, lamps := t.lamps, upstream := t.upstream })

/-- The watch list operations: their checks in order, a SET WATCH LIST too short for its count among them, and an
accepted change of the list: the entries of the new
list, those from the first changed position on fully pending and the others with the pending set their issue had,
the owed length, the terminal's bit of every watcher mask, and nothing else of the terminals and records. The change
that a request makes is the same. That an operation is executed at all its blocks in one command is log 11. -/
def Obligations.WatchOperationsTaken : Prop :=
  (∀ (s : State) (t : TermNo) (new : List Nat), s.Rewatched (s.rewatch t new) t new)
    ∧ ∀ (s : State) (addressed : Bool) (body : Text) (serial : Nat) (rest : List Handed),
    s.ControlTurn addressed body serial rest →
    let term := (byteAt body 4).toNat
    let n := readNat body 5 2
    let count := (byteAt body 5).toNat
    let given := readIssues body 6 count
    let reply (op code : Byte) : Text := [0x41, s.unitSwitch, byteAt body 2, op, 0x00, code]
    let refused (op code : Byte) : State := (s.taken rest).answered addressed (reply op code)
    let changed (t : TermNo) (op : Byte) (new : List Nat) (c : Instr) : Prop :=
      ∃ u : State, exec c s = .next (u.answered addressed (reply op 0x00)) ∧ (s.taken rest).Rewatched u t new
    (∀ x ∈ [((.setWatchList : Instr), (0x04 : Byte), 6), (.addWatch, 0x05, 7), (.dropWatch, 0x06, 7)],
        x.2.2 ≤ body.length → byteAt body 3 = x.2.1 → 31 < term → exec x.1 s = .next (refused x.2.1 0x03))
      ∧ (7 ≤ body.length → byteAt body 3 = 0x05 → ∀ t : TermNo, term = t.val →
        (1023 < n → exec .addWatch s = .next (refused 0x05 0x03))
          ∧ (n ≤ 1023 → listed s n = none → exec .addWatch s = .next (refused 0x05 0x04))
          ∧ ((listed s n).isSome = true → n ∈ s.watchIssues t → exec .addWatch s = .next (refused 0x05 0x06))
          ∧ ((listed s n).isSome = true → n ∉ s.watchIssues t → 24 ≤ (s.watchIssues t).length →
              exec .addWatch s = .next (refused 0x05 0x07))
          ∧ ((listed s n).isSome = true → n ∉ s.watchIssues t → (s.watchIssues t).length < 24 →
              changed t 0x05 (s.watchIssues t ++ [n]) .addWatch))
      ∧ (7 ≤ body.length → byteAt body 3 = 0x06 → ∀ t : TermNo, term = t.val →
        (n ∉ s.watchIssues t → exec .dropWatch s = .next (refused 0x06 0x08))
          ∧ (n ∈ s.watchIssues t → changed t 0x06 ((s.watchIssues t).erase n) .dropWatch))
      ∧ (6 ≤ body.length → body.length < 6 + 2 * count → byteAt body 3 = 0x04 →
          exec .setWatchList s = .next (refused 0x04 0x03))
      ∧ (6 + 2 * count ≤ body.length → byteAt body 3 = 0x04 → ∀ t : TermNo, term = t.val →
        (24 < count ∨ (∃ m ∈ given, 1023 < m) → exec .setWatchList s = .next (refused 0x04 0x03))
          ∧ (count ≤ 24 → (∀ m ∈ given, m ≤ 1023) → (∃ m ∈ given, listed s m = none) →
              exec .setWatchList s = .next (refused 0x04 0x04))
          ∧ (count ≤ 24 → (∀ m ∈ given, m ≤ 1023 ∧ (listed s m).isSome = true) → ¬ given.Nodup →
              exec .setWatchList s = .next (refused 0x04 0x06))
          ∧ (count ≤ 24 → (∀ m ∈ given, m ≤ 1023 ∧ (listed s m).isSome = true) → given.Nodup →
              changed t 0x04 given .setWatchList))

/-- The condition codes, the range of each condition's limit, and the limit a slot takes. An accepted SET ALERT sets
the slot ARMED with its owed flag clear and evaluates it at once; CLEAR ALERT empties the slot. A terminal over 31, a
slot over 7, a bad condition, negate flag or limit, and an issue over 1023 give BAD_OPERAND, and an issue that is not
LISTED gives NO_ISSUE. That an operation is executed at all its blocks in one command is log 11. -/
def Obligations.AlertOperationsTaken : Prop :=
  (let conditions : List Condition :=
      [.lastAbove, .lastBelow, .changeAbove, .changeBelow, .uptick, .atHigh, .atLow, .halted]
    let prices : List Condition := [.lastAbove, .lastBelow]
    let changes : List Condition := [.changeAbove, .changeBelow]
    ∀ (c : Byte) (k : Condition) (limit : Int),
      (conditionOf c = some k ↔ 1 ≤ c.toNat ∧ conditions[c.toNat - 1]? = some k)
        ∧ (conditionOf c = some k ↔ c = conditionCode k)
        ∧ (limitOk k limit = true ↔ (k ∈ prices → 1 ≤ limit ∧ limit ≤ 2559999)
          ∧ (k ∈ changes → -2559998 ≤ limit ∧ limit ≤ 2559998))
        ∧ limitTaken k limit = if k ∈ prices ∨ k ∈ changes then limit else 0)
    ∧ ∀ (s : State) (addressed : Bool) (body : Text) (serial : Nat) (rest : List Handed),
    s.ControlTurn addressed body serial rest →
    let term := (byteAt body 4).toNat
    let slot := (byteAt body 5).toNat
    let n := readNat body 6 2
    let limit := readInt32 body 10
    let reply (op code : Byte) : Text := [0x41, s.unitSwitch, byteAt body 2, op, 0x00, code]
    let refused (op code : Byte) : State := (s.taken rest).answered addressed (reply op code)
    let badFirst := 7 < slot ∨ conditionOf (byteAt body 8) = none ∨ 1 < (byteAt body 9).toNat
    (14 ≤ body.length → byteAt body 3 = 0x07 →
        (31 < term ∨ badFirst → exec .setAlert s = .next (refused 0x07 0x03))
          ∧ (term ≤ 31 → ¬ badFirst → 1023 < n → exec .setAlert s = .next (refused 0x07 0x03))
          ∧ (term ≤ 31 → ¬ badFirst → n ≤ 1023 → listed s n = none →
              exec .setAlert s = .next (refused 0x07 0x04))
          ∧ ∀ (t : TermNo) (k : SlotNo) (c : Condition) (ng : Bool) (r : IssueRecord), term = t.val → slot = k.val →
              conditionOf (byteAt body 8) = some c → yesNo (byteAt body 9) = some ng → listed s n = some r →
              (limitOk c limit = false → exec .setAlert s = .next (refused 0x07 0x03))
                ∧ (limitOk c limit = true →
                  let a : AlertSetting := ⟨false, n, c, ng, limitTaken c limit, false⟩
                  let x := s.terminals[t]
                  let room := x.queue.length < 8 ∧ x.state ≠ .disabled
                  ∃ u, exec .setAlert s = .next u
                    ∧ (a.holds r = false → (u.alerts[t])[k] = some a ∧ u.terminals = s.terminals)
                    ∧ (a.holds r = true → room → (u.alerts[t])[k] = some { a with fired := true }
                        ∧ u.terminals[t] =
                            { x with queue := x.queue ++ [.alert (alertChars k a r s.issues.clock)] })
                    ∧ (a.holds r = true → ¬ room →
                        (u.alerts[t])[k] = some { a with fired := true, owed := true }
                          ∧ u.terminals = s.terminals)
                    ∧ (∀ (v : TermNo) (j : SlotNo), (v, j) ≠ (t, k) → (u.alerts[v])[j] = (s.alerts[v])[j])
                    ∧ u.upstream = (if addressed then s.upstream.fill (reply 0x07 0x00) else s.upstream)
                    ∧ (∀ v : TermNo, v ≠ t → u.terminals[v] = s.terminals[v])
                    ∧ u = { s.taken rest with
                        alerts := u.alerts
                        terminals := u.terminals
                        upstream := u.upstream }))
      ∧ (6 ≤ body.length → byteAt body 3 = 0x08 →
        (31 < term ∨ 7 < slot → exec .clearAlert s = .next (refused 0x08 0x03))
          ∧ ∀ (t : TermNo) (k : SlotNo), term = t.val → slot = k.val →
              exec .clearAlert s = .next (State.answered
                { s.taken rest with alerts := s.alerts.set t ((s.alerts[t]).set k none) } addressed
                (reply 0x08 0x00)))

/-- SET TAPE: every value clamped, then the scale codes and the order of the thresholds checked; an accepted one
replaces the channel's parameters together, and the working ones at once when the channel is idle. It changes no
entry, level, rate or flash timer. That an operation is executed at all its blocks in one command is log 11. -/
def Obligations.SetTapeLoads : Prop :=
  ∀ (s : State) (addressed : Bool) (body : Text) (serial : Nat) (rest : List Handed),
    s.ControlTurn addressed body serial rest → 33 ≤ body.length → byteAt body 3 = 0x09 →
    let byte (i : Nat) : Nat := (byteAt body i).toNat
    let threshold (i : Nat) : Threshold := ⟨min (readNat body i 2) 1023, byte (i + 2)⟩
    let p : TapeParams :=
      ⟨max 4 (min 40 (byte 5)), max 4 (min 40 (byte 6)),
        ⟨threshold 7, threshold 10, threshold 13, threshold 16, threshold 19, threshold 22⟩,
        max 1 (min 999999 (readNat body 25 3)), min 999999 (readNat body 28 3), max 10 (min 600 (readNat body 31 2))⟩
    let cs (t : Threshold) : Nat := t.value * 10 ^ t.scale
    let ordered := (∀ i ∈ [9, 12, 15, 18, 21, 24], byte i ≤ 3)
      ∧ cs (threshold 16) < cs (threshold 7) ∧ cs (threshold 19) < cs (threshold 10)
      ∧ cs (threshold 22) < cs (threshold 13) ∧ cs (threshold 7) < cs (threshold 10)
      ∧ cs (threshold 10) < cs (threshold 13)
    let reply (code : Byte) : Text := [0x41, s.unitSwitch, byteAt body 2, 0x09, 0x00, code]
    let loaded (c : TapeChannel) : TapeChannel :=
      { c with
        loaded := p
        working := if c.emission = none ∧ c.queue = [] then ⟨p.thresholds, p.block, p.minimum⟩ else c.working }
    (byteAt body 4 ≠ 0x41 ∧ byteAt body 4 ≠ 0x42 ∨ ¬ ordered →
        exec .setTape s = .next ((s.taken rest).answered addressed (reply 0x03)))
      ∧ (byteAt body 4 = 0x41 → ordered →
        exec .setTape s = .next (State.answered
          { s.taken rest with tapeA := loaded s.tapeA } addressed (reply 0x00)))
      ∧ (byteAt body 4 = 0x42 → ordered →
        exec .setTape s = .next (State.answered
          { s.taken rest with tapeB := loaded s.tapeB } addressed (reply 0x00)))

/-- SET FLASH LIST, SET LAMPS and SET FEED: the flash list's checks in their order, a body too short for its count
among them, and its replacement; the lamp
parameters clamped and long flashes cut; the alternate print code checked first and the window then clamped. That an
operation is executed at all its blocks in one command is log 11. -/
def Obligations.ParametersLoaded : Prop :=
  ∀ (s : State) (addressed : Bool) (body : Text) (serial : Nat) (rest : List Handed),
    s.ControlTurn addressed body serial rest →
    let byte (i : Nat) : Nat := (byteAt body i).toNat
    let given := readIssues body 5 (byte 4)
    let reply (op code : Byte) : Text := [0x41, s.unitSwitch, byteAt body 2, op, 0x00, code]
    let refused (op code : Byte) : State := (s.taken rest).answered addressed (reply op code)
    (5 ≤ body.length → body.length < 5 + 2 * byte 4 → byteAt body 3 = 0x0A →
        exec .setFlashList s = .next (refused 0x0A 0x03))
      ∧ (5 + 2 * byte 4 ≤ body.length → byteAt body 3 = 0x0A →
        (16 < byte 4 ∨ (∃ m ∈ given, 1023 < m) → exec .setFlashList s = .next (refused 0x0A 0x03))
          ∧ (byte 4 ≤ 16 → (∀ m ∈ given, m ≤ 1023) → (∃ m ∈ given, listed s m = none) →
              exec .setFlashList s = .next (refused 0x0A 0x04))
          ∧ (byte 4 ≤ 16 → (∀ m ∈ given, m ≤ 1023 ∧ (listed s m).isSome = true) →
              (¬ given.Nodup → exec .setFlashList s = .next (refused 0x0A 0x06))
                ∧ (given.Nodup → exec .setFlashList s = .next (State.answered
                  { s.taken rest with
                    issues := { s.issues with flashList := given } } addressed (reply 0x0A 0x00)))))
      ∧ (7 ≤ body.length → byteAt body 3 = 0x0B →
        let p : LampParams := ⟨max 1 (byte 4), max 1 (byte 5), max 1 (min 15 (byte 6))⟩
        ∃ u, exec .setLamps s = .next (State.answered u addressed (reply 0x0B 0x00))
          ∧ u = { s.taken rest with lampParams := p, lamps := u.lamps }
          ∧ ∀ r : RowNo, (u.lamps[r]).halt = (s.lamps[r]).halt
              ∧ (u.lamps[r]).arrow.stateAndPhase = (s.lamps[r]).arrow.stateAndPhase
              ∧ (u.lamps[r]).arrow.timer = (s.lamps[r]).arrow.timer
              ∧ (u.lamps[r]).arrow.flash?.map Flash.remaining =
                  (s.lamps[r]).arrow.flash?.map fun f => min f.remaining p.flashCount)
      ∧ (6 ≤ body.length → byteAt body 3 = 0x0C →
        let known := byte 5 = 0 ∨ (0x50 ≤ byte 5 ∧ byte 5 ≤ 0x5F)
        (¬ known → exec .setFeed s = .next (refused 0x0C 0x03))
          ∧ (known → exec .setFeed s = .next (State.answered
            { s.taken rest with
              control := { s.control with
                window := max 1 (min 60 (byte 4)), altCode := byteAt body 5, inHand := none } }
            addressed (reply 0x0C 0x00))))

/-- SET TERMINAL: an unknown terminal or action refused; ENABLE of an enabled and DISABLE of a DISABLED terminal
change nothing. DISABLE empties the terminal's queue, pending sets and owed marks, keeps its list, and cuts a
transaction in flight to it. ENABLE of a DISABLED terminal makes it UNKNOWN and frees its places, so that an owed
FEED status and then the owed alerts join in ascending slot number; an idle line polls the next enabled terminal.
That an operation is executed at all its blocks in one command is log 11, and that a transaction cut by a DISABLE
stays cut after an ENABLE log 30. -/
def Obligations.SetTerminalActs : Prop :=
  ∀ (s : State) (addressed : Bool) (body : Text) (serial : Nat) (rest : List Handed),
    s.ControlTurn addressed body serial rest → 6 ≤ body.length → byteAt body 3 = 0x0D →
    let term := (byteAt body 4).toNat
    let action := byteAt body 5
    let reply (code : Byte) : Text := [0x41, s.unitSwitch, byteAt body 2, 0x0D, 0x00, code]
    (31 < term ∨ (action ≠ 1 ∧ action ≠ 2) →
        exec .setTerminal s = .next ((s.taken rest).answered addressed (reply 0x03)))
      ∧ ∀ t : TermNo, term = t.val →
        let x := s.terminals[t]
        ((action = 1 ∧ x.state ≠ .disabled) ∨ (action = 2 ∧ x.state = .disabled) →
            exec .setTerminal s = .next ((s.taken rest).answered addressed (reply 0x00)))
          ∧ ((action = 2 ∧ x.state ≠ .disabled) ∨ (action = 1 ∧ x.state = .disabled) →
            ∃ u, exec .setTerminal s = .next u
              ∧ (action = 2 → u.alerts = s.alerts
                  ∧ u.terminals[t] = { x with
                      state := .disabled
                      queue := []
                      watch := x.watch.map fun e => ⟨e.issue, .empty⟩
                      lengthOwed := false
                      feedOwed := false
                      timeouts := 0 }
                  ∧ u.termLines[termLine t] = { s.termLines[termLine t] with
                      inFlight := (s.termLines[termLine t]).inFlight.map fun y =>
                        if y.drop = termDrop t then ⟨y.drop, y.stage, true⟩ else y })
              ∧ (action = 1 → s.Freed u t x.queue
                  ∧ u.terminals[t] = { x with
                      state := .unknown
                      timeouts := 0
                      queue := (u.terminals[t]).queue
                      feedOwed := (u.terminals[t]).feedOwed }
                  ∧ ((s.termLines[termLine t]).inFlight.isSome = true →
                      u.termLines[termLine t] = s.termLines[termLine t])
                  ∧ ((s.termLines[termLine t]).inFlight = none →
                      State.Polls s.termLines[termLine t] u (termLine t)))
              ∧ (∀ k : LineNo, k ≠ termLine t → u.termLines[k] = s.termLines[k])
              ∧ (∀ v : TermNo, v ≠ t → u.terminals[v] = s.terminals[v] ∧ u.alerts[v] = s.alerts[v])
              ∧ u.upstream = (if addressed then s.upstream.fill (reply 0x00) else s.upstream)
              ∧ u = { s.taken rest with
                  terminals := u.terminals
                  termLines := u.termLines
                  alerts := u.alerts
                  upstream := u.upstream })

/-- CLEAR COUNTS sets each of the 36 counters to 0 and leaves every other part of the card. That an operation is
executed at all its blocks in one command, after which an addressed one is no longer in hand, is log 11. -/
def Obligations.ClearCountsClears : Prop :=
  ∀ (s : State) (addressed : Bool) (body : Text) (serial : Nat) (rest : List Handed),
    s.ControlTurn addressed body serial rest → 4 ≤ body.length → byteAt body 3 = 0x0E →
    ∃ u : State,
      exec .clearCounts s =
          .next (u.answered addressed [0x41, s.unitSwitch, byteAt body 2, 0x0E, 0x00, 0x00])
        ∧ u.counters = List.replicate 36 0
        ∧ u.feed = { s.feed with handOver := rest, counts := u.feed.counts }
        ∧ u.issues = { s.issues with mismatches := 0 }
        ∧ u.tapeA = { s.tapeA with dropped := 0, merged := 0 }
        ∧ u.tapeB = { s.tapeB with dropped := 0, merged := 0 }
        ∧ (∀ l : LineNo, u.boards[l] = { s.boards[l] with holds := 0, timeouts := 0 }
            ∧ u.termLines[l] = { s.termLines[l] with timeouts := 0, busies := 0, retries := 0 })
        ∧ u.control = { s.control with discards := 0, inHand := none } ∧ u.upstream = { s.upstream with lost := 0 }
        ∧ u = { s with
            feed := u.feed, issues := u.issues, tapeA := u.tapeA, tapeB := u.tapeB, boards := u.boards
            termLines := u.termLines, control := u.control, upstream := u.upstream }

/-- RESTART, each block's part: what is cleared, what is kept, and the frames the card then has to send. The messages
checked after the RESTART stay in the through queue in their order, and where a message is cut short the next of them
is begun at once (log 18). The outbound queue of an enabled terminal is emptied, its owed alerts join, and each
terminal line polls its enabled terminals from drop 0. The ready line from above keeps its level, the last-served
marker is own, and the start-up hold is set and stays until RESTARTED is begun. The first frame is begun in the same
command where the card above is ready (log 38), and what waits for a block stays (log 3). That an entry in emission,
a transfer and a transaction are cut in the RESTART's own step is log 40; that the expected number is kept when the
lock is cleared log 32, the record of the last character sent to a terminal log 22, and the number of free values
drawn log 8. That an operation is executed at all its blocks in one command is log 11. -/
def Obligations.RestartActs : Prop :=
  ∀ (s : State) (addressed : Bool) (body : Text) (serial : Nat) (rest : List Handed),
    s.ControlTurn addressed body serial rest → 4 ≤ body.length → byteAt body 3 = 0x0F →
    let frames : List Text :=
      (if addressed then [[0x41, s.unitSwitch, byteAt body 2, 0x0F, 0x00, 0x00]] else [])
        ++ [[0x42, s.unitSwitch, 0x01, 0x01]]
    let waits (m : BoardModule) : Bool := decide (m.dirty ≠ .empty) || m.blanking
    ∃ t, exec .restart s = .next t
      ∧ t.feed.lock = false ∧ t.feed.counts = ⟨0, 0, 0, 0, 0, 0, 0, 0, 0⟩ ∧ t.feed.handOver = rest
      ∧ t.feed.assembler = s.feed.assembler ∧ t.feed.feedState = s.feed.feedState
      ∧ t.feed.silence = s.feed.silence
      ∧ t.feed.expected = s.feed.expected ∧ t.feed.serial = s.feed.serial
      ∧ (let kept := s.feed.through.filter fun e => decide (serial ≤ e.serial)
        (∀ e, s.feed.transmitting = some e → serial ≤ e.serial →
            t.feed.transmitting = some e ∧ t.feed.through = kept)
          ∧ ((∀ e, s.feed.transmitting = some e → e.serial < serial) →
            ∀ gone : List ThroughEntry, (∀ x ∈ gone, x.doomed = true) →
              (∀ x next, x.doomed = false → kept = gone ++ x :: next →
                  t.feed.transmitting = some x ∧ t.feed.through = next)
                ∧ (kept = gone → t.feed.transmitting = none ∧ t.feed.through = [])))
      ∧ t.issues = { s.issues with mismatches := 0 }
      ∧ (∀ ch : Channel, (t.tape ch) = { s.tape ch with
          queue := [], emission := none, lateness := 0, level := 0, rate := (s.tape ch).loaded.normal,
          flashTimer := none, backlog := 0, dropped := 0, merged := 0,
          working := ⟨(s.tape ch).loaded.thresholds, (s.tape ch).loaded.block, (s.tape ch).loaded.minimum⟩ })
      ∧ (∀ l : LineNo, (t.boards[l]).holds = 0 ∧ (t.boards[l]).timeouts = 0 ∧ (t.boards[l]).sweep = 31
          ∧ (t.boards[l]).broadcast = none
          ∧ (t.boards[l]).inFlight = some ⟨.broadcast s.feed.feedState, [319#9, 0x0F#9,
              if s.feed.feedState = .quiet then 0x01#9 else 0x00#9,
              if s.feed.feedState = .quiet then 0x10#9 else 0x0F#9], none⟩
          ∧ (t.boards[l]).markReg = ((List.finRange 32).filter fun j => waits (t.boards[l]).modules[j]).length
          ∧ ∀ i : ModuleNo,
              let m := (s.boards[l]).modules[i]
              let u := (t.boards[l]).modules[i]
              u.mapping = m.mapping ∧ u.state = .unknown ∧ u.timeouts = 0 ∧ u.backOff = none
                ∧ u.dirty = (m.mapping.map Mapping.mask).getD .empty
                ∧ (u.blanking = true ↔ m.mapping = none ∧ (m.blanking = true ∨ m.state = .dark))
                ∧ u.mark = if waits u then some ((List.finRange 32).filter fun j =>
                    decide (j < i) && waits (t.boards[l]).modules[j]).length else none)
      ∧ (∀ r : RowNo, t.lamps[r] = ⟨.steadyNone, ((s.rowIssue r).bind (findRecord s.issues.records)).any
          IssueRecord.halted⟩)
      ∧ (∀ x : TermNo, (s.terminals[x]).state = .disabled →
          t.terminals[x] = s.terminals[x] ∧ t.alerts[x] = s.alerts[x])
      ∧ (∀ x : TermNo, (s.terminals[x]).state ≠ .disabled →
          t.terminals[x] = ⟨.unknown,
              (s.terminals[x]).watch.map fun e => ⟨e.issue, ⟨true, true, true, true, false, true, true⟩⟩,
              true, 23, (s.owedSlots x).map Prod.snd, false, 0⟩
            ∧ ∀ k : SlotNo, (t.alerts[x])[k] = if k ∈ (s.owedSlots x).map Prod.fst
                then ((s.alerts[x])[k]).map fun a => { a with owed := false } else (s.alerts[x])[k])
      ∧ (∀ l : LineNo, State.Polls
          { s.termLines[l] with pollPtr := 7, timeouts := 0, busies := 0, retries := 0 } t l)
      ∧ t.control = { s.control with discards := 0, inHand := none }
      ∧ t.upstream = { s.upstream with
          claims := 0
          buffer := []
          lastServed := .own
          assembler := .hunt
          lost := 0
          replies := if s.upstream.readyAbove then frames.tail else frames
          transmitting := if s.upstream.readyAbove then frames.head?.map fun body => (.own, frameOf body) else none
          hold := addressed || !s.upstream.readyAbove }
      ∧ t = { s with
          feed := t.feed, issues := t.issues, tapeA := t.tapeA, tapeB := t.tapeB, boards := t.boards, lamps := t.lamps
          terminals := t.terminals, termLines := t.termLines, alerts := t.alerts, control := t.control
          upstream := t.upstream }

/-- An addressed read with its operands in range: the data of its table in the reply, and nothing of the card
changed but the reply queue and the number of free values drawn. An operand out of range gives its result code. Free
bytes are log 8, a FREE record's coding log 16, the codings of states log 17; a blank row's data is log 24, the
module of a broadcast log 25, the expected number held log 32. That an operation is executed in one command is log
11. The layouts of the data are those that ReadDataLaid states. -/
def Obligations.ReadsAnswer : Prop :=
  ∀ (s : State) (body : Text) (serial : Nat) (rest : List Handed),
    s.ControlTurn true body serial rest → byteAt body 3 = 0x10 →
    let a := byteAt body 5
    let b := byteAt body 6
    let reply (table code : Byte) (data : Text) : Text :=
      [0x41, s.unitSwitch, byteAt body 2, 0x10, table, code] ++ data
    let sent (table code : Byte) (free : Nat) (data : Text) : State :=
      State.answered { s.taken rest with freeCount := s.freeCount + free } true (reply table code data)
    let asks (n : Nat) (table : Byte) := n ≤ body.length ∧ byteAt body 4 = table
    (asks 7 0x01 → let n := readNat body 5 2
        (1023 < n → exec .readIssue s = .next (sent 0x01 0x03 0 []))
          ∧ (n = 0 → exec .readIssue s = .next (sent 0x01 0x04 0 []))
          ∧ (1 ≤ n → n ≤ 1023 → exec .readIssue s = .next (sent 0x01 0x00 0
              (match findRecord s.issues.records n with
                | some r => issueData true r
                | none => [0x00, 0x20, 0x20, 0x20, 0x20, 0x08] ++ List.replicate 29 0x00
                    ++ [0xFF, 0xFF, 0xFF, 0xFF, 0x00, 0x00, 0x00, 0x00]))))
      ∧ (asks 7 0x02 →
        (3 < a.toNat ∨ 31 < b.toNat → exec .readRow s = .next (sent 0x02 0x03 0 []))
          ∧ ∀ (l : LineNo) (i : ModuleNo), a.toNat = l.val → b.toNat = i.val →
              let m := (s.boards[l]).modules[i]
              ∃ lamp : Text, exec .readRow s = .next (sent 0x02 0x00
                  (if (s.lamps[rowOf l i]).arrow.flash?.isSome then 0 else 2)
                  (mappingData m.mapping ++ moduleRecord m ++ lamp))
                ∧ lamp.length = 4 ∧ lamp.head? = some (arrowCode (s.lamps[rowOf l i]).arrow)
                ∧ lamp.getLast? = some (flagByte (s.lamps[rowOf l i]).halt)
                ∧ ∀ f, (s.lamps[rowOf l i]).arrow.flash? = some f →
                    lamp[1]? = some (phaseCode f.phase) ∧ lamp[2]? = some (BitVec.ofNat 8 f.remaining))
      ∧ (asks 7 0x03 → ∀ t : TermNo, a.toNat = t.val → b.toNat ≤ 1 →
          exec .readWatchList s = .next (sent 0x03 0x00 0 (watchData s.terminals[t] b.toNat)))
      ∧ (asks 7 0x04 → ∀ t : TermNo, a.toNat = t.val → b.toNat ≤ 1 →
          exec .readAlerts s = .next (sent 0x04 0x00 0
            ((partSlots b.toNat).flatMap fun k => slotData (s.alerts[t])[k])))
      ∧ (asks 7 0x03 → 31 < a.toNat ∨ 1 < b.toNat → exec .readWatchList s = .next (sent 0x03 0x03 0 []))
      ∧ (asks 7 0x04 → 31 < a.toNat ∨ 1 < b.toNat → exec .readAlerts s = .next (sent 0x04 0x03 0 []))
      ∧ (asks 6 0x05 →
        (a = 0x41 → exec .readTape s = .next (sent 0x05 0x00 0 (tapeData s.tapeA)))
          ∧ (a = 0x42 → exec .readTape s = .next (sent 0x05 0x00 0 (tapeData s.tapeB)))
          ∧ (a ≠ 0x41 → a ≠ 0x42 → exec .readTape s = .next (sent 0x05 0x03 0 [])))
      ∧ (asks 8 0x06 → let part := byteAt body 7
        (¬ (b.toNat ≤ 3 ∧ ((a = 1 ∧ part.toNat ≤ 3) ∨ (a = 2 ∧ part = 0))) →
            exec .readLine s = .next (sent 0x06 0x03 0 []))
          ∧ ∀ l : LineNo, b.toNat = l.val →
              (∀ k : Fin 4, a = 1 → part.toNat = k.val →
                  exec .readLine s = .next (sent 0x06 0x00 (if (s.boards[l]).inFlight.isNone then 1 else 0)
                    (boardLineData s.boards[l] k (Config.freeByte s.freeCount))))
                ∧ (a = 2 → part = 0 →
                  exec .readLine s = .next (sent 0x06 0x00 (if (s.termLines[l]).inFlight.isNone then 1 else 0)
                    (termLineData s l (Config.freeByte s.freeCount)))))
      ∧ (asks 6 0x07 →
        (a = 0 → exec .readCounts s = .next (sent 0x07 0x00 0 (countsPart0 s)))
          ∧ (a = 1 → exec .readCounts s = .next (sent 0x07 0x00 0 (countsPart1 s)))
          ∧ (1 < a.toNat → exec .readCounts s = .next (sent 0x07 0x03 0 [])))
      ∧ (asks 5 0x08 → exec .readUnit s = .next (sent 0x08 0x00 0
          ([s.unitSwitch, 0x01, 0x04, 0x01, 0x03, 0xFF, 128, 32, 24, 8, 0x01, 0x00, 16, 8, 8,
              flagByte s.throughSwitch, BitVec.ofNat 8 s.control.window, s.control.altCode,
              BitVec.ofNat 8 s.lampParams.onTime, BitVec.ofNat 8 s.lampParams.offTime,
              BitVec.ofNat 8 s.lampParams.flashCount, if s.issues.session = .opened then 0 else 1]
            ++ writeNat 4 s.issues.clock.toNat)))

/-- The layouts of R202, each field in its width and order. The codes of states and kinds are log 17, a FREE
record's are ReadsAnswer's; a blank row's data is log 24, the module of a broadcast log 25, and what stands for the
module or the stage of an idle line is free (log 8). -/
def Obligations.ReadDataLaid : Prop :=
  let laid (data : Text) (fields : List (Nat × Text)) : Prop :=
    data = (fields.map Prod.snd).flatten ∧ ∀ x ∈ fields, x.2.length = x.1
  let one (n : Nat) : Nat × Text := (1, [BitVec.ofNat 8 n])
  let num (w n : Nat) : Nat × Text := (w, writeNat w n)
  let price (p : Option Nat) : Nat × Text := (3, writeNat 3 (p.getD 0))
  let set (f : FieldSet) : Nat × Text := one (f.symbol.toNat + 2 * f.last.toNat + 4 * f.change.toNat
    + 8 * f.volume.toNat + 16 * f.lamps.toNat + 32 * f.bidask.toNat + 64 * f.state.toNat)
  let ticks : List Tick := [.none, .up, .down, .zeroUp, .zeroDown]
  let record (m : BoardModule) : List (Nat × Text) :=
    [one ([ModuleState.unknown, .live, .dark].idxOf m.state + 4 * m.blanking.toNat + 8 * m.backOff.isSome.toNat
        + 16 * m.timeouts), set m.dirty, num 2 (m.mark.getD 65535)]
  let state (x : Terminal) : Nat := [TerminalState.disabled, .unknown, .online, .offline].idxOf x.state
  (∀ r : IssueRecord, r.symbol.length ≤ 4 → r.rows.length ≤ 4 → laid (issueData true r)
      [one 1, (4, r.symbol ++ List.replicate (4 - r.symbol.length) 0x20), one r.denom,
        one (r.eligA.toNat + 2 * r.eligB.toNat), num 3 r.close, num 3 r.last, price r.high, price r.low, price r.bid,
        price r.ask, (3, writeInt 3 r.netChange), one (ticks.idxOf r.tick), one (r.traded.toNat + 2 * r.halted.toNat),
        num 4 r.volume, one r.rows.length,
        (4, r.rows.map (fun q : RowNo => BitVec.ofNat 8 q.val) ++ List.replicate (4 - r.rows.length) 0xFF),
        num 4 r.watchers.toNat])
    ∧ (∀ m : BoardModule, m.timeouts ≤ 3 → laid (moduleRecord m) (record m))
    ∧ (laid (mappingData none) [one 1, num 2 0, one 0, one 0]
      ∧ ∀ p : Mapping, laid (mappingData (some p)) [one 0, num 2 p.issue, set p.mask, one p.priority])
    ∧ (phaseCode .on = 1 ∧ phaseCode .off = 0
      ∧ ∀ f : Flash,
          [Arrow.steadyNone, .steadyUp, .steadyDown, .flashUp f, .flashDown f].map arrowCode = [0, 1, 2, 3, 4])
    ∧ (∀ (b : BoardLine) (k : Fin 4) (free : Byte), (∀ i : ModuleNo, (b.modules[i]).timeouts ≤ 3) →
        laid (boardLineData b k free)
          ([num 2 b.holds, num 2 b.timeouts, num 2 b.markReg, one b.sweep.val,
              one (match b.inFlight.map Transfer.body with
                | none => 0xFF
                | some (.update _ _ _) => 0
                | some (.refresh _ _ _) => 1
                | some (.blanking _) => 2
                | some (.broadcast _) => 3),
              (match b.inFlight.map Transfer.body with
                | none => (1, [free])
                | some (.update i _ _) => one i.val
                | some (.refresh i _ _) => one i.val
                | some (.blanking i) => one i.val
                | some (.broadcast _) => one 63),
              one (match b.broadcast with | none => 0 | some .quiet => 1 | some .live => 2)]
            ++ (List.range 8).flatMap fun j =>
              (b.modules[8 * k.val + j]?).elim [] fun m => record m))
    ∧ (∀ (s : State) (l : LineNo) (free : Byte), (∀ d : DropNo, (s.terminals[termOf l d]).timeouts ≤ 3) →
        let x := s.termLines[l]
        laid (termLineData s l free)
          ([num 2 x.timeouts, num 2 x.busies, num 2 x.retries, one x.pollPtr.val,
              one (x.inFlight.elim 0xFF fun y => y.drop.val),
              (match x.inFlight.map Transaction.stage with
                | none => (1, [free])
                | some (.pollSending _) => one 0
                | some (.pollWait _) => one 0
                | some (.selectSending _) => one 1
                | some (.selectWait _ _) => one 1)]
            ++ (List.finRange 8).flatMap fun d =>
              let y := s.terminals[termOf l d]
              [one (state y + 16 * y.timeouts), one y.queue.length, one (y.feedOwed.toNat + 2 * y.lengthOwed.toNat)]))
    ∧ (∀ (x : Terminal) (p : Nat), laid (watchData x p)
        ([one (state x), one x.watch.length, one x.cursor, one x.lengthOwed.toNat]
          ++ (List.range 12).flatMap fun j =>
            (x.watch[12 * p + j]?).elim [num 2 0, one 0] fun e => [num 2 e.issue, set e.pending]))
    ∧ (laid (slotData none) [one 0, num 2 0, one 0, one 0, num 4 0, one 0]
      ∧ partSlots 0 = [0, 1, 2, 3] ∧ partSlots 1 = [4, 5, 6, 7]
      ∧ ∀ a : AlertSetting, laid (slotData (some a)) [one (if a.fired then 2 else 1), num 2 a.issue,
          (1, [conditionCode a.condition]), one a.negate.toNat, (4, writeInt 4 a.limit), one a.owed.toNat])
    ∧ (∀ c : TapeChannel,
        let p := c.loaded
        let threshold (t : Threshold) : List (Nat × Text) := [num 2 t.value, one t.scale]
        laid (tapeData c) ([one p.normal, one p.rush] ++ threshold p.thresholds.up1 ++ threshold p.thresholds.up2
          ++ threshold p.thresholds.up3 ++ threshold p.thresholds.down1 ++ threshold p.thresholds.down2
          ++ threshold p.thresholds.down3
          ++ [num 3 p.block, num 3 p.minimum, num 2 p.interval, one c.level, num 3 c.lateness, one c.rate,
            one (if c.level ≤ 1 then p.normal else p.rush), num 2 c.queue.length, num 3 c.backlog,
            one (c.emission.isSome.toNat + 2 * c.flashTimer.isSome.toNat), num 2 c.dropped, num 2 c.merged]))
    ∧ ∀ s : State,
      laid (countsPart0 s) (s.feed.counts.list.map (num 2)
          ++ [one (if s.feed.feedState = .quiet then 1 else 0), one s.feed.lock.toNat, (1, [s.feed.expected])]
          ++ [s.issues.mismatches, s.tapeA.dropped, s.tapeA.merged, s.tapeB.dropped, s.tapeB.merged,
              s.control.discards, s.upstream.lost].map (num 2))
        ∧ laid (countsPart1 s) ((List.finRange 4).flatMap (fun l : LineNo =>
              [num 2 (s.boards[l]).holds, num 2 (s.boards[l]).timeouts])
            ++ (List.finRange 4).flatMap fun l : LineNo =>
              [num 2 (s.termLines[l]).timeouts, num 2 (s.termLines[l]).busies, num 2 (s.termLines[l]).retries])

/-! ### The Tape Channels -/

/-- The texts of tape entries and their lengths. A PRINT: symbol, space, the volume group when the level shows it,
the price in full at levels 0 and 1 and with digit dropping at 2 and 3, the suffix and the separator. Markers and
CORR render alike at every level. A FLASH entry shows the issues of the flash list that have traded, in list
order. -/
def Obligations.TapeTextsRendered : Prop :=
  let space : Text := [0x20]
  let separator : Text := [0x20, 0x20]
  (∀ (level block : Nat) (fl : Text) (n : Nat) (symbol : Text) (d p v : Nat),
      let group : Text := if (level = 0 ∧ 2 ≤ v / 100) ∨ (level ≠ 0 ∧ block ≤ v / 100)
        then decimal (v / 100) ++ [0x4C, 0x20] else []
      let price : Text := if level ≤ 1 then priceText d p else droppedText d p
      (∀ x : Suffix, itemText level block fl (.print n symbol d p v x) =
          symbol ++ space ++ group ++ price
            ++ (match x with | .none => [] | .star => [0x2A] | .hash => [0x23]) ++ separator)
        ∧ itemText level block fl (.halt n symbol) = [0x48, 0x41, 0x4C, 0x54] ++ space ++ symbol ++ separator
        ∧ itemText level block fl (.resume n symbol) =
            [0x52, 0x45, 0x53, 0x55, 0x4D, 0x45] ++ space ++ symbol ++ separator
        ∧ itemText level block fl (.corr n symbol d p) =
            [0x43, 0x4F, 0x52, 0x52] ++ space ++ symbol ++ space ++ priceText d p ++ separator
        ∧ itemText level block fl .quiet = [0x51, 0x55, 0x49, 0x45, 0x54] ++ separator
        ∧ itemText level block fl .flash = fl)
    ∧ (∀ (records : Records) (list : List Nat),
      let shown : List IssueRecord := list.filterMap fun n => (findRecord records n).filter IssueRecord.traded
      let flash : Text := [0x46, 0x4C, 0x41, 0x53, 0x48]
      flashText records list = (if shown = [] then flash ++ separator
          else flash ++ space ++ shown.flatMap fun r =>
            r.symbol ++ space ++ priceText r.denom r.last ++ separator)
        ∧ (list.length ≤ 16 → (∀ p ∈ records, p.2.Ok) →
            7 ≤ (flashText records list).length ∧ (flashText records list).length ≤ 278))
    ∧ ∀ (level block : Nat) (fl : Text) (n : Nat) (symbol : Text) (d p v : Nat),
      SymbolOk symbol → d ∈ [8, 16, 32, 64] → PriceOk p → v ≤ 99999999 →
      let length (i : TapeItem) : Nat := (itemText level block fl i).length
      (∀ x : Suffix, 5 ≤ length (.print n symbol d p v x) ∧ length (.print n symbol d p v x) ≤ 26)
        ∧ (∀ i ∈ [TapeItem.halt n symbol, .resume n symbol, .quiet], 7 ≤ length i ∧ length i ≤ 13)
        ∧ 10 ≤ length (.corr n symbol d p) ∧ length (.corr n symbol d p) ≤ 22

/-- TAPE_ENTRY_JOIN: a PRINT below the working minimum is passed over; at level 3 a print that matches the tail adds
its volume to it; any other entry joins the tail of a queue with room and, when the channel is idle, is started at
once; a print that meets a full queue is dropped and forces level 3, at which every queued entry is counted again,
with a notice that carries the backlog before the recount (log 13); and a marker is discarded. Nothing else of the
channel changes. Entries reach a channel as steps of their own (log 3). -/
def Obligations.TapeEntryTaken : Prop :=
  ∀ (s : State) (ch : Channel) (i : TapeItem) (rest : List TapeItem), (s.tape ch).arrivals = i :: rest →
    let c : TapeChannel := { s.tape ch with arrivals := rest }
    let fl := flashText s.issues.records s.issues.flashList
    let length (x : TapeItem) : Nat := (itemText c.level c.working.block fl x).length
    let below := ∃ n sym d p v x, i = .print n sym d p v x ∧ v / 100 < c.working.minimum
    let joined : TapeChannel :=
      { c with queue := c.queue ++ [⟨i, s.issues.clock, length i⟩], backlog := c.backlog + length i }
    let merges := ∃ n sym d d' p v v' x e, i = .print n sym d' p v' x ∧ c.queue.getLast? = some e
      ∧ e.item = .print n sym d p v x
    (below → exec (.tapeEntryJoin ch) s = .next (s.setTape ch c))
      ∧ (¬ below → c.level = 3 → ∀ n sym d d' p v v' x e, i = .print n sym d' p v' x →
          c.queue.getLast? = some e → e.item = .print n sym d p v x →
          let item : TapeItem := .print n sym d p (min (v + v') 99999999) x
          exec (.tapeEntryJoin ch) s = .next (s.setTape ch
            { c with
              queue := c.queue.dropLast ++ [⟨item, e.arrival, length item⟩]
              backlog := c.backlog - e.counted + length item
              merged := min (c.merged + 1) 65535 }))
      ∧ (¬ below → ¬ (c.level = 3 ∧ merges) → c.queue.length < 256 →
        (c.emission.isSome = true → exec (.tapeEntryJoin ch) s = .next (s.setTape ch joined))
          ∧ (c.emission = none → exec (.tapeEntryJoin ch) s =
              .next ((s.setTape ch (joined.printStart ch fl s.issues.clock).1).raiseAll
                (joined.printStart ch fl s.issues.clock).2)))
      ∧ (¬ below → ¬ (c.level = 3 ∧ merges) → 256 ≤ c.queue.length →
        ((∀ n sym d p v x, i ≠ .print n sym d p v x) ∨ c.level = 3 →
          exec (.tapeEntryJoin ch) s = .next (s.setTape ch { c with dropped := min (c.dropped + 1) 65535 }))
          ∧ ((∃ n sym d p v x, i = .print n sym d p v x) → c.level < 3 →
            let code : Byte := if ch = .a then 0x41 else 0x42
            let recounted : List TapeEntry := c.queue.map fun e =>
              ⟨e.item, e.arrival, (itemText 3 c.working.block fl e.item).length⟩
            let forced : TapeChannel :=
              { c with
                level := 3
                dropped := min (c.dropped + 1) 65535
                queue := recounted
                backlog := (recounted.map TapeEntry.counted).sum
                flashTimer := if c.level < 2 then some (c.loaded.interval * 100) else c.flashTimer }
            exec (.tapeEntryJoin ch) s = .next
              { s.setTape ch forced with
                upstream := s.upstream.offer ([0x42, s.unitSwitch, 0x05, code, BitVec.ofNat 8 c.level, 0x03,
                  0x01] ++ writeNat 3 c.lateness ++ writeNat 3 c.backlog) }))

/-- A print start: the head leaves the queue; S moves an eighth of the way to the entry's lateness, but for a FLASH
entry; a block size set since is taken up and the backlog counted again with it; E is the larger of S and the wait
the backlog behind the entry makes at the rate R; the level moves at most one step, up when E reaches the next
threshold and down when it falls below its own; the entry is rendered at the level decided; every entry behind it is
counted again when the level or the block size changes, and keeps its arrival; and one TAPE_LEVEL notice is raised
when the level changes, with the backlog that decided it, before the recount (log 13). Nothing else of the channel
changes. -/
def Obligations.PrintStartPaces : Prop :=
  ∀ (ch : Channel) (fl : Text) (now : BitVec 32) (c : TapeChannel) (e : TapeEntry) (rest : List TapeEntry),
    c.queue = e :: rest →
    let t := c.loaded.thresholds
    let q := if c.working.block = c.loaded.block then c.backlog - e.counted
      else (rest.map fun x => (itemText c.level c.loaded.block fl x.item).length).sum
    let waited : Int := if now.toNat < e.arrival.toNat then 0 else (now.toNat : Int) - e.arrival.toNat
    let late : Nat := if e.item = .flash then c.lateness
      else min ((c.lateness : Int) + (waited - c.lateness) / 8).toNat 360000
    let x := max late (q * 100 / c.rate)
    let cs (x : Threshold) : Nat := x.value * 10 ^ x.scale
    let code : Byte := if ch = .a then 0x41 else 0x42
    let up : Nat := cs (if c.level = 0 then t.up1 else if c.level = 1 then t.up2 else t.up3)
    let down : Nat := cs (if c.level = 1 then t.down1 else if c.level = 2 then t.down2 else t.down3)
    let level : Nat := if c.level < 3 ∧ up ≤ x then c.level + 1
      else if 0 < c.level ∧ x < down then c.level - 1 else c.level
    let r := c.printStart ch fl now
    let counted (x : TapeEntry) : Nat :=
      if level = c.level ∧ c.working.block = c.loaded.block then x.counted
      else (itemText level c.loaded.block fl x.item).length
    let behind : List TapeEntry := rest.map fun x => ⟨x.item, x.arrival, counted x⟩
    r.1 = { c with
        queue := behind
        emission := some ⟨itemText level c.loaded.block fl e.item, 0⟩
        lateness := late
        level := level
        flashTimer :=
          if c.level = 1 ∧ level = 2 then some (c.loaded.interval * 100)
          else if c.level = 2 ∧ level = 1 then none
          else c.flashTimer
        backlog := if level = c.level then q else (behind.map TapeEntry.counted).sum
        working := ⟨t, c.loaded.block, c.loaded.minimum⟩ }
      ∧ r.2 = if level = c.level then []
        else [(0x05, [code, BitVec.ofNat 8 c.level, BitVec.ofNat 8 level, 0x00]
          ++ writeNat 3 late ++ writeNat 3 q)]

/-- The end of a ticker character: the rate moves one step toward the target; before the last character the entry
goes on; after it the channel falls idle or the next print start comes. A FLASH entry joins at the head at the
expiry of the flash timer, which starts again, unless the queue is full or holds one. -/
def Obligations.TapeMoves : Prop :=
  ∀ (s : State) (ch : Channel),
    let c := s.tape ch
    let fl := flashText s.issues.records s.issues.flashList
    let target := if c.level < 2 then c.loaded.normal else c.loaded.rush
    let rate := if c.rate < target then c.rate + 1 else if target < c.rate then c.rate - 1 else c.rate
    let n := (itemText c.level c.working.block fl .flash).length
    let queued := ∃ e ∈ c.queue, e.item = .flash
    let timed : TapeChannel := { c with flashTimer := some (c.loaded.interval * 100) }
    (∀ e, c.emission = some e →
        (e.sent + 1 < e.text.length → exec (.tapeCharacterSent ch) s =
            .next (s.setTape ch { c with rate := rate, emission := some ⟨e.text, e.sent + 1⟩ }))
          ∧ (e.text.length ≤ e.sent + 1 → c.queue = [] → exec (.tapeCharacterSent ch) s =
            .next (s.setTape ch { c with rate := rate, emission := none }))
          ∧ (e.text.length ≤ e.sent + 1 → c.queue ≠ [] →
            let d : TapeChannel := { c with rate := rate, emission := none }
            exec (.tapeCharacterSent ch) s =
              .next ((s.setTape ch (d.printStart ch fl s.issues.clock).1).raiseAll
                (d.printStart ch fl s.issues.clock).2)))
      ∧ (c.flashTimer = some 0 →
        (256 ≤ c.queue.length ∨ queued → exec (.flashTimerExpiry ch) s = .next (s.setTape ch timed))
          ∧ (c.queue.length < 256 → ¬ queued →
            let joined : TapeChannel :=
              { timed with queue := ⟨.flash, s.issues.clock, n⟩ :: c.queue, backlog := c.backlog + n }
            (c.emission.isSome = true → exec (.flashTimerExpiry ch) s = .next (s.setTape ch joined))
              ∧ (c.emission = none → exec (.flashTimerExpiry ch) s =
                  .next ((s.setTape ch (joined.printStart ch fl s.issues.clock).1).raiseAll
                    (joined.printStart ch fl s.issues.clock).2))))
      ∧ (c.flashTimer ≠ some 0 → exec (.flashTimerExpiry ch) s = .next s)

/-! ### The Board Line Controllers -/

/-- The marks of a line when one of its modules changes: a module that stops waiting gives its mark up; one that
goes on waiting keeps it; one that begins to wait takes the mark register's number, after which the register goes up
by one. With the register at 65,535 the marks held are first renumbered 0, 1, 2 and on in their old order, and the
register set to their number. Nothing else of the line changes. -/
def Obligations.MarksTaken : Prop :=
  ∀ (b : BoardLine) (i : ModuleNo) (f : BoardModule → BoardModule),
    let m := f b.modules[i]
    let c := b.change i f
    let mark (j : ModuleNo) : Option Nat := if j = i then m.mark else (b.modules[j]).mark
    let holders : Nat := ((List.finRange 32).filter fun j => (mark j).isSome).length
    let below (n : Nat) : Nat := ((List.finRange 32).filter fun j => (mark j).any fun k => decide (k < n)).length
    let set (mine : Option Nat) (other : ModuleNo → Option Nat) (register : Nat) : Prop :=
      c.modules[i] = { m with mark := mine }
        ∧ (∀ j : ModuleNo, j ≠ i → c.modules[j] = { b.modules[j] with mark := other j })
        ∧ c = { b with modules := c.modules, markReg := register }
    (m.dirty = .empty ∧ m.blanking = false → set none mark b.markReg)
      ∧ (m.dirty ≠ .empty ∨ m.blanking = true →
        (m.mark.isSome = true → set m.mark mark b.markReg)
          ∧ (m.mark = none → b.markReg < 65535 → set (some b.markReg) mark (b.markReg + 1))
          ∧ (m.mark = none → b.markReg = 65535 →
            set (some holders) (fun j => (mark j).map below) (holders + 1)))

/-- A change notice at the board lines marks, at each row of its list whose module is not DARK, the fields it names
that the row shows, and nothing at any other row; a line with a transfer in flight keeps it, and an idle one chooses
(log 26). At the terminals it adds the fields it names, but for LAMPS, to the pending set of the entry of its issue
at each terminal its watcher mask marks, unless the terminal is DISABLED. Notices reach a block as steps of their
own (log 3). The rows are marked in the order of the row list, each module's mark as MarksTaken states. -/
def Obligations.NoticesMark : Prop :=
  (∀ (s : State) (n : ChangeNotice) (rest : List ChangeNotice), s.boardNotices = n :: rest →
     ∃ t, exec .boardChangeNotice s = .next t
       ∧ s.Marked t s.issues.records (fun r => s.lamps[r]) n.rows (fun _ => n.fields)
       ∧ (∀ l : LineNo, (s.boards[l]).inFlight.isSome = true → (t.boards[l]).inFlight = (s.boards[l]).inFlight)
       ∧ t = { s with boardNotices := rest, boards := t.boards })
    ∧ ∀ (s : State) (n : ChangeNotice) (rest : List ChangeNotice), s.terminalNotices = n :: rest →
      ∃ t, exec .terminalChangeNotice s = .next t
        ∧ (∀ x : TermNo, t.terminals[x] =
            (if n.watchers.getLsbD x.val = true ∧ (s.terminals[x]).state ≠ .disabled
              then { s.terminals[x] with watch := (s.terminals[x]).watch.map fun e =>
                if e.issue = n.issue
                then ⟨e.issue, e.pending.union { n.fields with lamps := false }⟩ else e }
              else s.terminals[x]))
        ∧ t = { s with terminalNotices := rest, terminals := t.terminals }

/-- What an idle line begins: its pending broadcast; else a waiting module outside back-off, of the highest class
(the class of its row, and 3 for an owed blanking) and within it the lowest mark, with all its dirty fields or its
blanking; else the next mapped module after the sweep pointer outside back-off, in full; else nothing. What is sent
is no longer dirty or owed, which settles the module's mark as MarksTaken states; nothing else of the line changes. A
line with a transfer in flight goes on with it. -/
def Obligations.NextTransferChosen : Prop :=
  ∀ (b : BoardLine) (records : Records) (lampsOf : ModuleNo → RowLamps),
    let c := b.choose records lampsOf
    let waits (m : BoardModule) : Prop := m.dirty ≠ .empty ∨ m.blanking = true
    let rank (m : BoardModule) : Nat := if m.blanking then 3 else (m.mapping.map Mapping.priority).getD 3
    let ready (j : ModuleNo) : Prop := waits b.modules[j] ∧ (b.modules[j]).backOff = none
    let open_ (j : ModuleNo) : Prop := (b.modules[j]).mapping.isSome = true ∧ (b.modules[j]).backOff = none
    let after (j : ModuleNo) : Nat := (j.val + 32 - (b.sweep.val + 1) % 32) % 32
    let row (i : ModuleNo) (p : Mapping) (fs : FieldSet) : List BoardChar :=
      transferChars i.val (rowBlocks records (lampsOf i) p.issue fs)
    (b.inFlight.isSome = true → c = b)
      ∧ (b.inFlight = none → ∀ f, b.broadcast = some f →
          let code : BoardChar := if f = .quiet then 0x01 else 0x00
          c = { b with
            broadcast := none
            inFlight := some ⟨.broadcast f, [319#9, 0x0F#9, code, 0x0F + code], none⟩ })
      ∧ (b.inFlight = none → b.broadcast = none → (∃ j, ready j) → ∃ i, ready i
          ∧ (∀ j, ready j → rank b.modules[j] < rank b.modules[i]
              ∨ (rank b.modules[j] = rank b.modules[i]
                ∧ (b.modules[i]).mark.getD 0 ≤ (b.modules[j]).mark.getD 0))
          ∧ (∀ p, (b.modules[i]).mapping = some p → (b.modules[i]).dirty ≠ .empty →
              let fs := (b.modules[i]).dirty
              let sent : BoardLine := { b with inFlight := some ⟨.update i p.issue fs, row i p fs, none⟩ }
              c = sent.change i fun m => { m with dirty := .empty })
          ∧ ((b.modules[i]).mapping = none ∨ (b.modules[i]).dirty = .empty →
              let sent : BoardLine :=
                { b with inFlight := some ⟨.blanking i, [BitVec.ofNat 9 (256 + i.val), 0x0E#9, 0x0E#9], none⟩ }
              c = sent.change i fun m => { m with blanking := false }))
      ∧ (b.inFlight = none → b.broadcast = none → (¬ ∃ j, ready j) → ∀ i, open_ i → (∀ j, open_ j → after i ≤ after j) →
          ∀ p, (b.modules[i]).mapping = some p →
            let sent : BoardLine :=
              { b with sweep := i, inFlight := some ⟨.refresh i p.issue p.mask, row i p p.mask, none⟩ }
            c = sent.change i fun m => { m with dirty := .empty })
      ∧ (b.inFlight = none → b.broadcast = none → (¬ ∃ j, ready j) → (¬ ∃ j, open_ j) → c = b)

/-- The end of a transfer on a board line, by ACCEPT, by HOLD, by no answer, or of a broadcast: what becomes of its
module, the count and the notice, and the marks that MarksTaken states; the line then chooses its next transfer, and
the other lines stand. At the expiry of a hold back-off an idle line chooses, and a busy one goes on. After a
re-mapping a DARK module owes nothing more (log 35). -/
def Obligations.TransfersEnd : Prop :=
  ∀ (s : State) (l : LineNo),
    let b := s.boards[l]
    let chooses (c : Instr) (x : BoardLine) (upstream : UpstreamPort) : Prop :=
      exec c s = .next
        { s with
          boards := s.boards.set l (x.choose s.issues.records fun m => s.lamps[rowOf l m])
          upstream := upstream }
    let notice (kind : Byte) (i : ModuleNo) : Text := [0x42, s.unitSwitch, kind, BitVec.ofNat 8 l.val,
      BitVec.ofNat 8 i.val] ++ writeNat 2 (((b.modules[i]).mapping.map Mapping.issue).getD 0)
    (∀ (i : ModuleNo) (t : Transfer) (left : Nat), b.inFlight = some t → t.wait = some left →
        t.body.module? = some i →
        let m := b.modules[i]
        let back : UpstreamPort := if m.state = .dark then s.upstream.offer (notice 0x07 i) else s.upstream
        let restored (d : FieldSet) : FieldSet :=
          match t.body, m.mapping with
          | .update _ n fs, some p => if p.issue = n then d.union (fs.inter p.mask) else d
          | .refresh _ n fs, some p => if p.issue = n then d.union (fs.inter p.mask) else d
          | _, _ => d
        let owed : Bool := m.blanking || (decide (m.state = .dark) && m.mapping.isNone)
        let reowed (o : Bool) : Bool :=
          match t.body, m.mapping with
          | .blanking _, none => true
          | _, _ => o
        let ended (u : BoardModule) (holds timeouts : Nat) : BoardLine :=
          let free : BoardLine := { b with inFlight := none, holds := holds, timeouts := timeouts }
          free.change i fun _ => u
        let missed : Nat := min (b.timeouts + 1) 65535
        chooses (.accept l)
            (ended { m with state := .live, timeouts := 0, blanking := owed } b.holds b.timeouts) back
          ∧ chooses (.hold l)
            (ended { m with state := .live, timeouts := 0, dirty := restored m.dirty, blanking := reowed owed,
                            backOff := some 5 } (min (b.holds + 1) 65535) b.timeouts) back
          ∧ (left = 0 → m.state = .dark →
            chooses (.boardAnswerWaitExpiry l) (ended m b.holds missed) s.upstream)
          ∧ (left = 0 → m.state ≠ .dark → m.timeouts + 1 < 3 →
            chooses (.boardAnswerWaitExpiry l)
              (ended { m with timeouts := m.timeouts + 1, dirty := restored m.dirty, blanking := reowed m.blanking }
                b.holds missed) s.upstream)
          ∧ (left = 0 → m.state ≠ .dark → 3 ≤ m.timeouts + 1 →
            chooses (.boardAnswerWaitExpiry l)
              (ended { m with state := .dark, timeouts := 3, dirty := .empty, blanking := false } b.holds missed)
              (s.upstream.offer (notice 0x06 i)))
          ∧ (left ≠ 0 → exec (.boardAnswerWaitExpiry l) s = .next s))
      ∧ (∀ (t : Transfer), b.inFlight = some t → t.body.module? = none →
          chooses (.broadcastSent l) { b with inFlight := none } s.upstream)
      ∧ (∀ i : ModuleNo, (b.modules[i]).backOff = some 0 → b.inFlight = none →
          let free : BoardModule := { b.modules[i] with backOff := none }
          chooses (.holdBackOffExpiry l i) { b with modules := b.modules.set i free } s.upstream)
      ∧ (∀ i : ModuleNo, (b.modules[i]).backOff = some 0 → b.inFlight.isSome = true →
          let free : BoardModule := { b.modules[i] with backOff := none }
          let cleared : BoardLine := { b with modules := b.modules.set i free }
          exec (.holdBackOffExpiry l i) s = .next { s with boards := s.boards.set l cleared })
      ∧ (∀ i : ModuleNo, (b.modules[i]).backOff ≠ some 0 → exec (.holdBackOffExpiry l i) s = .next s)

/-- The answer waits start when the last character of a transfer, a poll or a select has gone. A character that is
no awaited answer, on either kind of line, changes nothing, and a running wait runs on: ACCEPT or HOLD while no
transfer awaits its answer, NOTHING or a request while no poll does, RECEIVED or BUSY while no select does. The end
of characters that are not being sent, and the expiry of a wait that does not run, change nothing (log 1). -/
def Obligations.AnswerWaitsStart : Prop :=
  (∀ (s : State) (l : LineNo) (t : Transfer), (s.boards[l]).inFlight = some t → t.wait = none →
      t.body.module?.isSome = true →
      let waiting : BoardLine := { s.boards[l] with inFlight := some ⟨t.body, t.chars, some 2⟩ }
      exec (.transferSent l) s = .next { s with boards := s.boards.set l waiting })
    ∧ (∀ (s : State) (l : LineNo) (d : DropNo) (c : Byte) (cut : Bool),
      (s.termLines[l]).inFlight = some ⟨d, .pollSending c, cut⟩ →
      let waiting : TermLine := { s.termLines[l] with inFlight := some ⟨d, .pollWait 10, cut⟩ }
      exec (.pollSent l) s = .next { s with termLines := s.termLines.set l waiting })
    ∧ (∀ (s : State) (l : LineNo) (d : DropNo) (sel : Select) (cut : Bool),
      (s.termLines[l]).inFlight = some ⟨d, .selectSending sel, cut⟩ →
      let waiting : TermLine := { s.termLines[l] with inFlight := some ⟨d, .selectWait sel 10, cut⟩ }
      exec (.selectSent l) s = .next { s with termLines := s.termLines.set l waiting })
    ∧ (∀ (s : State) (l : LineNo) (c : Byte),
      exec (.boardOtherCharacter l c) s = .next s ∧ exec (.terminalOtherCharacter l c) s = .next s)
    ∧ (∀ (s : State) (l : LineNo),
      let x := (s.boards[l]).inFlight
      let broadcast := ∃ t, x = some t ∧ t.body.module? = none
      (x.bind Transfer.wait = none ∨ broadcast →
          exec (.accept l) s = .next s ∧ exec (.hold l) s = .next s ∧ exec (.boardAnswerWaitExpiry l) s = .next s)
        ∧ (x = none ∨ x.bind Transfer.wait ≠ none ∨ broadcast → exec (.transferSent l) s = .next s)
        ∧ (¬ broadcast → exec (.broadcastSent l) s = .next s))
    ∧ ∀ (s : State) (l : LineNo),
      let stage : Option Stage := (s.termLines[l]).inFlight.map Transaction.stage
      ((∀ left, stage ≠ some (.pollWait left)) →
          exec (.nothing l) s = .next s
            ∧ (∀ field : Text, exec (.quoteRequest l field) s = .next s ∧ exec (.watchAdd l field) s = .next s
              ∧ exec (.watchDrop l field) s = .next s)
            ∧ (∀ (slot cond neg : Byte) (field : Text) (limit : BitVec 32),
              exec (.alertSet l slot field cond neg limit) s = .next s ∧ exec (.alertClear l slot) s = .next s)
            ∧ ∀ req : Text, exec (.requestBadOperation l req) s = .next s)
        ∧ ((∀ sel left, stage ≠ some (.selectWait sel left)) →
          exec (.received l) s = .next s ∧ exec (.busy l) s = .next s)
        ∧ ((∀ c, stage ≠ some (.pollSending c)) → exec (.pollSent l) s = .next s)
        ∧ ((∀ sel, stage ≠ some (.selectSending sel)) → exec (.selectSent l) s = .next s)
        ∧ (stage = none → exec (.terminalAnswerWaitExpiry l) s = .next s)

/-! ### The Lamp Generators -/

/-- A change notice at the rows that still show its issue (log 4): a full one puts the arrow out; an UP or DOWN tick
notice starts a fresh flash of its direction, and leaves one that already runs; every notice sets the halt lamp;
every other row keeps its lamps. The expiry of a phase timer: ON becomes OFF for the off time; OFF becomes ON for the
on time with one flash fewer while two or more remain, else the steady arrow; a change of a row's lamps marks LAMPS
at a module that shows them, unless it is DARK, and an idle line chooses (log 26). The rows of a notice hand over
their markings in the order of the row list, which is the model's choice (log 41). A timer that has not run out is
left alone. The lamp notice is a step of its own (log 3). -/
def Obligations.LampsMove : Prop :=
  let lampFields (x y : RowLamps) : FieldSet :=
    if x.arrow.stateAndPhase ≠ y.arrow.stateAndPhase ∨ x.halt ≠ y.halt
    then ⟨false, false, false, false, true, false, false⟩ else .empty
  (∀ (s : State) (n : ChangeNotice) (rest : List ChangeNotice), s.lampNotices = n :: rest →
     let fresh : Flash := ⟨.on, s.lampParams.flashCount, s.lampParams.onTime⟩
     let full := n.fields = ⟨true, true, true, true, true, true, true⟩
     let moves := n.fields.last = true ∧ n.fields.lamps = true ∧ ¬ full
     let arrow (a : Arrow) : Arrow :=
       if full then .steadyNone
       else if moves ∧ n.tick = .up then (match a with | .flashUp f => .flashUp f | _ => .flashUp fresh)
       else if moves ∧ n.tick = .down then (match a with | .flashDown f => .flashDown f | _ => .flashDown fresh)
       else a
     ∃ t, exec .lampChangeNotice s = .next t
       ∧ (∀ r : RowNo, t.lamps[r] = (if r ∈ n.rows ∧ s.rowIssue r = some n.issue
           then ⟨arrow (s.lamps[r]).arrow, n.halted⟩ else s.lamps[r]))
       ∧ s.Marked t s.issues.records (fun r => t.lamps[r]) n.rows (fun r => lampFields s.lamps[r] t.lamps[r])
       ∧ t = { s with lampNotices := rest, lamps := t.lamps, boards := t.boards })
    ∧ (∀ (s : State) (r : RowNo),
     let x := s.lamps[r]
     (∀ f, x.arrow.flash? = some f → f.timer = 0 →
       let next (up : Bool) : Arrow :=
         let flash (g : Flash) : Arrow := if up then .flashUp g else .flashDown g
         if f.phase = .on then flash ⟨.off, f.remaining, s.lampParams.offTime⟩
         else if 2 ≤ f.remaining then flash ⟨.on, f.remaining - 1, s.lampParams.onTime⟩
         else if up then .steadyUp else .steadyDown
       ∃ t, exec (.phaseTimerExpiry r) s = .next t
         ∧ t.lamps[r] = ⟨next (decide (x.arrow = .flashUp f)), x.halt⟩
         ∧ (∀ q : RowNo, q ≠ r → t.lamps[q] = s.lamps[q])
         ∧ s.Marked t s.issues.records (fun q => t.lamps[q]) [r] (fun q => lampFields s.lamps[q] t.lamps[q])
         ∧ t = { s with lamps := t.lamps, boards := t.boards })
       ∧ ((∀ f, x.arrow.flash? = some f → f.timer ≠ 0) → exec (.phaseTimerExpiry r) s = .next s))

/-! ### The Terminal Line Controllers and the Alert Table -/

/-- What the card sends on the board and terminal lines, character by character: the field blocks and the frame of a
transfer, the record view of a QUOTE reply, an entry update, an ALERT message, and the poll and select characters. -/
def Obligations.LineTextsBuilt : Prop :=
  let text (t : Text) : Text := BitVec.ofNat 8 t.length :: t
  let sent (fields : List (Bool × Text)) : Text := (fields.filter Prod.fst).flatMap Prod.snd
  let flag (b : Bool) : Byte := if b then 0x01 else 0x00
  (∀ (records : Records) (n : Nat) (r : IssueRecord), findRecord records n = some r →
      let price (p : Option Nat) : Text := p.elim [0x00] fun v => text (priceText r.denom v)
      let change : Text := text (changeText r.denom r.netChange)
      let volume : Text := text (volumeText r.volume)
      let state : Byte := BitVec.ofNat 8 (r.traded.toNat + 2 * r.halted.toNat
        + 16 * [Tick.none, .up, .down, .zeroUp, .zeroDown].idxOf r.tick)
      (∀ (x : RowLamps) (fs : FieldSet),
          let up := x.arrow = .steadyUp ∨ ∃ f, x.arrow = .flashUp f ∧ f.phase = .on
          let down := x.arrow = .steadyDown ∨ ∃ f, x.arrow = .flashDown f ∧ f.phase = .on
          ∃ lit : Byte, (lit.getLsbD 0 = true ↔ up) ∧ (lit.getLsbD 1 = true ↔ down) ∧ (lit.getLsbD 2 = x.halt)
            ∧ lit.toNat < 8
            ∧ rowBlocks records x n fs =
                sent [(fs.symbol, 0x01 :: text r.symbol), (fs.last, 0x02 :: price (some r.last)),
                  (fs.change, 0x03 :: change), (fs.volume, 0x04 :: volume), (fs.lamps, [0x05, 0x01, lit])])
        ∧ recordView r = text r.symbol ++ price (some r.last) ++ price (some r.close) ++ change ++ price r.high
            ++ price r.low ++ volume ++ price r.bid ++ price r.ask ++ [state]
        ∧ (∀ (position length : Nat) (fs : FieldSet), entryUpdate records position length n fs =
            [0x04, BitVec.ofNat 8 position, BitVec.ofNat 8 length, fs.toByte]
              ++ sent [(fs.symbol, text r.symbol), (fs.last, price (some r.last)), (fs.change, change),
                (fs.volume, volume), (fs.bidask, price r.bid ++ price r.ask), (fs.state, [state])])
        ∧ ∀ (k : SlotNo) (a : AlertSetting) (clock : BitVec 32),
            let limit : Text :=
              if a.condition = .lastAbove ∨ a.condition = .lastBelow then priceText r.denom a.limit.toNat
              else if a.condition = .changeAbove ∨ a.condition = .changeBelow then changeText r.denom a.limit
              else []
            alertChars k a r clock = [0x02, BitVec.ofNat 8 k.val] ++ text r.symbol
              ++ [conditionCode a.condition, flag a.negate] ++ text limit ++ price (some r.last) ++ change
              ++ [flag r.halted] ++ writeNat 4 clock.toNat)
    ∧ (∀ (address : Nat) (data : Text), address ≤ 63 →
        transferChars address data = BitVec.ofNat 9 (256 + address) :: data.map (fun c => BitVec.ofNat 9 c.toNat)
          ++ [BitVec.ofNat 9 ((data.map BitVec.toNat).sum % 256)])
    ∧ (∀ (d : DropNo) (message : Text), message.length ≤ 120 →
        selectChars d message = [BitVec.ofNat 8 (0x78 + d.val), BitVec.ofNat 8 message.length] ++ message
          ++ [BitVec.ofNat 8 (message.length + (message.map BitVec.toNat).sum)])
    ∧ (∀ d : DropNo, pollChar d = 0x70 + BitVec.ofNat 8 d.val)
    ∧ (∀ n : Nat, lengthUpdate n = [0x05, BitVec.ofNat 8 n])
    ∧ ∀ f : FeedState, (OutMessage.feedStatus f).chars = [0x03, flag (decide (f = .quiet))]

/-- NOTHING from an ONLINE terminal: its timeout count is 0 and the transaction carries the head of the outbound
queue; with an empty queue an entry update for the next pending entry after the service cursor; with none the owed
length; with nothing to send, the transaction ends and the line polls the next enabled terminal after the poll
pointer. -/
def Obligations.NothingAnswered : Prop :=
  ∀ (s : State) (l : LineNo) (d : DropNo) (left : Nat), (s.termLines[l]).inFlight = some ⟨d, .pollWait left, false⟩ →
    let x := s.terminals[termOf l d]
    let line (st : Stage) : TermLine := { s.termLines[l] with inFlight := some ⟨d, st, false⟩ }
    x.state = .online →
      (∀ m ms, x.queue = m :: ms → exec (.nothing l) s = .next
          { s with
            terminals := s.terminals.set (termOf l d) { x with timeouts := 0 }
            termLines := s.termLines.set l (line (.selectSending ⟨.queued, selectChars d m.chars⟩)) })
          ∧ (x.queue = [] → ∀ i e, x.watch[i]? = some e → e.pending ≠ .empty →
            (∀ j g, x.watch[j]? = some g → g.pending ≠ .empty →
              (x.cursor < i ∧ (j ≤ x.cursor ∨ i ≤ j)) ∨ (i ≤ x.cursor ∧ j ≤ x.cursor ∧ i ≤ j)) →
            exec (.nothing l) s = .next
              { s with
                terminals := s.terminals.set (termOf l d)
                  { x with timeouts := 0, cursor := i, lengthOwed := false,
                           watch := x.watch.modify i fun e => ⟨e.issue, .empty⟩ }
                termLines := s.termLines.set l (line (.selectSending ⟨.entry e.issue e.pending x.lengthOwed,
                  selectChars d (entryUpdate s.issues.records i x.watch.length e.issue e.pending)⟩)) })
          ∧ (x.queue = [] → (∀ e ∈ x.watch, e.pending = .empty) → x.lengthOwed = true →
            exec (.nothing l) s = .next
              { s with
                terminals := s.terminals.set (termOf l d) { x with timeouts := 0, lengthOwed := false }
                termLines := s.termLines.set l (line (.selectSending ⟨.length,
                  selectChars d [0x05, BitVec.ofNat 8 x.watch.length]⟩)) })
          ∧ (x.queue = [] → (∀ e ∈ x.watch, e.pending = .empty) → x.lengthOwed = false →
            ∃ t : State, exec (.nothing l) s = .next t ∧ State.Polls s.termLines[l] t l
              ∧ t = { s with
                  terminals := s.terminals.set (termOf l d) { x with timeouts := 0 }
                  termLines := t.termLines }
              ∧ ∀ k : LineNo, k ≠ l → t.termLines[k] = s.termLines[k])

/-- The answers of terminals that are not ONLINE. From an UNKNOWN or OFFLINE terminal any awaited answer first
brings the terminal ONLINE, with its notice, its list fully pending, its length owed and its feed status offered,
and is then taken as from an ONLINE one. From a DISABLED terminal, or one that has been disabled since the
transaction began and is enabled again (log 30), an awaited answer ends the transaction with no effect but the
line's own: RETRY sent and counted for a request, and BUSY counted (log 31). The RETRY stands in the model's own
record (log 22). That two waiting FEED status messages both take the feed state offered is log 36. -/
def Obligations.OtherTerminalsAnswer : Prop :=
  ∀ (s : State) (l : LineNo) (d : DropNo) (stage : Stage) (cut : Bool),
    (s.termLines[l]).inFlight = some ⟨d, stage, cut⟩ →
    let t := termOf l d
    let x := s.terminals[t]
    let request (c : Instr) : Prop :=
      (∃ f, c = .quoteRequest l f ∨ c = .watchAdd l f ∨ c = .watchDrop l f)
        ∨ (∃ k f e n v, c = .alertSet l k f e n v) ∨ (∃ k, c = .alertClear l k) ∨ ∃ q, c = .requestBadOperation l q
    let awaited (c : Instr) : Prop :=
      ((∃ left, stage = .pollWait left) ∧ (c = .nothing l ∨ request c))
        ∨ ((∃ sel left, stage = .selectWait sel left) ∧ (c = .received l ∨ c = .busy l))
    (cut = false → x.state = .unknown ∨ x.state = .offline →
        ∃ u : State, u = { s with terminals := u.terminals, upstream := u.upstream }
          ∧ u.upstream = s.upstream.offer [0x42, s.unitSwitch, 0x08, BitVec.ofNat 8 (l.val * 8 + d.val)]
          ∧ s.FeedOffered t
              { x with
                state := .online
                timeouts := 0
                watch := x.watch.map fun e => ⟨e.issue, ⟨true, true, true, true, false, true, true⟩⟩
                lengthOwed := true }
              u.terminals[t] s.feed.feedState
          ∧ (∀ y : TermNo, y ≠ t → u.terminals[y] = s.terminals[y])
          ∧ ∀ c, awaited c → exec c s = exec c u)
      ∧ (x.state = .disabled ∨ cut = true → ∀ c, awaited c →
        ∃ u, exec c s = .next u ∧ u = { s with termLines := u.termLines }
          ∧ (∀ k : LineNo, k ≠ l → u.termLines[k] = s.termLines[k])
          ∧ (request c → State.Polls
              { s.termLines[l] with
                retries := min ((s.termLines[l]).retries + 1) 65535
                lastAck := some 0x15 } u l)
          ∧ (c = .busy l → State.Polls { s.termLines[l] with busies := min ((s.termLines[l]).busies + 1) 65535 } u l)
          ∧ (c = .nothing l ∨ c = .received l → State.Polls s.termLines[l] u l))

/-- A lookup finds the LISTED issue whose symbol the field holds, and no issue when none does or the field is no
symbol. A request answered by an ONLINE terminal whose outbound queue has room: TAKEN, the request executed, its
reply at the head of the queue and carried by the select that follows. With a full queue: RETRY, counted, and the
request not executed. What a change of the watch list does is WatchOperationsTaken's, which conditions and limits are
taken AlertOperationsTaken's, and when a condition holds AlertNoticeEvaluates's. TAKEN and RETRY stand in the model's
own record of the last character sent (log 22). A request of no characters is answered BAD_OPERATION (log 23), with a
free byte where the request kind would stand (log 8). -/
def Obligations.RequestsAnswered : Prop :=
  (∀ (s : State) (field : Text),
      let names (symbol : Text) : Prop :=
        SymbolOk symbol ∧ field = symbol ++ List.replicate (4 - symbol.length) 0x20
      (∀ n, s.lookup field = some n → ∃ p ∈ s.issues.records, p.1 = n ∧ names p.2.symbol)
        ∧ (s.lookup field = none → ∀ p ∈ s.issues.records, ¬ names p.2.symbol)
        ∧ ((s.issues.records.map fun p => p.2.symbol).Nodup → ∀ p ∈ s.issues.records, names p.2.symbol →
            s.lookup field = some p.1))
    ∧ ∀ (s : State) (l : LineNo) (d : DropNo) (left : Nat), (s.termLines[l]).inFlight = some ⟨d, .pollWait left, false⟩ →
    let t := termOf l d
    let x := s.terminals[t]
    x.state = .online →
    let line := s.termLines[l]
    let replied (c : Instr) (u : State) (reply : Text) (queued : List OutMessage) : Prop :=
      exec c s = .next
        { u with
          terminals := u.terminals.set t
            { u.terminals[t] with timeouts := 0, queue := .reply reply :: x.queue ++ queued }
          termLines := s.termLines.set l { line with
            lastAck := some 0x06
            inFlight := some ⟨d, .selectSending ⟨.queued, selectChars d reply⟩, false⟩ } }
    let full (c : Instr) : Prop :=
      ∀ m ms, x.queue = m :: ms → 8 ≤ x.queue.length → exec c s = .next
        { s with
          terminals := s.terminals.set t { x with timeouts := 0 }
          termLines := s.termLines.set l { line with
            retries := min (line.retries + 1) 65535
            lastAck := some 0x15
            inFlight := some ⟨d, .selectSending ⟨.queued, selectChars d m.chars⟩, false⟩ } }
    (∀ (field : Text) (slot cond neg : Byte) (limit : BitVec 32) (req : Text),
        full (.quoteRequest l field) ∧ full (.watchAdd l field) ∧ full (.watchDrop l field)
          ∧ full (.alertSet l slot field cond neg limit) ∧ full (.alertClear l slot)
          ∧ full (.requestBadOperation l req))
      ∧ (x.queue.length < 8 → ∀ field : Text,
        (s.lookup field = none →
          replied (.quoteRequest l field) s [0x01, 0x01, 0x04] []
            ∧ replied (.watchAdd l field) s [0x01, 0x02, 0x04] []
            ∧ replied (.watchDrop l field) s [0x01, 0x03, 0x08] [])
          ∧ (∀ n, s.lookup field = some n →
            (∀ r, findRecord s.issues.records n = some r →
                replied (.quoteRequest l field) s ([0x01, 0x01, 0x00] ++ recordView r) [])
              ∧ (n ∈ s.watchIssues t → replied (.watchAdd l field) s [0x01, 0x02, 0x06] [])
              ∧ (n ∉ s.watchIssues t → 24 ≤ (s.watchIssues t).length →
                  replied (.watchAdd l field) s [0x01, 0x02, 0x07] [])
              ∧ (n ∉ s.watchIssues t → (s.watchIssues t).length < 24 →
                  replied (.watchAdd l field) (s.rewatch t (s.watchIssues t ++ [n])) [0x01, 0x02, 0x00] [])
              ∧ (n ∉ s.watchIssues t → replied (.watchDrop l field) s [0x01, 0x03, 0x08] [])
              ∧ (n ∈ s.watchIssues t →
                  replied (.watchDrop l field) (s.rewatch t ((s.watchIssues t).erase n)) [0x01, 0x03, 0x00] [])))
      ∧ (x.queue.length < 8 → ∀ (slot : Byte) (k : SlotNo),
        (7 < slot.toNat → replied (.alertClear l slot) s [0x01, 0x05, 0x03] [])
          ∧ (slot.toNat = k.val → replied (.alertClear l slot)
              { s with alerts := s.alerts.set t ((s.alerts[t]).set k none) } [0x01, 0x05, 0x00] []))
      ∧ (x.queue.length < 8 → ∀ (slot cond neg : Byte) (field : Text) (limit : BitVec 32),
        let c : Instr := .alertSet l slot field cond neg limit
        let badFirst := 7 < slot.toNat ∨ conditionOf cond = none ∨ 1 < neg.toNat
        (badFirst → replied c s [0x01, 0x04, 0x03] [])
          ∧ (¬ badFirst → s.lookup field = none → replied c s [0x01, 0x04, 0x04] [])
          ∧ ∀ (k : SlotNo) (e : Condition) (ng : Bool) (n : Nat) (r : IssueRecord), slot.toNat = k.val →
              conditionOf cond = some e → yesNo neg = some ng → s.lookup field = some n →
              findRecord s.issues.records n = some r →
              (limitOk e limit.toInt = false → replied c s [0x01, 0x04, 0x03] [])
                ∧ (limitOk e limit.toInt = true →
                  let a : AlertSetting := ⟨false, n, e, ng, limitTaken e limit.toInt, false⟩
                  let slotted (v : AlertSetting) : State :=
                    { s with alerts := s.alerts.set t ((s.alerts[t]).set k (some v)) }
                  (a.holds r = false → replied c (slotted a) [0x01, 0x04, 0x00] [])
                    ∧ (a.holds r = true → x.queue.length < 7 →
                      replied c (slotted { a with fired := true }) [0x01, 0x04, 0x00]
                        [.alert (alertChars k a r s.issues.clock)])
                    ∧ (a.holds r = true → x.queue.length = 7 →
                      replied c (slotted { a with fired := true, owed := true }) [0x01, 0x04, 0x00] [])))
      ∧ (x.queue.length < 8 → ∀ (kind : Byte) (rest : Text),
        replied (.requestBadOperation l (kind :: rest)) s [0x01, kind, 0x01] [])
      ∧ (x.queue.length < 8 →
        replied (.requestBadOperation l []) { s with freeCount := s.freeCount + 1 }
          [0x01, Config.freeByte s.freeCount, 0x01] [])

/-- RECEIVED and BUSY from an ONLINE terminal: RECEIVED removes the queued message carried and frees its place, so
that an owed FEED status and then the owed alerts join in ascending slot number, and finishes an entry or length
update; BUSY is counted, keeps a queued message, and puts an update's fields and owed length back. The line then
polls the next enabled terminal after the poll pointer. -/
def Obligations.SelectsAnswered : Prop :=
  ∀ (s : State) (l : LineNo) (d : DropNo) (sel : Select) (left : Nat),
    (s.termLines[l]).inFlight = some ⟨d, .selectWait sel left, false⟩ →
    let t := termOf l d
    let x := s.terminals[t]
    x.state = .online →
    let rest (u : State) : Prop :=
      u = { s with terminals := u.terminals, termLines := u.termLines, alerts := u.alerts }
        ∧ (∀ k : LineNo, k ≠ l → u.termLines[k] = s.termLines[k])
        ∧ ∀ y : TermNo, y ≠ t → u.terminals[y] = s.terminals[y] ∧ u.alerts[y] = s.alerts[y]
    (∃ u, exec (.received l) s = .next u ∧ State.Polls s.termLines[l] u l ∧ rest u
        ∧ (sel.carried ≠ .queued → u.terminals[t] = { x with timeouts := 0 } ∧ u.alerts = s.alerts)
        ∧ (sel.carried = .queued → s.Freed u t x.queue.tail
            ∧ u.terminals[t] = { x with
                timeouts := 0
                queue := (u.terminals[t]).queue
                feedOwed := (u.terminals[t]).feedOwed }))
      ∧ ∃ u, exec (.busy l) s = .next u ∧ rest u ∧ u.alerts = s.alerts
        ∧ State.Polls { s.termLines[l] with busies := min ((s.termLines[l]).busies + 1) 65535 } u l
        ∧ (sel.carried = .queued → u.terminals[t] = { x with timeouts := 0 })
        ∧ (sel.carried = .length → u.terminals[t] = { x with timeouts := 0, lengthOwed := true })
        ∧ (∀ n fs owed, sel.carried = .entry n fs owed → u.terminals[t] =
            { x with
              timeouts := 0
              lengthOwed := x.lengthOwed || owed
              watch := x.watch.map fun e => if e.issue = n then ⟨e.issue, e.pending.union fs⟩ else e })

/-- A missed answer is counted on its line; an UNKNOWN or ONLINE terminal counts it too and becomes OFFLINE with its
notice at the third; an OFFLINE one keeps its state and count. A missed select puts back what it sent: a queued
message stays, and an update's fields and owed length return. A DISABLED terminal, and one that has been disabled
since the transaction began and is enabled again (log 30), is left as it stands. The line then polls the next
enabled terminal after the poll pointer. A wait that has not run out is left alone. -/
def Obligations.MissedAnswersCounted : Prop :=
  ∀ (s : State) (l : LineNo) (d : DropNo) (stage : Stage) (cut : Bool),
    (s.termLines[l]).inFlight = some ⟨d, stage, cut⟩ →
    let t := termOf l d
    let x := s.terminals[t]
    let heard := x.state ≠ .disabled ∧ cut = false
    let counts := heard ∧ x.state ≠ .offline
    let missed : Terminal :=
      if counts then
        if x.timeouts + 1 < 3 then { x with timeouts := x.timeouts + 1 }
        else { x with timeouts := 3, state := .offline }
      else x
    let back (c : Carried) : Terminal :=
      match c with
      | .queued => missed
      | .length => { missed with lengthOwed := true }
      | .entry n fs owed =>
          { missed with
            lengthOwed := missed.lengthOwed || owed
            watch := x.watch.map fun e => if e.issue = n then ⟨e.issue, e.pending.union fs⟩ else e }
    let ends (y : Terminal) : Prop :=
      ∃ u, exec (.terminalAnswerWaitExpiry l) s = .next u
        ∧ u = { s with
            terminals := s.terminals.set t y
            termLines := u.termLines
            upstream := if counts ∧ 3 ≤ x.timeouts + 1
              then s.upstream.offer [0x42, s.unitSwitch, 0x09, BitVec.ofNat 8 (l.val * 8 + d.val)] else s.upstream }
        ∧ State.Polls { s.termLines[l] with timeouts := min ((s.termLines[l]).timeouts + 1) 65535 } u l
        ∧ ∀ k : LineNo, k ≠ l → u.termLines[k] = s.termLines[k]
    (stage = .pollWait 0 → ends missed)
      ∧ (∀ sel, stage = .selectWait sel 0 → ends (if heard then back sel.carried else x))
      ∧ (stage ≠ .pollWait 0 → (∀ sel, stage ≠ .selectWait sel 0) →
          exec (.terminalAnswerWaitExpiry l) s = .next s)

/-- The eight conditions, each over the record as it stands, and its complement when negate is set. A change notice
evaluates every slot that names its issue: an ARMED one whose condition holds fires; a FIRED one
whose condition does not hold re-arms and owes nothing; the others stand. Of the slots of a terminal that fire, in
ascending slot number, each joins its message while fewer than 8 are queued and the terminal is not DISABLED, its
owed flag staying clear, and each after that owes it. Slots of other issues, and terminals with none that fires, are
left alone. The notice is a step of its own (log 3). -/
def Obligations.AlertNoticeEvaluates : Prop :=
  (∀ (a : AlertSetting) (r : IssueRecord),
      let last : Int := r.last
      let test : Prop := match a.condition with
        | .lastAbove => r.traded = true ∧ a.limit < last
        | .lastBelow => r.traded = true ∧ last < a.limit
        | .changeAbove => r.traded = true ∧ a.limit < r.netChange
        | .changeBelow => r.traded = true ∧ r.netChange < a.limit
        | .uptick => r.tick = .up ∨ r.tick = .zeroUp
        | .atHigh => r.traded = true ∧ r.high = some r.last
        | .atLow => r.traded = true ∧ r.low = some r.last
        | .halted => r.halted = true
      (a.negate = false → (a.holds r = true ↔ test)) ∧ (a.negate = true → (a.holds r = true ↔ ¬ test)))
    ∧ ∀ (s : State) (n : ChangeNotice) (rest : List ChangeNotice) (r : IssueRecord), s.alertNotices = n :: rest →
    findRecord s.issues.records n.issue = some r →
    ∃ t, exec .alertChangeNotice s = .next t
      ∧ (∀ x : TermNo,
          let y := s.terminals[x]
          let fires : List (SlotNo × AlertSetting) := (List.finRange 8).filterMap fun k =>
            ((s.alerts[x])[k]).bind fun a =>
              if a.issue = n.issue ∧ a.holds r = true ∧ a.fired = false then some (k, a) else none
          let places : Nat := if y.state = .disabled then 0 else 8 - y.queue.length
          t.terminals[x] = { y with
              queue := y.queue ++ (fires.take places).map fun p => .alert (alertChars p.1 p.2 r s.issues.clock) }
            ∧ ∀ k : SlotNo, (t.alerts[x])[k] = ((s.alerts[x])[k]).map fun a =>
                if a.issue ≠ n.issue then a
                else if a.holds r = false then { a with fired := false, owed := false }
                else if a.fired = true then a
                else { a with fired := true, owed := decide (k ∉ (fires.take places).map Prod.fst) })
      ∧ t = { s with alertNotices := rest, alerts := t.alerts, terminals := t.terminals }

/-! ### The Upstream Port -/

/-- A character from below: a frame that passes its check joins the pass-through buffer unchanged, a failed one is
discarded and counted nowhere; in either case nothing but the port changes. A notice joins the reply queue while
fewer than 8 places are occupied or claimed, and is lost and counted when all are. A reply joins at the tail, behind
every notice that has joined since its claim, and gives the claim up. What joins an empty port whose line is free,
with the card above ready, is begun at once. The ready line toward the card below is active exactly while the start-up
hold is clear and fewer than 2 frames are held. That a frame from below joins while the start-up hold is set,
too, is log 39. -/
def Obligations.PortStoresTake : Prop :=
  (∀ (s : State) (c : Byte),
     let u := s.upstream
     let a := (assemble u.assembler c).1
     (∀ f, (assemble u.assembler c).2 = .frame f → u.buffer.length < 2 →
         let joined : UpstreamPort := { u with assembler := a, buffer := u.buffer ++ [f] }
         let waits := u.transmitting.isSome = true ∨ u.readyAbove = false
         let idle := u.transmitting = none ∧ u.readyAbove = true ∧ u.replies = [] ∧ u.buffer = []
         exec (.upstreamInCharacter c) s = .next { s with upstream := joined.arbitrate }
           ∧ (waits → joined.arbitrate = joined)
           ∧ (idle → joined.arbitrate =
               { u with assembler := a, transmitting := some (.passed, f), lastServed := .passed }))
       ∧ ((∀ f, (assemble u.assembler c).2 ≠ .frame f) →
         exec (.upstreamInCharacter c) s = .next { s with upstream := { u with assembler := a } }))
    ∧ (∀ (u : UpstreamPort) (body : Text),
     let begun (claims : Nat) : UpstreamPort :=
       { u with
         claims := claims
         transmitting := some (.own, frameOf body)
         lastServed := .own
         hold := u.hold && !(byteAt body 0 == 0x42 && byteAt body 2 == 0x01) }
     let waits := u.transmitting.isSome = true ∨ u.readyAbove = false
     let idle := u.transmitting = none ∧ u.readyAbove = true ∧ u.replies = [] ∧ u.buffer = []
     (u.replies.length + u.claims < 8 →
         (waits → u.offer body = { u with replies := u.replies ++ [body] }) ∧ (idle → u.offer body = begun u.claims))
       ∧ (8 ≤ u.replies.length + u.claims → u.offer body = { u with lost := min (u.lost + 1) 65535 })
       ∧ (waits → u.fill body = { u with replies := u.replies ++ [body], claims := u.claims - 1 })
       ∧ (idle → u.fill body = begun (u.claims - 1)))
    ∧ ∀ u : UpstreamPort, u.readyBelow = true ↔ u.hold = false ∧ u.buffer.length < 2

/-- The arbiter: at the end of a frame and when the ready line from above becomes active, with the line free and the
card above ready, the head of the store that holds a frame is begun, and with both, of the store not served last;
its own frames with the check the card forms, passed frames as they came. A frame begun is sent whatever the ready
line does. The start-up hold is cleared when the RESTARTED notice is begun. -/
def Obligations.ArbiterChooses : Prop :=
  ∀ (s : State),
    let u := s.upstream
    let own (body : Text) (rest : List Text) : State := { s with upstream := { u with
      readyAbove := true, replies := rest, transmitting := some (.own, frameOf body), lastServed := .own,
      hold := u.hold && !(byteAt body 0 == 0x42 && byteAt body 2 == 0x01) } }
    let passed (f : Frame) (rest : List Frame) : State := { s with upstream := { u with
      readyAbove := true, buffer := rest, transmitting := some (.passed, f), lastServed := .passed } }
    let chooses (c : Instr) : Prop :=
      (∀ r rs, u.replies = r :: rs → u.buffer = [] ∨ u.lastServed = .passed → exec c s = .next (own r rs))
        ∧ (∀ f fs, u.buffer = f :: fs → u.replies = [] ∨ u.lastServed = .own → exec c s = .next (passed f fs))
        ∧ (u.replies = [] → u.buffer = [] → exec c s =
            .next { s with upstream := { u with readyAbove := true, transmitting := none } })
    (u.transmitting.isSome = true → u.readyAbove = true → chooses .upstreamFrameEnd)
      ∧ (u.transmitting = none → chooses (.readyLineChange true))
      ∧ (u.transmitting.isSome = true → u.readyAbove = false → exec .upstreamFrameEnd s =
          .next { s with upstream := { u with transmitting := none } })
      ∧ (∀ active, active = false ∨ u.transmitting.isSome = true → exec (.readyLineChange active) s =
          .next { s with upstream := { u with readyAbove := active } })

/-! ### Answers of the terminals -/

/-- The answers of modules and terminals, character by character: a request answer is 05h, the length, the request and
the sum of the length and the request, and with another sum it is no answer. Every well-formed answer of a terminal,
written as its characters, is read back as the command it stands for,
with every operand. An answer is one command with its characters as operands (log 21). -/
def Obligations.AnswerRoundTrip : Prop :=
  (∀ (l : LineNo) (c : Byte),
      boardAnswer l c = if c = 0x06 then .accept l else if c = 0x13 then .hold l else .boardOtherCharacter l c)
    ∧ (let sum (request : Text) : Byte := BitVec.ofNat 8 (request.length + (request.map BitVec.toNat).sum)
      let answer (request : Text) : Option Text :=
        some ([0x05, BitVec.ofNat 8 request.length] ++ request ++ [sum request])
      ∀ (l : LineNo) (symbol : Text) (slot cond neg : Byte) (limit : BitVec 32) (request : Text) (last : Byte),
        answerChars (.nothing l) = some [0x04] ∧ answerChars (.received l) = some [0x06]
          ∧ answerChars (.busy l) = some [0x13]
          ∧ answerChars (.quoteRequest l symbol) = answer (0x01 :: symbol)
          ∧ answerChars (.watchAdd l symbol) = answer (0x02 :: symbol)
          ∧ answerChars (.watchDrop l symbol) = answer (0x03 :: symbol)
          ∧ answerChars (.alertSet l slot symbol cond neg limit) =
              answer ([0x04, slot] ++ symbol ++ [cond, neg] ++ writeNat 4 limit.toNat)
          ∧ answerChars (.alertClear l slot) = answer [0x05, slot]
          ∧ answerChars (.requestBadOperation l request) = answer request
          ∧ (request.length < 256 → last ≠ sum request →
              terminalAnswer l ([0x05, BitVec.ofNat 8 request.length] ++ request ++ [last]) = none))
    ∧ ∀ (i : Instr) (cs : Text) (l : LineNo), WellFormed i = true → answerChars i = some cs →
    (i ∈ [.nothing l, .received l, .busy l] ∨ (∃ f, i = .quoteRequest l f ∨ i = .watchAdd l f ∨ i = .watchDrop l f)
      ∨ (∃ k f c n v, i = .alertSet l k f c n v) ∨ (∃ k, i = .alertClear l k)
      ∨ ∃ q, i = .requestBadOperation l q) →
    terminalAnswer l cs = some i

/-! ### Invariants -/

/-- Every step keeps the issue records as their rules say: net change is last minus close, high and low stand around
last exactly while traded is set, the volume and every price stay in range, and no symbol stands twice. -/
def Obligations.StepsKeepRecords : Prop :=
  ∀ s t : State, s.RecordsInv → step s = .next t → t.RecordsInv

/-- Every step keeps the links: row lists agree with the board map, watcher masks with the watch lists, and no row,
watch list, alert slot or flash list names a FREE issue. -/
def Obligations.StepsKeepLinks : Prop :=
  ∀ s t : State, s.LinksInv → step s = .next t → t.LinksInv

/-- Every step keeps the silence timer running exactly while the session is OPEN and the feed LIVE, the feed LIVE
while the session is CLOSED, and the queues of the Feed Receiver in their places. -/
def Obligations.StepsKeepFeed : Prop :=
  ∀ s t : State, s.FeedInv → s.QueuesInv → step s = .next t → t.FeedInv ∧ t.QueuesInv

/-- Every step keeps each Tape Channel in its ranges, its backlog the sum of the counted lengths, its flash timer
running exactly at levels 2 and 3, and nothing queued while it is idle. -/
def Obligations.StepsKeepTapes : Prop :=
  ∀ s t : State, s.TapeInv → step s = .next t → t.TapeInv

/-- Every step keeps the board lines: only shown fields dirty, nothing waiting at a DARK module, one mark for each
waiting module in the order of the mark register, and no line idle that has a transfer to choose. Every step keeps
the lamps: each flash within its count, and a blank row dark. -/
def Obligations.StepsKeepDisplays : Prop :=
  (∀ s t : State, s.BoardInv → step s = .next t → t.BoardInv)
    ∧ (∀ s t : State, s.LampInv → step s = .next t → t.LampInv)

/-- Every step keeps the terminals and the alert slots: a DISABLED terminal with nothing queued, pending or owed,
OFFLINE exactly at three timeouts in a row, no queue over 8 messages, no line idle that has a terminal to poll, every
transaction in flight to a DISABLED terminal cut (the cut mark is log 30), and only a FIRED slot owing a message. -/
def Obligations.StepsKeepTerminals : Prop :=
  ∀ s t : State, s.TermInv → s.AlertInv → step s = .next t → t.TermInv ∧ t.AlertInv

/-- Every step keeps the Upstream Port within its 8 places and 2 frames, with one place claimed exactly while an
operation is in hand (log 11), one RESTARTED notice waiting exactly while the start-up hold is set, and no frame
waiting while the line is free and the card above ready; and the parameters of SET FEED in their ranges. -/
def Obligations.StepsKeepUpstream : Prop :=
  ∀ s t : State, s.UpstreamInv → s.ControlInv → step s = .next t → t.UpstreamInv ∧ t.ControlInv

/-- Every step keeps each of the 36 counters within its 16 bits. -/
def Obligations.StepsKeepCounters : Prop :=
  ∀ s t : State, s.CountersInv → step s = .next t → t.CountersInv

/-- Every invariant holds after reset. -/
def Obligations.ResetKeepsInvariants : Prop :=
  State.reset.RecordsInv ∧ State.reset.LinksInv ∧ State.reset.FeedInv ∧ State.reset.QueuesInv ∧ State.reset.TapeInv
    ∧ State.reset.BoardInv ∧ State.reset.LampInv ∧ State.reset.TermInv ∧ State.reset.AlertInv
    ∧ State.reset.ControlInv ∧ State.reset.UpstreamInv ∧ State.reset.CountersInv
end

