-- ==== Sys2Proof/Laws/State.lean ====
section
/-! SUPPORT. One lemma per field per update: what each small update of the card leaves in each field. -/

namespace Sys2Proof.Machine

variable (s : State)

/-! One board line set. -/

@[simp] theorem State.setBoard_feed (l : LineNo) (b : BoardLine) : (s.setBoard l b).feed = s.feed := rfl
@[simp] theorem State.setBoard_issues (l : LineNo) (b : BoardLine) : (s.setBoard l b).issues = s.issues := rfl
@[simp] theorem State.setBoard_boardNotices (l : LineNo) (b : BoardLine) :
    (s.setBoard l b).boardNotices = s.boardNotices := rfl
@[simp] theorem State.setBoard_lampNotices (l : LineNo) (b : BoardLine) :
    (s.setBoard l b).lampNotices = s.lampNotices := rfl
@[simp] theorem State.setBoard_terminalNotices (l : LineNo) (b : BoardLine) :
    (s.setBoard l b).terminalNotices = s.terminalNotices := rfl
@[simp] theorem State.setBoard_alertNotices (l : LineNo) (b : BoardLine) :
    (s.setBoard l b).alertNotices = s.alertNotices := rfl
@[simp] theorem State.setBoard_tapeA (l : LineNo) (b : BoardLine) : (s.setBoard l b).tapeA = s.tapeA := rfl
@[simp] theorem State.setBoard_tapeB (l : LineNo) (b : BoardLine) : (s.setBoard l b).tapeB = s.tapeB := rfl
@[simp] theorem State.setBoard_boards (l : LineNo) (b : BoardLine) :
    (s.setBoard l b).boards = s.boards.set l b := rfl
@[simp] theorem State.setBoard_lamps (l : LineNo) (b : BoardLine) : (s.setBoard l b).lamps = s.lamps := rfl
@[simp] theorem State.setBoard_lampParams (l : LineNo) (b : BoardLine) :
    (s.setBoard l b).lampParams = s.lampParams := rfl
@[simp] theorem State.setBoard_terminals (l : LineNo) (b : BoardLine) :
    (s.setBoard l b).terminals = s.terminals := rfl
@[simp] theorem State.setBoard_termLines (l : LineNo) (b : BoardLine) :
    (s.setBoard l b).termLines = s.termLines := rfl
@[simp] theorem State.setBoard_alerts (l : LineNo) (b : BoardLine) : (s.setBoard l b).alerts = s.alerts := rfl
@[simp] theorem State.setBoard_control (l : LineNo) (b : BoardLine) :
    (s.setBoard l b).control = s.control := rfl
@[simp] theorem State.setBoard_upstream (l : LineNo) (b : BoardLine) :
    (s.setBoard l b).upstream = s.upstream := rfl
@[simp] theorem State.setBoard_unitSwitch (l : LineNo) (b : BoardLine) :
    (s.setBoard l b).unitSwitch = s.unitSwitch := rfl
@[simp] theorem State.setBoard_throughSwitch (l : LineNo) (b : BoardLine) :
    (s.setBoard l b).throughSwitch = s.throughSwitch := rfl
@[simp] theorem State.setBoard_freeCount (l : LineNo) (b : BoardLine) :
    (s.setBoard l b).freeCount = s.freeCount := rfl
@[simp] theorem State.setBoard_pending (l : LineNo) (b : BoardLine) :
    (s.setBoard l b).pending = s.pending := rfl

/-! One terminal set. -/

@[simp] theorem State.setTerm_feed (t : TermNo) (x : Terminal) : (s.setTerm t x).feed = s.feed := rfl
@[simp] theorem State.setTerm_issues (t : TermNo) (x : Terminal) : (s.setTerm t x).issues = s.issues := rfl
@[simp] theorem State.setTerm_boardNotices (t : TermNo) (x : Terminal) :
    (s.setTerm t x).boardNotices = s.boardNotices := rfl
@[simp] theorem State.setTerm_lampNotices (t : TermNo) (x : Terminal) :
    (s.setTerm t x).lampNotices = s.lampNotices := rfl
@[simp] theorem State.setTerm_terminalNotices (t : TermNo) (x : Terminal) :
    (s.setTerm t x).terminalNotices = s.terminalNotices := rfl
@[simp] theorem State.setTerm_alertNotices (t : TermNo) (x : Terminal) :
    (s.setTerm t x).alertNotices = s.alertNotices := rfl
@[simp] theorem State.setTerm_tapeA (t : TermNo) (x : Terminal) : (s.setTerm t x).tapeA = s.tapeA := rfl
@[simp] theorem State.setTerm_tapeB (t : TermNo) (x : Terminal) : (s.setTerm t x).tapeB = s.tapeB := rfl
@[simp] theorem State.setTerm_boards (t : TermNo) (x : Terminal) : (s.setTerm t x).boards = s.boards := rfl
@[simp] theorem State.setTerm_lamps (t : TermNo) (x : Terminal) : (s.setTerm t x).lamps = s.lamps := rfl
@[simp] theorem State.setTerm_lampParams (t : TermNo) (x : Terminal) :
    (s.setTerm t x).lampParams = s.lampParams := rfl
@[simp] theorem State.setTerm_terminals (t : TermNo) (x : Terminal) :
    (s.setTerm t x).terminals = s.terminals.set t x := rfl
@[simp] theorem State.setTerm_termLines (t : TermNo) (x : Terminal) :
    (s.setTerm t x).termLines = s.termLines := rfl
@[simp] theorem State.setTerm_alerts (t : TermNo) (x : Terminal) : (s.setTerm t x).alerts = s.alerts := rfl
@[simp] theorem State.setTerm_control (t : TermNo) (x : Terminal) : (s.setTerm t x).control = s.control := rfl
@[simp] theorem State.setTerm_upstream (t : TermNo) (x : Terminal) :
    (s.setTerm t x).upstream = s.upstream := rfl
@[simp] theorem State.setTerm_unitSwitch (t : TermNo) (x : Terminal) :
    (s.setTerm t x).unitSwitch = s.unitSwitch := rfl
@[simp] theorem State.setTerm_throughSwitch (t : TermNo) (x : Terminal) :
    (s.setTerm t x).throughSwitch = s.throughSwitch := rfl
@[simp] theorem State.setTerm_freeCount (t : TermNo) (x : Terminal) :
    (s.setTerm t x).freeCount = s.freeCount := rfl
@[simp] theorem State.setTerm_pending (t : TermNo) (x : Terminal) : (s.setTerm t x).pending = s.pending := rfl

/-! One terminal line set. -/

@[simp] theorem State.setTermLine_feed (l : LineNo) (x : TermLine) : (s.setTermLine l x).feed = s.feed := rfl
@[simp] theorem State.setTermLine_issues (l : LineNo) (x : TermLine) :
    (s.setTermLine l x).issues = s.issues := rfl
@[simp] theorem State.setTermLine_boardNotices (l : LineNo) (x : TermLine) :
    (s.setTermLine l x).boardNotices = s.boardNotices := rfl
@[simp] theorem State.setTermLine_lampNotices (l : LineNo) (x : TermLine) :
    (s.setTermLine l x).lampNotices = s.lampNotices := rfl
@[simp] theorem State.setTermLine_terminalNotices (l : LineNo) (x : TermLine) :
    (s.setTermLine l x).terminalNotices = s.terminalNotices := rfl
@[simp] theorem State.setTermLine_alertNotices (l : LineNo) (x : TermLine) :
    (s.setTermLine l x).alertNotices = s.alertNotices := rfl
@[simp] theorem State.setTermLine_tapeA (l : LineNo) (x : TermLine) :
    (s.setTermLine l x).tapeA = s.tapeA := rfl
@[simp] theorem State.setTermLine_tapeB (l : LineNo) (x : TermLine) :
    (s.setTermLine l x).tapeB = s.tapeB := rfl
@[simp] theorem State.setTermLine_boards (l : LineNo) (x : TermLine) :
    (s.setTermLine l x).boards = s.boards := rfl
@[simp] theorem State.setTermLine_lamps (l : LineNo) (x : TermLine) :
    (s.setTermLine l x).lamps = s.lamps := rfl
@[simp] theorem State.setTermLine_lampParams (l : LineNo) (x : TermLine) :
    (s.setTermLine l x).lampParams = s.lampParams := rfl
@[simp] theorem State.setTermLine_terminals (l : LineNo) (x : TermLine) :
    (s.setTermLine l x).terminals = s.terminals := rfl
@[simp] theorem State.setTermLine_termLines (l : LineNo) (x : TermLine) :
    (s.setTermLine l x).termLines = s.termLines.set l x := rfl
@[simp] theorem State.setTermLine_alerts (l : LineNo) (x : TermLine) :
    (s.setTermLine l x).alerts = s.alerts := rfl
@[simp] theorem State.setTermLine_control (l : LineNo) (x : TermLine) :
    (s.setTermLine l x).control = s.control := rfl
@[simp] theorem State.setTermLine_upstream (l : LineNo) (x : TermLine) :
    (s.setTermLine l x).upstream = s.upstream := rfl
@[simp] theorem State.setTermLine_unitSwitch (l : LineNo) (x : TermLine) :
    (s.setTermLine l x).unitSwitch = s.unitSwitch := rfl
@[simp] theorem State.setTermLine_throughSwitch (l : LineNo) (x : TermLine) :
    (s.setTermLine l x).throughSwitch = s.throughSwitch := rfl
@[simp] theorem State.setTermLine_freeCount (l : LineNo) (x : TermLine) :
    (s.setTermLine l x).freeCount = s.freeCount := rfl
@[simp] theorem State.setTermLine_pending (l : LineNo) (x : TermLine) :
    (s.setTermLine l x).pending = s.pending := rfl

/-! One alert slot set. -/

@[simp] theorem State.setAlert_feed (t : TermNo) (k : SlotNo) (a : AlertSlot) :
    (s.setAlert t k a).feed = s.feed := rfl
@[simp] theorem State.setAlert_issues (t : TermNo) (k : SlotNo) (a : AlertSlot) :
    (s.setAlert t k a).issues = s.issues := rfl
@[simp] theorem State.setAlert_boardNotices (t : TermNo) (k : SlotNo) (a : AlertSlot) :
    (s.setAlert t k a).boardNotices = s.boardNotices := rfl
@[simp] theorem State.setAlert_lampNotices (t : TermNo) (k : SlotNo) (a : AlertSlot) :
    (s.setAlert t k a).lampNotices = s.lampNotices := rfl
@[simp] theorem State.setAlert_terminalNotices (t : TermNo) (k : SlotNo) (a : AlertSlot) :
    (s.setAlert t k a).terminalNotices = s.terminalNotices := rfl
@[simp] theorem State.setAlert_alertNotices (t : TermNo) (k : SlotNo) (a : AlertSlot) :
    (s.setAlert t k a).alertNotices = s.alertNotices := rfl
@[simp] theorem State.setAlert_tapeA (t : TermNo) (k : SlotNo) (a : AlertSlot) :
    (s.setAlert t k a).tapeA = s.tapeA := rfl
@[simp] theorem State.setAlert_tapeB (t : TermNo) (k : SlotNo) (a : AlertSlot) :
    (s.setAlert t k a).tapeB = s.tapeB := rfl
@[simp] theorem State.setAlert_boards (t : TermNo) (k : SlotNo) (a : AlertSlot) :
    (s.setAlert t k a).boards = s.boards := rfl
@[simp] theorem State.setAlert_lamps (t : TermNo) (k : SlotNo) (a : AlertSlot) :
    (s.setAlert t k a).lamps = s.lamps := rfl
@[simp] theorem State.setAlert_lampParams (t : TermNo) (k : SlotNo) (a : AlertSlot) :
    (s.setAlert t k a).lampParams = s.lampParams := rfl
@[simp] theorem State.setAlert_terminals (t : TermNo) (k : SlotNo) (a : AlertSlot) :
    (s.setAlert t k a).terminals = s.terminals := rfl
@[simp] theorem State.setAlert_termLines (t : TermNo) (k : SlotNo) (a : AlertSlot) :
    (s.setAlert t k a).termLines = s.termLines := rfl
@[simp] theorem State.setAlert_alerts (t : TermNo) (k : SlotNo) (a : AlertSlot) :
    (s.setAlert t k a).alerts = s.alerts.set t ((s.alerts[t]).set k a) := rfl
@[simp] theorem State.setAlert_control (t : TermNo) (k : SlotNo) (a : AlertSlot) :
    (s.setAlert t k a).control = s.control := rfl
@[simp] theorem State.setAlert_upstream (t : TermNo) (k : SlotNo) (a : AlertSlot) :
    (s.setAlert t k a).upstream = s.upstream := rfl
@[simp] theorem State.setAlert_unitSwitch (t : TermNo) (k : SlotNo) (a : AlertSlot) :
    (s.setAlert t k a).unitSwitch = s.unitSwitch := rfl
@[simp] theorem State.setAlert_throughSwitch (t : TermNo) (k : SlotNo) (a : AlertSlot) :
    (s.setAlert t k a).throughSwitch = s.throughSwitch := rfl
@[simp] theorem State.setAlert_freeCount (t : TermNo) (k : SlotNo) (a : AlertSlot) :
    (s.setAlert t k a).freeCount = s.freeCount := rfl
@[simp] theorem State.setAlert_pending (t : TermNo) (k : SlotNo) (a : AlertSlot) :
    (s.setAlert t k a).pending = s.pending := rfl

/-! One row's lamps set. -/

@[simp] theorem State.setLamps_feed (r : RowNo) (x : RowLamps) : (s.setLamps r x).feed = s.feed := rfl
@[simp] theorem State.setLamps_issues (r : RowNo) (x : RowLamps) : (s.setLamps r x).issues = s.issues := rfl
@[simp] theorem State.setLamps_boardNotices (r : RowNo) (x : RowLamps) :
    (s.setLamps r x).boardNotices = s.boardNotices := rfl
@[simp] theorem State.setLamps_lampNotices (r : RowNo) (x : RowLamps) :
    (s.setLamps r x).lampNotices = s.lampNotices := rfl
@[simp] theorem State.setLamps_terminalNotices (r : RowNo) (x : RowLamps) :
    (s.setLamps r x).terminalNotices = s.terminalNotices := rfl
@[simp] theorem State.setLamps_alertNotices (r : RowNo) (x : RowLamps) :
    (s.setLamps r x).alertNotices = s.alertNotices := rfl
@[simp] theorem State.setLamps_tapeA (r : RowNo) (x : RowLamps) : (s.setLamps r x).tapeA = s.tapeA := rfl
@[simp] theorem State.setLamps_tapeB (r : RowNo) (x : RowLamps) : (s.setLamps r x).tapeB = s.tapeB := rfl
@[simp] theorem State.setLamps_boards (r : RowNo) (x : RowLamps) : (s.setLamps r x).boards = s.boards := rfl
@[simp] theorem State.setLamps_lamps (r : RowNo) (x : RowLamps) :
    (s.setLamps r x).lamps = s.lamps.set r x := rfl
@[simp] theorem State.setLamps_lampParams (r : RowNo) (x : RowLamps) :
    (s.setLamps r x).lampParams = s.lampParams := rfl
@[simp] theorem State.setLamps_terminals (r : RowNo) (x : RowLamps) :
    (s.setLamps r x).terminals = s.terminals := rfl
@[simp] theorem State.setLamps_termLines (r : RowNo) (x : RowLamps) :
    (s.setLamps r x).termLines = s.termLines := rfl
@[simp] theorem State.setLamps_alerts (r : RowNo) (x : RowLamps) : (s.setLamps r x).alerts = s.alerts := rfl
@[simp] theorem State.setLamps_control (r : RowNo) (x : RowLamps) :
    (s.setLamps r x).control = s.control := rfl
@[simp] theorem State.setLamps_upstream (r : RowNo) (x : RowLamps) :
    (s.setLamps r x).upstream = s.upstream := rfl
@[simp] theorem State.setLamps_unitSwitch (r : RowNo) (x : RowLamps) :
    (s.setLamps r x).unitSwitch = s.unitSwitch := rfl
@[simp] theorem State.setLamps_throughSwitch (r : RowNo) (x : RowLamps) :
    (s.setLamps r x).throughSwitch = s.throughSwitch := rfl
@[simp] theorem State.setLamps_freeCount (r : RowNo) (x : RowLamps) :
    (s.setLamps r x).freeCount = s.freeCount := rfl
@[simp] theorem State.setLamps_pending (r : RowNo) (x : RowLamps) :
    (s.setLamps r x).pending = s.pending := rfl

/-! The records replaced. -/

@[simp] theorem State.setRecords_feed (rs : Records) : (s.setRecords rs).feed = s.feed := rfl
@[simp] theorem State.setRecords_issues (rs : Records) :
    (s.setRecords rs).issues = { s.issues with records := rs } := rfl
@[simp] theorem State.setRecords_boardNotices (rs : Records) :
    (s.setRecords rs).boardNotices = s.boardNotices := rfl
@[simp] theorem State.setRecords_lampNotices (rs : Records) :
    (s.setRecords rs).lampNotices = s.lampNotices := rfl
@[simp] theorem State.setRecords_terminalNotices (rs : Records) :
    (s.setRecords rs).terminalNotices = s.terminalNotices := rfl
@[simp] theorem State.setRecords_alertNotices (rs : Records) :
    (s.setRecords rs).alertNotices = s.alertNotices := rfl
@[simp] theorem State.setRecords_tapeA (rs : Records) : (s.setRecords rs).tapeA = s.tapeA := rfl
@[simp] theorem State.setRecords_tapeB (rs : Records) : (s.setRecords rs).tapeB = s.tapeB := rfl
@[simp] theorem State.setRecords_boards (rs : Records) : (s.setRecords rs).boards = s.boards := rfl
@[simp] theorem State.setRecords_lamps (rs : Records) : (s.setRecords rs).lamps = s.lamps := rfl
@[simp] theorem State.setRecords_lampParams (rs : Records) :
    (s.setRecords rs).lampParams = s.lampParams := rfl
@[simp] theorem State.setRecords_terminals (rs : Records) : (s.setRecords rs).terminals = s.terminals := rfl
@[simp] theorem State.setRecords_termLines (rs : Records) : (s.setRecords rs).termLines = s.termLines := rfl
@[simp] theorem State.setRecords_alerts (rs : Records) : (s.setRecords rs).alerts = s.alerts := rfl
@[simp] theorem State.setRecords_control (rs : Records) : (s.setRecords rs).control = s.control := rfl
@[simp] theorem State.setRecords_upstream (rs : Records) : (s.setRecords rs).upstream = s.upstream := rfl
@[simp] theorem State.setRecords_unitSwitch (rs : Records) :
    (s.setRecords rs).unitSwitch = s.unitSwitch := rfl
@[simp] theorem State.setRecords_throughSwitch (rs : Records) :
    (s.setRecords rs).throughSwitch = s.throughSwitch := rfl
@[simp] theorem State.setRecords_freeCount (rs : Records) : (s.setRecords rs).freeCount = s.freeCount := rfl
@[simp] theorem State.setRecords_pending (rs : Records) : (s.setRecords rs).pending = s.pending := rfl

/-! The Feed Receiver's counters changed. -/

@[simp] theorem State.countFeed_feed (f : FeedCounts → FeedCounts) :
    (s.countFeed f).feed = { s.feed with counts := f s.feed.counts } := rfl
@[simp] theorem State.countFeed_issues (f : FeedCounts → FeedCounts) :
    (s.countFeed f).issues = s.issues := rfl
@[simp] theorem State.countFeed_boardNotices (f : FeedCounts → FeedCounts) :
    (s.countFeed f).boardNotices = s.boardNotices := rfl
@[simp] theorem State.countFeed_lampNotices (f : FeedCounts → FeedCounts) :
    (s.countFeed f).lampNotices = s.lampNotices := rfl
@[simp] theorem State.countFeed_terminalNotices (f : FeedCounts → FeedCounts) :
    (s.countFeed f).terminalNotices = s.terminalNotices := rfl
@[simp] theorem State.countFeed_alertNotices (f : FeedCounts → FeedCounts) :
    (s.countFeed f).alertNotices = s.alertNotices := rfl
@[simp] theorem State.countFeed_tapeA (f : FeedCounts → FeedCounts) : (s.countFeed f).tapeA = s.tapeA := rfl
@[simp] theorem State.countFeed_tapeB (f : FeedCounts → FeedCounts) : (s.countFeed f).tapeB = s.tapeB := rfl
@[simp] theorem State.countFeed_boards (f : FeedCounts → FeedCounts) :
    (s.countFeed f).boards = s.boards := rfl
@[simp] theorem State.countFeed_lamps (f : FeedCounts → FeedCounts) : (s.countFeed f).lamps = s.lamps := rfl
@[simp] theorem State.countFeed_lampParams (f : FeedCounts → FeedCounts) :
    (s.countFeed f).lampParams = s.lampParams := rfl
@[simp] theorem State.countFeed_terminals (f : FeedCounts → FeedCounts) :
    (s.countFeed f).terminals = s.terminals := rfl
@[simp] theorem State.countFeed_termLines (f : FeedCounts → FeedCounts) :
    (s.countFeed f).termLines = s.termLines := rfl
@[simp] theorem State.countFeed_alerts (f : FeedCounts → FeedCounts) :
    (s.countFeed f).alerts = s.alerts := rfl
@[simp] theorem State.countFeed_control (f : FeedCounts → FeedCounts) :
    (s.countFeed f).control = s.control := rfl
@[simp] theorem State.countFeed_upstream (f : FeedCounts → FeedCounts) :
    (s.countFeed f).upstream = s.upstream := rfl
@[simp] theorem State.countFeed_unitSwitch (f : FeedCounts → FeedCounts) :
    (s.countFeed f).unitSwitch = s.unitSwitch := rfl
@[simp] theorem State.countFeed_throughSwitch (f : FeedCounts → FeedCounts) :
    (s.countFeed f).throughSwitch = s.throughSwitch := rfl
@[simp] theorem State.countFeed_freeCount (f : FeedCounts → FeedCounts) :
    (s.countFeed f).freeCount = s.freeCount := rfl
@[simp] theorem State.countFeed_pending (f : FeedCounts → FeedCounts) :
    (s.countFeed f).pending = s.pending := rfl

/-! Free values drawn. -/

@[simp] theorem State.drawFree_feed (n : Nat) : (s.drawFree n).feed = s.feed := rfl
@[simp] theorem State.drawFree_issues (n : Nat) : (s.drawFree n).issues = s.issues := rfl
@[simp] theorem State.drawFree_boardNotices (n : Nat) : (s.drawFree n).boardNotices = s.boardNotices := rfl
@[simp] theorem State.drawFree_lampNotices (n : Nat) : (s.drawFree n).lampNotices = s.lampNotices := rfl
@[simp] theorem State.drawFree_terminalNotices (n : Nat) :
    (s.drawFree n).terminalNotices = s.terminalNotices := rfl
@[simp] theorem State.drawFree_alertNotices (n : Nat) : (s.drawFree n).alertNotices = s.alertNotices := rfl
@[simp] theorem State.drawFree_tapeA (n : Nat) : (s.drawFree n).tapeA = s.tapeA := rfl
@[simp] theorem State.drawFree_tapeB (n : Nat) : (s.drawFree n).tapeB = s.tapeB := rfl
@[simp] theorem State.drawFree_boards (n : Nat) : (s.drawFree n).boards = s.boards := rfl
@[simp] theorem State.drawFree_lamps (n : Nat) : (s.drawFree n).lamps = s.lamps := rfl
@[simp] theorem State.drawFree_lampParams (n : Nat) : (s.drawFree n).lampParams = s.lampParams := rfl
@[simp] theorem State.drawFree_terminals (n : Nat) : (s.drawFree n).terminals = s.terminals := rfl
@[simp] theorem State.drawFree_termLines (n : Nat) : (s.drawFree n).termLines = s.termLines := rfl
@[simp] theorem State.drawFree_alerts (n : Nat) : (s.drawFree n).alerts = s.alerts := rfl
@[simp] theorem State.drawFree_control (n : Nat) : (s.drawFree n).control = s.control := rfl
@[simp] theorem State.drawFree_upstream (n : Nat) : (s.drawFree n).upstream = s.upstream := rfl
@[simp] theorem State.drawFree_unitSwitch (n : Nat) : (s.drawFree n).unitSwitch = s.unitSwitch := rfl
@[simp] theorem State.drawFree_throughSwitch (n : Nat) : (s.drawFree n).throughSwitch = s.throughSwitch := rfl
@[simp] theorem State.drawFree_freeCount (n : Nat) : (s.drawFree n).freeCount = s.freeCount + n := rfl
@[simp] theorem State.drawFree_pending (n : Nat) : (s.drawFree n).pending = s.pending := rfl

/-! A notice raised. -/

@[simp] theorem State.raise_feed (kind : Byte) (fs : Text) : (s.raise kind fs).feed = s.feed := rfl
@[simp] theorem State.raise_issues (kind : Byte) (fs : Text) : (s.raise kind fs).issues = s.issues := rfl
@[simp] theorem State.raise_boardNotices (kind : Byte) (fs : Text) :
    (s.raise kind fs).boardNotices = s.boardNotices := rfl
@[simp] theorem State.raise_lampNotices (kind : Byte) (fs : Text) :
    (s.raise kind fs).lampNotices = s.lampNotices := rfl
@[simp] theorem State.raise_terminalNotices (kind : Byte) (fs : Text) :
    (s.raise kind fs).terminalNotices = s.terminalNotices := rfl
@[simp] theorem State.raise_alertNotices (kind : Byte) (fs : Text) :
    (s.raise kind fs).alertNotices = s.alertNotices := rfl
@[simp] theorem State.raise_tapeA (kind : Byte) (fs : Text) : (s.raise kind fs).tapeA = s.tapeA := rfl
@[simp] theorem State.raise_tapeB (kind : Byte) (fs : Text) : (s.raise kind fs).tapeB = s.tapeB := rfl
@[simp] theorem State.raise_boards (kind : Byte) (fs : Text) : (s.raise kind fs).boards = s.boards := rfl
@[simp] theorem State.raise_lamps (kind : Byte) (fs : Text) : (s.raise kind fs).lamps = s.lamps := rfl
@[simp] theorem State.raise_lampParams (kind : Byte) (fs : Text) :
    (s.raise kind fs).lampParams = s.lampParams := rfl
@[simp] theorem State.raise_terminals (kind : Byte) (fs : Text) :
    (s.raise kind fs).terminals = s.terminals := rfl
@[simp] theorem State.raise_termLines (kind : Byte) (fs : Text) :
    (s.raise kind fs).termLines = s.termLines := rfl
@[simp] theorem State.raise_alerts (kind : Byte) (fs : Text) : (s.raise kind fs).alerts = s.alerts := rfl
@[simp] theorem State.raise_control (kind : Byte) (fs : Text) : (s.raise kind fs).control = s.control := rfl
@[simp] theorem State.raise_upstream (kind : Byte) (fs : Text) :
    (s.raise kind fs).upstream = s.upstream.offer (noticeBody s.unitSwitch kind fs) := rfl
@[simp] theorem State.raise_unitSwitch (kind : Byte) (fs : Text) :
    (s.raise kind fs).unitSwitch = s.unitSwitch := rfl
@[simp] theorem State.raise_throughSwitch (kind : Byte) (fs : Text) :
    (s.raise kind fs).throughSwitch = s.throughSwitch := rfl
@[simp] theorem State.raise_freeCount (kind : Byte) (fs : Text) :
    (s.raise kind fs).freeCount = s.freeCount := rfl
@[simp] theorem State.raise_pending (kind : Byte) (fs : Text) : (s.raise kind fs).pending = s.pending := rfl

/-! Change notices delivered. -/

@[simp] theorem State.deliver_feed (ns : List ChangeNotice) : (s.deliver ns).feed = s.feed := rfl
@[simp] theorem State.deliver_issues (ns : List ChangeNotice) : (s.deliver ns).issues = s.issues := rfl
@[simp] theorem State.deliver_boardNotices (ns : List ChangeNotice) :
    (s.deliver ns).boardNotices = s.boardNotices ++ ns := rfl
@[simp] theorem State.deliver_lampNotices (ns : List ChangeNotice) :
    (s.deliver ns).lampNotices = s.lampNotices ++ ns := rfl
@[simp] theorem State.deliver_terminalNotices (ns : List ChangeNotice) :
    (s.deliver ns).terminalNotices = s.terminalNotices ++ ns := rfl
@[simp] theorem State.deliver_alertNotices (ns : List ChangeNotice) :
    (s.deliver ns).alertNotices = s.alertNotices ++ ns := rfl
@[simp] theorem State.deliver_tapeA (ns : List ChangeNotice) : (s.deliver ns).tapeA = s.tapeA := rfl
@[simp] theorem State.deliver_tapeB (ns : List ChangeNotice) : (s.deliver ns).tapeB = s.tapeB := rfl
@[simp] theorem State.deliver_boards (ns : List ChangeNotice) : (s.deliver ns).boards = s.boards := rfl
@[simp] theorem State.deliver_lamps (ns : List ChangeNotice) : (s.deliver ns).lamps = s.lamps := rfl
@[simp] theorem State.deliver_lampParams (ns : List ChangeNotice) :
    (s.deliver ns).lampParams = s.lampParams := rfl
@[simp] theorem State.deliver_terminals (ns : List ChangeNotice) :
    (s.deliver ns).terminals = s.terminals := rfl
@[simp] theorem State.deliver_termLines (ns : List ChangeNotice) :
    (s.deliver ns).termLines = s.termLines := rfl
@[simp] theorem State.deliver_alerts (ns : List ChangeNotice) : (s.deliver ns).alerts = s.alerts := rfl
@[simp] theorem State.deliver_control (ns : List ChangeNotice) : (s.deliver ns).control = s.control := rfl
@[simp] theorem State.deliver_upstream (ns : List ChangeNotice) : (s.deliver ns).upstream = s.upstream := rfl
@[simp] theorem State.deliver_unitSwitch (ns : List ChangeNotice) :
    (s.deliver ns).unitSwitch = s.unitSwitch := rfl
@[simp] theorem State.deliver_throughSwitch (ns : List ChangeNotice) :
    (s.deliver ns).throughSwitch = s.throughSwitch := rfl
@[simp] theorem State.deliver_freeCount (ns : List ChangeNotice) :
    (s.deliver ns).freeCount = s.freeCount := rfl
@[simp] theorem State.deliver_pending (ns : List ChangeNotice) : (s.deliver ns).pending = s.pending := rfl

/-! The head of the hand-over queue taken. -/

@[simp] theorem State.dropHead_feed :
    (s.dropHead).feed = { s.feed with handOver := s.feed.handOver.tail } := rfl
@[simp] theorem State.dropHead_issues : (s.dropHead).issues = s.issues := rfl
@[simp] theorem State.dropHead_boardNotices : (s.dropHead).boardNotices = s.boardNotices := rfl
@[simp] theorem State.dropHead_lampNotices : (s.dropHead).lampNotices = s.lampNotices := rfl
@[simp] theorem State.dropHead_terminalNotices : (s.dropHead).terminalNotices = s.terminalNotices := rfl
@[simp] theorem State.dropHead_alertNotices : (s.dropHead).alertNotices = s.alertNotices := rfl
@[simp] theorem State.dropHead_tapeA : (s.dropHead).tapeA = s.tapeA := rfl
@[simp] theorem State.dropHead_tapeB : (s.dropHead).tapeB = s.tapeB := rfl
@[simp] theorem State.dropHead_boards : (s.dropHead).boards = s.boards := rfl
@[simp] theorem State.dropHead_lamps : (s.dropHead).lamps = s.lamps := rfl
@[simp] theorem State.dropHead_lampParams : (s.dropHead).lampParams = s.lampParams := rfl
@[simp] theorem State.dropHead_terminals : (s.dropHead).terminals = s.terminals := rfl
@[simp] theorem State.dropHead_termLines : (s.dropHead).termLines = s.termLines := rfl
@[simp] theorem State.dropHead_alerts : (s.dropHead).alerts = s.alerts := rfl
@[simp] theorem State.dropHead_control : (s.dropHead).control = s.control := rfl
@[simp] theorem State.dropHead_upstream : (s.dropHead).upstream = s.upstream := rfl
@[simp] theorem State.dropHead_unitSwitch : (s.dropHead).unitSwitch = s.unitSwitch := rfl
@[simp] theorem State.dropHead_throughSwitch : (s.dropHead).throughSwitch = s.throughSwitch := rfl
@[simp] theorem State.dropHead_freeCount : (s.dropHead).freeCount = s.freeCount := rfl
@[simp] theorem State.dropHead_pending : (s.dropHead).pending = s.pending := rfl

/-! An addressed message taken into hand, its reply place claimed. -/

@[simp] theorem State.claim_feed (op : Operation) : (s.claim op).feed = s.feed := rfl
@[simp] theorem State.claim_issues (op : Operation) : (s.claim op).issues = s.issues := rfl
@[simp] theorem State.claim_boardNotices (op : Operation) : (s.claim op).boardNotices = s.boardNotices := rfl
@[simp] theorem State.claim_lampNotices (op : Operation) : (s.claim op).lampNotices = s.lampNotices := rfl
@[simp] theorem State.claim_terminalNotices (op : Operation) :
    (s.claim op).terminalNotices = s.terminalNotices := rfl
@[simp] theorem State.claim_alertNotices (op : Operation) : (s.claim op).alertNotices = s.alertNotices := rfl
@[simp] theorem State.claim_tapeA (op : Operation) : (s.claim op).tapeA = s.tapeA := rfl
@[simp] theorem State.claim_tapeB (op : Operation) : (s.claim op).tapeB = s.tapeB := rfl
@[simp] theorem State.claim_boards (op : Operation) : (s.claim op).boards = s.boards := rfl
@[simp] theorem State.claim_lamps (op : Operation) : (s.claim op).lamps = s.lamps := rfl
@[simp] theorem State.claim_lampParams (op : Operation) : (s.claim op).lampParams = s.lampParams := rfl
@[simp] theorem State.claim_terminals (op : Operation) : (s.claim op).terminals = s.terminals := rfl
@[simp] theorem State.claim_termLines (op : Operation) : (s.claim op).termLines = s.termLines := rfl
@[simp] theorem State.claim_alerts (op : Operation) : (s.claim op).alerts = s.alerts := rfl
@[simp] theorem State.claim_control (op : Operation) :
    (s.claim op).control = { s.control with inHand := some op } := rfl
@[simp] theorem State.claim_upstream (op : Operation) :
    (s.claim op).upstream = { s.upstream with claims := s.upstream.claims + 1 } := rfl
@[simp] theorem State.claim_unitSwitch (op : Operation) : (s.claim op).unitSwitch = s.unitSwitch := rfl
@[simp] theorem State.claim_throughSwitch (op : Operation) :
    (s.claim op).throughSwitch = s.throughSwitch := rfl
@[simp] theorem State.claim_freeCount (op : Operation) : (s.claim op).freeCount = s.freeCount := rfl
@[simp] theorem State.claim_pending (op : Operation) : (s.claim op).pending = s.pending := rfl

/-! The operation in hand finished. -/

@[simp] theorem State.finished_feed : (s.finished).feed = s.feed := rfl
@[simp] theorem State.finished_issues : (s.finished).issues = s.issues := rfl
@[simp] theorem State.finished_boardNotices : (s.finished).boardNotices = s.boardNotices := rfl
@[simp] theorem State.finished_lampNotices : (s.finished).lampNotices = s.lampNotices := rfl
@[simp] theorem State.finished_terminalNotices : (s.finished).terminalNotices = s.terminalNotices := rfl
@[simp] theorem State.finished_alertNotices : (s.finished).alertNotices = s.alertNotices := rfl
@[simp] theorem State.finished_tapeA : (s.finished).tapeA = s.tapeA := rfl
@[simp] theorem State.finished_tapeB : (s.finished).tapeB = s.tapeB := rfl
@[simp] theorem State.finished_boards : (s.finished).boards = s.boards := rfl
@[simp] theorem State.finished_lamps : (s.finished).lamps = s.lamps := rfl
@[simp] theorem State.finished_lampParams : (s.finished).lampParams = s.lampParams := rfl
@[simp] theorem State.finished_terminals : (s.finished).terminals = s.terminals := rfl
@[simp] theorem State.finished_termLines : (s.finished).termLines = s.termLines := rfl
@[simp] theorem State.finished_alerts : (s.finished).alerts = s.alerts := rfl
@[simp] theorem State.finished_control : (s.finished).control = { s.control with inHand := none } := rfl
@[simp] theorem State.finished_upstream : (s.finished).upstream = s.upstream := rfl
@[simp] theorem State.finished_unitSwitch : (s.finished).unitSwitch = s.unitSwitch := rfl
@[simp] theorem State.finished_throughSwitch : (s.finished).throughSwitch = s.throughSwitch := rfl
@[simp] theorem State.finished_freeCount : (s.finished).freeCount = s.freeCount := rfl
@[simp] theorem State.finished_pending : (s.finished).pending = s.pending := rfl

/-! The message of a turn taken. -/

@[simp] theorem State.taken_feed (rest : List Handed) :
    (s.taken rest).feed = { s.feed with handOver := rest } := rfl
@[simp] theorem State.taken_issues (rest : List Handed) : (s.taken rest).issues = s.issues := rfl
@[simp] theorem State.taken_boardNotices (rest : List Handed) :
    (s.taken rest).boardNotices = s.boardNotices := rfl
@[simp] theorem State.taken_lampNotices (rest : List Handed) :
    (s.taken rest).lampNotices = s.lampNotices := rfl
@[simp] theorem State.taken_terminalNotices (rest : List Handed) :
    (s.taken rest).terminalNotices = s.terminalNotices := rfl
@[simp] theorem State.taken_alertNotices (rest : List Handed) :
    (s.taken rest).alertNotices = s.alertNotices := rfl
@[simp] theorem State.taken_tapeA (rest : List Handed) : (s.taken rest).tapeA = s.tapeA := rfl
@[simp] theorem State.taken_tapeB (rest : List Handed) : (s.taken rest).tapeB = s.tapeB := rfl
@[simp] theorem State.taken_boards (rest : List Handed) : (s.taken rest).boards = s.boards := rfl
@[simp] theorem State.taken_lamps (rest : List Handed) : (s.taken rest).lamps = s.lamps := rfl
@[simp] theorem State.taken_lampParams (rest : List Handed) : (s.taken rest).lampParams = s.lampParams := rfl
@[simp] theorem State.taken_terminals (rest : List Handed) : (s.taken rest).terminals = s.terminals := rfl
@[simp] theorem State.taken_termLines (rest : List Handed) : (s.taken rest).termLines = s.termLines := rfl
@[simp] theorem State.taken_alerts (rest : List Handed) : (s.taken rest).alerts = s.alerts := rfl
@[simp] theorem State.taken_control (rest : List Handed) :
    (s.taken rest).control = { s.control with inHand := none } := rfl
@[simp] theorem State.taken_upstream (rest : List Handed) : (s.taken rest).upstream = s.upstream := rfl
@[simp] theorem State.taken_unitSwitch (rest : List Handed) : (s.taken rest).unitSwitch = s.unitSwitch := rfl
@[simp] theorem State.taken_throughSwitch (rest : List Handed) :
    (s.taken rest).throughSwitch = s.throughSwitch := rfl
@[simp] theorem State.taken_freeCount (rest : List Handed) : (s.taken rest).freeCount = s.freeCount := rfl
@[simp] theorem State.taken_pending (rest : List Handed) : (s.taken rest).pending = s.pending := rfl

/-! A control message discarded. -/

@[simp] theorem State.discardControl_feed : (s.discardControl).feed = s.feed := rfl
@[simp] theorem State.discardControl_issues : (s.discardControl).issues = s.issues := rfl
@[simp] theorem State.discardControl_boardNotices : (s.discardControl).boardNotices = s.boardNotices := rfl
@[simp] theorem State.discardControl_lampNotices : (s.discardControl).lampNotices = s.lampNotices := rfl
@[simp] theorem State.discardControl_terminalNotices :
    (s.discardControl).terminalNotices = s.terminalNotices := rfl
@[simp] theorem State.discardControl_alertNotices : (s.discardControl).alertNotices = s.alertNotices := rfl
@[simp] theorem State.discardControl_tapeA : (s.discardControl).tapeA = s.tapeA := rfl
@[simp] theorem State.discardControl_tapeB : (s.discardControl).tapeB = s.tapeB := rfl
@[simp] theorem State.discardControl_boards : (s.discardControl).boards = s.boards := rfl
@[simp] theorem State.discardControl_lamps : (s.discardControl).lamps = s.lamps := rfl
@[simp] theorem State.discardControl_lampParams : (s.discardControl).lampParams = s.lampParams := rfl
@[simp] theorem State.discardControl_terminals : (s.discardControl).terminals = s.terminals := rfl
@[simp] theorem State.discardControl_termLines : (s.discardControl).termLines = s.termLines := rfl
@[simp] theorem State.discardControl_alerts : (s.discardControl).alerts = s.alerts := rfl
@[simp] theorem State.discardControl_control :
    (s.discardControl).control = { s.control with discards := satInc s.control.discards } := rfl
@[simp] theorem State.discardControl_upstream : (s.discardControl).upstream = s.upstream := rfl
@[simp] theorem State.discardControl_unitSwitch : (s.discardControl).unitSwitch = s.unitSwitch := rfl
@[simp] theorem State.discardControl_throughSwitch : (s.discardControl).throughSwitch = s.throughSwitch := rfl
@[simp] theorem State.discardControl_freeCount : (s.discardControl).freeCount = s.freeCount := rfl
@[simp] theorem State.discardControl_pending : (s.discardControl).pending = s.pending := rfl

/-! A correction mismatched. -/

@[simp] theorem State.mismatch_feed : (s.mismatch).feed = s.feed := rfl
@[simp] theorem State.mismatch_issues :
    (s.mismatch).issues = { s.issues with mismatches := satInc s.issues.mismatches } := rfl
@[simp] theorem State.mismatch_boardNotices : (s.mismatch).boardNotices = s.boardNotices := rfl
@[simp] theorem State.mismatch_lampNotices : (s.mismatch).lampNotices = s.lampNotices := rfl
@[simp] theorem State.mismatch_terminalNotices : (s.mismatch).terminalNotices = s.terminalNotices := rfl
@[simp] theorem State.mismatch_alertNotices : (s.mismatch).alertNotices = s.alertNotices := rfl
@[simp] theorem State.mismatch_tapeA : (s.mismatch).tapeA = s.tapeA := rfl
@[simp] theorem State.mismatch_tapeB : (s.mismatch).tapeB = s.tapeB := rfl
@[simp] theorem State.mismatch_boards : (s.mismatch).boards = s.boards := rfl
@[simp] theorem State.mismatch_lamps : (s.mismatch).lamps = s.lamps := rfl
@[simp] theorem State.mismatch_lampParams : (s.mismatch).lampParams = s.lampParams := rfl
@[simp] theorem State.mismatch_terminals : (s.mismatch).terminals = s.terminals := rfl
@[simp] theorem State.mismatch_termLines : (s.mismatch).termLines = s.termLines := rfl
@[simp] theorem State.mismatch_alerts : (s.mismatch).alerts = s.alerts := rfl
@[simp] theorem State.mismatch_control : (s.mismatch).control = s.control := rfl
@[simp] theorem State.mismatch_upstream : (s.mismatch).upstream = s.upstream := rfl
@[simp] theorem State.mismatch_unitSwitch : (s.mismatch).unitSwitch = s.unitSwitch := rfl
@[simp] theorem State.mismatch_throughSwitch : (s.mismatch).throughSwitch = s.throughSwitch := rfl
@[simp] theorem State.mismatch_freeCount : (s.mismatch).freeCount = s.freeCount := rfl
@[simp] theorem State.mismatch_pending : (s.mismatch).pending = s.pending := rfl

/-! A channel set, and an entry handed to a channel. -/

@[simp] theorem State.setTape_feed (ch : Channel) (c : TapeChannel) : (s.setTape ch c).feed = s.feed := by cases ch <;> rfl
@[simp] theorem State.setTape_issues (ch : Channel) (c : TapeChannel) : (s.setTape ch c).issues = s.issues := by cases ch <;> rfl
@[simp] theorem State.setTape_boardNotices (ch : Channel) (c : TapeChannel) : (s.setTape ch c).boardNotices = s.boardNotices := by cases ch <;> rfl
@[simp] theorem State.setTape_lampNotices (ch : Channel) (c : TapeChannel) : (s.setTape ch c).lampNotices = s.lampNotices := by cases ch <;> rfl
@[simp] theorem State.setTape_terminalNotices (ch : Channel) (c : TapeChannel) : (s.setTape ch c).terminalNotices = s.terminalNotices := by cases ch <;> rfl
@[simp] theorem State.setTape_alertNotices (ch : Channel) (c : TapeChannel) : (s.setTape ch c).alertNotices = s.alertNotices := by cases ch <;> rfl
@[simp] theorem State.setTape_boards (ch : Channel) (c : TapeChannel) : (s.setTape ch c).boards = s.boards := by cases ch <;> rfl
@[simp] theorem State.setTape_lamps (ch : Channel) (c : TapeChannel) : (s.setTape ch c).lamps = s.lamps := by cases ch <;> rfl
@[simp] theorem State.setTape_lampParams (ch : Channel) (c : TapeChannel) : (s.setTape ch c).lampParams = s.lampParams := by cases ch <;> rfl
@[simp] theorem State.setTape_terminals (ch : Channel) (c : TapeChannel) : (s.setTape ch c).terminals = s.terminals := by cases ch <;> rfl
@[simp] theorem State.setTape_termLines (ch : Channel) (c : TapeChannel) : (s.setTape ch c).termLines = s.termLines := by cases ch <;> rfl
@[simp] theorem State.setTape_alerts (ch : Channel) (c : TapeChannel) : (s.setTape ch c).alerts = s.alerts := by cases ch <;> rfl
@[simp] theorem State.setTape_control (ch : Channel) (c : TapeChannel) : (s.setTape ch c).control = s.control := by cases ch <;> rfl
@[simp] theorem State.setTape_upstream (ch : Channel) (c : TapeChannel) : (s.setTape ch c).upstream = s.upstream := by cases ch <;> rfl
@[simp] theorem State.setTape_unitSwitch (ch : Channel) (c : TapeChannel) : (s.setTape ch c).unitSwitch = s.unitSwitch := by cases ch <;> rfl
@[simp] theorem State.setTape_throughSwitch (ch : Channel) (c : TapeChannel) : (s.setTape ch c).throughSwitch = s.throughSwitch := by cases ch <;> rfl
@[simp] theorem State.setTape_freeCount (ch : Channel) (c : TapeChannel) : (s.setTape ch c).freeCount = s.freeCount := by cases ch <;> rfl
@[simp] theorem State.setTape_pending (ch : Channel) (c : TapeChannel) : (s.setTape ch c).pending = s.pending := by cases ch <;> rfl

@[simp] theorem State.handTape_feed (ch : Channel) (i : TapeItem) : (s.handTape ch i).feed = s.feed := by cases ch <;> rfl
@[simp] theorem State.handTape_issues (ch : Channel) (i : TapeItem) : (s.handTape ch i).issues = s.issues := by cases ch <;> rfl
@[simp] theorem State.handTape_boardNotices (ch : Channel) (i : TapeItem) : (s.handTape ch i).boardNotices = s.boardNotices := by cases ch <;> rfl
@[simp] theorem State.handTape_lampNotices (ch : Channel) (i : TapeItem) : (s.handTape ch i).lampNotices = s.lampNotices := by cases ch <;> rfl
@[simp] theorem State.handTape_terminalNotices (ch : Channel) (i : TapeItem) : (s.handTape ch i).terminalNotices = s.terminalNotices := by cases ch <;> rfl
@[simp] theorem State.handTape_alertNotices (ch : Channel) (i : TapeItem) : (s.handTape ch i).alertNotices = s.alertNotices := by cases ch <;> rfl
@[simp] theorem State.handTape_boards (ch : Channel) (i : TapeItem) : (s.handTape ch i).boards = s.boards := by cases ch <;> rfl
@[simp] theorem State.handTape_lamps (ch : Channel) (i : TapeItem) : (s.handTape ch i).lamps = s.lamps := by cases ch <;> rfl
@[simp] theorem State.handTape_lampParams (ch : Channel) (i : TapeItem) : (s.handTape ch i).lampParams = s.lampParams := by cases ch <;> rfl
@[simp] theorem State.handTape_terminals (ch : Channel) (i : TapeItem) : (s.handTape ch i).terminals = s.terminals := by cases ch <;> rfl
@[simp] theorem State.handTape_termLines (ch : Channel) (i : TapeItem) : (s.handTape ch i).termLines = s.termLines := by cases ch <;> rfl
@[simp] theorem State.handTape_alerts (ch : Channel) (i : TapeItem) : (s.handTape ch i).alerts = s.alerts := by cases ch <;> rfl
@[simp] theorem State.handTape_control (ch : Channel) (i : TapeItem) : (s.handTape ch i).control = s.control := by cases ch <;> rfl
@[simp] theorem State.handTape_upstream (ch : Channel) (i : TapeItem) : (s.handTape ch i).upstream = s.upstream := by cases ch <;> rfl
@[simp] theorem State.handTape_unitSwitch (ch : Channel) (i : TapeItem) : (s.handTape ch i).unitSwitch = s.unitSwitch := by cases ch <;> rfl
@[simp] theorem State.handTape_throughSwitch (ch : Channel) (i : TapeItem) : (s.handTape ch i).throughSwitch = s.throughSwitch := by cases ch <;> rfl
@[simp] theorem State.handTape_freeCount (ch : Channel) (i : TapeItem) : (s.handTape ch i).freeCount = s.freeCount := by cases ch <;> rfl
@[simp] theorem State.handTape_pending (ch : Channel) (i : TapeItem) : (s.handTape ch i).pending = s.pending := by cases ch <;> rfl

@[simp] theorem State.tape_setTape_self (ch : Channel) (c : TapeChannel) : (s.setTape ch c).tape ch = c := by
  cases ch <;> rfl

theorem State.tape_setTape_ne {ch d : Channel} (c : TapeChannel) (h : d ≠ ch) : (s.setTape ch c).tape d = s.tape d := by
  cases ch <;> cases d <;> first | rfl | exact absurd rfl h

end Sys2Proof.Machine
end

