-- ==== Sys2Proof/Laws/Ops.lean ====
section
/-! SUPPORT. What the small shared operations do: counters, vectors, field sets, rows and terminals, and the table
of issue records. -/

namespace Sys2Proof.Machine

/-! ### Counters and vectors -/

theorem satInc_le (n : Nat) : satInc n ≤ Config.counterMax := Nat.min_le_right _ _

theorem satInc_eq (n : Nat) : satInc n = min (n + 1) 65535 := rfl

theorem vupd_self {α : Type} {n : Nat} (v : Vector α n) (i : Fin n) (f : α → α) :
    (vupd v i f)[i] = f v[i] := by simp [vupd]

theorem vupd_ne {α : Type} {n : Nat} (v : Vector α n) {i j : Fin n} (f : α → α) (h : j ≠ i) :
    (vupd v i f)[j] = v[j] := by
  simp only [vupd, Fin.getElem_fin]
  exact Vector.getElem_set_ne _ _ fun e => h (Fin.ext e.symm)

/-! ### Field sets -/

theorem FieldSet.isEmpty_iff (x : FieldSet) : x.isEmpty = true ↔ x = .empty := by simp [FieldSet.isEmpty]

@[simp] theorem FieldSet.union_empty (x : FieldSet) : x.union .empty = x := by simp [FieldSet.union, FieldSet.empty]

@[simp] theorem FieldSet.union_union_self (x y : FieldSet) : (x.union y).union y = x.union y := by
  simp [FieldSet.union]

@[simp] theorem FieldSet.inter_self (x : FieldSet) : x.inter x = x := by simp [FieldSet.inter]

@[simp] theorem FieldSet.ofByte_toByte (x : FieldSet) : FieldSet.ofByte x.toByte = x := by
  obtain ⟨a, b, c, d, e, f, g⟩ := x
  cases a <;> cases b <;> cases c <;> cases d <;> cases e <;> cases f <;> cases g <;> rfl

/-! ### Rows and terminals -/

@[simp] theorem rowLine_rowOf (l : LineNo) (m : ModuleNo) : rowLine (rowOf l m) = l := by
  apply Fin.ext; simp only [rowLine, rowOf]; omega

@[simp] theorem rowModule_rowOf (l : LineNo) (m : ModuleNo) : rowModule (rowOf l m) = m := by
  apply Fin.ext; simp only [rowModule, rowOf]; omega

@[simp] theorem rowOf_line_module (r : RowNo) : rowOf (rowLine r) (rowModule r) = r := by
  apply Fin.ext; simp only [rowLine, rowModule, rowOf]; omega

@[simp] theorem termLine_termOf (l : LineNo) (d : DropNo) : termLine (termOf l d) = l := by
  apply Fin.ext; simp only [termLine, termOf]; omega

@[simp] theorem termDrop_termOf (l : LineNo) (d : DropNo) : termDrop (termOf l d) = d := by
  apply Fin.ext; simp only [termDrop, termOf]; omega

@[simp] theorem termOf_line_drop (t : TermNo) : termOf (termLine t) (termDrop t) = t := by
  apply Fin.ext; simp only [termLine, termDrop, termOf]; omega

/-! ### The issue records -/

theorem findRecord_mem {rs : Records} {n : Nat} {r : IssueRecord} (h : findRecord rs n = some r) : (n, r) ∈ rs := by
  induction rs with
  | nil => cases h
  | cons p t ih =>
    rw [findRecord] at h
    split at h
    · obtain rfl : p.2 = r := by simpa using h
      rename_i e
      exact List.mem_cons.2 (.inl (by rw [← e]))
    · exact List.mem_cons_of_mem _ (ih h)

theorem findRecord_none {rs : Records} {n : Nat} : findRecord rs n = none ↔ ∀ p ∈ rs, p.1 ≠ n := by
  induction rs with
  | nil => simp [findRecord]
  | cons p t ih => rw [findRecord]; split <;> simp_all

/-- Numbers strictly rising leave one record for a number. -/
theorem findRecord_of_mem {rs : Records} {n : Nat} {r : IssueRecord} (ok : recordsOk rs = true) (h : (n, r) ∈ rs) :
    findRecord rs n = some r := by
  simp only [recordsOk, Bool.and_eq_true, decide_eq_true_eq] at ok
  obtain ⟨hp, -⟩ := ok
  induction rs with
  | nil => cases h
  | cons p t ih =>
    simp only [List.map_cons, List.pairwise_cons, List.mem_map, forall_exists_index, and_imp] at hp
    rw [findRecord]
    rcases List.mem_cons.1 h with rfl | h
    · simp
    · have := hp.1 n _ h rfl
      rw [if_neg (by omega), ih h hp.2]

@[simp] theorem findRecord_putRecord_self (rs : Records) (n : Nat) (r : IssueRecord) :
    findRecord (putRecord rs n r) n = some r := by
  induction rs with
  | nil => simp [putRecord, findRecord]
  | cons p t ih =>
    rw [putRecord]
    split
    · simp [findRecord]
    · split
      · simp [findRecord]
      · rw [findRecord, if_neg (fun e => by simp_all), ih]

theorem findRecord_putRecord_ne {rs : Records} {n m : Nat} (r : IssueRecord) (h : m ≠ n) :
    findRecord (putRecord rs n r) m = findRecord rs m := by
  induction rs with
  | nil => simp [putRecord, findRecord, h.symm]
  | cons p t ih =>
    rw [putRecord]
    split
    · rw [findRecord, if_neg h.symm]
    · split
      · rename_i e; subst e; rw [findRecord, if_neg h.symm, findRecord, if_neg h.symm]
      · rw [findRecord, findRecord, ih]

theorem mem_putRecord {rs : Records} {n : Nat} {r : IssueRecord} {p : Nat × IssueRecord}
    (h : p ∈ putRecord rs n r) : p = (n, r) ∨ p ∈ rs := by
  induction rs with
  | nil => simpa [putRecord] using h
  | cons q t ih =>
    rw [putRecord] at h
    split at h
    · simpa using h
    · split at h
      · simp only [List.mem_cons] at h ⊢; tauto
      · rcases List.mem_cons.1 h with rfl | h
        · simp
        · rcases ih h with h | h <;> simp [h]

/-- A record stored keeps the form of the records. -/
theorem recordsOk_putRecord {rs : Records} {n : Nat} (r : IssueRecord) (ok : recordsOk rs = true) (h1 : 1 ≤ n)
    (h2 : n ≤ Config.maxIssue) : recordsOk (putRecord rs n r) = true := by
  simp only [recordsOk, Bool.and_eq_true, decide_eq_true_eq, List.all_eq_true] at ok ⊢
  obtain ⟨hp, hr⟩ := ok
  refine ⟨?_, fun p hm => ?_⟩
  · clear hr
    induction rs with
    | nil => simp [putRecord]
    | cons q t ih =>
      simp only [List.map_cons, List.pairwise_cons, List.mem_map, forall_exists_index, and_imp] at hp
      rw [putRecord]
      split
      · simp only [List.map_cons, List.pairwise_cons, List.mem_cons, List.mem_map]
        rename_i hn
        exact ⟨fun m hm => by
          rcases hm with rfl | ⟨p, hp', rfl⟩
          · exact hn
          · exact lt_trans hn (hp.1 _ p hp' rfl), fun m ⟨p, hp', e⟩ => hp.1 m p hp' e, hp.2⟩
      · split
        · rename_i e
          subst e
          simp only [List.map_cons, List.pairwise_cons, List.mem_map]
          exact ⟨fun m ⟨p, hp', e⟩ => hp.1 m p hp' e, hp.2⟩
        · simp only [List.map_cons, List.pairwise_cons, List.mem_map]
          refine ⟨fun m ⟨p, hp', e⟩ => ?_, ih hp.2⟩
          rcases mem_putRecord hp' with rfl | hp'
          · simp only at e; omega
          · exact hp.1 m p hp' e
  · rcases mem_putRecord hm with rfl | hm
    · exact ⟨h1, h2⟩
    · exact hr p hm

theorem mem_freeRecord {rs : Records} {n : Nat} {p : Nat × IssueRecord} :
    p ∈ freeRecord rs n ↔ p ∈ rs ∧ p.1 ≠ n := by
  induction rs with
  | nil => simp [freeRecord]
  | cons q t ih => rw [freeRecord]; split <;> simp only [List.mem_cons, ih] <;> aesop

theorem freeRecord_sublist (rs : Records) (n : Nat) : (freeRecord rs n).Sublist rs := by
  induction rs with
  | nil => exact .slnil
  | cons q t ih => rw [freeRecord]; split <;> [exact ih.cons q; exact ih.cons_cons q]

/-- A record set FREE keeps the form of the records. -/
theorem recordsOk_freeRecord {rs : Records} (n : Nat) (ok : recordsOk rs = true) : recordsOk (freeRecord rs n) = true := by
  simp only [recordsOk, Bool.and_eq_true, decide_eq_true_eq, List.all_eq_true] at ok ⊢
  exact ⟨ok.1.sublist ((freeRecord_sublist rs n).map _), fun p h => ok.2 p (mem_freeRecord.1 h).1⟩

@[simp] theorem findRecord_freeRecord_self (rs : Records) (n : Nat) : findRecord (freeRecord rs n) n = none :=
  findRecord_none.2 fun _ h => (mem_freeRecord.1 h).2

theorem findRecord_freeRecord_ne {rs : Records} {n m : Nat} (h : m ≠ n) :
    findRecord (freeRecord rs n) m = findRecord rs m := by
  induction rs with
  | nil => rfl
  | cons q t ih =>
    rw [freeRecord]
    split
    · rename_i e; rw [findRecord, if_neg (by omega), ih]
    · rw [findRecord, findRecord, ih]

@[simp] theorem findRecord_mapRecords (f : Nat → IssueRecord → IssueRecord) (rs : Records) (n : Nat) :
    findRecord (mapRecords f rs) n = (findRecord rs n).map (f n) := by
  induction rs with
  | nil => rfl
  | cons q t ih =>
    rw [mapRecords, List.map_cons, findRecord, findRecord]
    split
    · rename_i e; simp only [← e, Option.map_some]
    · exact ih

/-- Every record changed keeps the form of the records. -/
@[simp] theorem recordsOk_mapRecords (f : Nat → IssueRecord → IssueRecord) (rs : Records) :
    recordsOk (mapRecords f rs) = recordsOk rs := by
  simp [recordsOk, mapRecords, List.map_map, Function.comp_def, List.all_map]

/-- A number that names a record stands in the issue range. -/
theorem listed_eq_some {s : State} {n : Nat} {r : IssueRecord} :
    listed s n = some r ↔ n ≠ 0 ∧ n ≤ Config.maxIssue ∧ findRecord s.issues.records n = some r := by
  rw [listed]
  split <;> constructor <;> intro h
  · cases h
  · omega
  · exact ⟨by omega, by omega, h⟩
  · exact h.2.2

end Sys2Proof.Machine
end

