-- ==== Sys2Proof/Laws/Upstream.lean ====
section
/-! SUPPORT. What the Upstream Port's shared operations do: the arbiter, an offered notice, a reply that fills its
claim, and several notices raised one after another. -/

namespace Sys2Proof.Machine

/-- The arbiter leaves a busy line, and a line whose card above is not ready, as it is. -/
theorem UpstreamPort.arbitrate_waits {u : UpstreamPort} (h : u.transmitting.isSome = true ∨ u.readyAbove = false) :
    u.arbitrate = u := by
  rw [arbitrate, if_pos]
  rcases h with h | h <;> simp [h]

/-- The arbiter on a free line with the card above ready: nothing to send, the head of the one store that holds a
frame, or with both the head of the store not served last. -/
theorem UpstreamPort.arbitrate_serves {u : UpstreamPort} (ht : u.transmitting = none) (hr : u.readyAbove = true) :
    (u.replies = [] ∧ u.buffer = [] ∧ u.arbitrate = u)
      ∨ (∃ r rs, u.replies = r :: rs ∧ (u.buffer = [] ∨ u.lastServed = .passed) ∧ u.arbitrate = u.beginOwn r rs)
      ∨ ∃ f fs, u.buffer = f :: fs ∧ (u.replies = [] ∨ u.lastServed = .own) ∧ u.arbitrate = u.beginPassed f fs := by
  have hg : (u.transmitting.isSome || !u.readyAbove) = false := by simp [ht, hr]
  rcases hp : u.replies with _ | ⟨r, rs⟩ <;> rcases hb : u.buffer with _ | ⟨f, fs⟩
  · exact .inl ⟨rfl, rfl, by rw [arbitrate, hg]; simp [hp, hb]⟩
  · exact .inr (.inr ⟨f, fs, rfl, .inl rfl, by rw [arbitrate, hg]; simp [hp, hb]⟩)
  · exact .inr (.inl ⟨r, rs, rfl, .inl rfl, by rw [arbitrate, hg]; simp [hp, hb]⟩)
  · cases hl : u.lastServed
    · exact .inr (.inr ⟨f, fs, rfl, .inr rfl, by rw [arbitrate, hg]; simp [hp, hb, hl]⟩)
    · exact .inr (.inl ⟨r, rs, rfl, .inr rfl, by rw [arbitrate, hg]; simp [hp, hb, hl]⟩)

/-! What no choice of the arbiter changes. -/

@[simp] theorem UpstreamPort.arbitrate_claims (u : UpstreamPort) : u.arbitrate.claims = u.claims := by
  rw [arbitrate]; split <;> [rfl; (split <;> [rfl; rfl; rfl; (split <;> rfl)])]

@[simp] theorem UpstreamPort.arbitrate_lost (u : UpstreamPort) : u.arbitrate.lost = u.lost := by
  rw [arbitrate]; split <;> [rfl; (split <;> [rfl; rfl; rfl; (split <;> rfl)])]

@[simp] theorem UpstreamPort.arbitrate_assembler (u : UpstreamPort) : u.arbitrate.assembler = u.assembler := by
  rw [arbitrate]; split <;> [rfl; (split <;> [rfl; rfl; rfl; (split <;> rfl)])]

@[simp] theorem UpstreamPort.arbitrate_readyAbove (u : UpstreamPort) : u.arbitrate.readyAbove = u.readyAbove := by
  rw [arbitrate]; split <;> [rfl; (split <;> [rfl; rfl; rfl; (split <;> rfl)])]

theorem UpstreamPort.arbitrate_occupied_le (u : UpstreamPort) : u.arbitrate.occupied ≤ u.occupied := by
  rw [arbitrate]
  split
  · exact le_refl _
  · split <;> rename_i hr hb
    · exact le_refl _
    · simp [beginOwn, occupied, hr]
    · exact le_refl _
    · split <;> simp [beginOwn, beginPassed, occupied, hr]

/-- A notice offered: it joins and the arbiter chooses, or it is lost and counted (R189). -/
theorem UpstreamPort.offer_cases (u : UpstreamPort) (body : Text) :
    (u.occupied < 8 ∧ u.offer body = ({ u with replies := u.replies ++ [body] } : UpstreamPort).arbitrate)
      ∨ (8 ≤ u.occupied ∧ u.offer body = { u with lost := satInc u.lost }) := by
  by_cases h : u.occupied < Config.replyPlaces
  · exact .inl ⟨h, if_pos h⟩
  · exact .inr ⟨not_lt.1 h, if_neg h⟩

/-- A reply joins at the tail and gives its claim up (R189). -/
theorem UpstreamPort.fill_joins (u : UpstreamPort) (body : Text) :
    u.fill body =
      ({ u with replies := u.replies ++ [body], claims := u.claims - 1 } : UpstreamPort).arbitrate := rfl

/-- Notices raised touch the Upstream Port alone. -/
theorem State.raiseAll_frame (s : State) (ns : List (Byte × Text)) :
    s.raiseAll ns = { s with upstream := (s.raiseAll ns).upstream } := by
  induction ns generalizing s with
  | nil => rfl
  | cons n ns ih => rw [raiseAll, ih]; rfl

@[simp] theorem State.raiseAll_nil (s : State) : s.raiseAll [] = s := rfl

@[simp] theorem State.raiseAll_one (s : State) (n : Byte × Text) : s.raiseAll [n] = s.raise n.1 n.2 := rfl

end Sys2Proof.Machine
end

