-- ==== Sys2Proof/Laws/Boards.lean ====
section
/-! SUPPORT. What the Board Line Controllers' shared operations do: marks, dirty sets, the choice of the next
transfer, and what each leaves alone. -/

namespace Sys2Proof.Machine

/-! ### Marks -/

/-- Settling a mark changes marks and the mark register alone. -/
theorem BoardLine.settleMark_frame (b : BoardLine) (i : ModuleNo) :
    b.settleMark i = { b with
        modules := (b.settleMark i).modules
        markReg := (b.settleMark i).markReg }
      ∧ ∀ j : ModuleNo, ∃ k, (b.settleMark i).modules[j] = { b.modules[j] with mark := k } := by
  have put (v : Vector BoardModule 32) (f : Option Nat) (j : ModuleNo) :
      ∃ k, (vupd v i fun m => { m with mark := f })[j] = { v[j] with mark := k } := by
    by_cases h : j = i
    · subst h; exact ⟨f, vupd_self _ _ _⟩
    · exact ⟨v[j].mark, by rw [vupd_ne _ _ h]⟩
  rw [settleMark]
  dsimp only
  split
  · split
    · rw [takeMark]
      dsimp only
      split
      · refine ⟨rfl, fun j => ?_⟩
        obtain ⟨k, hk⟩ := put b.renumber.modules (some b.renumber.markReg) j
        exact ⟨k, by rw [hk]; simp [renumber]⟩
      · exact ⟨rfl, put _ _⟩
    · exact ⟨rfl, fun j => ⟨b.modules[j].mark, rfl⟩⟩
  · exact ⟨rfl, put _ _⟩

/-- A module changed: the change at that module, and marks alone at the others. -/
theorem BoardLine.change_module (b : BoardLine) (i : ModuleNo) (f : BoardModule → BoardModule) (j : ModuleNo) :
    ∃ k, (b.change i f).modules[j] = { (if j = i then f b.modules[i] else b.modules[j]) with mark := k } := by
  obtain ⟨k, hk⟩ := ({ b with modules := vupd b.modules i f } : BoardLine).settleMark_frame i |>.2 j
  refine ⟨k, ?_⟩
  rw [change, hk]
  split
  · rename_i h; subst h; rw [vupd_self]
  · rename_i h; rw [vupd_ne _ _ h]

/-- A module changed leaves the line but for its modules and its mark register. -/
theorem BoardLine.change_frame (b : BoardLine) (i : ModuleNo) (f : BoardModule → BoardModule) :
    b.change i f = { b with modules := (b.change i f).modules, markReg := (b.change i f).markReg } :=
  (BoardLine.settleMark_frame _ i).1

@[simp] theorem BoardLine.change_inFlight (b : BoardLine) (i : ModuleNo) (f : BoardModule → BoardModule) :
    (b.change i f).inFlight = b.inFlight := by rw [change_frame]

@[simp] theorem BoardLine.change_broadcast (b : BoardLine) (i : ModuleNo) (f : BoardModule → BoardModule) :
    (b.change i f).broadcast = b.broadcast := by rw [change_frame]

@[simp] theorem BoardLine.change_sweep (b : BoardLine) (i : ModuleNo) (f : BoardModule → BoardModule) :
    (b.change i f).sweep = b.sweep := by rw [change_frame]

@[simp] theorem BoardLine.change_holds (b : BoardLine) (i : ModuleNo) (f : BoardModule → BoardModule) :
    (b.change i f).holds = b.holds := by rw [change_frame]

@[simp] theorem BoardLine.change_timeouts (b : BoardLine) (i : ModuleNo) (f : BoardModule → BoardModule) :
    (b.change i f).timeouts = b.timeouts := by rw [change_frame]

/-- Fields marked: at the module named, unless it is DARK, the marked fields it shows join its dirty set; marks
alone change at the others (R99, R100). -/
theorem BoardLine.markFields_module (b : BoardLine) (i : ModuleNo) (fs : FieldSet) (j : ModuleNo) :
    ∃ k, (b.markFields i fs).modules[j] = { b.modules[j] with
      dirty := if j = i ∧ (b.modules[j]).state ≠ .dark
        then (b.modules[j]).dirty.union (fs.inter (b.modules[j]).shown) else (b.modules[j]).dirty
      mark := k } := by
  rw [markFields]
  split
  · rename_i h
    refine ⟨(b.modules[j]).mark, ?_⟩
    by_cases hj : j = i ∧ (b.modules[j]).state ≠ .dark
    · obtain ⟨rfl, hd⟩ := hj
      have he := (FieldSet.isEmpty_iff _).1 (h.resolve_left hd)
      simp only [ne_eq, hd, not_false_eq_true, and_self, if_true, he, FieldSet.union_empty]
    · simp only [hj, if_false]
  · rename_i h
    obtain ⟨k, hk⟩ := b.change_module i (fun m => { m with dirty := m.dirty.union (fs.inter m.shown) }) j
    refine ⟨k, ?_⟩
    rw [hk]
    by_cases hj : j = i
    · subst hj
      have hd : ¬ (b.modules[j]).state = .dark := fun e => h (.inl e)
      simp only [if_true, ne_eq, hd, not_false_eq_true, and_self]
    · simp only [hj, if_false, false_and]

/-- Fields marked leave the line but for its modules and its mark register. -/
theorem BoardLine.markFields_frame (b : BoardLine) (i : ModuleNo) (fs : FieldSet) :
    b.markFields i fs = { b with modules := (b.markFields i fs).modules, markReg := (b.markFields i fs).markReg } := by
  rw [markFields]
  split
  · rfl
  · exact b.change_frame i _

/-! ### The choice -/

/-- A line with a transfer in flight does not choose. -/
theorem BoardLine.choose_busy {b : BoardLine} (records : Records) (lampsOf : ModuleNo → RowLamps)
    (h : b.inFlight.isSome = true) : b.choose records lampsOf = b := if_pos h

/-- What the choice of an idle line is. -/
theorem BoardLine.choose_cases {b : BoardLine} (records : Records) (lampsOf : ModuleNo → RowLamps)
    (h : b.inFlight = none) :
    (∃ f, b.broadcast = some f ∧ b.choose records lampsOf = b.startBroadcast f)
      ∨ (b.broadcast = none ∧ ∃ i, b.bestWaiting = some i ∧ b.choose records lampsOf = b.serve records lampsOf i)
      ∨ (b.broadcast = none ∧ b.bestWaiting = none ∧ ∃ i, b.sweepNext = some i
          ∧ b.choose records lampsOf = b.refresh records lampsOf i)
      ∨ (b.broadcast = none ∧ b.bestWaiting = none ∧ b.sweepNext = none ∧ b.choose records lampsOf = b) := by
  have e : b.choose records lampsOf = match b.broadcast with
      | some f => b.startBroadcast f
      | none => match b.bestWaiting with
        | some i => b.serve records lampsOf i
        | none => match b.sweepNext with
          | some i => b.refresh records lampsOf i
          | none => b := by rw [choose, h]; rfl
  rcases hb : b.broadcast with _ | f
  · rcases hw : b.bestWaiting with _ | i
    · rcases hs : b.sweepNext with _ | i
      · exact .inr (.inr (.inr ⟨rfl, rfl, rfl, by rw [e, hb]; simp only [hw, hs]⟩))
      · exact .inr (.inr (.inl ⟨rfl, rfl, i, rfl, by rw [e, hb]; simp only [hw, hs]⟩))
    · exact .inr (.inl ⟨rfl, i, rfl, by rw [e, hb]; simp only [hw]⟩)
  · exact .inl ⟨f, rfl, by rw [e, hb]⟩

/-- An update or refresh begun empties its module's dirty set; marks alone change besides. -/
theorem BoardLine.startFields_module (b : BoardLine) (records : Records) (lamps : RowLamps) (i : ModuleNo)
    (body : TransferBody) (issue : Nat) (fs : FieldSet) (j : ModuleNo) :
    ∃ k, (b.startFields records lamps i body issue fs).modules[j] = { b.modules[j] with
      dirty := if j = i then .empty else (b.modules[j]).dirty
      mark := k } := by
  unfold startFields
  obtain ⟨k, hk⟩ := BoardLine.change_module
    { b with inFlight := some ⟨body, transferChars i.val (rowBlocks records lamps issue fs), none⟩ } i
    (fun m => { m with dirty := .empty }) j
  refine ⟨k, hk.trans ?_⟩
  by_cases h : j = i
  · subst h; simp only [if_true]
  · simp only [h, if_false]

/-- A blanking begun is no longer owed; marks alone change besides. -/
theorem BoardLine.startBlanking_module (b : BoardLine) (i j : ModuleNo) :
    ∃ k, (b.startBlanking i).modules[j] = { b.modules[j] with
      blanking := if j = i then false else (b.modules[j]).blanking
      mark := k } := by
  unfold startBlanking
  obtain ⟨k, hk⟩ := BoardLine.change_module
    { b with inFlight := some ⟨.blanking i, transferChars i.val [0x0E], none⟩ } i
    (fun m => { m with blanking := false }) j
  refine ⟨k, hk.trans ?_⟩
  by_cases h : j = i
  · subst h; simp only [if_true]
  · simp only [h, if_false]

/-- A choice leaves every module's mapping, state, timeout count and back-off. -/
theorem BoardLine.choose_module (b : BoardLine) (records : Records) (lampsOf : ModuleNo → RowLamps) (j : ModuleNo) :
    ∃ d o k, (b.choose records lampsOf).modules[j] =
      { b.modules[j] with dirty := d, blanking := o, mark := k } := by
  rcases h : b.inFlight with _ | t
  · rcases b.choose_cases records lampsOf h with ⟨f, -, e⟩ | ⟨-, i, -, e⟩ | ⟨-, -, i, -, e⟩ | ⟨-, -, -, e⟩ <;> rw [e]
    · exact ⟨_, _, _, rfl⟩
    · rw [serve]
      dsimp only
      split
      · exact ⟨_, _, BoardLine.startFields_module _ _ _ _ _ _ _ _⟩
      · exact ⟨_, _, BoardLine.startBlanking_module _ _ _⟩
    · rw [refresh]
      split
      · exact ⟨_, _, _, rfl⟩
      · exact ⟨_, _, BoardLine.startFields_module _ _ _ _ _ _ _ _⟩
    · exact ⟨_, _, _, rfl⟩
  · rw [choose_busy _ _ (by rw [h]; rfl)]; exact ⟨_, _, _, rfl⟩

/-- A choice leaves the two counters of the line. -/
theorem BoardLine.choose_counts (b : BoardLine) (records : Records) (lampsOf : ModuleNo → RowLamps) :
    (b.choose records lampsOf).holds = b.holds ∧ (b.choose records lampsOf).timeouts = b.timeouts := by
  rcases h : b.inFlight with _ | t
  · rcases b.choose_cases records lampsOf h with ⟨f, -, e⟩ | ⟨-, i, -, e⟩ | ⟨-, -, i, -, e⟩ | ⟨-, -, -, e⟩ <;> rw [e]
    · exact ⟨rfl, rfl⟩
    · rw [serve]
      split <;> simp [startFields, startBlanking]
    · rw [refresh]
      split <;> simp [startFields]
    · exact ⟨rfl, rfl⟩
  · rw [choose_busy _ _ (by rw [h]; rfl)]; exact ⟨rfl, rfl⟩

/-! ### The card -/

/-- A choice of every line touches the board lines alone. -/
theorem State.chooseBoards_frame (s : State) : s.chooseBoards = { s with boards := s.chooseBoards.boards } := by
  rw [chooseBoards]
  generalize List.finRange 4 = ls
  induction ls generalizing s with
  | nil => rfl
  | cons l ls ih => rw [List.foldl_cons, ih]; rfl

/-- Each line chooses with the records and lamps as they stand. -/
theorem State.chooseBoards_board (s : State) (l : LineNo) :
    s.chooseBoards.boards[l] = s.boards[l].choose s.issues.records fun m => s.lamps[rowOf l m] := by
  have e : List.finRange 4 = [0, 1, 2, 3] := rfl
  rw [chooseBoards, e]
  fin_cases l <;> simp [chooseBoard, setBoard]

/-- One row marked: its own module, and no other line. -/
theorem State.markRow_board (s : State) (fs : FieldSet) (r : RowNo) (l : LineNo) :
    (s.markRow fs r).boards[l] = if l = rowLine r then s.boards[l].markFields (rowModule r) fs else s.boards[l] := by
  rw [markRow, setBoard_boards]
  split
  · rename_i h; subst h; simp
  · rename_i h
    exact Vector.getElem_set_ne _ _ fun e => h (Fin.ext e.symm)

/-- Rows marked touch the board lines alone. -/
theorem State.markRows_frame (s : State) (fs : FieldSet) (rs : List RowNo) :
    s.markRows fs rs = { s with boards := (s.markRows fs rs).boards } := by
  induction rs generalizing s with
  | nil => rfl
  | cons r rs ih => rw [markRows, ih]; rfl

/-- A module after several rows are marked: the marked fields it shows joined, where its row is among them and it is
not DARK; nothing else but its mark. -/
theorem State.markRows_module (s : State) (fs : FieldSet) (rs : List RowNo) (l : LineNo) (i : ModuleNo) :
    (∃ k, ((s.markRows fs rs).boards[l]).modules[i] = { (s.boards[l]).modules[i] with
      dirty := if rowOf l i ∈ rs ∧ ((s.boards[l]).modules[i]).state ≠ .dark
        then ((s.boards[l]).modules[i]).dirty.union (fs.inter ((s.boards[l]).modules[i]).shown)
        else ((s.boards[l]).modules[i]).dirty
      mark := k })
      ∧ (s.markRows fs rs).boards[l] = { s.boards[l] with
          modules := ((s.markRows fs rs).boards[l]).modules
          markReg := ((s.markRows fs rs).boards[l]).markReg } := by
  induction rs generalizing s with
  | nil => exact ⟨⟨_, by simp [markRows]; rfl⟩, rfl⟩
  | cons r rs ih =>
    obtain ⟨⟨k, hk⟩, hf⟩ := ih (s.markRow fs r)
    rw [markRows]
    constructor
    · rw [hk, s.markRow_board fs r l]
      split
      · rename_i hl
        subst hl
        obtain ⟨k', hk'⟩ := (s.boards[rowLine r]).markFields_module (rowModule r) fs i
        refine ⟨k, ?_⟩
        rw [hk']
        by_cases hi : i = rowModule r
        · subst hi
          by_cases hd : ((s.boards[rowLine r]).modules[rowModule r]).state = .dark
          · simp only [hd, ne_eq, not_true_eq_false, and_false, if_false]
          · simp only [hd, ne_eq, not_false_eq_true, and_true, if_true, rowOf_line_module, List.mem_cons, true_or,
              BoardModule.shown]
            split <;> simp only [FieldSet.union_union_self]
        · have hn : rowOf (rowLine r) i ≠ r := fun e => hi (by rw [← e, rowModule_rowOf])
          simp only [hi, false_and, if_false, List.mem_cons, hn, false_or, BoardModule.shown]
      · rename_i hl
        have hn : rowOf l i ≠ r := fun e => hl (by rw [← e, rowLine_rowOf])
        exact ⟨k, by simp only [List.mem_cons, hn, false_or]⟩
    · rw [hf, s.markRow_board fs r l]
      split
      · rw [(s.boards[l]).markFields_frame]
      · rfl

end Sys2Proof.Machine
end

