-- ==== Sys2Proof/Laws/Lamps.lean ====
section
/-! SUPPORT. What the Lamp Generators' shared operations do. -/

namespace Sys2Proof.Machine

/-- A row's lamps changed: the lamps, with the marking of LAMPS where the change shows, and nothing else. -/
theorem State.moveLamps_eq (s : State) (r : RowNo) (y : RowLamps) :
    s.moveLamps r y = { s with
      lamps := s.lamps.set r y
      boards := if lampsMark s.lamps[r] y then (s.markRow .lampsOnly r).boards else s.boards } := by
  rw [moveLamps]
  cases lampsMark s.lamps[r] y <;> rfl

theorem State.moveLamps_self (s : State) (r : RowNo) (y : RowLamps) : (s.moveLamps r y).lamps[r] = y := by
  rw [moveLamps_eq]; simp

theorem State.moveLamps_ne (s : State) {r q : RowNo} (y : RowLamps) (h : q ≠ r) :
    (s.moveLamps r y).lamps[q] = s.lamps[q] := by
  have hn : r.val ≠ q.val := fun e => h (Fin.ext e.symm)
  rw [moveLamps_eq]
  exact Vector.getElem_set_ne r.isLt q.isLt hn

/-- A row marked leaves every mapping, state, timeout count and back-off. -/
theorem State.markRow_module (s : State) (fs : FieldSet) (r : RowNo) (l : LineNo) (i : ModuleNo) :
    ∃ d k, ((s.markRow fs r).boards[l]).modules[i] = { (s.boards[l]).modules[i] with dirty := d, mark := k } := by
  rw [markRow_board]
  split
  · exact ⟨_, (s.boards[l]).markFields_module _ fs i⟩
  · exact ⟨_, _, rfl⟩

/-- A row's lamps changed leave every mapping, state, timeout count and back-off. -/
theorem State.moveLamps_module (s : State) (r : RowNo) (y : RowLamps) (l : LineNo) (i : ModuleNo) :
    ∃ d k, ((s.moveLamps r y).boards[l]).modules[i] = { (s.boards[l]).modules[i] with dirty := d, mark := k } := by
  rw [moveLamps_eq]
  cases lampsMark s.lamps[r] y
  · exact ⟨_, _, rfl⟩
  · exact s.markRow_module .lampsOnly r l i

/-- A row's lamps changed leave what every row shows. -/
@[simp] theorem State.moveLamps_rowIssue (s : State) (r : RowNo) (y : RowLamps) (q : RowNo) :
    (s.moveLamps r y).rowIssue q = s.rowIssue q := by
  obtain ⟨d, k, h⟩ := s.moveLamps_module r y (rowLine q) (rowModule q)
  rw [rowIssue, h]; rfl

/-- A choice of every line leaves what every row shows. -/
@[simp] theorem State.chooseBoards_rowIssue (s : State) (q : RowNo) : s.chooseBoards.rowIssue q = s.rowIssue q := by
  obtain ⟨d, o, k, h⟩ := (s.boards[rowLine q]).choose_module s.issues.records (fun m => s.lamps[rowOf (rowLine q) m])
    (rowModule q)
  rw [rowIssue, chooseBoards_board, h]; rfl

/-- A notice at one row: its lamps, when it shows the notice's issue, and its board line. -/
theorem State.noticeRow_frame (s : State) (n : ChangeNotice) (r : RowNo) :
    s.noticeRow n r = { s with lamps := (s.noticeRow n r).lamps, boards := (s.noticeRow n r).boards } := by
  rw [noticeRow]
  split
  · rw [moveLamps_eq]
  · rfl

/-- A notice at the rows of its list touches the lamps and the board lines alone. -/
theorem State.noticeRows_frame (s : State) (n : ChangeNotice) (rs : List RowNo) :
    s.noticeRows n rs = { s with lamps := (s.noticeRows n rs).lamps, boards := (s.noticeRows n rs).boards } := by
  induction rs generalizing s with
  | nil => rfl
  | cons r rs ih => rw [noticeRows, ih, noticeRow_frame]

/-- The lamps put out at several rows touch the lamps and the board lines alone. -/
theorem State.darkenRows_frame (s : State) (rs : List RowNo) :
    s.darkenRows rs = { s with lamps := (s.darkenRows rs).lamps, boards := (s.darkenRows rs).boards } := by
  induction rs generalizing s with
  | nil => rfl
  | cons r rs ih => rw [darkenRows, ih, moveLamps_eq]

/-- A row of the list is dark afterwards, and any other row as before. -/
theorem State.darkenRows_lamps (s : State) (rs : List RowNo) (q : RowNo) :
    (s.darkenRows rs).lamps[q] = if q ∈ rs then RowLamps.dark else s.lamps[q] := by
  induction rs generalizing s with
  | nil => rfl
  | cons r rs ih =>
    rw [darkenRows, ih]
    by_cases h : q = r
    · subst h
      rw [s.moveLamps_self, if_pos List.mem_cons_self, ite_self]
    · simp only [List.mem_cons, h, false_or, s.moveLamps_ne _ h]

/-- The lamps put out leave every mapping, state, timeout count and back-off. -/
theorem State.darkenRows_module (s : State) (rs : List RowNo) (l : LineNo) (i : ModuleNo) :
    ∃ d k, ((s.darkenRows rs).boards[l]).modules[i] = { (s.boards[l]).modules[i] with dirty := d, mark := k } := by
  induction rs generalizing s with
  | nil => exact ⟨_, _, rfl⟩
  | cons r rs ih =>
    obtain ⟨d, k, h⟩ := ih (s.moveLamps r .dark)
    obtain ⟨d', k', h'⟩ := s.moveLamps_module r .dark l i
    exact ⟨d, k, by rw [darkenRows, h, h']⟩

/-- A second notice of the same kind at the same row changes nothing more. -/
theorem RowLamps.noticed_noticed (x : RowLamps) (p : LampParams) (n : ChangeNotice) :
    (x.noticed p n).noticed p n = x.noticed p n := by
  obtain ⟨a, h⟩ := x
  simp only [noticed]
  split
  · rfl
  · split
    · split <;> cases a <;> rfl
    · rfl

end Sys2Proof.Machine
end

