-- ==== Sys2Proof/Laws/Terminals.lean ====
section
/-! SUPPORT. What the Terminal Line Controllers' and the Alert Table's shared operations do, and what each leaves
alone. -/

namespace Sys2Proof.Machine

/-! ### The Alert Table -/

/-- A slot that fires touches its own slot and its terminal's queue alone. -/
theorem State.fire_cases (s : State) (t : TermNo) (k : SlotNo) (a : AlertSetting) (r : IssueRecord) :
    (s.terminals[t]).takesOffer = true
        ∧ s.fire t k a r = (s.setAlert t k (some { a with fired := true, owed := false })).setTerm t
            ((s.terminals[t]).push (.alert (alertChars k a r s.issues.clock)))
      ∨ (s.terminals[t]).takesOffer = false
        ∧ s.fire t k a r = s.setAlert t k (some { a with fired := true, owed := true }) := by
  rw [fire]
  cases (s.terminals[t]).takesOffer
  · exact .inr ⟨rfl, rfl⟩
  · exact .inl ⟨rfl, rfl⟩

/-- The evaluation of a slot: nothing for an EMPTY one; a holding condition fires an ARMED one and leaves a FIRED
one; a failing one leaves it ARMED and owing nothing (R157, R158). -/
theorem State.evaluate_slot {s : State} {t : TermNo} {k : SlotNo} {a : AlertSetting} {r : IssueRecord}
    (h : (s.alerts[t])[k] = some a) (hr : findRecord s.issues.records a.issue = some r) :
    (a.holds r = true → a.fired = false → s.evaluate t k = s.fire t k a r)
      ∧ (a.holds r = true → a.fired = true → s.evaluate t k = s)
      ∧ (a.holds r = false → s.evaluate t k = s.setAlert t k (some { a with fired := false, owed := false })) := by
  refine ⟨fun h1 h2 => ?_, fun h1 h2 => ?_, fun h1 => ?_⟩
  · simp only [evaluate, h, hr, h1, h2, if_true, Bool.false_eq_true, if_false]
  · simp only [evaluate, h, hr, h1, h2, if_true]
  · simp only [evaluate, h, hr, h1, Bool.false_eq_true, if_false]

/-- An evaluation touches the slots and the terminals alone. -/
theorem State.evaluate_frame (s : State) (t : TermNo) (k : SlotNo) :
    s.evaluate t k = { s with alerts := (s.evaluate t k).alerts, terminals := (s.evaluate t k).terminals } := by
  rw [evaluate]
  split
  · rfl
  · split
    · rfl
    · split
      · split
        · rfl
        · rcases s.fire_cases t k ‹_› ‹_› with ⟨-, e⟩ | ⟨-, e⟩ <;> rw [e] <;> rfl
      · rfl

/-- Places freed touch the slots and the terminals alone. -/
theorem State.freePlaces_frame (s : State) (t : TermNo) :
    s.freePlaces t = { s with alerts := (s.freePlaces t).alerts, terminals := (s.freePlaces t).terminals } := by
  have pay (u : State) (k : SlotNo) :
      u.payOwed t k = { u with alerts := (u.payOwed t k).alerts, terminals := (u.payOwed t k).terminals } := by
    rw [payOwed]
    split
    · rfl
    · split
      · rfl
      · split <;> rfl
  have feed (u : State) : u.payFeed t = { u with terminals := (u.payFeed t).terminals } := by
    rw [payFeed]; dsimp only; split <;> rfl
  rw [freePlaces]
  generalize List.finRange 8 = ks
  rw [feed]
  generalize (s.payFeed t).terminals = v
  induction ks generalizing s v with
  | nil => rfl
  | cons k ks ih =>
    rw [List.foldl_cons, pay]
    generalize (State.payOwed t { s with terminals := v } k).terminals = w
    exact ih { s with alerts := (State.payOwed t { s with terminals := v } k).alerts } w

/-! ### The lines -/

/-- The choice of a terminal line: nothing while a transaction is in flight or no drop is enabled, else the poll of
the next enabled drop (R132). -/
theorem State.chooseTerm_cases (s : State) (l : LineNo) :
    ((s.termLines[l]).inFlight.isSome = true ∧ s.chooseTerm l = s)
      ∨ ((s.termLines[l]).inFlight = none ∧ s.nextDrop l = none ∧ s.chooseTerm l = s)
      ∨ ∃ d, (s.termLines[l]).inFlight = none ∧ s.nextDrop l = some d
          ∧ s.chooseTerm l = s.setTermLine l { s.termLines[l] with pollPtr := d, inFlight := some ⟨d, .pollSending (pollChar d), false⟩ } := by
  rcases h : (s.termLines[l]).inFlight with _ | x
  · rcases hn : s.nextDrop l with _ | d
    · exact .inr (.inl ⟨rfl, rfl, by simp only [chooseTerm, h, hn, Option.isSome_none, Bool.false_eq_true, if_false]⟩)
    · exact .inr (.inr ⟨d, rfl, rfl, by
        simp only [chooseTerm, h, hn, Option.isSome_none, Bool.false_eq_true, if_false]⟩)
  · exact .inl ⟨rfl, by simp only [chooseTerm, h, Option.isSome_some, if_true]⟩

/-- The next drop is enabled, and there is one where any is (R132). -/
theorem State.nextDrop_enabled {s : State} {l : LineNo} {d : DropNo} (h : s.nextDrop l = some d) :
    (s.terminals[termOf l d]).state ≠ .disabled := by
  have := List.find?_some h
  simpa [Terminal.enabled] using this

theorem State.nextDrop_isSome {s : State} {l : LineNo} {e : DropNo} (h : (s.terminals[termOf l e]).state ≠ .disabled) :
    (s.nextDrop l).isSome = true := by
  rw [nextDrop, List.find?_isSome]
  refine ⟨e, List.mem_map.2 ⟨(e.val + 7 - (s.termLines[l]).pollPtr.val) % 8, List.mem_range.2 (by omega), ?_⟩, ?_⟩
  · apply Fin.ext
    simp only [TermLine.pollPlace]
    omega
  · simpa [Terminal.enabled] using h

/-- Where the next drop is depends on the poll pointer and the terminals alone. -/
theorem State.nextDrop_congr {s t : State} {l : LineNo} (hp : (s.termLines[l]).pollPtr = (t.termLines[l]).pollPtr)
    (ht : s.terminals = t.terminals) : s.nextDrop l = t.nextDrop l := by
  have e : (s.termLines[l]).pollPlace = (t.termLines[l]).pollPlace := funext fun k => by
    simp only [TermLine.pollPlace, hp]
  rw [nextDrop, nextDrop, e, ht]

/-- A choice touches its own line alone. -/
theorem State.chooseTerm_frame (s : State) (l : LineNo) :
    s.chooseTerm l = { s with termLines := (s.chooseTerm l).termLines } := by
  rcases s.chooseTerm_cases l with ⟨-, e⟩ | ⟨-, -, e⟩ | ⟨d, -, -, e⟩ <;> rw [e]
  rfl

theorem State.endTransaction_frame (s : State) (l : LineNo) :
    s.endTransaction l = { s with termLines := (s.endTransaction l).termLines } := by
  rw [endTransaction, chooseTerm_frame]; rfl

/-- The transaction ended: the line polls the next enabled drop, where there is one. -/
theorem State.endTransaction_line {s : State} {l : LineNo} {d : DropNo} (h : s.nextDrop l = some d) :
    (s.endTransaction l).termLines[l] = { s.termLines[l] with pollPtr := d, inFlight := some ⟨d, .pollSending (pollChar d), false⟩ } := by
  have hn : (s.setTermLine l { s.termLines[l] with inFlight := none }).nextDrop l = some d := by
    rw [← h]
    exact State.nextDrop_congr (by simp) rfl
  rcases (s.setTermLine l { s.termLines[l] with inFlight := none }).chooseTerm_cases l with
    ⟨e, -⟩ | ⟨-, e, -⟩ | ⟨d', -, e', e⟩
  · simp at e
  · rw [hn] at e; cases e
  · obtain rfl : d = d' := by rw [hn] at e'; cases e'; rfl
    rw [endTransaction, e]; simp

/-- Another line is left alone. -/
theorem State.endTransaction_ne (s : State) {l k : LineNo} (h : k ≠ l) :
    (s.endTransaction l).termLines[k] = s.termLines[k] := by
  have hne : l.val ≠ k.val := fun e => h (Fin.ext e.symm)
  rw [endTransaction]
  rcases (s.setTermLine l { s.termLines[l] with inFlight := none }).chooseTerm_cases l with
    ⟨-, e⟩ | ⟨-, -, e⟩ | ⟨d', -, -, e⟩ <;> rw [e] <;> simp [Vector.getElem_set_ne, hne]

/-! ### Feed status -/

/-- The FEED status messages of a queue that no select carries, all given the new state, each in its place; none where
the queue holds none (R145). -/
theorem replaceFeed_cases (f : FeedState) (carried : Bool) (queue : List OutMessage) :
    let n := if carried then 1 else 0
    ((∃ m ∈ queue.drop n, m.isFeed = true)
        ∧ replaceFeed f carried queue = some (queue.take n ++ (queue.drop n).map (OutMessage.withFeed f)))
      ∨ ((∀ m ∈ queue.drop n, m.isFeed = false) ∧ replaceFeed f carried queue = none) := by
  by_cases h : (queue.drop (if carried then 1 else 0)).any OutMessage.isFeed = true
  · exact .inl ⟨List.any_eq_true.1 h, by simp only [replaceFeed, h, if_true]⟩
  · refine .inr ⟨fun m hm => ?_, by simp only [replaceFeed, h, if_false, Bool.false_eq_true]⟩
    by_contra hf
    exact h (List.any_eq_true.2 ⟨m, hm, by simpa using hf⟩)

@[simp] theorem replaceFeed_length {f : FeedState} {carried : Bool} {queue q : List OutMessage}
    (h : replaceFeed f carried queue = some q) : q.length = queue.length := by
  rcases replaceFeed_cases f carried queue with ⟨-, e⟩ | ⟨-, e⟩ <;> rw [e] at h
  · cases h; simp only [List.length_append, List.length_map, List.length_take, List.length_drop]; omega
  · cases h

/-- A FEED status message offered: replaced in its place, joined where there is room, or owed; the queue keeps its
eight places (R143, R145). -/
theorem Terminal.offerFeed_cases (x : Terminal) (f : FeedState) (carried : Bool) :
    (∃ q, replaceFeed f carried x.queue = some q ∧ x.offerFeed f carried = { x with queue := q })
      ∨ (replaceFeed f carried x.queue = none ∧ x.queue.length < 8
          ∧ x.offerFeed f carried = { x with queue := x.queue ++ [.feedStatus f] })
      ∨ (replaceFeed f carried x.queue = none ∧ 8 ≤ x.queue.length
          ∧ x.offerFeed f carried = { x with feedOwed := true }) := by
  rcases h : replaceFeed f carried x.queue with _ | q
  · by_cases hl : x.queue.length < Config.outboundPlaces
    · exact .inr (.inl ⟨rfl, hl, by simp only [offerFeed, h, hl, if_true]; rfl⟩)
    · exact .inr (.inr ⟨rfl, not_lt.1 hl, by simp only [offerFeed, h, hl, if_false]⟩)
  · exact .inl ⟨q, rfl, by simp only [offerFeed, h]⟩

/-! ### Answers -/

/-- An answer is taken when its terminal is enabled and its transaction not cut (R131). -/
theorem State.heard_iff (s : State) (l : LineNo) (x : Transaction) :
    s.heard l x = true ↔ (s.terminals[termOf l x.drop]).state ≠ .disabled ∧ x.cut = false := by
  simp [heard, Terminal.enabled]

/-- An answer taken from an ONLINE terminal sets its timeout count to 0 and does nothing else (R134). -/
theorem State.answerTaken_online {s : State} {t : TermNo} (h : (s.terminals[t]).state = .online) :
    s.answerTaken t = s.setTerm t { s.terminals[t] with timeouts := 0 } := if_pos h

/-- An answer taken from an UNKNOWN or OFFLINE terminal (R134). -/
theorem State.answerTaken_returns {s : State} {t : TermNo} (h : (s.terminals[t]).state ≠ .online) :
    s.answerTaken t = ((s.setTerm t { s.terminals[t] with
      timeouts := 0
      state := .online
      watch := allPending (s.terminals[t]).watch
      lengthOwed := true }).raise 0x08 [BitVec.ofNat 8 t.val]).offerFeed t := if_neg h

/-- An answer touches the terminals and the Upstream Port alone. -/
theorem State.answerTaken_frame (s : State) (t : TermNo) :
    s.answerTaken t = { s with terminals := (s.answerTaken t).terminals, upstream := (s.answerTaken t).upstream } := by
  rw [answerTaken]; split <;> rfl

/-- A watch list changed touches the records and the terminals alone. -/
theorem State.rewatch_frame (s : State) (t : TermNo) (new : List Nat) :
    s.rewatch t new = { s with
      issues := { s.issues with records := (s.rewatch t new).issues.records }
      terminals := s.terminals.set t ((s.terminals[t]).rewatch new) } := rfl

@[simp] theorem markFrom_issues (k : Nat) (ws : List WatchEntry) :
    (markFrom k ws).map WatchEntry.issue = ws.map WatchEntry.issue := by
  induction ws generalizing k with
  | nil => cases k <;> rfl
  | cons e es ih => cases k <;> simp [markFrom, ih]

@[simp] theorem newEntries_issues (old : List WatchEntry) (new : List Nat) :
    (newEntries old new).map WatchEntry.issue = new := by
  simp [newEntries, List.map_map, Function.comp_def]

/-- A terminal given a new list holds exactly its issues, in its order. -/
@[simp] theorem Terminal.rewatch_issues (x : Terminal) (new : List Nat) :
    (x.rewatch new).watch.map WatchEntry.issue = new := by
  rw [rewatch]; split <;> simp

@[simp] theorem State.rewatch_watchIssues (s : State) (t : TermNo) (new : List Nat) :
    (s.rewatch t new).watchIssues t = new := by
  rw [watchIssues, rewatch_frame]; simp

end Sys2Proof.Machine
end

