-- ==== Sys2Proof/Laws/Steps.lean ====
section
/-! SUPPORT. Taking the message at the head of the hand-over queue: everything a data step, a control step and a
read can do, said once. -/

namespace Sys2Proof.Machine

/-- A data step whose message stands at the head of the hand-over queue, no operation being in hand: it is taken, the
application runs, and the verdict is counted (R27, R54). -/
theorem State.takeData_due {s : State} {k : DataKind} {body : Text} {serial : Nat} {rest : List Handed}
    {mine : Text → Bool} {apply : Text → State → State × Verdict} (hi : s.control.inHand = none)
    (h : s.feed.handOver = ⟨.data k, body, serial⟩ :: rest) (hm : mine body = true) :
    s.takeData k mine apply = .next ((apply body { s with feed := { s.feed with handOver := rest } }).1.countFeed
      (apply body { s with feed := { s.feed with handOver := rest } }).2.count) := by
  simp [takeData, dataHead, dropHead, hi, h, hm]

/-- A data step that is not due changes nothing (log 1). -/
theorem State.takeData_waits {s : State} {k : DataKind} {mine : Text → Bool}
    {apply : Text → State → State × Verdict} (h : ∀ body, s.dataHead k = some body → mine body = false) :
    s.takeData k mine apply = .next s := by
  rw [takeData]
  rcases hd : s.dataHead k with _ | body
  · rfl
  · simp [h body hd]

/-- A data message waits while an operation is in hand (R50, R165). -/
theorem State.dataHead_inHand {s : State} {op : Operation} (h : s.control.inHand = some op) (k : DataKind) :
    s.dataHead k = none := by
  simp [dataHead, h]

/-- What a control command finds to do: the operation in hand, when the command takes its message; else an addressed
or a broadcast message at the head of the hand-over queue; and it is not due where the operation in hand, or with none
the head, is another command's (R54, R164, R165, log 1). -/
theorem State.turn_cases (s : State) (mine : Text → Bool) :
    (∃ op, s.control.inHand = some op ∧ mine op.body = true ∧ s.turn mine = .execute op)
      ∨ (∃ op rest, s.control.inHand = none ∧ s.feed.handOver = ⟨.control true, op.body, op.serial⟩ :: rest
          ∧ mine op.body = true ∧ s.turn mine = .claim op)
      ∨ (∃ op rest, s.control.inHand = none ∧ s.feed.handOver = ⟨.control false, op.body, op.serial⟩ :: rest
          ∧ mine op.body = true ∧ s.turn mine = .broadcast op)
      ∨ s.turn mine = .waits := by
  rcases hi : s.control.inHand with _ | op
  · rcases hq : s.feed.handOver with _ | ⟨⟨k | a, body, serial⟩, rest⟩
    · exact .inr (.inr (.inr (by simp [turn, hi, controlHead, hq])))
    · exact .inr (.inr (.inr (by simp [turn, hi, controlHead, hq])))
    · by_cases hm : mine body = true
      · cases a
        · exact .inr (.inr (.inl ⟨⟨body, serial⟩, rest, rfl, rfl, hm, by simp [turn, hi, controlHead, hq, hm]⟩))
        · exact .inr (.inl ⟨⟨body, serial⟩, rest, rfl, rfl, hm, by simp [turn, hi, controlHead, hq, hm]⟩)
      · exact .inr (.inr (.inr (by simp [turn, hi, controlHead, hq, hm])))
  · by_cases hm : mine op.body = true
    · exact .inl ⟨op, rfl, hm, by simp [turn, hi, hm]⟩
    · exact .inr (.inr (.inr (by simp [turn, hi, hm])))

/-- The operation in hand executed by its own command: it runs, and its reply fills its claim (R165, R166, R189). -/
theorem State.takeControl_execute {s : State} {op : Operation} {mine : Text → Bool} {table : Text → Byte}
    {run whole : Text → State → Done} (h : s.control.inHand = some op) (hm : mine op.body = true) :
    s.takeControl mine table run whole = .next ((run op.body s.finished).replied op.body (table op.body)) := by
  simp [takeControl, turn, h, hm]

/-- An addressed message at the head, no operation being in hand: taken into hand with a place of the reply queue
claimed, or discarded when no place is free (R164, R189). -/
theorem State.takeControl_claim {s : State} {body : Text} {serial : Nat} {rest : List Handed} {mine : Text → Bool}
    {table : Text → Byte} {run whole : Text → State → Done} (hi : s.control.inHand = none)
    (h : s.feed.handOver = ⟨.control true, body, serial⟩ :: rest) (hm : mine body = true) :
    s.takeControl mine table run whole =
      .next (State.takeClaim { s with feed := { s.feed with handOver := rest } } ⟨body, serial⟩) := by
  simp [takeControl, turn, controlHead, dropHead, hi, h, hm]

/-- A claim: with a place free the operation is in hand and one more place claimed, else the message is discarded and
counted (R164, R187, R189). -/
theorem State.takeClaim_cases (s : State) (op : Operation) :
    (s.upstream.occupied < 8 ∧ s.takeClaim op = s.claim op)
      ∨ (8 ≤ s.upstream.occupied ∧ s.takeClaim op = s.discardControl) := by
  by_cases h : s.upstream.occupied < Config.replyPlaces
  · exact .inl ⟨h, by simp [takeClaim, replyFree, h]⟩
  · exact .inr ⟨not_lt.1 h, by simp [takeClaim, replyFree, h]⟩

/-- A broadcast message at the head, no operation being in hand: executed as it is taken, with no reply (R166). -/
theorem State.takeControl_broadcast {s : State} {body : Text} {serial : Nat} {rest : List Handed}
    {mine : Text → Bool} {table : Text → Byte} {run whole : Text → State → Done} (hi : s.control.inHand = none)
    (h : s.feed.handOver = ⟨.control false, body, serial⟩ :: rest) (hm : mine body = true) :
    s.takeControl mine table run whole =
      .next (whole body { s with feed := { s.feed with handOver := rest } }).card := by
  simp [takeControl, turn, controlHead, dropHead, hi, h, hm]

/-- A control command that is not due changes nothing (log 1). -/
theorem State.takeControl_waits {s : State} {mine : Text → Bool} {table : Text → Byte}
    {run whole : Text → State → Done} (h : s.turn mine = .waits) :
    s.takeControl mine table run whole = .next s := by
  simp [takeControl, h]

/-- A refused operation changes nothing but its reply (R167). -/
theorem State.takeControl_refused {s : State} {op : Operation} {mine : Text → Bool} {table : Text → Byte}
    {run whole : Text → State → Done} {r : Result} (h : s.control.inHand = some op) (hm : mine op.body = true)
    (hr : ∀ u : State, run op.body u = u.refuse r) :
    s.takeControl mine table run whole = .next { s.finished with
      upstream := s.upstream.fill (replyBody s.unitSwitch op.body (table op.body) r []) } := by
  rw [takeControl_execute h hm, hr]
  rfl

/-- A body too short for its operands is refused with BAD_OPERAND (R167). -/
theorem withLength_short {n : Nat} {run : Text → State → Done} {body : Text} (h : body.length < n) (s : State) :
    withLength n run body s = s.refuse .badOperand := if_pos h

theorem withLength_enough {n : Nat} {run : Text → State → Done} {body : Text} (h : n ≤ body.length) (s : State) :
    withLength n run body s = run body s := if_neg (not_lt.2 h)

/-- A tape entry handed to each eligible channel (R29). -/
theorem State.handEligible_cases (s : State) (r : IssueRecord) (i : TapeItem) :
    s.handEligible r i = { s with
      tapeA := if r.eligA then { s.tapeA with arrivals := s.tapeA.arrivals ++ [i] } else s.tapeA
      tapeB := if r.eligB then { s.tapeB with arrivals := s.tapeB.arrivals ++ [i] } else s.tapeB } := by
  rw [handEligible]
  cases r.eligA <;> cases r.eligB <;> rfl

/-- The return of the feed to LIVE: nothing while it is LIVE. -/
theorem State.returnLive_live {s : State} (h : s.feed.feedState = .live) : s.returnLive = s := by
  rw [returnLive, h]

theorem State.returnLive_quiet {s : State} (h : s.feed.feedState = .quiet) :
    s.returnLive = (({ s with feed := { s.feed with feedState := .live } }.raise 0x04 []).tellBoards .live).tellTerminals := by
  rw [returnLive, h]

end Sys2Proof.Machine
end

