-- ==== Sys2Proof/Tests/Slice0.lean ====
section
/-! SUPPORT. Small tests: worked values of the manual, the checks of WellFormed, one step of each kind of command, and
for each statement with premises a state and operands that meet them. -/

namespace Sys2Proof.Tests

open Sys2Proof.Machine

/-! ### States the tests start from -/

/-- A card whose unit address is 3, with its through switch on and the card above ready. -/
def card : State := State.powerOn 3 true true []

/-- The symbol KRT. -/
def krtSymbol : Text := [0x4B, 0x52, 0x54]

/-- Issue 214 of chapter 1: KRT, close 33 7/8, shown in eighths. -/
def krt : IssueRecord :=
  ⟨krtSymbol, 8, true, true, 8672, 8672, 0, .none, false, none, none, 0, none, none, false, [], 0⟩

/-- The same card with KRT listed as issue 214 and the session OPEN. -/
def trading : State :=
  { card with issues := { card.issues with records := [(214, krt)], session := .opened } }

/-- A card with one message at the head of its hand-over queue. -/
def handed (s : State) (x : Sorted) (body : Text) : State :=
  { s with feed := { s.feed with handOver := [⟨x, body, 1⟩] } }

/-- A card with an addressed control message in hand, its reply's place claimed. -/
def held (s : State) (body : Text) : State :=
  { s with
    control := { s.control with inHand := some ⟨body, 1⟩ }
    upstream := { s.upstream with claims := 1 } }

/-- A card with an addressed operation in hand: unit 3, tag 9. -/
def asked (s : State) (operands : Text) : State := held s (0x40 :: 0x03 :: 0x09 :: operands)

/-- The state a command answers. -/
def after (o : Host.Outcome State Fault Refusal) : State :=
  match o with
  | .next t => t
  | .fault _ => .reset
  | .refused _ => .reset

/-- Terminal 0 ONLINE with its answer awaited. -/
def awaited : State :=
  (trading.setTerm 0 { trading.terminals[0] with state := .online }).setTermLine 0
    { trading.termLines[0] with inFlight := some ⟨0, .pollWait 10, false⟩ }

/-- A terminal in a state, a transaction with it in flight, cut or not. -/
def unheard (state : TerminalState) (stage : Stage) (cut : Bool) : State :=
  (trading.setTerm 0 { trading.terminals[0] with state := state }).setTermLine 0
    { trading.termLines[0] with inFlight := some ⟨0, stage, cut⟩ }

/-- Module 0.0 shows every field of KRT and its transfer awaits an answer. -/
def shown : State :=
  let m : BoardModule := { BoardModule.powerOn with mapping := some ⟨214, FieldSet.ofByte 0x1F, 3⟩ }
  let b : BoardLine := { BoardLine.powerOn with
    modules := BoardLine.powerOn.modules.set 0 m
    inFlight := some ⟨.refresh 0 214 (FieldSet.ofByte 0x1F), [], some 2⟩ }
  let t : State := trading.setRecords [(214, { krt with rows := [0] })]
  t.setBoard 0 b

/-- A checked frame that completes at the next character, with the card that has taken the others. -/
def almost (s : State) (body : Text) : State :=
  let f := frameOf body
  { s with feed := { s.feed with assembler := .check body (some f.checkHigh) false } }

/-! ### WellFormed refuses each ill-formed command -/

theorem test_quoteRequest_symbol_width : WellFormed (.quoteRequest 0 [0x41]) = false := by decide
theorem test_watchAdd_symbol_width : WellFormed (.watchAdd 0 [0x41, 0x42, 0x43, 0x44, 0x45]) = false := by decide
theorem test_watchDrop_symbol_width : WellFormed (.watchDrop 0 []) = false := by decide
theorem test_alertSet_symbol_width : WellFormed (.alertSet 0 0 [0x41] 1 0 0) = false := by decide
theorem test_badRequest_is_bad : WellFormed (.requestBadOperation 0 [0x05, 0x03]) = false := by decide
theorem test_badRequest_length : WellFormed (.requestBadOperation 0 (List.replicate 256 0x77)) = false := by
  decide +kernel

/-! ### Worked values of the manual -/

/-- R45: the register after 31h to 39h holds BB3Dh. -/
theorem test_crc_worked : crcOf [0x31, 0x32, 0x33, 0x34, 0x35, 0x36, 0x37, 0x38, 0x39] = 0xBB3D#16 := by
  decide +kernel

/-- R2, worked normalisations. -/
theorem test_normalise_worked :
    normalise 34 5 3 = some 8864 ∧ normalise 127 7 4 = some 32624 ∧ normalise 9999 255 8 = some 2559999
      ∧ normalise 0 1 8 = some 1 ∧ normalise 0 0 3 = none ∧ normalise 12 3 1 = none ∧ normalise 10000 0 1 = none
      ∧ normalise 5 1 9 = none := by decide

/-- R6, worked renderings: "34 5/8", "127 3/8", "127 7/16", "9999 63/64", "120". -/
theorem test_price_worked :
    priceText 8 8864 = [0x33, 0x34, 0x20, 0x35, 0x2F, 0x38]
      ∧ priceText 8 32624 = [0x31, 0x32, 0x37, 0x20, 0x33, 0x2F, 0x38]
      ∧ priceText 64 32624 = [0x31, 0x32, 0x37, 0x20, 0x37, 0x2F, 0x31, 0x36]
      ∧ priceText 64 2559999 = [0x39, 0x39, 0x39, 0x39, 0x20, 0x36, 0x33, 0x2F, 0x36, 0x34]
      ∧ priceText 16 30720 = [0x31, 0x32, 0x30] := by decide +kernel

/-- R7, worked changes: "+3/4", "-1/8", "0", "+2 5/16", "-5". -/
theorem test_change_worked :
    changeText 8 192 = [0x2B, 0x33, 0x2F, 0x34] ∧ changeText 8 (-32) = [0x2D, 0x31, 0x2F, 0x38]
      ∧ changeText 8 (-20) = [0x30] ∧ changeText 16 600 = [0x2B, 0x32, 0x20, 0x35, 0x2F, 0x31, 0x36]
      ∧ changeText 8 (-1280) = [0x2D, 0x35] := by decide +kernel

/-- R8: "4 5/8", "0", "9 63/64". -/
theorem test_dropped_worked :
    droppedText 8 8864 = [0x34, 0x20, 0x35, 0x2F, 0x38] ∧ droppedText 16 30720 = [0x30]
      ∧ droppedText 64 2559999 = [0x39, 0x20, 0x36, 0x33, 0x2F, 0x36, 0x34] := by decide +kernel

/-- R81, the two print starts of section 4.6, and the fall of S after the rush of section 4.11. -/
theorem test_lateness_worked :
    smooth 2400 122000 118200 = 2575 ∧ smooth 2575 122121 121121 = 2378 ∧ smooth 9502 5500 0 = 9001
      ∧ decideLevel Thresholds.default 1 4428 = 1 ∧ decideLevel Thresholds.default 1 7857 = 2
      ∧ decideLevel Thresholds.default 2 5310 = 2 ∧ decideLevel Thresholds.default 3 9001 = 3
      ∧ decideLevel Thresholds.default 3 8550 = 2 := by decide

/-- Section 4.6: "GX 4 1/8" and separator, 10 characters at level 2; section 4.11: "103L" appears at the block
size. -/
theorem test_print_worked :
    (itemText 2 100 [] (.print 5 [0x47, 0x58] 8 8736 150 .none)).length = 10
      ∧ (itemText 3 100 [] (.print 214 krtSymbol 8 8864 500 .none)).length = 11
      ∧ (itemText 3 100 [] (.print 214 krtSymbol 8 8864 10300 .none)).length = 16
      ∧ (itemText 3 100 [] (.print 214 krtSymbol 8 8864 400 .star)).length = 12 := by decide +kernel

/-- Section 11: the TRADE of issue 214 at 34 5/8, 1,200 shares, on the line: 19 characters. -/
def tradeBody : Text := [0x31, 0x00, 0x29, 0x00, 0xD6, 0x00, 0x22, 0x05, 0x03, 0x00, 0x00, 0x04, 0xB0, 0x00]

theorem test_trade_frame_length : (wireChars (frameOf tradeBody)).length = 19 := by decide +kernel

/-- The example of section 3.3: a HEARTBEAT numbered 150 is sent with a fill character and taken whole. -/
theorem test_heartbeat_with_fill :
    (assembleAll .hunt (0x96 :: wireChars (frameOf [0x30, 0x00, 0x96]))).2.getLast? =
      some (.frame (frameOf [0x30, 0x00, 0x96])) := by decide +kernel

/-- The same example: a sync pair inside a frame is one failure, and the assembler stands SYNCED. -/
theorem test_sync_pair_in_body :
    assembleAll .hunt [0x96, 0x96, 0x0E, 0x31, 0x00, 0x42, 0x01, 0x96, 0x96] =
      (.synced, List.replicate 8 .nothing ++ [.failure]) := by decide

/-- R203: ACCEPT, HOLD and any other character of a module. -/
theorem test_board_answers :
    boardAnswer 2 0x06 = .accept 2 ∧ boardAnswer 2 0x13 = .hold 2
      ∧ boardAnswer 2 0x15 = .boardOtherCharacter 2 0x15 := by decide

/-- R203: the answers of a terminal, with the sum of the length and the request. -/
theorem test_terminal_answers :
    terminalAnswer 1 [0x04] = some (.nothing 1)
      ∧ terminalAnswer 1 [0x05, 0x05, 0x01, 0x4B, 0x52, 0x54, 0x20, 0x17] =
          some (.quoteRequest 1 [0x4B, 0x52, 0x54, 0x20])
      ∧ terminalAnswer 1 [0x05, 0x05, 0x01, 0x4B, 0x52, 0x54, 0x20, 0x18] = none
      ∧ terminalAnswer 1 [0x05, 0x02, 0x05, 0x03, 0x0A] = some (.alertClear 1 0x03)
      ∧ terminalAnswer 1 [0x05, 0x01, 0x05, 0x06] = some (.requestBadOperation 1 [0x05]) := by decide

/-! ### One step of a command -/

/-- The worked print of chapter 1: KRT up from 33 7/8 to 34 5/8 is +3/4, UP, 1,200 shares. -/
theorem test_trade_step :
    (findRecord (after (exec .trade (handed trading (.data .trade) tradeBody))).issues.records 214).map
        (fun r => (r.last, r.netChange, r.tick, r.volume, r.high)) =
      some (8864, 192, .up, 1200, some 8864) := by decide +kernel

/-- R11: a print of volume 0 is refused and counted. -/
theorem test_trade_zero_volume_refused :
    (after (exec .trade (handed trading (.data .trade)
      [0x31, 0, 0x29, 0, 0xD6, 0, 0x22, 5, 3, 0, 0, 0, 0, 0]))).feed.counts.refused = 1 := by decide +kernel

/-- R54: a HEARTBEAT is taken and leaves no verdict. -/
theorem test_heartbeat_step :
    (after (exec .heartbeat (handed trading (.data .heartbeat) [0x30, 0, 1]))).feed.handOver = [] := by decide +kernel

/-- R31: an out-of-sequence print adds its volume and leaves last. -/
theorem test_late_step :
    (findRecord (after (exec .outOfSequenceTrade (handed trading (.data .trade)
        [0x31, 0, 0x29, 0, 0xD6, 0, 0x22, 5, 3, 0, 0, 4, 0xB0, 1]))).issues.records 214).map
        (fun r => (r.last, r.volume)) = some (8672, 1200) := by decide +kernel

/-- R38: LOAD ISSUE of issue 1 as "A" in eighths at 1 price unit; its reply is DONE. -/
theorem test_loadIssue_step :
    ((after (exec .loadIssue (asked card [0x01, 0, 1, 0x41, 0x20, 0x20, 0x20, 8, 0, 0, 1, 1, 0]))).issues.records.map
        fun p => (p.1, p.2.symbol, p.2.last, p.2.eligA, p.2.eligB)) = [(1, [0x41], 1, true, false)] := by decide +kernel

/-- R87: a normal rate of 3 is clamped to 4 and the channel keeps its working block size until a print start. -/
theorem test_setTape_clamps :
    (tapeOperands ([0x40, 3, 9, 9, 0x41, 3, 41, 1, 44, 1, 2, 88, 1, 0, 120, 2, 0, 150, 1, 1, 194, 1, 3, 132, 1] ++
        [0, 0, 0, 0, 0, 0, 0, 5])).normal = 4 := by decide +kernel

/-- R186: READ UNIT's data opens with the unit address, the model code 0104h and the revision. -/
theorem test_readUnit_step :
    ((after (exec .readUnit (asked { card with upstream := { card.upstream with readyAbove := false } }
        [0x10, 0x08]))).upstream.replies.map fun f => f.take 10) =
      [[0x42, 0x03, 0x01, 0x00], [0x41, 0x03, 0x09, 0x10, 0x08, 0x00, 0x03, 0x01, 0x04, 0x01]] := by decide +kernel

/-- R189 and 10.7: an addressed operation holds its claim between two steps, and a notice that meets it joins ahead
of the reply. -/
theorem test_claim_held :
    let s : State := handed { card with upstream := { card.upstream with readyAbove := false, replies := [] } }
      (.control true) [0x40, 0x03, 0x09, 0x0E]
    let t := after (exec .clearCounts s)
    let u : State := { t with upstream := t.upstream.offer [0x42, 0x03, 0x03] }
    t.upstream.claims = 1 ∧ t.control.inHand = some ⟨[0x40, 0x03, 0x09, 0x0E], 1⟩
      ∧ (after (exec .clearCounts u)).upstream.replies =
          [[0x42, 0x03, 0x03], [0x41, 0x03, 0x09, 0x0E, 0x00, 0x00]]
      ∧ (after (exec .clearCounts u)).upstream.claims = 0 := by decide +kernel

/-- R197 and R203: ON is 1 and OFF is 0, and drop 7 is polled with 77h. -/
theorem test_codes_and_poll : phaseCode .on = 1 ∧ phaseCode .off = 0 ∧ pollChar 7 = 0x77 ∧ pollChar 0 = 0x70 := by
  decide

/-- R131: an answer to a transaction cut by a disable is taken for a DISABLED terminal's, also when the terminal has
been enabled again. -/
theorem test_cut_answer :
    let t := unheard .unknown (.pollWait 10) true
    ((after (exec (.nothing 0) t)).terminals[0]).state = .unknown := by decide +kernel

/-- R104: ACCEPT makes the module LIVE. -/
theorem test_accept_step :
    (((after (exec (.accept 0) shown)).boards[0]).modules[0]).state = .live := by decide +kernel

/-- R106, R108: the third missed answer in a row makes the module DARK. -/
theorem test_third_miss_dark :
    let b := shown.boards[0]
    let m := b.modules[0]
    let s := shown.setBoard 0 { b with
      modules := b.modules.set 0 { m with timeouts := 2 }
      inFlight := some ⟨.refresh 0 214 .empty, [], some 0⟩ }
    (((after (exec (.boardAnswerWaitExpiry 0) s)).boards[0]).modules[0]).state = .dark := by decide +kernel

/-- R140: QUOTE of KRT from terminal 0 is answered TAKEN, and the reply is carried at once. -/
theorem test_quote_request_step :
    let t := after (exec (.quoteRequest 0 [0x4B, 0x52, 0x54, 0x20]) awaited)
    (t.termLines[0]).lastAck = some 0x06 ∧ (t.terminals[0]).queue.length = 1 := by decide +kernel

/-- R189: a frame from below that passes its check joins the pass-through buffer and is begun. -/
theorem test_upstream_frame_passed :
    let f := frameOf [0x41, 0x07]
    let u : UpstreamPort := { card.upstream with replies := [], assembler := .check f.body (some f.checkHigh) false }
    (after (exec (.upstreamInCharacter f.checkLow) { card with upstream := u })).upstream.transmitting =
      some (.passed, f) := by decide +kernel

/-- R13: the clock wraps. -/
theorem test_clock_wraps :
    let s : State := { card with issues := { card.issues with clock := 0xFFFFFFFF } }
    (after (exec .marketClockTick s)).issues.clock = 0 := by decide +kernel

/-! ### A state and operands that meet the premises of each statement -/

theorem witness_CommandsAnswer :
    exec (.boardOtherCharacter 0 0) State.reset = .next State.reset
      ∧ (assemble (.check [0x41, 0x07] (some (frameOf [0x41, 0x07]).checkHigh) false) (frameOf [0x41, 0x07]).checkLow).2
          = .frame (frameOf [0x41, 0x07]) := ⟨rfl, by decide +kernel⟩

/-- The highest and the lowest price, the number 0, and numbers at the ends of their widths. -/
theorem witness_NumbersReadAndWritten :
    (normalise 9999 255 8 = some 2559999 ∧ normalise 0 1 8 = some 1) ∧ (decimal 0).head? = some 0x30
      ∧ 65535 < 256 ^ 2
      ∧ (-(2 ^ 31) ≤ (-2147483648 : Int) ∧ (-2147483648 : Int) < 2 ^ 31) := by decide

/-- A price in eighths and in sixty-fourths, a change of less than one eighth, and one of either sign. -/
theorem witness_PriceTextsWritten :
    (8 ∈ [8, 16, 32, 64] ∧ 64 ∈ [8, 16, 32, 64]) ∧ 5 * 8 = (160 % 256) / (256 / 8) * 8
      ∧ ((-20 : Int).natAbs = 20 ∧ 20 / 256 = 0 ∧ (20 % 256) / (256 / 8) = 0) ∧ (-1280 : Int).natAbs / 256 ≠ 0 := by
  decide

theorem witness_AssemblerMoves :
    (2 ≤ (0x02 : Byte).toNat ∧ (0x3C : Byte).toNat ≤ 60 ∧ (0x01 : Byte).toNat < 2 ∧ 60 < (0x3D : Byte).toNat)
      ∧ (0x00 : Byte) ≠ 0x96 ∧ (0x01 : Byte) ≠ 0x00
      ∧ (assemble State.reset.feed.assembler 0x30).2 = .nothing
      ∧ (assemble .synced 0x01).2 = .failure := by decide

theorem witness_FrameRoundTrip :
    2 ≤ (List.replicate 2 (0x96 : Byte)).length ∧ (List.replicate 60 (0x96 : Byte)).length ≤ 60 := by decide

/-- A LIVE card before the last character of a TRADE: its number expected, another expected, and a full hand-over
queue; the body has exactly the length of its type. The ends of the alternate codes, and of the types that are no data
message's. -/
theorem witness_DataMessageChecked :
    let s : State := almost trading tradeBody
    let t : State := { s with feed := { s.feed with lock := true, expected := 0x28 } }
    (assemble s.feed.assembler (frameOf tradeBody).checkLow).2 = .frame (frameOf tradeBody)
      ∧ kindOf s.control.altCode (byteAt tradeBody 0) = some .trade ∧ kindLength .trade = tradeBody.length
      ∧ s.feed.feedState = .live ∧ s.feed.lock = false
      ∧ (0x50 ≤ (0x50 : Byte).toNat ∧ (0x5F : Byte).toNat ≤ 0x5F ∧ (0x2F : Byte).toNat < 0x30
        ∧ 0x36 < (0x37 : Byte).toNat)
      ∧ (t.feed.lock = true ∧ t.feed.expected ≠ byteAt tradeBody 2
        ∧ (List.replicate 31 (⟨.data .heartbeat, [], 0⟩ : Handed)).length < 32
        ∧ 32 ≤ (List.replicate 32 (⟨.data .heartbeat, [], 0⟩ : Handed)).length) := by decide +kernel

/-- A checked frame for this card, one for another, and a through queue of 3 and of 4. -/
theorem witness_ThroughPathFollowed :
    (assemble (almost card [0x40, 0x03, 0x09]).feed.assembler (frameOf [0x40, 0x03, 0x09]).checkLow).2 =
        .frame (frameOf [0x40, 0x03, 0x09])
      ∧ (byteAt [0x40, 0x03, 0x09] 0 = 0x40 ∧ byteAt [0x40, 0x03, 0x09] 1 = card.unitSwitch ∧ card.unitSwitch ≠ 0)
      ∧ byteAt [0x40, 0x04, 0x09] 1 ≠ card.unitSwitch ∧ card.throughSwitch = true
      ∧ card.feed.through = [] ∧ card.feed.transmitting = none
      ∧ (∀ x ∈ [(⟨frameOf [], 1, true⟩ : ThroughEntry)], x.doomed = true) := by decide +kernel

/-- Broadcast, addressed, passed by, of 2 characters, and of no known type; a QUOTE of 2 characters and a message of
type 36h while no alternate code stands. -/
theorem witness_OtherMessagesSorted :
    (assemble (almost card [0x40, 0x00, 0x09]).feed.assembler (frameOf [0x40, 0x00, 0x09]).checkLow).2 =
        .frame (frameOf [0x40, 0x00, 0x09])
      ∧ isDataType card.control.altCode 0x40 = false ∧ isDataType card.control.altCode 0x37 = false
      ∧ (3 ≤ ([0x40, 0x00, 0x09] : Text).length ∧ ¬ 3 ≤ ([0x40, 0x00] : Text).length)
      ∧ (byteAt [0x40, 0x04, 0x09] 1 ≠ 0 ∧ byteAt [0x40, 0x04, 0x09] 1 ≠ card.unitSwitch)
      ∧ (assemble (almost card [0x32, 0x00]).feed.assembler (frameOf [0x32, 0x00]).checkLow).2 =
          .frame (frameOf [0x32, 0x00])
      ∧ isDataType card.control.altCode 0x32 = true ∧ kindOf card.control.altCode 0x32 = some .quote
      ∧ ([0x32, 0x00] : Text).length < kindLength .quote
      ∧ isDataType card.control.altCode 0x36 = true ∧ kindOf card.control.altCode 0x36 = none := by decide +kernel

/-- The first data message of a QUIET feed, of 2 characters and of its full length; hand-over queues of 31 and of 32;
a silence timer that has run out, and one that has not. -/
theorem witness_FeedStateChanges :
    let s : State := almost { trading with feed := { trading.feed with feedState := .quiet } } [0x30, 0x00]
    (assemble s.feed.assembler (frameOf [0x30, 0x00]).checkLow).2 = .frame (frameOf [0x30, 0x00])
      ∧ isDataType s.control.altCode 0x30 = true ∧ s.feed.feedState = .quiet ∧ s.feed.lock = false
      ∧ s.issues.session = .opened
      ∧ (kindOf s.control.altCode 0x30 = some .heartbeat ∧ kindLength .heartbeat ≤ ([0x30, 0x00, 0x07] : Text).length
        ∧ ¬ kindLength .heartbeat ≤ ([0x30, 0x00] : Text).length)
      ∧ (assemble (almost card [0x30, 0x00, 0x07]).feed.assembler (frameOf [0x30, 0x00, 0x07]).checkLow).2 =
          .frame (frameOf [0x30, 0x00, 0x07])
      ∧ (List.replicate 31 (⟨.data .heartbeat, [], 0⟩ : Handed)).length < 32
      ∧ 32 ≤ (List.replicate 32 (⟨.data .heartbeat, [], 0⟩ : Handed)).length
      ∧ ({ trading.feed with silence := some 0 } : FeedReceiver).silence = some 0
      ∧ trading.feed.silence ≠ some 0 := by decide +kernel

/-- The trades of section 11 and a price and volume at the ends of their ranges. -/
theorem witness_TradeApplied :
    (handed trading (.data .trade) tradeBody).DataTurn .trade tradeBody []
      ∧ (byteAt tradeBody 13).getLsbD 0 = false ∧ trading.issues.session = .opened
      ∧ listed trading (readNat tradeBody 3 2) = some krt ∧ feedPriceAt tradeBody 5 = some 8864
      ∧ readNat tradeBody 9 4 ≠ 0 := ⟨⟨rfl, 1, rfl⟩, by decide +kernel⟩

theorem witness_VolumePrintsApplied :
    let late : Text := [0x31, 0, 1, 0, 0xD6, 0x27, 0x0F, 0xFF, 0x08, 0xFF, 0xFF, 0xFF, 0xFF, 1]
    (handed trading (.data .trade) late).DataTurn .trade late []
      ∧ (handed trading (.data .alternate) late).DataTurn .alternate late []
      ∧ (byteAt late 13).getLsbD 0 = true ∧ listed trading (readNat late 3 2) = some krt
      ∧ feedPriceAt late 5 = some 2559999 ∧ readNat late 9 4 ≠ 0 := ⟨⟨rfl, 1, rfl⟩, ⟨rfl, 1, rfl⟩, by decide +kernel⟩

/-- Both sides accepted, a present bid that is refused, and an ISSUE STATUS of HALT. -/
theorem witness_QuotesAndStatusApplied :
    let both : Text := [0x32, 0, 1, 0, 0xD6, 3, 0, 0x22, 4, 3, 0, 0x22, 6, 3]
    let bad : Text := [0x32, 0, 1, 0, 0xD6, 1, 0, 0, 0, 3, 0, 0, 0, 0]
    let halt : Text := [0x33, 0, 1, 0, 0xD6, 1]
    (handed trading (.data .quote) both).DataTurn .quote both []
      ∧ (handed trading (.data .quote) bad).DataTurn .quote bad []
      ∧ (handed trading (.data .issueStatus) halt).DataTurn .issueStatus halt []
      ∧ ((feedPriceAt both 6).isSome = true ∧ (feedPriceAt both 10).isSome = true)
      ∧ ((byteAt bad 5).getLsbD 0 = true ∧ feedPriceAt bad 6 = none)
      ∧ listed trading (readNat halt 3 2) = some krt ∧ byteAt halt 5 = 0x01 :=
  ⟨⟨rfl, 1, rfl⟩, ⟨rfl, 1, rfl⟩, ⟨rfl, 1, rfl⟩, by decide +kernel⟩

/-- A correction of 34 5/8 to 33 7/8: applied where the issue has traded at 34 5/8, else mismatched. -/
theorem witness_CorrectionApplied :
    let fix : Text := [0x34, 0, 1, 0, 0xD6, 0, 0x22, 5, 3, 0, 0x21, 7, 3]
    let traded : IssueRecord := { krt with traded := true, last := 8864 }
    (handed trading (.data .correction) fix).DataTurn .correction fix []
      ∧ listed (trading.setRecords [(214, traded)]) (readNat fix 3 2) = some traded
      ∧ feedPriceAt fix 5 = some 8864 ∧ feedPriceAt fix 9 = some 8672
      ∧ (traded.traded = true ∧ traded.last = 8864) ∧ ¬ (krt.traded = true ∧ krt.last = 8864) :=
  ⟨⟨rfl, 1, rfl⟩, by decide +kernel⟩

theorem witness_UnappliedMessagesCounted :
    let free : Text := [0x31, 0, 1, 0, 0xD7, 0, 0x22, 5, 3, 0, 0, 4, 0xB0, 0]
    let odd : Text := [0x33, 0, 1, 0, 0xD6, 3]
    let event : Text := [0x35, 0, 1, 3, 0, 0, 0, 0, 0]
    let correction : Text := [0x34, 0, 1, 0, 0xD6, 0, 0, 0, 3, 0, 0x21, 7, 3]
    (handed card (.data .heartbeat) [0x30, 0, 1]).DataTurn .heartbeat [0x30, 0, 1] []
      ∧ (handed card (.data .trade) free).DataTurn .trade free []
      ∧ (handed trading (.data .issueStatus) odd).DataTurn .issueStatus odd []
      ∧ (handed trading (.data .market) event).DataTurn .market event []
      ∧ (handed trading (.data .correction) correction).DataTurn .correction correction []
      ∧ (trading.issues.session = .opened ∧ (listed trading (readNat correction 3 2)).isSome = true
        ∧ feedPriceAt correction 5 = none ∧ (feedPriceAt correction 9).isSome = true)
      ∧ card.issues.session = .closed ∧ listed trading (readNat free 3 2) = none
      ∧ (byteAt odd 5 ≠ 1 ∧ byteAt odd 5 ≠ 2) ∧ (byteAt event 3 ≠ 1 ∧ byteAt event 3 ≠ 2)
      ∧ readNat [0x31, 0, 1, 0, 0xD6, 0, 0x22, 5, 3, 0, 0, 0, 0, 0] 9 4 = 0 :=
  ⟨⟨rfl, 1, rfl⟩, ⟨rfl, 1, rfl⟩, ⟨rfl, 1, rfl⟩, ⟨rfl, 1, rfl⟩, ⟨rfl, 1, rfl⟩, by decide +kernel⟩

/-- An open and a close, with the feed LIVE and QUIET. -/
theorem witness_MarketMessagesApplied :
    let opens : Text := [0x35, 0, 1, 1, 3, 0, 0, 0, 9]
    let closes : Text := [0x35, 0, 1, 2, 0, 0, 0, 0, 0]
    (handed card (.data .market) opens).DataTurn .market opens [] ∧ byteAt opens 3 = 1
      ∧ (handed trading (.data .market) closes).DataTurn .market closes [] ∧ byteAt closes 3 = 2
      ∧ trading.feed.feedState = .live
      ∧ ({ trading.feed with feedState := .quiet } : FeedReceiver).feedState = .quiet :=
  ⟨⟨rfl, 1, rfl⟩, rfl, ⟨rfl, 1, rfl⟩, by decide +kernel⟩

/-- An addressed read at the head, with 7 and with 8 places taken, a broadcast one, an operation in hand, and the
shortest and the longest body that is too short. -/
theorem witness_ControlMessagesTaken :
    let unit : Text := [0x40, 0x03, 0x09, 0x10, 0x08]
    card.control.inHand = none ∧ (.readUnit, 0x10, some 0x08) ∈ operationCodes
      ∧ (.loadIssue, 0x01, none) ∈ operationCodes
      ∧ carries unit (.readUnit, 0x10, some 0x08)
      ∧ carries (0x40 :: 0x03 :: 0x09 :: 0x01 :: List.replicate 11 0) (.loadIssue, 0x01, none)
      ∧ carries [0x40, 0x03, 0x09, 0x01] (.loadIssue, 0x01, none)
      ∧ (handed card (.control true) unit).feed.handOver = ⟨.control true, unit, 1⟩ :: []
      ∧ (handed card (.control false) unit).feed.handOver = ⟨.control false, unit, 1⟩ :: []
      ∧ (asked card [0x10, 0x08]).control.inHand = some ⟨unit, 1⟩
      ∧ (0x40 :: 0x03 :: 0x09 :: 0x01 :: List.replicate 11 (0 : Byte)).length < 16
      ∧ (asked card [0x01]).ControlTurn true [0x40, 0x03, 0x09, 0x01] 1 []
      ∧ (List.replicate 7 ([0x42] : Text)).length + card.upstream.claims < 8
      ∧ 8 ≤ (List.replicate 8 ([0x42] : Text)).length + card.upstream.claims := by
  refine ⟨rfl, by decide, by decide, ⟨by decide, rfl, ?_⟩, ⟨by decide, rfl, ?_⟩, ⟨by decide, rfl, ?_⟩, rfl, rfl, rfl,
    by decide, ⟨rfl, rfl⟩, by decide, by decide⟩
  · rintro t rfl_; cases rfl_; decide
  all_goals intro t h; cases h

/-- No code, an unknown code, a READ with no table and with an unknown one. -/
theorem witness_NoOperationRefused :
    (asked card []).ControlTurn true [0x40, 0x03, 0x09] 1 []
      ∧ (asked card [0x11]).ControlTurn true [0x40, 0x03, 0x09, 0x11] 1 []
      ∧ (asked card [0x10]).ControlTurn true [0x40, 0x03, 0x09, 0x10] 1 []
      ∧ (asked card [0x10, 0x09]).ControlTurn true [0x40, 0x03, 0x09, 0x10, 0x09] 1 []
      ∧ (handed card (.control false) [0x40, 0x00, 0x09]).ControlTurn false [0x40, 0x00, 0x09] 1 []
      ∧ (handed card (.control true) [0x40, 0x03, 0x09]).feed.handOver = ⟨.control true, [0x40, 0x03, 0x09], 1⟩ :: []
      ∧ 0x10 < (0x11 : Byte).toNat ∧ 8 < (0x09 : Byte).toNat := by decide +kernel

/-- LOAD ISSUE of a FREE issue 1 and of issue 1023, at the lowest and the highest close; issue 0, a close of 0, and a
symbol held elsewhere; an issue that is not LISTED, one in use and one that is not. -/
theorem witness_IssueOperationsTaken :
    let low : Text := [0x40, 0x03, 0x09, 0x01, 0, 1, 0x41, 0x20, 0x20, 0x20, 8, 0, 0, 1, 1, 0]
    let high : Text := [0x40, 0x03, 0x09, 0x01, 3, 0xFF, 0x41, 0x42, 0x43, 0x44, 64, 0x27, 0x0F, 0xFF, 0, 1]
    let zero : Text := [0x40, 0x03, 0x09, 0x01, 0, 0, 0x41, 0x20, 0x20, 0x20, 8, 0, 0, 1, 1, 0]
    let bad : Text := [0x40, 0x03, 0x09, 0x01, 0, 1, 0x41, 0x20, 0x20, 0x20, 8, 0, 0, 0, 1, 0]
    let twice : Text := [0x40, 0x03, 0x09, 0x01, 0, 1, 0x4B, 0x52, 0x54, 0x20, 8, 0, 0, 1, 1, 0]
    (held card low).ControlTurn true low 1 [] ∧ (handed card (.control false) high).ControlTurn false high 1 []
      ∧ (readNat low 4 2 = 1 ∧ readNat low 11 3 = 1 ∧ symbolAt low 6 = some [0x41] ∧ yesNo (byteAt low 14) = some true)
      ∧ (readNat high 4 2 = 1023 ∧ readNat high 11 3 = 2559999 ∧ symbolAt high 6 = some [0x41, 0x42, 0x43, 0x44])
      ∧ byteAt high 10 ∈ [0x08#8, 0x10#8, 0x20#8, 0x40#8]
      ∧ (∀ p ∈ card.issues.records, p.2.symbol = [0x41] → p.1 = 1) ∧ recordsOk trading.issues.records = true
      ∧ (held trading zero).ControlTurn true zero 1 [] ∧ readNat zero 4 2 = 0 ∧ readNat bad 11 3 = 0
      ∧ (∃ p ∈ trading.issues.records, p.1 ≠ 1 ∧ some p.2.symbol = symbolAt twice 6)
      ∧ listed trading 1 = none ∧ listed trading 214 = some krt ∧ krt.rows = []
      ∧ ({ krt with rows := [0] } : IssueRecord).rows ≠ [] := by decide +kernel

/-- SET ROW 0.0 to KRT, the blank row 3.31, a line 4, a mask with bit 5, and an issue on 4 other rows. -/
theorem witness_SetRowActs :
    let map : Text := [0x40, 0x03, 0x09, 0x03, 0, 0, 0, 0, 0xD6, 0x1F, 3]
    let blank : Text := [0x40, 0x03, 0x09, 0x03, 3, 31, 1, 0, 0, 0, 0]
    let line : Text := [0x40, 0x03, 0x09, 0x03, 4, 0, 0, 0, 0xD6, 0x1F, 3]
    (held trading map).ControlTurn true map 1 [] ∧ (byteAt map 4).toNat = (0 : LineNo).val
      ∧ ((byteAt map 9).toNat &&& 0xE0 = 0 ∧ (byteAt map 9).toNat &&& 0x1F ≠ 0 ∧ (byteAt map 10).toNat ≤ 3)
      ∧ (listed trading (readNat map 7 2) = some krt ∧ (krt.rows.filter (· ≠ rowOf 0 0)).length < 4)
      ∧ ((byteAt blank 4).toNat = (3 : LineNo).val ∧ (byteAt blank 5).toNat = (31 : ModuleNo).val
        ∧ byteAt blank 6 = 0x01)
      ∧ 3 < (byteAt line 4).toNat ∧ ((0x3F : Byte).toNat &&& 0xE0 ≠ 0)
      ∧ 4 ≤ (([1, 2, 3, 4] : List RowNo).filter fun q => q.val ≠ 0 * 32 + 0).length := by decide +kernel

/-- ADD WATCH at terminals 31 and 32; a list of 23 and of 24 issues; a SET WATCH LIST of 6 characters with a count of
0 and of 1, and one character short. -/
theorem witness_WatchOperationsTaken :
    let add : Text := [0x40, 0x03, 0x09, 0x05, 31, 0, 0xD6]
    let set : Text := [0x40, 0x03, 0x09, 0x04, 0, 1, 0, 0xD6]
    (held trading add).ControlTurn true add 1 [] ∧ (byteAt add 4).toNat = (31 : TermNo).val
      ∧ (listed trading (readNat add 5 2)).isSome = true ∧ 214 ∉ trading.watchIssues 31
      ∧ 31 < (0x20 : Byte).toNat
      ∧ (6 + 2 * 1 ≤ set.length ∧ readIssues set 6 1 = [214] ∧ [214].Nodup)
      ∧ (held trading (set.take 6)).ControlTurn true (set.take 6) 1 []
      ∧ (6 ≤ (set.take 6).length ∧ (set.take 7).length < 6 + 2 * (byteAt (set.take 6) 5).toNat
        ∧ 6 + 2 * 0 ≤ (set.take 6).length)
      ∧ (¬ [214, 214].Nodup ∧ 24 < (25 : Nat) ∧ 24 ≤ (List.range 24).length) := by decide +kernel

/-- SET ALERT HALTED, negated, at slot 7: it holds at once while KRT trades; slots 8, condition 9, limit 0. -/
theorem witness_AlertOperationsTaken :
    let set : Text := [0x40, 0x03, 0x09, 0x07, 0, 7, 0, 0xD6, 8, 1, 0, 0, 0, 0]
    let a : AlertSetting := ⟨false, 214, .halted, true, 0, false⟩
    (held trading set).ControlTurn true set 1 [] ∧ (byteAt set 5).toNat = (7 : SlotNo).val
      ∧ conditionOf (byteAt set 8) = some .halted ∧ yesNo (byteAt set 9) = some true
      ∧ listed trading (readNat set 6 2) = some krt ∧ limitOk .halted (readInt32 set 10) = true
      ∧ limitOk .lastAbove 0 = false ∧ a.holds krt = true
      ∧ ({ a with negate := false } : AlertSetting).holds krt = false
      ∧ (7 < (0x08 : Byte).toNat ∧ conditionOf 0x09 = none)
      ∧ ((awaited.terminals[0]).queue.length < 8 ∧ (awaited.terminals[0]).state ≠ .disabled)
      ∧ (card.terminals[0]).state = .disabled := by decide +kernel

/-- SET TAPE with the default thresholds, and with up_1 at up_2. -/
theorem witness_SetTapeLoads :
    let good : Text := [0x40, 0x03, 0x09, 0x09, 0x41, 12, 20, 1, 44, 1, 2, 88, 1, 0, 120, 2, 0, 150, 1, 1, 194, 1, 3,
      132, 1, 0, 0, 100, 0, 0, 0, 0, 60]
    (held card good).ControlTurn true good 1 [] ∧ 33 ≤ good.length ∧ byteAt good 4 = 0x41
      ∧ (tapeOperands good).thresholds.ok = true
      ∧ ({ Thresholds.default with up1 := ⟨600, 1⟩ } : Thresholds).ok = false := by decide +kernel

/-- A flash list of KRT, of KRT twice, of a FREE issue, of 17 issues, and with no character for its one issue; an
alternate code of 50h, 5Fh and 60h. -/
theorem witness_ParametersLoaded :
    let list : Text := [0x40, 0x03, 0x09, 0x0A, 1, 0, 0xD6]
    (held trading list).ControlTurn true list 1 [] ∧ 5 + 2 * 1 ≤ list.length
      ∧ (readIssues list 5 1 = [214] ∧ (listed trading 214).isSome = true) ∧ ¬ [214, 214].Nodup
      ∧ listed trading 0 = none ∧ 16 < (0x11 : Byte).toNat
      ∧ (held trading (list.take 5)).ControlTurn true (list.take 5) 1 []
      ∧ (5 ≤ (list.take 5).length ∧ (list.take 6).length < 5 + 2 * (byteAt (list.take 5) 4).toNat)
      ∧ (0x50 ≤ (0x50 : Byte).toNat ∧ (0x5F : Byte).toNat ≤ 0x5F ∧ ¬ (0x60 : Byte).toNat ≤ 0x5F) := by decide +kernel

theorem witness_SetTerminalActs :
    let enable : Text := [0x40, 0x03, 0x09, 0x0D, 31, 1]
    (held card enable).ControlTurn true enable 1 [] ∧ (byteAt enable 4).toNat = (31 : TermNo).val
      ∧ (card.terminals[31]).state = .disabled ∧ (awaited.terminals[0]).state ≠ .disabled
      ∧ 31 < (0x20 : Byte).toNat ∧ ((0x03 : Byte) ≠ 1 ∧ (0x03 : Byte) ≠ 2) := by decide +kernel

theorem witness_ClearCountsClears :
    (asked card [0x0E]).ControlTurn true [0x40, 0x03, 0x09, 0x0E] 1 [] := by decide +kernel

/-- An addressed RESTART in hand, with messages checked before it and at it, and terminals DISABLED and not. -/
theorem witness_RestartActs :
    (asked card [0x0F]).ControlTurn true [0x40, 0x03, 0x09, 0x0F] 1 [] ∧ card.upstream.readyAbove = true
      ∧ State.reset.upstream.readyAbove = false
      ∧ (1 ≤ (⟨frameOf [], 1, false⟩ : ThroughEntry).serial ∧ (⟨frameOf [], 0, false⟩ : ThroughEntry).serial < 1)
      ∧ (card.terminals[0]).state = .disabled ∧ (awaited.terminals[0]).state ≠ .disabled := by decide +kernel

/-- Each read with its operands at the ends of their ranges and just past them. -/
theorem witness_ReadsAnswer :
    (asked card [0x10, 0x01, 0x03, 0xFF]).ControlTurn true [0x40, 0x03, 0x09, 0x10, 0x01, 0x03, 0xFF] 1 []
      ∧ readNat [0x40, 0x03, 0x09, 0x10, 0x01, 0x03, 0xFF] 5 2 = 1023
      ∧ 1023 < readNat [0x40, 0x03, 0x09, 0x10, 0x01, 0x04, 0x00] 5 2
      ∧ ((0x03 : Byte).toNat = (3 : LineNo).val ∧ 3 < (0x04 : Byte).toNat ∧ 31 < (0x20 : Byte).toNat)
      ∧ ((0x1F : Byte).toNat = (31 : TermNo).val ∧ (0x01 : Byte).toNat ≤ 1 ∧ 1 < (0x02 : Byte).toNat)
      ∧ (0x43 : Byte) ≠ 0x41 ∧ (0x43 : Byte) ≠ 0x42 := by decide +kernel

/-- A record and a module whose lists and counts stand at the ends of their ranges, and part 3 of a line. -/
theorem witness_ReadDataLaid :
    (krt.symbol.length ≤ 4 ∧ ({ krt with rows := [0, 1, 2, 127] } : IssueRecord).rows.length ≤ 4)
      ∧ ({ BoardModule.powerOn with timeouts := 3 } : BoardModule).timeouts ≤ 3
      ∧ (∀ i : ModuleNo, ((shown.boards[0]).modules[i]).timeouts ≤ 3)
      ∧ (∀ d : DropNo, (awaited.terminals[termOf 0 d]).timeouts ≤ 3) := by decide +kernel

/-- The lowest and the highest price, a symbol of 1 and of 4 letters, a volume of 0 and the highest, and a flash
list of 16 issues. -/
theorem witness_TapeTextsRendered :
    (SymbolOk [0x41] ∧ SymbolOk [0x5A, 0x5A, 0x5A, 0x5A]) ∧ (8 ∈ [8, 16, 32, 64] ∧ 64 ∈ [8, 16, 32, 64])
      ∧ (PriceOk 1 ∧ PriceOk 2559999) ∧ (0 ≤ 99999999 ∧ 99999999 ≤ 99999999)
      ∧ (List.range 16).length ≤ 16 ∧ (∀ p ∈ trading.issues.records, p.2.Ok) := by decide +kernel

/-- A print at and below the minimum, one that merges, levels 2 and 3, and queues of 255 and of 256 entries. -/
theorem witness_TapeEntryTaken :
    let i : TapeItem := .print 214 krtSymbol 8 8864 199 .none
    let c : TapeChannel := { card.tapeA with
      arrivals := [i], queue := [⟨i, 0, 11⟩], level := 3, working := { card.tapeA.working with minimum := 2 } }
    let s : State := { card with tapeA := c }
    (s.tape .a).arrivals = i :: [] ∧ 199 / 100 < c.working.minimum ∧ ¬ 200 / 100 < c.working.minimum
      ∧ c.queue.getLast? = some ⟨i, 0, 11⟩ ∧ c.level = 3 ∧ ({ c with level := 2 } : TapeChannel).level < 3
      ∧ c.emission = none
      ∧ (List.replicate 255 (⟨i, 0, 11⟩ : TapeEntry)).length < 256
      ∧ 256 ≤ (List.replicate 256 (⟨i, 0, 11⟩ : TapeEntry)).length := by decide +kernel

theorem witness_PrintStartPaces :
    let c : TapeChannel := { card.tapeA with queue := [⟨.quiet, 0, 7⟩] }
    c.queue = ⟨.quiet, 0, 7⟩ :: [] ∧ c.working.block = c.loaded.block
      ∧ ({ c with loaded := { c.loaded with block := 500 } } : TapeChannel).working.block ≠ 500 := by decide

/-- A last character, a character before it, and a flash timer that has run out. -/
theorem witness_TapeMoves :
    let e : Emission := ⟨[0x41, 0x42], 1⟩
    (e.text.length ≤ e.sent + 1 ∧ 0 + 1 < e.text.length)
      ∧ ({ card.tapeA with emission := some e } : TapeChannel).emission = some e
      ∧ ({ card.tapeA with flashTimer := some 0 } : TapeChannel).flashTimer = some 0
      ∧ card.tapeA.flashTimer ≠ some 0 ∧ card.tapeA.queue.length < 256 := by decide

/-- A module that begins to wait, with the mark register at its end and below it; one that goes on; one that
stops. -/
theorem witness_MarksTaken :
    let m : BoardModule := { BoardModule.powerOn with mapping := some ⟨214, FieldSet.ofByte 1, 0⟩ }
    ({ m with dirty := FieldSet.ofByte 1 } : BoardModule).dirty ≠ .empty ∧ m.mark = none
      ∧ (BoardLine.powerOn.markReg < 65535 ∧ ({ BoardLine.powerOn with markReg := 65535 } : BoardLine).markReg = 65535)
      ∧ ({ m with dirty := FieldSet.ofByte 1, mark := some 7 } : BoardModule).mark.isSome = true
      ∧ (m.dirty = .empty ∧ m.blanking = false) := by decide +kernel

/-- A notice for row 0.0, which shows the field it names, and for terminal 0, which is not DISABLED. -/
theorem witness_NoticesMark :
    let n : ChangeNotice := ⟨214, FieldSet.full, .up, false, [0], 1⟩
    ({ shown with boardNotices := [n] } : State).boardNotices = n :: [] ∧ (shown.boards[0]).inFlight.isSome = true
      ∧ rowOf 0 0 ∈ n.rows ∧ ((shown.boards[0]).modules[0]).state ≠ .dark
      ∧ ({ awaited with terminalNotices := [n] } : State).terminalNotices = n :: []
      ∧ n.watchers.getLsbD (0 : TermNo).val = true ∧ (awaited.terminals[0]).state ≠ .disabled := by decide +kernel

/-- A pending broadcast; a waiting module; a module the sweep finds; and nothing to send. -/
theorem witness_NextTransferChosen :
    let m : BoardModule := { BoardModule.powerOn with mapping := some ⟨214, FieldSet.ofByte 1, 0⟩ }
    let w : BoardModule := { m with dirty := FieldSet.ofByte 1, mark := some 0 }
    BoardLine.powerOn.inFlight = none
      ∧ ({ BoardLine.powerOn with broadcast := some .quiet } : BoardLine).broadcast = some .quiet
      ∧ (w.waits = true ∧ w.backOff = none ∧ w.mapping.isSome = true) ∧ (m.waits = false ∧ m.mapping.isSome = true)
      ∧ BoardLine.powerOn.broadcast = none ∧ (∀ j : ModuleNo, (BoardLine.powerOn.modules[j]).waits = false) := by
  decide +kernel

/-- A transfer that awaits its answer, at a module seen LIVE and DARK, and a broadcast in flight. -/
theorem witness_TransfersEnd :
    (shown.boards[0]).inFlight = some ⟨.refresh 0 214 (FieldSet.ofByte 0x1F), [], some 2⟩
      ∧ (TransferBody.refresh 0 214 (FieldSet.ofByte 0x1F)).module? = some 0
      ∧ (TransferBody.broadcast .quiet).module? = none ∧ (2 + 1 : Nat) = Config.missLimit
      ∧ ((shown.boards[0]).modules[0]).state ≠ .dark
      ∧ ({ BoardModule.powerOn with state := .dark } : BoardModule).state = .dark
      ∧ ({ BoardModule.powerOn with backOff := some 0 } : BoardModule).backOff = some 0
      ∧ (card.boards[0]).inFlight = none ∧ ((card.boards[0]).modules[0]).backOff ≠ some 0 := by decide +kernel

/-- Transfers that are sent, that wait and that are broadcasts; a line with none; each stage of a transaction, which
is none of the others. -/
theorem witness_AnswerWaitsStart :
    let t : Transfer := ⟨.blanking 5, [], none⟩
    let stages : List Stage :=
      [.pollSending 0x70, .pollWait 10, .selectSending ⟨.length, []⟩, .selectWait ⟨.length, []⟩ 10]
    t.wait = none ∧ t.body.module?.isSome = true
      ∧ ({ card.termLines[0] with inFlight := some ⟨0, .pollSending 0x70, false⟩ } : TermLine).inFlight =
          some ⟨0, .pollSending 0x70, false⟩
      ∧ (card.boards[0]).inFlight.bind Transfer.wait = none ∧ (card.termLines[0]).inFlight = none
      ∧ (shown.boards[0]).inFlight.bind Transfer.wait ≠ none
      ∧ (⟨.broadcast .quiet, [], none⟩ : Transfer).body.module? = none
      ∧ (awaited.termLines[0]).inFlight.map Transaction.stage = some (.pollWait 10) ∧ stages.Nodup := by
  decide +kernel

/-- A notice for the row that shows its issue, and phase timers that have run out with 1 and 2 flashes left. -/
theorem witness_LampsMove :
    let n : ChangeNotice := ⟨214, FieldSet.full, .none, false, [0], 0⟩
    ({ shown with lampNotices := [n] } : State).lampNotices = n :: [] ∧ shown.rowIssue 0 = some n.issue
      ∧ (Arrow.flashUp ⟨.off, 1, 0⟩).flash? = some ⟨.off, 1, 0⟩ ∧ 2 ≤ (⟨.off, 2, 0⟩ : Flash).remaining
      ∧ ((shown.boards[0]).inFlight.isSome = true ∧ ((shown.boards[0]).modules[0]).shown.lamps = true) := by
  decide +kernel

/-- KRT listed, the highest address, and a message of 120 characters. -/
theorem witness_LineTextsBuilt :
    findRecord trading.issues.records 214 = some krt ∧ 63 ≤ 63 ∧ (List.replicate 120 (0x41 : Byte)).length ≤ 120 := by
  decide +kernel

/-- An awaited poll; a queued message; a pending entry after and before the service cursor; an owed length. -/
theorem witness_NothingAnswered :
    let w : List WatchEntry := [⟨214, FieldSet.ofByte 1⟩]
    (awaited.termLines[0]).inFlight = some ⟨0, .pollWait 10, false⟩ ∧ (awaited.terminals[termOf 0 0]).state = .online
      ∧ (awaited.terminals[0]).queue = [] ∧ (awaited.terminals[0]).lengthOwed = false
      ∧ (w[0]? = some ⟨214, FieldSet.ofByte 1⟩ ∧ FieldSet.ofByte 1 ≠ .empty ∧ 0 ≤ (awaited.terminals[0]).cursor)
      ∧ ({ awaited.terminals[0] with state := .unknown } : Terminal).state = .unknown := by decide +kernel

/-- A symbol found and one not; a queue of 7 and of 8; a slot of 7 and of 8; an alert that holds at once; a request of
no characters. -/
theorem witness_RequestsAnswered :
    (awaited.termLines[0]).inFlight = some ⟨0, .pollWait 10, false⟩ ∧ (awaited.terminals[termOf 0 0]).state = .online
      ∧ awaited.lookup [0x4B, 0x52, 0x54, 0x20] = some 214 ∧ awaited.lookup [0x20, 0x20, 0x20, 0x20] = none
      ∧ (awaited.issues.records.map fun p => p.2.symbol).Nodup
      ∧ (List.replicate 7 (OutMessage.feedStatus .live)).length < 8
      ∧ 8 ≤ (List.replicate 8 (OutMessage.feedStatus .live)).length
      ∧ 214 ∉ awaited.watchIssues 0 ∧ (0x07 : Byte).toNat = (7 : SlotNo).val ∧ 7 < (0x08 : Byte).toNat
      ∧ (conditionOf 8 = some .halted ∧ yesNo 1 = some true ∧ limitOk .halted 0 = true
        ∧ limitOk .lastBelow 0 = false)
      ∧ (⟨false, 214, .halted, true, 0, false⟩ : AlertSetting).holds krt = true
      ∧ WellFormed (.requestBadOperation 0 []) = true ∧ (awaited.terminals[0]).queue.length < 8 := by decide +kernel

/-- A select that awaits its answer, carrying a queued message, a length and an entry. -/
theorem witness_SelectsAnswered :
    let carried (c : Carried) : State := awaited.setTermLine 0
      { awaited.termLines[0] with inFlight := some ⟨0, .selectWait ⟨c, []⟩ 10, false⟩ }
    ((carried .queued).termLines[0]).inFlight = some ⟨0, .selectWait ⟨.queued, []⟩ 10, false⟩
      ∧ ((carried .length).terminals[termOf 0 0]).state = .online
      ∧ (Carried.length ≠ .queued ∧ Carried.entry 214 .empty true ≠ .queued)
      ∧ (∀ k : SlotNo, ((awaited.alerts[0])[k]).all (fun a => !a.owed) = true)
      ∧ (awaited.terminals[0]).feedOwed = false := by decide +kernel

/-- A poll awaited from an UNKNOWN terminal, a select from an OFFLINE one, a poll from a DISABLED one, and one from a
terminal that has been enabled again. -/
theorem witness_OtherTerminalsAnswer :
    let sel : Stage := .selectWait ⟨.length, []⟩ 10
    ((unheard .unknown (.pollWait 10) false).termLines[0]).inFlight = some ⟨0, .pollWait 10, false⟩
      ∧ ((unheard .unknown (.pollWait 10) false).terminals[termOf 0 0]).state = .unknown
      ∧ ((unheard .offline sel false).termLines[0]).inFlight = some ⟨0, sel, false⟩
      ∧ ((unheard .offline sel false).terminals[termOf 0 0]).state = .offline
      ∧ ((unheard .disabled (.pollWait 10) true).terminals[termOf 0 0]).state = .disabled
      ∧ ((unheard .unknown (.pollWait 10) true).termLines[0]).inFlight = some ⟨0, .pollWait 10, true⟩ := by
  decide +kernel

/-- A poll whose wait has run out, a cut select, terminals with 1 and with 2 missed answers, and a wait that has not
run out. -/
theorem witness_MissedAnswersCounted :
    let late (stage : Stage) (cut : Bool) : State :=
      awaited.setTermLine 0 { awaited.termLines[0] with inFlight := some ⟨0, stage, cut⟩ }
    let sel : Select := ⟨.entry 214 (FieldSet.ofByte 1) true, []⟩
    ((late (.pollWait 0) false).termLines[0]).inFlight = some ⟨0, .pollWait 0, false⟩
      ∧ ((late (.selectWait sel 0) true).termLines[0]).inFlight = some ⟨0, .selectWait sel 0, true⟩
      ∧ ((late (.pollWait 0) false).terminals[termOf 0 0]).state = .online
      ∧ 1 + 1 < 3 ∧ 3 ≤ 2 + 1 ∧ (card.terminals[0]).state = .disabled
      ∧ Stage.pollWait 1 ≠ .pollWait 0 := by decide +kernel

/-- An ARMED slot that holds, a FIRED one that does not, and a slot of another issue. -/
theorem witness_AlertNoticeEvaluates :
    let n : ChangeNotice := ⟨214, FieldSet.full, .none, false, [], 0⟩
    let a : AlertSetting := ⟨false, 214, .halted, true, 0, false⟩
    let s : State := { awaited.setAlert 0 0 (some a) with alertNotices := [n] }
    s.alertNotices = n :: [] ∧ findRecord s.issues.records n.issue = some krt ∧ (s.alerts[0])[0] = some a
      ∧ (a.holds krt = true ∧ a.fired = false ∧ a.negate = true)
      ∧ ({ a with negate := false, fired := true } : AlertSetting).holds krt = false
      ∧ (s.alerts[1])[0] = none := by decide +kernel

/-- The last character of a good frame from below, and of a failed one; 7 and 8 places taken; a port that waits and one
that is idle. -/
theorem witness_PortStoresTake :
    let a : Assembler := .check [0x41, 0x07] (some (frameOf [0x41, 0x07]).checkHigh) false
    (assemble a (frameOf [0x41, 0x07]).checkLow).2 = .frame (frameOf [0x41, 0x07])
      ∧ (assemble a ((frameOf [0x41, 0x07]).checkLow + 1)).2 = .failure
      ∧ (State.reset.upstream.readyAbove = false
        ∧ ({ card.upstream with replies := [] } : UpstreamPort).replies = [] ∧ card.upstream.transmitting = none
        ∧ card.upstream.readyAbove = true ∧ card.upstream.buffer = [])
      ∧ card.upstream.buffer.length < 2 ∧ card.upstream.replies.length + card.upstream.claims < 8
      ∧ 8 ≤ (List.replicate 8 ([] : Text)).length + card.upstream.claims := by decide +kernel

/-- Both stores hold a frame, and each was served last; a frame in transmission. -/
theorem witness_ArbiterChooses :
    let u : UpstreamPort := { card.upstream with buffer := [frameOf [0x41, 0x07]] }
    u.transmitting = none ∧ u.readyAbove = true ∧ u.replies ≠ [] ∧ u.lastServed = .own
      ∧ ({ u with transmitting := some (.own, frameOf []) } : UpstreamPort).transmitting.isSome = true
      ∧ State.reset.upstream.readyAbove = false := by decide +kernel

theorem witness_AnswerRoundTrip :
    WellFormed (.alertSet 3 7 [0x4B, 0x52, 0x54, 0x20] 8 1 0xFFFFFF80) = true
      ∧ (answerChars (.alertSet 3 7 [0x4B, 0x52, 0x54, 0x20] 8 1 0xFFFFFF80)).isSome = true
      ∧ WellFormed (.requestBadOperation 0 (List.replicate 255 0x77)) = true
      ∧ (answerChars (.received 2)).isSome = true
      ∧ (terminalAnswer 0 [0x05, 0x02, 0x05, 0x03, 0x0A] = some (.alertClear 0 0x03)
        ∧ terminalAnswer 0 [0x05, 0x02, 0x05, 0x03, 0x0B] = none) := by decide +kernel

/-- A card after reset with one command in front. -/
def commanded : State := { State.reset with pending := [.readyLineChange false] }

theorem witness_commanded_steps : step commanded = .next State.reset := rfl
theorem witness_StepsKeepRecords : commanded.RecordsInv ∧ trading.RecordsInv := by decide +kernel
theorem witness_StepsKeepLinks : commanded.LinksInv := by decide +kernel
theorem witness_StepsKeepFeed : commanded.FeedInv ∧ commanded.QueuesInv := by decide +kernel
theorem witness_StepsKeepTapes : commanded.TapeInv := by decide +kernel
theorem witness_StepsKeepDisplays_lamps : commanded.LampInv := by decide +kernel
theorem witness_StepsKeepDisplays_boards : commanded.BoardInv := by decide +kernel
theorem witness_StepsKeepTerminals : commanded.TermInv ∧ commanded.AlertInv := by decide +kernel
theorem witness_StepsKeepUpstream : commanded.UpstreamInv ∧ commanded.ControlInv := by decide +kernel
theorem witness_StepsKeepCounters : commanded.CountersInv := by decide +kernel

end Sys2Proof.Tests
end

