-- ==== Sys2Proof/Proofs/PriceTexts.lean ====
section
/-! PROOFS. The texts of prices, net changes and volumes (R6, R7, R8, R12): the fraction that steps 1 to 4 of R6 reach,
and the texts put together from their parts. -/

namespace Sys2Proof.Machine

/-! ### Decimal digits -/

theorem decimal_of_lt_ten {n : Nat} (h : n < 10) : decimal n = [BitVec.ofNat 8 (0x30 + n)] := by
  have hquot : n / 10 = 0 := by omega
  have hrem : n % 10 = n := by omega
  simp [decimal, digitsOnto, hquot, hrem]

/-! ### The reduced fraction -/

/-- The fraction `r` is `n / d` in lowest terms, where `d` is a power of 2. -/
structure ReducesTo (n d : Nat) (r : Nat × Nat) : Prop where
  sameValue : r.1 * d = n * r.2
  proper : r.1 < r.2
  divides : r.2 ∣ d
  lowest : r.1 = 0 ∨ r.1 % 2 = 1

/-- Halving both parts first changes nothing in what the fraction reduces to. -/
theorem ReducesTo.of_halves {n d : Nat} {r : Nat × Nat} (h : ReducesTo n d r) : ReducesTo (2 * n) (2 * d) r where
  sameValue := by
    calc r.1 * (2 * d) = 2 * (r.1 * d) := by ring
      _ = 2 * (n * r.2) := by rw [h.sameValue]
      _ = 2 * n * r.2 := by ring
  proper := h.proper
  divides := h.divides.mul_left 2
  lowest := h.lowest

/-- Halving a proper fraction over a power of 2 stays exact to the end, and as much fuel as the numerator is enough
to reach it. -/
theorem reduceFraction_reducesTo {fuel n k : Nat} (hfuel : n ≤ fuel) (hlt : n < 2 ^ k) :
    ReducesTo n (2 ^ k) (reduceFraction fuel n (2 ^ k)) := by
  induction fuel generalizing n k with
  | zero =>
    exact ⟨rfl, hlt, dvd_rfl, .inl (Nat.le_zero.mp hfuel)⟩
  | succ fuel ih =>
    by_cases heven : n % 2 = 0 ∧ 0 < n
    · obtain ⟨m, rfl⟩ : ∃ m, n = 2 * m := ⟨n / 2, by omega⟩
      cases k with
      | zero => omega
      | succ k =>
        rw [pow_succ'] at hlt ⊢
        have hhalf : ReducesTo m (2 ^ k) (reduceFraction fuel m (2 ^ k)) := ih (by omega) (by omega)
        simpa [reduceFraction, heven] using hhalf.of_halves
    · rw [reduceFraction, if_neg heven]
      exact ⟨rfl, hlt, dvd_rfl, by omega⟩

/-- Steps 1 to 4 of R6: the count of whole display units in the fraction of `v`, over `d` and in lowest terms. -/
theorem fractionOf_reducesTo {d : Nat} (h : d ∣ 256) (v : Nat) :
    ReducesTo (v % 256 / (256 / d)) d (fractionOf d v) := by
  have hunits : v % 256 / (256 / d) < d :=
    Nat.div_lt_of_lt_mul (by rw [Nat.div_mul_cancel h]; exact Nat.mod_lt v (by decide))
  obtain ⟨k, -, rfl⟩ : ∃ k, k ≤ 8 ∧ d = 2 ^ k := (Nat.dvd_prime_pow Nat.prime_two).mp h
  exact reduceFraction_reducesTo le_rfl hunits

/-! ### The texts -/

/-- The fraction as it follows whole digits: after one space, or not at all (step 5 of R6). -/
def fractionTail (nd : Nat × Nat) : Text := if nd.1 = 0 then [] else [0x20] ++ fractionText nd

theorem fractionText_eq_append (nd : Nat × Nat) : fractionText nd = decimal nd.1 ++ [0x2F] ++ decimal nd.2 := by
  simp [fractionText]

theorem withFraction_eq_append (whole : Text) (nd : Nat × Nat) : withFraction whole nd = whole ++ fractionTail nd := by
  by_cases hn : nd.1 = 0
  · simp [withFraction, fractionTail, hn]
  · simp [withFraction, fractionTail, hn]

/-- The sign of a net change that shows (R7). -/
def changeSign (c : Int) : Text := if c < 0 then [0x2D] else [0x2B]

theorem changeSign_eq_singleton (c : Int) : changeSign c = [if c < 0 then 0x2D else 0x2B] := by
  rw [changeSign]
  split <;> rfl

section
variable {d : Nat} {c : Int}

theorem changeText_of_nothing_shown (hw : c.natAbs / 256 = 0) (hn : (fractionOf d c.natAbs).1 = 0) :
    changeText d c = [0x30] := by
  rw [changeText, if_pos hw, if_pos hn]

theorem changeText_of_fraction_alone (hw : c.natAbs / 256 = 0) (hn : (fractionOf d c.natAbs).1 ≠ 0) :
    changeText d c = changeSign c ++ fractionText (fractionOf d c.natAbs) := by
  rw [changeText, if_pos hw, if_neg hn, changeSign_eq_singleton, List.singleton_append]

theorem changeText_of_whole (hw : c.natAbs / 256 ≠ 0) :
    changeText d c = changeSign c ++ decimal (c.natAbs / 256) ++ fractionTail (fractionOf d c.natAbs) := by
  rw [changeText, if_neg hw, withFraction_eq_append, changeSign_eq_singleton, List.append_assoc,
    List.singleton_append]

end

theorem displayDenominator_dvd {d : Nat} (h : d ∈ [8, 16, 32, 64]) : d ∣ 256 := by
  revert d
  decide

/-- Settles O4: the fraction is the one `fractionOf` reaches, and each text is put together from its parts. -/
theorem priceTextsWritten : Obligations.PriceTextsWritten := by
  unfold Obligations.PriceTextsWritten
  refine ⟨fun d v hd => ?_, fun _ => rfl⟩
  have hfrac := fractionOf_reducesTo (displayDenominator_dvd hd) v
  refine ⟨(fractionOf d v).1, (fractionOf d v).2, hfrac.sameValue, hfrac.proper, hfrac.divides, hfrac.lowest, ?_⟩
  rw [← fractionText_eq_append]
  refine ⟨withFraction_eq_append _ _, withFraction_eq_append _ _, ?_, ?_⟩
  · rw [decimal_of_lt_ten (Nat.mod_lt _ (by decide)), List.length_singleton]
  · rintro c rfl
    exact ⟨changeText_of_nothing_shown, changeText_of_fraction_alone, changeText_of_whole⟩

end Sys2Proof.Machine
end

