-- ==== Sys2Proof/Proofs/FrameAssembler.lean ====
section
/-! PROOFS. The moves of the frame assembler and its check failures (R42 to R45): one equation for each way the
assembler takes a character, and what a character that completes no frame does to the card. -/

namespace Sys2Proof.Machine

/-! ### The check characters -/

section
variable {body : Text} {high low : Byte}

theorem eq_frameOf_iff : (⟨body, high, low⟩ : Frame) = frameOf body ↔ frameCheck body = high ++ low := by
  constructor
  · intro h
    obtain ⟨-, rfl, rfl⟩ := Frame.mk.inj h
    exact (BitVec.extractLsb'_append_extractLsb' (w := 8) (len := 8)).symm
  · intro h
    rw [frameOf, h, BitVec.extractLsb'_append_eq_left, BitVec.extractLsb'_append_eq_right]

/-- The test of R45, said by the whole register. -/
theorem frameGood_iff : frameGood ⟨body, high, low⟩ = true ↔ frameCheck body = high ++ low := by
  rw [frameGood, beq_iff_eq, eq_frameOf_iff]

end

/-! ### Before the body: the length character (R42, R44) -/

theorem assemble_synced_sync : assemble .synced syncChar = (.synced, .nothing) := rfl

theorem ne_syncChar_of_toNat_le {c : Byte} (h : c.toNat ≤ 60) : c ≠ syncChar := by
  rintro rfl
  exact absurd h (by decide)

theorem assemble_synced_length {c : Byte} (hlow : 2 ≤ c.toNat) (hhigh : c.toNat ≤ 60) :
    assemble .synced c = (.body c.toNat [] false, .nothing) := by
  rw [assemble, if_neg (ne_syncChar_of_toNat_le hhigh), if_pos ⟨hlow, hhigh⟩]

theorem assemble_synced_lengthError {c : Byte} (hsync : c ≠ syncChar) (h : c.toNat < 2 ∨ 60 < c.toNat) :
    assemble .synced c = (.hunt, .failure) := by
  rw [assemble, if_neg hsync, if_neg (by omega)]

/-! ### Inside a frame: a held sync (R42, R43) -/

section
variable (n : Nat) (got : Text) (high : Option Byte)

theorem assemble_body_holdsSync : assemble (.body n got false) syncChar = (.body n got true, .nothing) := rfl

theorem assemble_check_holdsSync : assemble (.check got high false) syncChar = (.check got high true, .nothing) := rfl

theorem assemble_body_syncPair : assemble (.body n got true) syncChar = (.synced, .failure) := rfl

theorem assemble_check_syncPair : assemble (.check got high true) syncChar = (.synced, .failure) := rfl

variable {c : Byte} (hsync : c ≠ syncChar) (hfill : c ≠ fillChar)
include hsync hfill

theorem assemble_body_brokenSync : assemble (.body n got true) c = (.hunt, .failure) := by
  rw [assemble, if_neg hsync, if_neg hfill]

theorem assemble_check_brokenSync : assemble (.check got high true) c = (.hunt, .failure) := by
  rw [assemble, if_neg hsync, if_neg hfill]

end

/-! ### Inside a frame: a character taken (R42, R45) -/

/-- The character inside the frame that a character on the line stands for: a fill character after a held sync
brings that sync in, and any other stands for itself. -/
def unstuffed (held : Bool) (c : Byte) : Byte := if held then syncChar else c

section
variable {held : Bool} {c : Byte} (h : (held = false ∧ c ≠ syncChar) ∨ (held = true ∧ c = fillChar))
include h

theorem assemble_body_takes (n : Nat) (got : Text) :
    assemble (.body n got held) c = takeBody n got (unstuffed held c) := by
  rcases h with ⟨rfl, hsync⟩ | ⟨rfl, rfl⟩
  · exact if_neg hsync
  · rfl

theorem assemble_check_takes (got : Text) (high : Option Byte) :
    assemble (.check got high held) c = takeCheck got high (unstuffed held c) := by
  rcases h with ⟨rfl, hsync⟩ | ⟨rfl, rfl⟩
  · exact if_neg hsync
  · rfl

end

theorem takeBody_eq (n : Nat) (got : Text) (d : Byte) :
    takeBody n got d =
      (if got.length + 1 < n then .body n (got ++ [d]) false else .check (got ++ [d]) none false, .nothing) := by
  rw [takeBody, List.length_append, List.length_singleton]
  split <;> rfl

theorem takeCheck_none (got : Text) (d : Byte) : takeCheck got none d = (.check got (some d) false, .nothing) := rfl

/-- The second check character ends the frame, good when the two equal the register (R45). -/
theorem takeCheck_some (got : Text) (h d : Byte) :
    takeCheck got (some h) d = (.hunt, if frameCheck got = h ++ d then .frame ⟨got, h, d⟩ else .failure) :=
  congrArg (Prod.mk Assembler.hunt) (if_congr frameGood_iff rfl rfl)

/-! ### The card -/

section
variable {s : State} {c : Byte}

theorem exec_feedInCharacter_of_nothing (h : (assemble s.feed.assembler c).2 = .nothing) :
    exec (.feedInCharacter c) s =
      .next { s with feed := { s.feed with assembler := (assemble s.feed.assembler c).1 } } := by
  change execFeedInCharacter c s = _
  rw [execFeedInCharacter, h]

/-- A failure is counted once, and only the assembler moves beside the count (R43, R44, R45). -/
theorem exec_feedInCharacter_of_failure (h : (assemble s.feed.assembler c).2 = .failure) :
    exec (.feedInCharacter c) s =
      .next { s with feed := { s.feed with
        assembler := (assemble s.feed.assembler c).1
        counts := { s.feed.counts with checkFailure := satInc s.feed.counts.checkFailure } } } := by
  change execFeedInCharacter c s = _
  rw [execFeedInCharacter, h]
  rfl

end

/-- Settles O5: the moves before the body, at a held sync and at a character taken, and then the card's step. -/
theorem assemblerMoves : Obligations.AssemblerMoves := by
  unfold Obligations.AssemblerMoves
  refine ⟨fun c => ⟨rfl, rfl, ?_, assemble_synced_length, assemble_synced_lengthError⟩, fun n got high => ?_,
    fun n got held c htaken => ?_, fun s c => ⟨exec_feedInCharacter_of_nothing, exec_feedInCharacter_of_failure⟩⟩
  · rintro rfl
    exact assemble_synced_sync
  · exact ⟨assemble_body_holdsSync n got, assemble_check_holdsSync got high, assemble_body_syncPair n got,
      assemble_check_syncPair got high, fun c hsync hfill =>
        ⟨assemble_body_brokenSync n got hsync hfill, assemble_check_brokenSync got high hsync hfill⟩⟩
  · refine ⟨?_, ?_, fun h => ?_⟩
    · exact (assemble_body_takes htaken n got).trans (takeBody_eq n got _)
    · exact (assemble_check_takes htaken got none).trans (takeCheck_none got _)
    · exact (assemble_check_takes htaken got (some h)).trans (takeCheck_some got h _)

end Sys2Proof.Machine
end

