-- ==== Sys2Proof/Proofs/TapeTexts.lean ====
section
/-! PROOFS. The texts of tape entries and their lengths (R74 to R77): each text as the join of its parts, the range of
lengths of each part, and the ranges of the whole texts as their sums. -/

namespace Sys2Proof.Machine

/-! ### The length of decimal digits -/

theorem length_le_length_digitsOnto (fuel n : Nat) (acc : Text) : acc.length ≤ (digitsOnto fuel n acc).length := by
  induction fuel generalizing n acc with
  | zero => exact le_rfl
  | succ fuel ih =>
    rw [digitsOnto]
    split
    · exact Nat.le_succ _
    · exact (Nat.le_succ acc.length).trans (ih _ (_ :: acc))

theorem length_digitsOnto_le {fuel n k : Nat} (acc : Text) (h : n < 10 ^ (k + 1)) :
    (digitsOnto fuel n acc).length ≤ acc.length + (k + 1) := by
  induction fuel generalizing n k acc with
  | zero => exact Nat.le_add_right _ _
  | succ fuel ih =>
    rw [digitsOnto]
    split
    next => exact Nat.add_le_add_left (Nat.le_add_left 1 k) _
    next hmore =>
      cases k with
      | zero => omega
      | succ k =>
        have hquot : n / 10 < 10 ^ (k + 1) := Nat.div_lt_of_lt_mul (by rwa [← pow_succ'])
        refine (ih _ hquot).trans (le_of_eq ?_)
        rw [List.length_cons]
        omega

theorem length_decimal_pos (n : Nat) : 1 ≤ (decimal n).length := by
  rw [decimal, digitsOnto]
  split
  · exact le_rfl
  · exact length_le_length_digitsOnto _ _ [_]

theorem length_decimal_le {n k : Nat} (h : n < 10 ^ (k + 1)) : (decimal n).length ≤ k + 1 :=
  (length_digitsOnto_le [] h).trans_eq (Nat.zero_add _)

/-! ### The length of prices -/

/-- The longest fraction is that of two digits over two digits, as in 63/64. -/
theorem length_fractionTail_le {d : Nat} (h : d ∈ [8, 16, 32, 64]) (v : Nat) :
    (fractionTail (fractionOf d v)).length ≤ 6 := by
  have hd : 0 < d ∧ d ≤ 64 := by
    revert d
    decide
  have hfrac := fractionOf_reducesTo (displayDenominator_dvd h) v
  have hdenom : (fractionOf d v).2 ≤ 64 := (Nat.le_of_dvd hd.1 hfrac.divides).trans hd.2
  have hproper := hfrac.proper
  have hnum : (decimal (fractionOf d v).1).length ≤ 2 := length_decimal_le (by omega)
  have hden : (decimal (fractionOf d v).2).length ≤ 2 := length_decimal_le (by omega)
  rw [fractionTail]
  split
  · exact Nat.zero_le _
  · simp only [fractionText_eq_append, List.length_append, List.length_singleton]
    omega

theorem length_withFraction_pos (n : Nat) (nd : Nat × Nat) : 1 ≤ (withFraction (decimal n) nd).length := by
  rw [withFraction_eq_append, List.length_append]
  exact (length_decimal_pos n).trans (Nat.le_add_right _ _)

theorem length_withFraction_le {d n k : Nat} (h : d ∈ [8, 16, 32, 64]) (hn : n < 10 ^ (k + 1)) (v : Nat) :
    (withFraction (decimal n) (fractionOf d v)).length ≤ k + 7 := by
  rw [withFraction_eq_append, List.length_append]
  have hwhole := length_decimal_le hn
  have htail := length_fractionTail_le h v
  omega

/-- A price in full has up to 4 whole digits. -/
theorem length_priceText_le {d p : Nat} (hd : d ∈ [8, 16, 32, 64]) (hp : PriceOk p) : (priceText d p).length ≤ 10 :=
  length_withFraction_le (k := 3) hd (Nat.div_lt_of_lt_mul (Nat.lt_succ_of_le hp.2)) p

theorem length_droppedText_le {d : Nat} (hd : d ∈ [8, 16, 32, 64]) (p : Nat) : (droppedText d p).length ≤ 7 :=
  length_withFraction_le (k := 0) hd (Nat.mod_lt _ (by decide)) p

/-! ### A PRINT (R74) -/

/-- The volume group as a level shows it, or nothing. -/
def shownGroup (level block volume : Nat) : Text :=
  if groupFrom level block ≤ lots volume then volumeText volume ++ [0x4C, 0x20] else []

/-- The price as a level shows it. -/
def shownPrice (level d p : Nat) : Text := if level ≤ 1 then priceText d p else droppedText d p

theorem printText_eq_append (level block : Nat) (symbol : Text) (d p v : Nat) (x : Suffix) :
    printText level block symbol d p v x =
      symbol ++ [0x20] ++ shownGroup level block v ++ shownPrice level d p ++ suffixText x ++ separator := by
  have hlevel : level < 2 ↔ level ≤ 1 := Nat.lt_succ_iff
  simp only [printText, shownGroup, shownPrice, hlevel, List.append_assoc, List.cons_append, List.nil_append]

theorem groupFrom_le_lots_iff {level block v : Nat} :
    groupFrom level block ≤ lots v ↔ (level = 0 ∧ 2 ≤ v / 100) ∨ (level ≠ 0 ∧ block ≤ v / 100) := by
  by_cases hlevel : level = 0
  · simp [groupFrom, lots, hlevel]
  · simp [groupFrom, lots, hlevel]

theorem shownGroup_eq_ite (level block v : Nat) :
    shownGroup level block v = if (level = 0 ∧ 2 ≤ v / 100) ∨ (level ≠ 0 ∧ block ≤ v / 100)
      then decimal (v / 100) ++ [0x4C, 0x20] else [] :=
  if_congr groupFrom_le_lots_iff rfl rfl

theorem length_shownGroup_le (level block : Nat) {v : Nat} (h : v ≤ 99999999) :
    (shownGroup level block v).length ≤ 8 := by
  rw [shownGroup]
  split
  · have hlots : (volumeText v).length ≤ 6 := length_decimal_le (Nat.div_lt_of_lt_mul (Nat.lt_succ_of_le h))
    exact (List.length_append ..).trans_le (Nat.add_le_add_right hlots 2)
  · exact Nat.zero_le _

theorem length_shownPrice_pos (level d p : Nat) : 1 ≤ (shownPrice level d p).length := by
  rw [shownPrice]
  split
  · exact length_withFraction_pos _ _
  · exact length_withFraction_pos _ _

theorem length_shownPrice_le (level : Nat) {d p : Nat} (hd : d ∈ [8, 16, 32, 64]) (hp : PriceOk p) :
    (shownPrice level d p).length ≤ 10 := by
  rw [shownPrice]
  split
  · exact length_priceText_le hd hp
  · exact (length_droppedText_le hd p).trans (by decide)

theorem length_suffixText_le (x : Suffix) : (suffixText x).length ≤ 1 := by
  cases x <;> decide

theorem length_separator : separator.length = 2 := rfl

theorem length_printText {symbol : Text} {d p v : Nat} (level block : Nat) (x : Suffix) (hs : SymbolOk symbol)
    (hd : d ∈ [8, 16, 32, 64]) (hp : PriceOk p) (hv : v ≤ 99999999) :
    5 ≤ (printText level block symbol d p v x).length ∧ (printText level block symbol d p v x).length ≤ 26 := by
  obtain ⟨hsymbolPos, hsymbol, -⟩ := hs
  have hpricePos := length_shownPrice_pos level d p
  have hprice := length_shownPrice_le level hd hp
  have hgroup := length_shownGroup_le level block hv
  have hsuffix := length_suffixText_le x
  simp only [printText_eq_append, List.length_append, List.length_singleton, length_separator]
  omega

/-! ### Markers and CORR (R75) -/

section
variable (level block : Nat) (fl symbol : Text) (n d p : Nat)

theorem itemText_halt : itemText level block fl (.halt n symbol) = haltWord ++ [0x20] ++ symbol ++ separator := by
  simp only [itemText, List.append_assoc, List.cons_append, List.nil_append]

theorem itemText_resume :
    itemText level block fl (.resume n symbol) = resumeWord ++ [0x20] ++ symbol ++ separator := by
  simp only [itemText, List.append_assoc, List.cons_append, List.nil_append]

theorem itemText_corr :
    itemText level block fl (.corr n symbol d p) =
      corrWord ++ [0x20] ++ symbol ++ [0x20] ++ priceText d p ++ separator := by
  simp only [itemText, List.append_assoc, List.cons_append, List.nil_append]

variable {symbol d p} (hs : SymbolOk symbol)
include hs

theorem length_marker :
    ∀ i ∈ [TapeItem.halt n symbol, .resume n symbol, .quiet],
      7 ≤ (itemText level block fl i).length ∧ (itemText level block fl i).length ≤ 13 := by
  obtain ⟨hsymbolPos, hsymbol, -⟩ := hs
  have hhalt : haltWord.length = 4 := rfl
  have hresume : resumeWord.length = 6 := rfl
  simp only [List.forall_mem_cons, itemText_halt, itemText_resume, List.length_append, List.length_singleton,
    length_separator]
  have hquiet : (itemText level block fl .quiet).length = 7 := rfl
  exact ⟨by omega, by omega, by omega, List.forall_mem_nil _⟩

theorem length_corr (hd : d ∈ [8, 16, 32, 64]) (hp : PriceOk p) :
    10 ≤ (itemText level block fl (.corr n symbol d p)).length
      ∧ (itemText level block fl (.corr n symbol d p)).length ≤ 22 := by
  obtain ⟨hsymbolPos, hsymbol, -⟩ := hs
  have hpricePos : 1 ≤ (priceText d p).length := length_withFraction_pos _ _
  have hprice := length_priceText_le hd hp
  have hcorr : corrWord.length = 4 := rfl
  simp only [itemText_corr, List.length_append, List.length_singleton, length_separator]
  omega

end

/-! ### A FLASH group (R76) -/

/-- The issues of a flash list that have traded, in list order. -/
def tradedIssues (records : Records) (list : List Nat) : List IssueRecord :=
  list.filterMap fun n => (findRecord records n).filter IssueRecord.traded

/-- One issue of a flash group as text. -/
def flashIssueText (r : IssueRecord) : Text := r.symbol ++ [0x20] ++ priceText r.denom r.last ++ separator

theorem tradedIssues_cons (records : Records) (n : Nat) (list : List Nat) :
    tradedIssues records (n :: list) =
      ((findRecord records n).filter IssueRecord.traded).toList ++ tradedIssues records list := by
  rw [tradedIssues, List.filterMap_cons]
  split
  next hnone => rw [hnone]; rfl
  next hsome => rw [hsome]; rfl

theorem flashIssues_eq_flatMap (records : Records) (list : List Nat) :
    flashIssues records list = (tradedIssues records list).flatMap flashIssueText := by
  induction list with
  | nil => rfl
  | cons n ns ih =>
    rw [flashIssues, tradedIssues_cons, List.flatMap_append, ← ih]
    cases findRecord records n with
    | none => rfl
    | some r =>
      cases htraded : r.traded with
      | false => simp [htraded]
      | true => simp [htraded, Option.filter, flashIssueText]

theorem flashText_of_none_traded {records : Records} {list : List Nat} (h : tradedIssues records list = []) :
    flashText records list = flashWord ++ separator := by
  rw [flashText, flashIssues_eq_flatMap, h]
  rfl

theorem length_flashIssueText_pos (r : IssueRecord) : 1 ≤ (flashIssueText r).length := by
  rw [flashIssueText, List.length_append, length_separator]
  omega

theorem length_flashIssues_pos {records : Records} {list : List Nat} (h : tradedIssues records list ≠ []) :
    1 ≤ (flashIssues records list).length := by
  obtain ⟨r, rs, hshown⟩ := List.exists_cons_of_ne_nil h
  rw [flashIssues_eq_flatMap, hshown, List.flatMap_cons, List.length_append]
  exact (length_flashIssueText_pos r).trans (Nat.le_add_right _ _)

theorem flashText_of_some_traded {records : Records} {list : List Nat} (h : tradedIssues records list ≠ []) :
    flashText records list = flashWord ++ [0x20] ++ flashIssues records list := by
  have hpos := length_flashIssues_pos h
  rw [flashText]
  split
  next hnil => simp [hnil] at hpos
  next => rw [List.append_assoc, List.singleton_append]

theorem flashText_eq_ite (records : Records) (list : List Nat) :
    flashText records list = if tradedIssues records list = [] then flashWord ++ separator
      else flashWord ++ [0x20] ++ (tradedIssues records list).flatMap flashIssueText := by
  split
  next h => exact flashText_of_none_traded h
  next h => rw [flashText_of_some_traded h, flashIssues_eq_flatMap]

/-- An issue that a flash group shows is one of the records. -/
theorem exists_mem_of_mem_tradedIssues {records : Records} {list : List Nat} {r : IssueRecord}
    (h : r ∈ tradedIssues records list) : ∃ n, (n, r) ∈ records := by
  obtain ⟨n, -, hfind⟩ := List.mem_filterMap.mp h
  exact ⟨n, findRecord_mem (Option.filter_eq_some_iff.mp hfind).1⟩

theorem length_flashIssueText_le {r : IssueRecord} (h : r.Ok) : (flashIssueText r).length ≤ 17 := by
  obtain ⟨⟨-, hsymbol, -⟩, hdenom, -, hlast, -⟩ := h
  have hprice := length_priceText_le hdenom hlast
  simp only [flashIssueText, List.length_append, List.length_singleton, length_separator]
  omega

theorem length_flashIssues_le {records : Records} {list : List Nat} (hok : ∀ p ∈ records, p.2.Ok) :
    (flashIssues records list).length ≤ list.length * 17 := by
  have hissue : ∀ k ∈ (tradedIssues records list).map fun r => (flashIssueText r).length, k ≤ 17 := by
    refine List.forall_mem_map.mpr fun r hr => ?_
    obtain ⟨n, hmem⟩ := exists_mem_of_mem_tradedIssues hr
    exact length_flashIssueText_le (hok _ hmem)
  calc (flashIssues records list).length
      = ((tradedIssues records list).map fun r => (flashIssueText r).length).sum := by
        rw [flashIssues_eq_flatMap, List.length_flatMap]
    _ ≤ (tradedIssues records list).length * 17 := by
        simpa using List.sum_le_card_nsmul _ 17 hissue
    _ ≤ list.length * 17 := Nat.mul_le_mul_right 17 (List.length_filterMap_le _ _)

theorem length_flashText {records : Records} {list : List Nat} (hlist : list.length ≤ 16)
    (hok : ∀ p ∈ records, p.2.Ok) :
    7 ≤ (flashText records list).length ∧ (flashText records list).length ≤ 278 := by
  by_cases hshown : tradedIssues records list = []
  · rw [flashText_of_none_traded hshown]
    decide
  · have hpos := length_flashIssues_pos hshown
    have hissues := length_flashIssues_le (list := list) hok
    have hword : flashWord.length = 5 := rfl
    simp only [flashText_of_some_traded hshown, List.length_append, List.length_singleton]
    omega

/-! ### The statement -/

/-- Settles O32: each text is the join of its parts, and its length lies between the sums of theirs. -/
theorem tapeTextsRendered : Obligations.TapeTextsRendered := by
  unfold Obligations.TapeTextsRendered
  refine ⟨fun level block fl n symbol d p v => ⟨fun x => ?_, itemText_halt .., itemText_resume .., itemText_corr ..,
      rfl, rfl⟩, fun records list => ⟨flashText_eq_ite records list, length_flashText⟩,
    fun level block fl n symbol d p v hs hd hp hv => ⟨fun x => length_printText level block x hs hd hp hv,
      length_marker level block fl n hs, length_corr level block fl n hs hd hp⟩⟩
  rw [← shownGroup_eq_ite]
  cases x <;> exact printText_eq_append ..

end Sys2Proof.Machine
end

