-- ==== Sys2Proof/Proofs/Moves.lean ====
section
/-! PROOFS. What a step of the card can do, said once: one relation for the moves of each block, and `exec_moves`, which
sorts every command that answers a next state under one of them. The invariants are proved of the moves. -/

namespace Sys2Proof.Machine

/-! ### Prices and issue numbers that a message carries -/

theorem priceOk_of_normalise {w n k p : Nat} (h : normalise w n k = some p) : PriceOk p := by
  rw [normalise] at h
  split at h
  · cases h
  · rename_i hrange
    push Not at hrange
    obtain ⟨hw, hk0, hk8, hn⟩ := hrange
    simp only at h
    split at h
    · cases h
    · rename_i hp
      obtain rfl := Option.some.inj h
      have hunits : n * (256 / 2 ^ k) + 256 / 2 ^ k ≤ 256 :=
        calc n * (256 / 2 ^ k) + 256 / 2 ^ k = (n + 1) * (256 / 2 ^ k) := by ring
          _ ≤ 2 ^ k * (256 / 2 ^ k) := Nat.mul_le_mul_right _ hn
          _ ≤ 256 := Nat.mul_div_le _ _
      have hunit : 0 < 256 / 2 ^ k :=
        Nat.div_pos (Nat.pow_le_pow_right (by decide) hk8 : 2 ^ k ≤ 2 ^ 8) (by positivity)
      exact ⟨by omega, by simp only [Config.maxPrice]; omega⟩

theorem priceOk_of_feedPriceAt {body : Text} {i p : Nat} (h : feedPriceAt body i = some p) : PriceOk p :=
  priceOk_of_normalise h

theorem priceOk?_of_quoteSide {present : Bool} {body : Text} {i : Nat} {side : Option Nat}
    (h : quoteSide present body i = some side) : PriceOk? side := by
  rw [quoteSide] at h
  split at h
  · obtain ⟨p, hp, rfl⟩ := Option.map_eq_some_iff.1 h
    exact decide_eq_true (priceOk_of_feedPriceAt hp)
  · obtain rfl := Option.some.inj h
    rfl

/-! ### The data messages -/

/-- What a data message can do to the card once it has been taken (R27, R30 to R37). -/
inductive DataMove (s : State) : State → Prop where
  | unapplied : DataMove s s
  | trade {n : Nat} {r : IssueRecord} {p : Nat} (v : Nat) (hr : listed s n = some r) (hp : PriceOk p) :
      DataMove s (s.tradePrint n r p v)
  | late {n : Nat} {r : IssueRecord} (p v : Nat) (hr : listed s n = some r) : DataMove s (s.latePrint n r p v)
  | alternate {n : Nat} {r : IssueRecord} (p v : Nat) (hr : listed s n = some r) :
      DataMove s (s.alternatePrint n r p v)
  | quote {n : Nat} {r : IssueRecord} {bid ask : Option Nat} (hr : listed s n = some r) (hb : PriceOk? bid)
      (ha : PriceOk? ask) : DataMove s (s.setQuote n r bid ask)
  | status {n : Nat} {r : IssueRecord} (halt : Bool) (hr : listed s n = some r) : DataMove s (s.setHalted n r halt)
  | correct {n : Nat} {r : IssueRecord} {p : Nat} (hr : listed s n = some r) (ht : r.traded = true) (hp : PriceOk p) :
      DataMove s (s.correct n r p)
  | mismatch : DataMove s s.mismatch
  | opened (present : Bool) (clock : BitVec 32) (roll : Bool) :
      DataMove s (((s.openSession present clock).announceOpen).openRecords roll)
  | closed : DataMove s s.returnLive.closeSession

theorem State.gate_ok {s : State} {body : Text} {r : IssueRecord} (h : s.gate body = .ok r) :
    s.issues.session = .opened ∧ listed s (issueAt body) = some r := by
  rw [gate] at h
  split at h
  · cases h
  · cases h
  · rename_i hs hr
    cases h
    exact ⟨hs, hr⟩

theorem State.gatePrint_ok {s : State} {body : Text} {r : IssueRecord} {p v : Nat}
    (h : s.gatePrint body = .ok (r, p, v)) :
    s.gate body = .ok r ∧ feedPriceAt body 5 = some p ∧ printVolume body = some v := by
  rw [gatePrint] at h
  split at h
  · cases h
  · rename_i hg
    split at h
    · rename_i hp hv
      cases h
      exact ⟨hg, hp, hv⟩
    · cases h

theorem applyTrade_moves (body : Text) (s : State) : DataMove s (applyTrade body s).1 := by
  rw [applyTrade]
  split
  · exact .unapplied
  · rename_i h
    obtain ⟨hg, hp, -⟩ := State.gatePrint_ok h
    exact .trade _ (State.gate_ok hg).2 (priceOk_of_feedPriceAt hp)

theorem applyLate_moves (body : Text) (s : State) : DataMove s (applyLate body s).1 := by
  rw [applyLate]
  split
  · exact .unapplied
  · rename_i h
    exact .late _ _ (State.gate_ok (State.gatePrint_ok h).1).2

theorem applyAlternate_moves (body : Text) (s : State) : DataMove s (applyAlternate body s).1 := by
  rw [applyAlternate]
  split
  · exact .unapplied
  · rename_i h
    exact .alternate _ _ (State.gate_ok (State.gatePrint_ok h).1).2

theorem applyQuote_moves (body : Text) (s : State) : DataMove s (applyQuote body s).1 := by
  rw [applyQuote]
  split
  · exact .unapplied
  · rename_i hg
    dsimp only
    split
    · rename_i hb ha
      exact .quote (State.gate_ok hg).2 (priceOk?_of_quoteSide hb) (priceOk?_of_quoteSide ha)
    · exact .unapplied

theorem applyStatus_moves (body : Text) (s : State) : DataMove s (applyStatus body s).1 := by
  rw [applyStatus]
  split
  · rename_i hr _
    exact .status _ hr
  · exact .unapplied

theorem applyCorrection_moves (body : Text) (s : State) : DataMove s (applyCorrection body s).1 := by
  rw [applyCorrection]
  split
  · exact .unapplied
  · rename_i hg
    split
    · rename_i hnew
      rw [State.correction]
      split
      · rename_i hlast
        exact .correct (State.gate_ok hg).2 hlast.1 (priceOk_of_feedPriceAt hnew)
      · exact .mismatch
    · exact .unapplied

theorem applyOpen_moves (body : Text) (s : State) : DataMove s (applyOpen body s).1 := by
  rw [applyOpen]
  split
  · exact .opened _ _ _
  · exact .unapplied

theorem applyClose_moves (body : Text) (s : State) : DataMove s (applyClose body s).1 := by
  rw [applyClose]
  split
  · exact .closed
  · exact .unapplied

/-! ### The operations -/

/-- What a watch list can be changed to by a list operation or a request (R141, R142, R147). -/
inductive WatchMove (s : State) (t : TermNo) : List Nat → Prop where
  | set {ns : List Nat} (hn : ns.Nodup) (hl : ns.length ≤ Config.watchPlaces)
      (hr : ∀ n ∈ ns, (listed s n).isSome = true) : WatchMove s t ns
  | append {n : Nat} (hr : (findRecord s.issues.records n).isSome = true) (hn : n ∉ s.watchIssues t)
      (hl : (s.watchIssues t).length < Config.watchPlaces) : WatchMove s t (s.watchIssues t ++ [n])
  | remove (n : Nat) : WatchMove s t ((s.watchIssues t).erase n)

/-- What an operation but RESTART can do to the card (R38, R39, R95, R147, R161, R173 to R178, R182 to R186). -/
inductive ControlMove (s : State) : State → Prop where
  | nothing : ControlMove s s
  | draw (n : Nat) : ControlMove s (s.drawFree n)
  | loadIssue {n : Nat} {symbol : Text} {denom close : Nat} (a b : Bool) (hn : 1 ≤ n ∧ n ≤ Config.maxIssue)
      (hs : SymbolOk symbol) (hd : denom ∈ [8, 16, 32, 64]) (hc : PriceOk close)
      (hh : symbolHeld s.issues.records n symbol = false) : ControlMove s (s.loadIssue n symbol denom close a b)
  | deleteIssue {n : Nat} {r : IssueRecord} (hr : listed s n = some r) (hu : s.inUse n r = false) :
      ControlMove s (s.setRecords (freeRecord s.issues.records n))
  | blankRow (r : RowNo) : ControlMove s (s.mapRow r none)
  | setRow {r : RowNo} {p : Mapping} {x : IssueRecord} (hr : listed s p.issue = some x) (hp : p.Ok)
      (hl : (x.rows.filter fun q => q != r).length < Config.rowPlaces) : ControlMove s (s.mapRow r (some p))
  | watch {t : TermNo} {ns : List Nat} (h : WatchMove s t ns) : ControlMove s (s.rewatch t ns)
  | setAlert (t : TermNo) (k : SlotNo) {a : AlertSetting} (hr : (findRecord s.issues.records a.issue).isSome = true)
      (ha : a.Ok) : ControlMove s ((s.setAlert t k (some a)).evaluate t k)
  | clearAlert (t : TermNo) (k : SlotNo) : ControlMove s (s.setAlert t k none)
  | setTape (ch : Channel) {p : TapeParams} (hp : p.Ok) : ControlMove s (s.setTape ch ((s.tape ch).loadParams p))
  | setFlashList {ns : List Nat} (hn : ns.Nodup) (hl : ns.length ≤ Config.flashPlaces)
      (hr : ∀ n ∈ ns, (listed s n).isSome = true) :
      ControlMove s { s with issues := { s.issues with flashList := ns } }
  | setLamps {p : LampParams} (ho : 1 ≤ p.onTime ∧ p.onTime ≤ 255) (hf : 1 ≤ p.offTime ∧ p.offTime ≤ 255)
      (hc : 1 ≤ p.flashCount ∧ p.flashCount ≤ 15) : ControlMove s (s.loadLamps p)
  | setFeed {w : Nat} {c : Byte} (hw : 1 ≤ w ∧ w ≤ 60) (hc : altCodeOk c = true) :
      ControlMove s { s with control := { s.control with window := w, altCode := c } }
  | enable (t : TermNo) : ControlMove s (s.enableTerm t)
  | disable (t : TermNo) : ControlMove s (s.disableTerm t)
  | clearCounts : ControlMove s s.clearCounts

theorem clamp_range {lo hi : Nat} (n : Nat) (h : lo ≤ hi) : lo ≤ clamp lo hi n ∧ clamp lo hi n ≤ hi := by
  simp only [clamp]; omega

theorem findRecord_isSome_of_listed {s : State} {n : Nat} (h : (listed s n).isSome = true) :
    (findRecord s.issues.records n).isSome = true := by
  obtain ⟨r, hr⟩ := Option.isSome_iff_exists.1 h
  rw [(listed_eq_some.1 hr).2.2]
  rfl

/-- An operation whose body is long enough, or refused. -/
theorem withLength_moves {n : Nat} {run : Text → State → Done} {body : Text} {s : State}
    (h : ControlMove s (run body s).card) : ControlMove s (withLength n run body s).card := by
  rw [withLength]
  split
  · exact .nothing
  · exact h

theorem withTerminal_moves {run : TermNo → Text → State → Done} {body : Text} {s : State}
    (h : ∀ t, ControlMove s (run t body s).card) : ControlMove s (withTerminal run body s).card := by
  rw [withTerminal]
  split
  · exact h _
  · exact .nothing

theorem symbolOk_of_symbolOf {field symbol : Text} (h : symbolOf field = some symbol) : SymbolOk symbol := by
  simp only [symbolOf] at h
  split at h
  · rename_i hf
    obtain ⟨hlen, hne, -⟩ := hf
    obtain rfl := Option.some.inj h
    refine ⟨List.length_pos_iff.2 hne, ?_, ?_⟩
    · rw [← hlen]
      exact (List.takeWhile_prefix _).length_le
    · exact List.all_eq_true.2 fun c hc => List.mem_takeWhile_imp hc
  · cases h

theorem denom_of_denomOk {c : Byte} (h : denomOk c = true) : c.toNat ∈ [8, 16, 32, 64] := by
  simp only [denomOk, Bool.or_eq_true, beq_iff_eq] at h
  rcases h with ((rfl | rfl) | rfl) | rfl <;> decide

theorem loadIssueRun_moves (body : Text) (s : State) : ControlMove s (loadIssueRun body s).card := by
  unfold loadIssueRun
  dsimp only
  split
  · exact .nothing
  · split
    · exact .nothing
    · split
      · rename_i h0 hmax _ _ _ _ hs hd _ _
        split
        · exact .nothing
        · rename_i hc
          split
          · exact .nothing
          · rename_i hh
            exact .loadIssue _ _ (by omega) (symbolOk_of_symbolOf hs) (denom_of_denomOk hd) (by omega)
              (by simpa using hh)
      · exact .nothing

theorem deleteIssueRun_moves (body : Text) (s : State) : ControlMove s (deleteIssueRun body s).card := by
  rw [deleteIssueRun]
  split
  · exact .nothing
  · split
    · exact .nothing
    · rename_i hr
      split
      · exact .nothing
      · rename_i hu
        exact .deleteIssue hr (by simpa using hu)

/-- The mask a SET ROW carries names fields that a row shows (R95). -/
theorem mapping_ok_of_operands {n c : Nat} {m : Byte} (hm : maskOk m = true) (hc : c ≤ 3) :
    (⟨n, FieldSet.ofByte m, c⟩ : Mapping).Ok := by
  revert m
  simp only [Mapping.Ok, FieldSet.ofByte, maskOk, FieldSet.empty, hc, and_true, ne_eq, FieldSet.mk.injEq]
  decide

theorem setRowRun_moves (body : Text) (s : State) : ControlMove s (setRowRun body s).card := by
  unfold setRowRun
  split
  · split
    · dsimp only
      split
      · exact .blankRow _
      · split
        · exact .nothing
        · split
          · exact .nothing
          · rename_i hr
            split
            · exact .nothing
            · rename_i hok
              split
              · rename_i hl
                push Not at hok
                exact .setRow hr (mapping_ok_of_operands (by simpa using hok.1) hok.2) hl
              · exact .nothing
    · exact .nothing
  · exact .nothing

theorem State.checkIssues_none {s : State} {ns : List Nat} (h : s.checkIssues ns = none) :
    ns.Nodup ∧ ∀ n ∈ ns, (listed s n).isSome = true := by
  rw [checkIssues] at h
  split at h
  · cases h
  · split at h
    · cases h
    · rename_i hfree
      split at h
      · rename_i hn
        refine ⟨hn, fun n hmem => ?_⟩
        by_contra hno
        exact hfree (List.any_eq_true.2 ⟨n, hmem, by simpa using hno⟩)
      · cases h

theorem length_readIssues (body : Text) (i n : Nat) : (readIssues body i n).length = n := by
  induction n generalizing i with
  | zero => rfl
  | succ n ih => rw [readIssues, List.length_cons, ih]

theorem setWatchListRun_moves (t : TermNo) (body : Text) (s : State) :
    ControlMove s (setWatchListRun t body s).card := by
  unfold setWatchListRun
  dsimp only
  split
  · exact .nothing
  · rename_i hl
    split
    · exact .nothing
    · rename_i hc
      obtain ⟨hn, hr⟩ := State.checkIssues_none hc
      exact .watch (.set hn (by rw [length_readIssues]; omega) hr)

theorem State.watchAppend_moves {s : State} {t : TermNo} {n : Nat}
    (hr : (findRecord s.issues.records n).isSome = true) :
    (s.watchAppend t n).1 = s ∨ ∃ ns, WatchMove s t ns ∧ (s.watchAppend t n).1 = s.rewatch t ns := by
  unfold watchAppend
  dsimp only
  split
  · exact .inl rfl
  · rename_i hn
    split
    · rename_i hl
      exact .inr ⟨_, .append hr hn hl, rfl⟩
    · exact .inl rfl

theorem State.watchRemove_moves (s : State) (t : TermNo) (n : Nat) :
    (s.watchRemove t n).1 = s ∨ ∃ ns, WatchMove s t ns ∧ (s.watchRemove t n).1 = s.rewatch t ns := by
  unfold watchRemove
  dsimp only
  split
  · exact .inr ⟨_, .remove n, rfl⟩
  · exact .inl rfl

theorem ControlMove.of_watch {s u : State} {t : TermNo}
    (h : u = s ∨ ∃ ns, WatchMove s t ns ∧ u = s.rewatch t ns) : ControlMove s u := by
  rcases h with rfl | ⟨ns, hw, rfl⟩
  · exact .nothing
  · exact .watch hw

theorem addWatchRun_moves (t : TermNo) (body : Text) (s : State) : ControlMove s (addWatchRun t body s).card := by
  unfold addWatchRun
  dsimp only
  split
  · exact .nothing
  · split
    · exact .nothing
    · rename_i hr
      exact .of_watch (State.watchAppend_moves (findRecord_isSome_of_listed (by rw [hr]; rfl)))

theorem dropWatchRun_moves (t : TermNo) (body : Text) (s : State) : ControlMove s (dropWatchRun t body s).card :=
  .of_watch (State.watchRemove_moves s t _)

theorem limitOk_limitTaken {c : Condition} {limit : Int} (h : limitOk c limit = true) :
    limitOk c (limitTaken c limit) = true ∧ limitTaken c (limitTaken c limit) = limitTaken c limit := by
  cases c <;> exact ⟨h, rfl⟩

/-- The slot that the checks of a setting let through is ARMED, with a limit in its range (R161). -/
theorem State.setSlot_ok {s u : State} {t : TermNo} {slot cond neg : Byte} {limit : Int} {issue : Except Result Nat}
    {k : SlotNo} (h : s.setSlot t slot cond neg limit issue = .ok (u, k)) :
    ∃ a : AlertSetting, issue = .ok a.issue ∧ a.Ok ∧ u = s.setAlert t k (some a) := by
  rw [setSlot] at h
  split at h
  · split at h
    · cases h
    · split at h
      · rename_i hl
        cases h
        exact ⟨⟨false, _, _, _, _, false⟩, rfl, ⟨(nomatch ·), limitOk_limitTaken hl⟩, rfl⟩
      · cases h
  · cases h

theorem State.alertIssue_ok {s : State} {n m : Nat} (h : s.alertIssue n = .ok m) :
    m = n ∧ (listed s n).isSome = true := by
  rw [alertIssue] at h
  split at h
  · cases h
  · split at h
    · cases h
    · rename_i hr
      cases h
      exact ⟨rfl, by simpa [Option.isSome_iff_ne_none] using hr⟩

theorem setAlertRun_moves (t : TermNo) (body : Text) (s : State) : ControlMove s (setAlertRun t body s).card := by
  rw [setAlertRun]
  split
  · exact .nothing
  · rename_i hs
    obtain ⟨a, hi, ha, rfl⟩ := State.setSlot_ok hs
    obtain ⟨he, hr⟩ := State.alertIssue_ok hi
    exact .setAlert t _ (by rw [he]; exact findRecord_isSome_of_listed hr) ha

theorem clearAlertRun_moves (t : TermNo) (body : Text) (s : State) : ControlMove s (clearAlertRun t body s).card := by
  rw [clearAlertRun]
  split
  · exact .nothing
  · exact .clearAlert _ _

theorem setTapeRun_moves (body : Text) (s : State) : ControlMove s (setTapeRun body s).card := by
  unfold setTapeRun
  split
  · exact .nothing
  · dsimp only
    split
    · rename_i hok
      exact .setTape _ ⟨clamp_range _ (by decide), clamp_range _ (by decide), hok, clamp_range _ (by decide),
        (clamp_range _ (by decide)).2, clamp_range _ (by decide)⟩
    · exact .nothing

theorem setFlashListRun_moves (body : Text) (s : State) : ControlMove s (setFlashListRun body s).card := by
  unfold setFlashListRun
  dsimp only
  split
  · exact .nothing
  · rename_i hl
    split
    · exact .nothing
    · rename_i hc
      obtain ⟨hn, hr⟩ := State.checkIssues_none hc
      exact .setFlashList hn (by rw [length_readIssues]; omega) hr

theorem setLampsRun_moves (body : Text) (s : State) : ControlMove s (setLampsRun body s).card :=
  .setLamps (clamp_range _ (by decide)) (clamp_range _ (by decide)) (clamp_range _ (by decide))

theorem setFeedRun_moves (body : Text) (s : State) : ControlMove s (setFeedRun body s).card := by
  rw [setFeedRun]
  split
  · rename_i hc
    exact .setFeed (clamp_range _ (by decide)) hc
  · exact .nothing

theorem setTerminalRun_moves (t : TermNo) (body : Text) (s : State) :
    ControlMove s (setTerminalRun t body s).card := by
  rw [setTerminalRun]
  split
  · exact .enable t
  · split
    · exact .disable t
    · exact .nothing

theorem noOperationRun_moves (body : Text) (s : State) : ControlMove s (noOperationRun body s).card := by
  rw [noOperationRun]
  split
  · exact .draw 1
  · exact .nothing

/-! ### The reads -/

theorem readIssueRun_moves (body : Text) (s : State) : ControlMove s (readIssueRun body s).card := by
  rw [readIssueRun]
  split
  · exact .nothing
  · split
    · exact .nothing
    · split <;> exact .draw 0

theorem readRowRun_moves (body : Text) (s : State) : ControlMove s (readRowRun body s).card := by
  rw [readRowRun]
  split
  · split
    · exact .draw _
    · exact .nothing
  · exact .nothing

theorem readLineRun_moves (body : Text) (s : State) : ControlMove s (readLineRun body s).card := by
  unfold readLineRun
  split
  · dsimp only
    split
    · split
      · exact .draw _
      · exact .nothing
    · split
      · exact .draw _
      · exact .nothing
  · exact .nothing

theorem withPart_moves {run : TermNo → Nat → State → Done} {body : Text} {s : State}
    (h : ∀ t part, ControlMove s (run t part s).card) : ControlMove s (withPart run body s).card := by
  rw [withPart]
  split
  · split
    · exact h _ _
    · exact .nothing
  · exact .nothing

theorem readTapeRun_moves (body : Text) (s : State) : ControlMove s (readTapeRun body s).card := by
  rw [readTapeRun]
  split
  · exact .nothing
  · exact .draw 0

theorem readCountsRun_moves (body : Text) (s : State) : ControlMove s (readCountsRun body s).card := by
  rw [readCountsRun]
  split
  · exact .draw 0
  · split
    · exact .draw 0
    · exact .nothing

/-! ### The terminal lines -/

/-- What a taken request but ALERT SET does before its reply (R140 to R142, R161). -/
inductive RequestMove (s : State) (t : TermNo) : State → Prop where
  | nothing : RequestMove s t s
  | draw (n : Nat) : RequestMove s t (s.drawFree n)
  | watch {ns : List Nat} (h : WatchMove s t ns) : RequestMove s t (s.rewatch t ns)
  | clearAlert (k : SlotNo) : RequestMove s t (s.setAlert t k none)

/-- What an answer, or none, does at a terminal line (R131, R133 to R138). -/
inductive TermMove (s : State) (l : LineNo) : State → Prop where
  | pollSent {x : Transaction} {c : Byte} (hx : (s.termLines[l]).inFlight = some x) (hs : x.stage = .pollSending c) :
      TermMove s l (s.setStage l x (.pollWait Config.terminalWait))
  | selectSent {x : Transaction} {sel : Select} (hx : (s.termLines[l]).inFlight = some x)
      (hs : x.stage = .selectSending sel) : TermMove s l (s.setStage l x (.selectWait sel Config.terminalWait))
  | nothing {x : Transaction} (hx : (s.termLines[l]).inFlight = some x) (hh : s.heard l x = true) :
      TermMove s l ((s.answerTaken (termOf l x.drop)).beginSelect l x)
  | request {x : Transaction} {u : State} (reply : Text) (hx : (s.termLines[l]).inFlight = some x)
      (hh : s.heard l x = true)
      (hq : ((s.answerTaken (termOf l x.drop)).terminals[termOf l x.drop]).queue.length < Config.outboundPlaces)
      (hu : RequestMove ((s.answerTaken (termOf l x.drop)).takenAck l) (termOf l x.drop) u) :
      TermMove s l ((u.pushReply (termOf l x.drop) reply).beginSelect l x)
  | alertSet {x : Transaction} (k : SlotNo) {a : AlertSetting} (reply : Text)
      (hx : (s.termLines[l]).inFlight = some x) (hh : s.heard l x = true)
      (hq : ((s.answerTaken (termOf l x.drop)).terminals[termOf l x.drop]).queue.length < Config.outboundPlaces)
      (hr : (findRecord s.issues.records a.issue).isSome = true) (ha : a.Ok) :
      TermMove s l ((((((s.answerTaken (termOf l x.drop)).takenAck l).setAlert (termOf l x.drop) k (some a)).pushReply
        (termOf l x.drop) reply).evaluate (termOf l x.drop) k).beginSelect l x)
  | retry {x : Transaction} (hx : (s.termLines[l]).inFlight = some x) (hh : s.heard l x = true) :
      TermMove s l (((s.answerTaken (termOf l x.drop)).retry l).beginSelect l x)
  | received {x : Transaction} (c : Carried) (hx : (s.termLines[l]).inFlight = some x) (hh : s.heard l x = true) :
      TermMove s l ((s.receivedAt (termOf l x.drop) c).endTransaction l)
  | busy {x : Transaction} (c : Carried) (hx : (s.termLines[l]).inFlight = some x) (hh : s.heard l x = true) :
      TermMove s l ((((s.countBusy l).answerTaken (termOf l x.drop)).setTerm (termOf l x.drop)
        ((((s.countBusy l).answerTaken (termOf l x.drop)).terminals[termOf l x.drop]).restored c)).endTransaction l)
  | missed {x : Transaction} (hx : (s.termLines[l]).inFlight = some x) (hh : s.heard l x = true) :
      TermMove s l ((((s.countMiss l).missTerm (termOf l x.drop)).restoreMissed (termOf l x.drop)
        x.stage).endTransaction l)
  | unheard : TermMove s l (s.endTransaction l)
  | unheardRetry : TermMove s l ((s.retry l).endTransaction l)
  | unheardBusy : TermMove s l ((s.countBusy l).endTransaction l)
  | unheardMiss : TermMove s l ((s.countMiss l).endTransaction l)

theorem TermLine.inFlight_of_pollAwaited {y : TermLine} {x : Transaction} (h : y.pollAwaited = some x) :
    y.inFlight = some x := (Option.filter_eq_some_iff.1 h).1

theorem TermLine.inFlight_of_selectAwaited {y : TermLine} {x : Transaction} {c : Carried}
    (h : y.selectAwaited = some (x, c)) : y.inFlight = some x := by
  obtain ⟨z, hz, hs⟩ := Option.bind_eq_some_iff.1 h
  split at hs
  · cases hs
    exact hz
  · cases hs

/-- What the run of a request answers: its moves, and for ALERT SET the slot it sets ARMED. -/
def Answered.Runs (s : State) (t : TermNo) (a : Answered) : Prop :=
  (a.slot = none ∧ RequestMove s t a.card)
    ∨ ∃ (k : SlotNo) (x : AlertSetting), a.slot = some k ∧ a.card = s.setAlert t k (some x) ∧ x.Ok
        ∧ (findRecord s.issues.records x.issue).isSome = true

theorem findRecord_isSome_of_findSymbol {rs : Records} {sym : Text} {n : Nat} (h : findSymbol rs sym = some n) :
    (findRecord rs n).isSome = true := by
  induction rs with
  | nil => cases h
  | cons p rs ih =>
    rw [findSymbol] at h
    rw [findRecord]
    split at h
    · obtain rfl := Option.some.inj h
      simp
    · split
      · rfl
      · exact ih h

theorem State.lookup_isSome {s : State} {field : Text} {n : Nat} (h : s.lookup field = some n) :
    (findRecord s.issues.records n).isSome = true := by
  rw [lookup] at h
  split at h
  · cases h
  · exact findRecord_isSome_of_findSymbol h

theorem quoteRun_runs (field : Text) (t : TermNo) (s : State) : (quoteRun field t s).Runs s t := by
  rw [quoteRun]
  split <;> exact .inl ⟨rfl, .nothing⟩

theorem RequestMove.of_watch {s u : State} {t : TermNo}
    (h : u = s ∨ ∃ ns, WatchMove s t ns ∧ u = s.rewatch t ns) : RequestMove s t u := by
  rcases h with rfl | ⟨ns, hw, rfl⟩
  · exact .nothing
  · exact .watch hw

theorem watchAddRun_runs (field : Text) (t : TermNo) (s : State) : (watchAddRun field t s).Runs s t := by
  rw [watchAddRun]
  split
  · exact .inl ⟨rfl, .nothing⟩
  · rename_i h
    exact .inl ⟨rfl, .of_watch (State.watchAppend_moves (State.lookup_isSome h))⟩

theorem watchDropRun_runs (field : Text) (t : TermNo) (s : State) : (watchDropRun field t s).Runs s t := by
  rw [watchDropRun]
  split
  · exact .inl ⟨rfl, .nothing⟩
  · exact .inl ⟨rfl, .of_watch (State.watchRemove_moves s t _)⟩

theorem alertSetRun_runs (slot : Byte) (field : Text) (cond neg : Byte) (limit : BitVec 32) (t : TermNo) (s : State) :
    (alertSetRun slot field cond neg limit t s).Runs s t := by
  unfold alertSetRun
  dsimp only
  split
  · exact .inl ⟨rfl, .nothing⟩
  · rename_i hs
    obtain ⟨a, hi, ha, rfl⟩ := State.setSlot_ok hs
    refine .inr ⟨_, a, rfl, rfl, ha, ?_⟩
    split at hi
    · cases hi
    · rename_i hn
      cases hi
      exact State.lookup_isSome hn

theorem alertClearRun_runs (slot : Byte) (t : TermNo) (s : State) : (alertClearRun slot t s).Runs s t := by
  rw [alertClearRun]
  split
  · exact .inl ⟨rfl, .nothing⟩
  · exact .inl ⟨rfl, .clearAlert _⟩

theorem badRequestRun_runs (request : Text) (t : TermNo) (s : State) : (badRequestRun request t s).Runs s t := by
  unfold badRequestRun
  split
  · exact .inl ⟨rfl, .nothing⟩
  · exact .inl ⟨rfl, .draw 1⟩

/-! ### The card -/

/-- What a command of the board lines, the lamps, the terminal lines or the Alert Table does. -/
inductive LineMove (s : State) : State → Prop where
  | boardNotice {n : ChangeNotice} {rest : List ChangeNotice} (h : s.boardNotices = n :: rest) :
      LineMove s (({ s with boardNotices := rest }.markRows n.fields n.rows).chooseBoards)
  | transferSent (l : LineNo) {t : Transfer} (h : (s.boards[l]).inFlight = some t) :
      LineMove s (s.setBoard l { s.boards[l] with inFlight := some { t with wait := some Config.boardWait } })
  | broadcastSent (l : LineNo) : LineMove s ((s.setBoard l { s.boards[l] with inFlight := none }).chooseBoard l)
  | accept (l : LineNo) {i : ModuleNo} {t : Transfer} (h : s.boards[l].awaiting = some (i, t)) :
      LineMove s (acceptAt l i s)
  | hold (l : LineNo) {i : ModuleNo} {t : Transfer} (h : s.boards[l].awaiting = some (i, t)) :
      LineMove s (holdAt l i t s)
  | miss (l : LineNo) {i : ModuleNo} {t : Transfer} (h : s.boards[l].awaiting = some (i, t)) :
      LineMove s (missAt l i t s)
  | backOffEnd (l : LineNo) (i : ModuleNo) :
      LineMove s ((s.setBoard l { s.boards[l] with
        modules := vupd s.boards[l].modules i fun m => { m with backOff := none } }).chooseBoard l)
  | lampNotice {n : ChangeNotice} {rest : List ChangeNotice} (h : s.lampNotices = n :: rest) :
      LineMove s (({ s with lampNotices := rest }.noticeRows n n.rows).chooseBoards)
  | phaseEnd (r : RowNo) :
      LineMove s ((s.moveLamps r { s.lamps[r] with arrow := (s.lamps[r]).arrow.expire s.lampParams }).chooseBoards)
  | terminalNotice {n : ChangeNotice} {rest : List ChangeNotice} (h : s.terminalNotices = n :: rest) :
      LineMove s { s with
        terminalNotices := rest
        terminals := Vector.ofFn fun t =>
          if n.watchers.getLsbD t.val then (s.terminals[t]).noticed n else s.terminals[t] }
  | terminal {l : LineNo} {t : State} (h : TermMove s l t) : LineMove s t
  | alertNotice {n : ChangeNotice} {rest : List ChangeNotice} (h : s.alertNotices = n :: rest) :
      LineMove s (allSlots.foldl (State.noticeSlot n.issue) { s with alertNotices := rest })

/-- Everything a step of the card can do. A command that is not due moves nothing (log 1). -/
inductive Move (s : State) : State → Prop where
  | idle : Move s s
  | powerOn (unit : Byte) (on : Bool) :
      Move s { State.powerOn unit on s.upstream.readyAbove s.pending with
        upstream := (State.powerOn unit on s.upstream.readyAbove s.pending).upstream.arbitrate
        freeCount := s.freeCount }
  | character (a : Assembler) : Move s { s with feed := { s.feed with assembler := a } }
  | failure (a : Assembler) :
      Move s (({ s with feed := { s.feed with assembler := a } } : State).countFeed fun n =>
        { n with checkFailure := satInc n.checkFailure })
  | frame (a : Assembler) (f : Frame) :
      Move s (({ s with feed := { s.feed with assembler := a } } : State).checked f)
  | throughEnd : Move s { s with feed := { s.feed with transmitting := none }.pump }
  | quiet (h : s.feed.silence = some 0) : Move s s.goQuiet
  | switchOn : Move s { s with throughSwitch := true }
  | switchOff : Move s { s with
      throughSwitch := false
      feed := { s.feed with through := s.feed.through.map fun e => { e with doomed := true } } }
  | tick : Move s s.tick
  | data {u : State} (v : Verdict) (h : DataMove s.dropHead u) : Move s (u.countFeed v.count)
  | claim (op : Operation) (hi : s.control.inHand = none) : Move s (s.dropHead.takeClaim op)
  | execute {op : Operation} {u : State} (table : Byte) (r : Result) (data : Text)
      (hi : s.control.inHand = some op) (h : ControlMove s.finished u) :
      Move s ((⟨u, r, data⟩ : Done).replied op.body table)
  | broadcast {u : State} (hi : s.control.inHand = none) (h : ControlMove s.dropHead u) : Move s u
  | restart {op : Operation} (hi : s.control.inHand = some op) : Move s (s.finished.restart true op.body op.serial)
  | restartAll (op : Operation) (hi : s.control.inHand = none) : Move s (s.dropHead.restart false op.body op.serial)
  | tapeJoin (ch : Channel) {i : TapeItem} {rest : List TapeItem} (h : (s.tape ch).arrivals = i :: rest) :
      Move s (s.tookTape ch ({ s.tape ch with arrivals := rest }.take ch s.flashNow s.issues.clock i))
  | tapeCharacter (ch : Channel) : Move s (s.tookTape ch ((s.tape ch).charSent ch s.flashNow s.issues.clock))
  | flashExpiry (ch : Channel) (h : (s.tape ch).flashTimer = some 0) :
      Move s (s.tookTape ch ((s.tape ch).flashExpiry ch s.flashNow s.issues.clock))
  | line {t : State} (h : LineMove s t) : Move s t
  | upstreamCharacter (a : Assembler) : Move s { s with upstream := { s.upstream with assembler := a } }
  | upstreamFrame (a : Assembler) (f : Frame) (h : s.upstream.buffer.length < Config.passPlaces) :
      Move s { s with upstream :=
        ({ s.upstream with assembler := a, buffer := s.upstream.buffer ++ [f] } : UpstreamPort).arbitrate }
  | upstreamEnd : Move s { s with upstream := { s.upstream with transmitting := none }.arbitrate }
  | readyLine (active : Bool) : Move s { s with upstream := { s.upstream with readyAbove := active }.arbitrate }

section
variable {s t : State}

theorem State.takeData_moves {k : DataKind} {mine : Text → Bool} {apply : Text → State → State × Verdict}
    (h : s.takeData k mine apply = .next t) (ha : ∀ body u, DataMove u (apply body u).1) : Move s t := by
  rw [takeData] at h
  split at h
  · cases h
    exact .idle
  · split at h
    · cases h
      exact .data _ (ha _ _)
    · cases h
      exact .idle

theorem State.takeControl_moves {mine : Text → Bool} {table : Text → Byte} {run whole : Text → State → Done}
    (h : s.takeControl mine table run whole = .next t) (hr : ∀ body u, ControlMove u (run body u).card)
    (hw : ∀ body u, ControlMove u (whole body u).card) : Move s t := by
  rw [takeControl] at h
  rcases s.turn_cases mine with ⟨op, hi, -, e⟩ | ⟨op, rest, hi, -, -, e⟩ | ⟨op, rest, hi, -, -, e⟩ | e <;>
    rw [e] at h <;> cases h
  · exact .execute _ _ _ hi (hr _ _)
  · exact .claim op hi
  · exact .broadcast hi (hw _ _)
  · exact .idle

theorem State.takeOperation_moves {mine : Text → Bool} {run : Text → State → Done}
    (h : s.takeOperation mine run = .next t) (hr : ∀ body u, ControlMove u (run body u).card) : Move s t :=
  takeControl_moves h hr hr

theorem State.takeRead_moves {table : Byte} {run : Text → State → Done}
    (h : s.takeRead table run = .next t) (hr : ∀ body u, ControlMove u (run body u).card) : Move s t :=
  takeControl_moves h hr fun _ _ => .nothing

theorem execRestart_moves (h : execRestart s = .next t) : Move s t := by
  rw [execRestart] at h
  rcases s.turn_cases (opIs 0x0F) with ⟨op, hi, -, e⟩ | ⟨op, rest, hi, -, -, e⟩ | ⟨op, rest, hi, -, -, e⟩ | e <;>
    rw [e] at h <;> obtain rfl := Host.Outcome.next.inj h
  · exact .restart hi
  · exact .claim op hi
  · exact .restartAll op hi
  · exact .idle

theorem execFeedInCharacter_moves {c : Byte} (h : execFeedInCharacter c s = .next t) : Move s t := by
  unfold execFeedInCharacter at h
  dsimp only at h
  split at h <;> cases h
  · exact .character _
  · exact .failure _
  · exact .frame _ _

theorem execUpstreamInCharacter_moves {c : Byte} (h : execUpstreamInCharacter c s = .next t) : Move s t := by
  unfold execUpstreamInCharacter at h
  dsimp only at h
  split at h
  · split at h
    · rename_i hb
      cases h
      exact .upstreamFrame _ _ hb
    · cases h
  · cases h
    exact .upstreamCharacter _
  · cases h
    exact .upstreamCharacter _

theorem State.request_moves {l : LineNo} {run : TermNo → State → Answered}
    (hr : ∀ x u, (run x u).Runs u x) : Move s (s.request l run) := by
  unfold request
  split
  · exact .idle
  · rename_i x hx
    have hx := TermLine.inFlight_of_pollAwaited hx
    dsimp only
    split
    · rename_i hh
      split
      · rename_i hq
        rw [runRequest]
        rcases hr (termOf l x.drop) ((s.answerTaken (termOf l x.drop)).takenAck l) with
          ⟨hslot, hmove⟩ | ⟨k, a, hslot, hcard, ha, hrec⟩
        · simp only [hslot]
          exact .line (.terminal (.request _ hx hh hq hmove))
        · simp only [hslot, hcard]
          rw [answerTaken_frame] at hrec
          exact .line (.terminal (.alertSet k _ hx hh hq hrec ha))
      · exact .line (.terminal (.retry hx hh))
    · exact .line (.terminal .unheardRetry)

theorem execThroughFrameEnd_moves (h : execThroughFrameEnd s = .next t) : Move s t := by
  rw [execThroughFrameEnd] at h
  split at h <;> cases h <;> [exact .idle; exact .throughEnd]

theorem execSilenceTimerExpiry_moves (h : execSilenceTimerExpiry s = .next t) : Move s t := by
  rw [execSilenceTimerExpiry] at h
  split at h <;> cases h <;> [exact .quiet ‹_›; exact .idle]

theorem execHeartbeat_moves (h : execHeartbeat s = .next t) : Move s t :=
  State.takeData_moves h fun _ _ => .unapplied

theorem execTrade_moves (h : execTrade s = .next t) : Move s t :=
  State.takeData_moves h applyTrade_moves

theorem execOutOfSequenceTrade_moves (h : execOutOfSequenceTrade s = .next t) : Move s t :=
  State.takeData_moves h applyLate_moves

theorem execAlternatePrint_moves (h : execAlternatePrint s = .next t) : Move s t :=
  State.takeData_moves h applyAlternate_moves

theorem execQuote_moves (h : execQuote s = .next t) : Move s t :=
  State.takeData_moves h applyQuote_moves

theorem execIssueStatus_moves (h : execIssueStatus s = .next t) : Move s t :=
  State.takeData_moves h applyStatus_moves

theorem execCorrection_moves (h : execCorrection s = .next t) : Move s t :=
  State.takeData_moves h applyCorrection_moves

theorem execMarketOpen_moves (h : execMarketOpen s = .next t) : Move s t :=
  State.takeData_moves h applyOpen_moves

theorem execMarketClose_moves (h : execMarketClose s = .next t) : Move s t :=
  State.takeData_moves h applyClose_moves

theorem execNoOperationCode_moves (h : execNoOperationCode s = .next t) : Move s t :=
  State.takeControl_moves h noOperationRun_moves (fun _ _ => .nothing)

theorem execLoadIssue_moves (h : execLoadIssue s = .next t) : Move s t :=
  State.takeOperation_moves h fun _ _ => withLength_moves (loadIssueRun_moves _ _)

theorem execDeleteIssue_moves (h : execDeleteIssue s = .next t) : Move s t :=
  State.takeOperation_moves h fun _ _ => withLength_moves (deleteIssueRun_moves _ _)

theorem execSetRow_moves (h : execSetRow s = .next t) : Move s t :=
  State.takeOperation_moves h fun _ _ => withLength_moves (setRowRun_moves _ _)

theorem execSetTape_moves (h : execSetTape s = .next t) : Move s t :=
  State.takeOperation_moves h fun _ _ => withLength_moves (setTapeRun_moves _ _)

theorem execSetFlashList_moves (h : execSetFlashList s = .next t) : Move s t :=
  State.takeOperation_moves h fun _ _ => withLength_moves (setFlashListRun_moves _ _)

theorem execSetLamps_moves (h : execSetLamps s = .next t) : Move s t :=
  State.takeOperation_moves h fun _ _ => withLength_moves (setLampsRun_moves _ _)

theorem execSetFeed_moves (h : execSetFeed s = .next t) : Move s t :=
  State.takeOperation_moves h fun _ _ => withLength_moves (setFeedRun_moves _ _)

theorem execClearCounts_moves (h : execClearCounts s = .next t) : Move s t :=
  State.takeOperation_moves h fun _ _ => .clearCounts

theorem execReadIssue_moves (h : execReadIssue s = .next t) : Move s t :=
  State.takeRead_moves h fun _ _ => withLength_moves (readIssueRun_moves _ _)

theorem execReadRow_moves (h : execReadRow s = .next t) : Move s t :=
  State.takeRead_moves h fun _ _ => withLength_moves (readRowRun_moves _ _)

theorem execReadLine_moves (h : execReadLine s = .next t) : Move s t :=
  State.takeRead_moves h fun _ _ => withLength_moves (readLineRun_moves _ _)

theorem execReadWatchList_moves (h : execReadWatchList s = .next t) : Move s t :=
  State.takeRead_moves h fun _ _ => withLength_moves (withPart_moves fun _ _ => .draw 0)

theorem execReadAlerts_moves (h : execReadAlerts s = .next t) : Move s t :=
  State.takeRead_moves h fun _ _ => withLength_moves (withPart_moves fun _ _ => .draw 0)

theorem execReadTape_moves (h : execReadTape s = .next t) : Move s t :=
  State.takeRead_moves h fun _ _ => withLength_moves (readTapeRun_moves _ _)

theorem execReadCounts_moves (h : execReadCounts s = .next t) : Move s t :=
  State.takeRead_moves h fun _ _ => withLength_moves (readCountsRun_moves _ _)

theorem execReadUnit_moves (h : execReadUnit s = .next t) : Move s t :=
  State.takeRead_moves h fun _ _ => .draw 0

theorem execTapeEntryJoin_moves {ch : Channel} (h : execTapeEntryJoin ch s = .next t) : Move s t := by
  unfold execTapeEntryJoin at h
  dsimp only at h
  split at h <;> cases h <;> [exact .idle; exact .tapeJoin ch ‹_›]

theorem execTapeCharacterSent_moves {ch : Channel} (h : execTapeCharacterSent ch s = .next t) : Move s t := by
  rw [execTapeCharacterSent] at h
  split at h <;> cases h <;> [exact .idle; exact .tapeCharacter ch]

theorem execFlashTimerExpiry_moves {ch : Channel} (h : execFlashTimerExpiry ch s = .next t) : Move s t := by
  rw [execFlashTimerExpiry] at h
  split at h <;> cases h <;> [exact .flashExpiry ch ‹_›; exact .idle]

theorem execBoardChangeNotice_moves (h : execBoardChangeNotice s = .next t) : Move s t := by
  rw [execBoardChangeNotice] at h
  split at h <;> cases h <;> [exact .idle; exact .line (.boardNotice ‹_›)]

theorem execTransferSent_moves {l : LineNo} (h : execTransferSent l s = .next t) : Move s t := by
  rw [execTransferSent] at h
  split at h
  · cases h
    exact .idle
  · split at h <;> cases h <;> [exact .line (.transferSent l ‹_›); exact .idle]

theorem execBroadcastSent_moves {l : LineNo} (h : execBroadcastSent l s = .next t) : Move s t := by
  rw [execBroadcastSent] at h
  split at h
  · cases h
    exact .idle
  · split at h <;> cases h <;> [exact .line (.broadcastSent l); exact .idle]

theorem execAccept_moves {l : LineNo} (h : execAccept l s = .next t) : Move s t := by
  rw [execAccept] at h
  split at h <;> cases h <;> [exact .idle; exact .line (.accept l ‹_›)]

theorem execHold_moves {l : LineNo} (h : execHold l s = .next t) : Move s t := by
  rw [execHold] at h
  split at h <;> cases h <;> [exact .idle; exact .line (.hold l ‹_›)]

theorem execBoardAnswerWaitExpiry_moves {l : LineNo} (h : execBoardAnswerWaitExpiry l s = .next t) : Move s t := by
  rw [execBoardAnswerWaitExpiry] at h
  split at h
  · cases h
    exact .idle
  · split at h <;> cases h <;> [exact .line (.miss l ‹_›); exact .idle]

theorem execHoldBackOffExpiry_moves {l : LineNo} {i : ModuleNo} (h : execHoldBackOffExpiry l i s = .next t) :
    Move s t := by
  rw [execHoldBackOffExpiry] at h
  split at h <;> cases h <;> [exact .line (.backOffEnd l i); exact .idle]

theorem execLampChangeNotice_moves (h : execLampChangeNotice s = .next t) : Move s t := by
  rw [execLampChangeNotice] at h
  split at h <;> cases h <;> [exact .idle; exact .line (.lampNotice ‹_›)]

theorem execPhaseTimerExpiry_moves {r : RowNo} (h : execPhaseTimerExpiry r s = .next t) : Move s t := by
  unfold execPhaseTimerExpiry at h
  dsimp only at h
  split at h <;> cases h <;> [exact .line (.phaseEnd r); exact .idle]

theorem execTerminalChangeNotice_moves (h : execTerminalChangeNotice s = .next t) : Move s t := by
  rw [execTerminalChangeNotice] at h
  split at h <;> cases h <;> [exact .idle; exact .line (.terminalNotice ‹_›)]

theorem execPollSent_moves {l : LineNo} (h : execPollSent l s = .next t) : Move s t := by
  rw [execPollSent] at h
  split at h
  · cases h
    exact .idle
  · split at h <;> cases h <;> [exact .line (.terminal (.pollSent ‹_› ‹_›)); exact .idle]

theorem execSelectSent_moves {l : LineNo} (h : execSelectSent l s = .next t) : Move s t := by
  rw [execSelectSent] at h
  split at h
  · cases h
    exact .idle
  · split at h <;> cases h <;> [exact .line (.terminal (.selectSent ‹_› ‹_›)); exact .idle]

theorem execNothing_moves {l : LineNo} (h : execNothing l s = .next t) : Move s t := by
  rw [execNothing] at h
  split at h
  · cases h
    exact .idle
  · rename_i hx
    split at h <;> cases h <;>
      [exact .line (.terminal (.nothing (TermLine.inFlight_of_pollAwaited hx) ‹_›));
        exact .line (.terminal .unheard)]

theorem execReceived_moves {l : LineNo} (h : execReceived l s = .next t) : Move s t := by
  rw [execReceived] at h
  split at h
  · cases h
    exact .idle
  · rename_i hx
    split at h <;> cases h <;>
      [exact .line (.terminal (.received _ (TermLine.inFlight_of_selectAwaited hx) ‹_›));
        exact .line (.terminal .unheard)]

theorem execBusy_moves {l : LineNo} (h : execBusy l s = .next t) : Move s t := by
  rw [execBusy] at h
  split at h
  · cases h
    exact .idle
  · rename_i hx
    dsimp only at h
    split at h <;> cases h <;>
      [exact .line (.terminal (.busy _ (TermLine.inFlight_of_selectAwaited hx) ‹_›));
        exact .line (.terminal .unheardBusy)]

theorem execTerminalAnswerWaitExpiry_moves {l : LineNo} (h : execTerminalAnswerWaitExpiry l s = .next t) :
    Move s t := by
  rw [execTerminalAnswerWaitExpiry] at h
  split at h
  · cases h
    exact .idle
  · split at h
    · dsimp only at h
      split at h <;> cases h <;> [exact .line (.terminal (.missed ‹_› ‹_›)); exact .line (.terminal .unheardMiss)]
    · cases h
      exact .idle

theorem execAlertChangeNotice_moves (h : execAlertChangeNotice s = .next t) : Move s t := by
  rw [execAlertChangeNotice] at h
  split at h <;> obtain rfl := Host.Outcome.next.inj h <;> [exact .idle; exact .line (.alertNotice ‹_›)]

theorem execUpstreamFrameEnd_moves (h : execUpstreamFrameEnd s = .next t) : Move s t := by
  rw [execUpstreamFrameEnd] at h
  split at h <;> cases h <;> [exact .idle; exact .upstreamEnd]

theorem execSetWatchList_moves (h : execSetWatchList s = .next t) : Move s t :=
  State.takeOperation_moves h fun _ _ => withLength_moves (withTerminal_moves fun _ => setWatchListRun_moves _ _ _)

theorem execAddWatch_moves (h : execAddWatch s = .next t) : Move s t :=
  State.takeOperation_moves h fun _ _ => withLength_moves (withTerminal_moves fun _ => addWatchRun_moves _ _ _)

theorem execDropWatch_moves (h : execDropWatch s = .next t) : Move s t :=
  State.takeOperation_moves h fun _ _ => withLength_moves (withTerminal_moves fun _ => dropWatchRun_moves _ _ _)

theorem execSetAlert_moves (h : execSetAlert s = .next t) : Move s t :=
  State.takeOperation_moves h fun _ _ => withLength_moves (withTerminal_moves fun _ => setAlertRun_moves _ _ _)

theorem execClearAlert_moves (h : execClearAlert s = .next t) : Move s t :=
  State.takeOperation_moves h fun _ _ => withLength_moves (withTerminal_moves fun _ => clearAlertRun_moves _ _ _)

theorem execSetTerminal_moves (h : execSetTerminal s = .next t) : Move s t :=
  State.takeOperation_moves h fun _ _ => withLength_moves (withTerminal_moves fun _ => setTerminalRun_moves _ _ _)

/-- Every command that answers a next state makes one of the moves. -/
theorem exec_moves {c : Instr} (h : exec c s = .next t) : Move s t := by
  cases c
  case powerOn => cases h; exact .powerOn _ _
  case feedInCharacter => exact execFeedInCharacter_moves h
  case throughFrameEnd => exact execThroughFrameEnd_moves h
  case silenceTimerExpiry => exact execSilenceTimerExpiry_moves h
  case throughSwitchChange on => cases on <;> cases h <;> [exact .switchOff; exact .switchOn]
  case marketClockTick => cases h; exact .tick
  case heartbeat => exact execHeartbeat_moves h
  case trade => exact execTrade_moves h
  case outOfSequenceTrade => exact execOutOfSequenceTrade_moves h
  case alternatePrint => exact execAlternatePrint_moves h
  case quote => exact execQuote_moves h
  case issueStatus => exact execIssueStatus_moves h
  case correction => exact execCorrection_moves h
  case marketOpen => exact execMarketOpen_moves h
  case marketClose => exact execMarketClose_moves h
  case noOperationCode => exact execNoOperationCode_moves h
  case loadIssue => exact execLoadIssue_moves h
  case deleteIssue => exact execDeleteIssue_moves h
  case setRow => exact execSetRow_moves h
  case setWatchList => exact execSetWatchList_moves h
  case addWatch => exact execAddWatch_moves h
  case dropWatch => exact execDropWatch_moves h
  case setAlert => exact execSetAlert_moves h
  case clearAlert => exact execClearAlert_moves h
  case setTape => exact execSetTape_moves h
  case setFlashList => exact execSetFlashList_moves h
  case setLamps => exact execSetLamps_moves h
  case setFeed => exact execSetFeed_moves h
  case setTerminal => exact execSetTerminal_moves h
  case clearCounts => exact execClearCounts_moves h
  case restart => exact execRestart_moves h
  case readIssue => exact execReadIssue_moves h
  case readRow => exact execReadRow_moves h
  case readLine => exact execReadLine_moves h
  case readWatchList => exact execReadWatchList_moves h
  case readAlerts => exact execReadAlerts_moves h
  case readTape => exact execReadTape_moves h
  case readCounts => exact execReadCounts_moves h
  case readUnit => exact execReadUnit_moves h
  case tapeEntryJoin => exact execTapeEntryJoin_moves h
  case tapeCharacterSent => exact execTapeCharacterSent_moves h
  case flashTimerExpiry => exact execFlashTimerExpiry_moves h
  case boardChangeNotice => exact execBoardChangeNotice_moves h
  case transferSent => exact execTransferSent_moves h
  case broadcastSent => exact execBroadcastSent_moves h
  case accept => exact execAccept_moves h
  case hold => exact execHold_moves h
  case boardAnswerWaitExpiry => exact execBoardAnswerWaitExpiry_moves h
  case holdBackOffExpiry => exact execHoldBackOffExpiry_moves h
  case boardOtherCharacter => cases h; exact .idle
  case lampChangeNotice => exact execLampChangeNotice_moves h
  case phaseTimerExpiry => exact execPhaseTimerExpiry_moves h
  case terminalChangeNotice => exact execTerminalChangeNotice_moves h
  case pollSent => exact execPollSent_moves h
  case selectSent => exact execSelectSent_moves h
  case nothing => exact execNothing_moves h
  case quoteRequest => cases h; exact State.request_moves (quoteRun_runs _)
  case watchAdd => cases h; exact State.request_moves (watchAddRun_runs _)
  case watchDrop => cases h; exact State.request_moves (watchDropRun_runs _)
  case alertSet => cases h; exact State.request_moves (alertSetRun_runs _ _ _ _ _)
  case alertClear => cases h; exact State.request_moves (alertClearRun_runs _)
  case requestBadOperation => cases h; exact State.request_moves (badRequestRun_runs _)
  case received => exact execReceived_moves h
  case busy => exact execBusy_moves h
  case terminalAnswerWaitExpiry => exact execTerminalAnswerWaitExpiry_moves h
  case terminalOtherCharacter => cases h; exact .idle
  case alertChangeNotice => exact execAlertChangeNotice_moves h
  case upstreamInCharacter => exact execUpstreamInCharacter_moves h
  case upstreamFrameEnd => exact execUpstreamFrameEnd_moves h
  case readyLineChange active => cases h; exact .readyLine active

/-- A step idles, or makes a move with the front of the queue of commands taken off. -/
theorem step_moves (h : step s = .next t) : t = s ∨ ∃ rest, Move { s with pending := rest } t := by
  rw [step] at h
  split at h
  · cases h
    exact .inl rfl
  · exact .inr ⟨_, exec_moves h⟩

end

/-- An invariant that does not read the queue of commands, and that every move keeps, is kept by every step. -/
theorem step_keeps {P : State → Prop} (hp : ∀ s rest, P s → P { s with pending := rest })
    (hm : ∀ s t, P s → Move s t → P t) {s t : State} (hs : P s) (h : step s = .next t) : P t := by
  rcases step_moves h with rfl | ⟨rest, hmove⟩
  · exact hs
  · exact hm _ _ (hp _ _ hs) hmove

end Sys2Proof.Machine
end

