-- ==== Sys2Proof/Proofs/Frames.lean ====
section
/-! PROOFS. What the moves of the card leave alone: one lemma for each operation of a block that a move is made of. -/

namespace Sys2Proof.Machine

/-! ### One place of a vector set -/

theorem getElem_set_fin {α : Type} {n : Nat} (v : Vector α n) (i j : Fin n) (a : α) :
    (v.set i a)[j] = if j = i then a else v[j] := by
  split
  · rename_i h
    subst h
    simp
  · rename_i h
    exact Vector.getElem_set_ne _ _ fun e => h (Fin.ext e.symm)

theorem vupd_get {α : Type} {n : Nat} (v : Vector α n) (i j : Fin n) (f : α → α) :
    (vupd v i f)[j] = if j = i then f v[i] else v[j] := getElem_set_fin _ _ _ _

/-- What a change of one place leaves of it, it leaves of every place. -/
theorem vupd_view {α β : Type} {n : Nat} {f : α → α} {view : α → β} (h : ∀ a, view (f a) = view a) (v : Vector α n)
    (i j : Fin n) : view (vupd v i f)[j] = view v[j] := by
  rw [vupd_get]
  split
  · rename_i e
    subst e
    exact h _
  · rfl

variable (s : State)

theorem State.setBoard_board (l k : LineNo) (b : BoardLine) :
    (s.setBoard l b).boards[k] = if k = l then b else s.boards[k] := getElem_set_fin _ _ _ _

theorem State.setTerm_term (t q : TermNo) (x : Terminal) :
    (s.setTerm t x).terminals[q] = if q = t then x else s.terminals[q] := getElem_set_fin _ _ _ _

theorem State.setTermLine_line (l k : LineNo) (x : TermLine) :
    (s.setTermLine l x).termLines[k] = if k = l then x else s.termLines[k] := getElem_set_fin _ _ _ _

theorem State.setAlert_slot (t u : TermNo) (k j : SlotNo) (a : AlertSlot) :
    ((s.setAlert t k a).alerts[u])[j] = if u = t ∧ j = k then a else (s.alerts[u])[j] := by
  rw [setAlert_alerts, getElem_set_fin]
  by_cases hu : u = t
  · subst hu
    simp only [if_true, getElem_set_fin, true_and]
  · simp only [hu, if_false, false_and]

/-! ### The board lines and the lamps -/

theorem acceptAt_frame (l : LineNo) (i : ModuleNo) :
    acceptAt l i s = { s with boards := (acceptAt l i s).boards, upstream := (acceptAt l i s).upstream } := by
  unfold acceptAt
  dsimp only
  rw [State.raiseAll_frame]
  rfl

theorem holdAt_frame (l : LineNo) (i : ModuleNo) (t : Transfer) :
    holdAt l i t s = { s with boards := (holdAt l i t s).boards, upstream := (holdAt l i t s).upstream } := by
  unfold holdAt
  dsimp only
  rw [State.raiseAll_frame]
  rfl

theorem missAt_frame (l : LineNo) (i : ModuleNo) (t : Transfer) :
    missAt l i t s = { s with boards := (missAt l i t s).boards, upstream := (missAt l i t s).upstream } := by
  unfold missAt
  dsimp only
  rw [State.raiseAll_frame]
  rfl

theorem State.tellBoards_frame (f : FeedState) : s.tellBoards f = { s with boards := (s.tellBoards f).boards } := by
  rw [tellBoards, chooseBoards_frame]

theorem State.announceOpen_frame :
    s.announceOpen = { s with lamps := s.announceOpen.lamps, boards := s.announceOpen.boards } := by
  rw [announceOpen, chooseBoards_frame, darkenRows_frame]

theorem State.mapRow_frame (r : RowNo) (p : Option Mapping) :
    s.mapRow r p = { s with
      boards := (s.mapRow r p).boards
      lamps := (s.mapRow r p).lamps
      issues := { s.issues with
        records := mapRecords (relink r (s.rowIssue r) (p.map Mapping.issue)) s.issues.records } } := by
  unfold mapRow
  dsimp only
  split
  · rfl
  · rw [moveLamps_eq]
    rfl

/-! ### The tapes -/

theorem State.tookTape_frame (ch : Channel) (r : TapeChannel × List (Byte × Text)) :
    s.tookTape ch r = { s with
      tapeA := (s.setTape ch r.1).tapeA
      tapeB := (s.setTape ch r.1).tapeB
      upstream := (s.tookTape ch r).upstream } := by
  rw [tookTape, raiseAll_frame]
  cases ch <;> rfl

theorem State.handTape_frame (ch : Channel) (i : TapeItem) :
    s.handTape ch i = { s with tapeA := (s.handTape ch i).tapeA, tapeB := (s.handTape ch i).tapeB } := by
  cases ch <;> rfl

theorem State.setTape_frame (ch : Channel) (c : TapeChannel) :
    s.setTape ch c = { s with tapeA := (s.setTape ch c).tapeA, tapeB := (s.setTape ch c).tapeB } := by
  cases ch <;> rfl

/-! ### The Feed Receiver -/

theorem State.returnLive_frame :
    s.returnLive = { s with
      feed := { s.feed with feedState := .live }
      upstream := s.returnLive.upstream
      boards := s.returnLive.boards
      terminals := s.returnLive.terminals } := by
  rcases h : s.feed.feedState with _ | _
  · rw [returnLive_live h, ← h]
  · rw [returnLive_quiet h, tellTerminals, tellBoards_frame]
    rfl

theorem State.goQuiet_frame :
    s.goQuiet = { s with
      feed := { s.feed with
        feedState := .quiet
        silence := none
        lock := false
        counts := { s.feed.counts with quiet := satInc s.feed.counts.quiet } }
      tapeA := { s.tapeA with arrivals := s.tapeA.arrivals ++ [.quiet] }
      tapeB := { s.tapeB with arrivals := s.tapeB.arrivals ++ [.quiet] }
      upstream := s.goQuiet.upstream
      boards := s.goQuiet.boards
      terminals := s.goQuiet.terminals } := by
  rw [goQuiet]
  dsimp only
  rw [tellTerminals, tellBoards_frame]
  rfl

theorem State.sequence_frame (n : Byte) :
    s.sequence n = { s with feed := (s.sequence n).feed, upstream := (s.sequence n).upstream } := by
  unfold sequence
  dsimp only
  split <;> rfl

theorem State.restartSilence_frame : s.restartSilence = { s with feed := s.restartSilence.feed } := by
  rw [restartSilence]
  split <;> rfl

theorem State.dataChecked_frame (body : Text) :
    s.dataChecked body = { s with
      feed := (s.dataChecked body).feed
      upstream := (s.dataChecked body).upstream
      boards := (s.dataChecked body).boards
      terminals := (s.dataChecked body).terminals } := by
  rw [dataChecked, restartSilence_frame, returnLive_frame]
  split
  · rw [sequence_frame]
  · rfl

theorem State.handOn_frame (x : Sorted) (body : Text) :
    s.handOn x body = { s with feed := (s.handOn x body).feed } := by
  rw [handOn]
  split <;> rfl

theorem State.sortData_frame (body : Text) : s.sortData body = { s with feed := (s.sortData body).feed } := by
  rw [sortData]
  split
  · rfl
  · split
    · rfl
    · rw [handOn_frame]

theorem State.sortControl_frame (body : Text) : s.sortControl body = { s with feed := (s.sortControl body).feed } := by
  rw [sortControl]
  split
  · rfl
  · split
    · rw [handOn_frame]
    · split
      · rw [handOn_frame]
      · rfl

theorem State.sortChecked_frame (body : Text) :
    s.sortChecked body = { s with
      feed := (s.sortChecked body).feed
      upstream := (s.sortChecked body).upstream
      boards := (s.sortChecked body).boards
      terminals := (s.sortChecked body).terminals } := by
  rw [sortChecked]
  split
  · rw [sortData_frame, dataChecked_frame]
  · split
    · rw [sortControl_frame]
    · rfl

theorem State.repeatFrame_frame (f : Frame) : s.repeatFrame f = { s with feed := (s.repeatFrame f).feed } := by
  rw [repeatFrame]
  split
  · split <;> rfl
  · rfl

theorem State.checked_frame (f : Frame) :
    s.checked f = { s with
      feed := (s.checked f).feed
      upstream := (s.checked f).upstream
      boards := (s.checked f).boards
      terminals := (s.checked f).terminals } := by
  unfold checked
  dsimp only
  rw [sortChecked_frame]
  split
  · rw [repeatFrame_frame]
    rfl
  · rfl

/-- A checked frame leaves the board lines and the terminals, or returns the feed to LIVE (R46, R58). -/
theorem State.checked_reaches (f : Frame) :
    ((s.checked f).boards = s.boards ∧ (s.checked f).terminals = s.terminals)
      ∨ ∃ w : State, w = { s with feed := w.feed, upstream := w.upstream }
          ∧ (s.checked f).boards = w.returnLive.boards ∧ (s.checked f).terminals = w.returnLive.terminals := by
  have hrepeat (u : State) : (if s.repeats f.body then u.repeatFrame f else u).boards = u.boards
      ∧ (if s.repeats f.body then u.repeatFrame f else u).terminals = u.terminals := by
    split
    · rw [repeatFrame_frame]
      exact ⟨rfl, rfl⟩
    · exact ⟨rfl, rfl⟩
  unfold checked
  dsimp only
  rw [(hrepeat _).1, (hrepeat _).2, sortChecked]
  split
  · refine .inr ?_
    rw [sortData_frame, dataChecked, restartSilence_frame]
    split
    · exact ⟨_, by rw [sequence_frame]; rfl, rfl, rfl⟩
    · exact ⟨s.countFrame, rfl, rfl, rfl⟩
  · split
    · rw [sortControl_frame]
      exact .inl ⟨rfl, rfl⟩
    · exact .inl ⟨rfl, rfl⟩

/-! ### The terminals and the alert slots -/

theorem State.noticeSlots_frame (n : Nat) (ps : List (TermNo × SlotNo)) :
    ps.foldl (State.noticeSlot n) s = { s with
      alerts := (ps.foldl (State.noticeSlot n) s).alerts
      terminals := (ps.foldl (State.noticeSlot n) s).terminals } := by
  induction ps generalizing s with
  | nil => rfl
  | cons p ps ih =>
    rw [List.foldl_cons, ih, noticeSlot]
    split
    · rw [evaluate_frame]
    · rfl

theorem State.missTerm_frame (t : TermNo) :
    s.missTerm t = { s with terminals := (s.missTerm t).terminals, upstream := (s.missTerm t).upstream } := by
  unfold missTerm
  dsimp only
  split
  · rfl
  · split <;> rfl

theorem State.restoreMissed_frame (t : TermNo) (st : Stage) :
    s.restoreMissed t st = { s with terminals := (s.restoreMissed t st).terminals } := by
  unfold restoreMissed
  split <;> rfl

theorem State.receivedAt_frame (t : TermNo) (c : Carried) :
    s.receivedAt t c = { s with
      terminals := (s.receivedAt t c).terminals
      alerts := (s.receivedAt t c).alerts
      upstream := (s.receivedAt t c).upstream } := by
  have trans (u w : State) (x : Terminal) (hu : u = { s with terminals := u.terminals, upstream := u.upstream })
      (hw : w = { u.setTerm t x with alerts := w.alerts, terminals := w.terminals }) :
      w = { s with terminals := w.terminals, alerts := w.alerts, upstream := w.upstream } := by
    rw [hw, hu]
    rfl
  unfold receivedAt
  dsimp only
  split
  · exact trans _ _ _ (answerTaken_frame s t) (freePlaces_frame _ t)
  · rw [answerTaken_frame]

theorem State.beginSelect_frame (l : LineNo) (x : Transaction) :
    s.beginSelect l x = { s with
      terminals := (s.beginSelect l x).terminals
      termLines := (s.beginSelect l x).termLines } := by
  rw [beginSelect]
  split
  · rfl
  · rw [endTransaction_frame]

theorem State.enableTerm_frame (t : TermNo) :
    s.enableTerm t = { s with
      terminals := (s.enableTerm t).terminals
      termLines := (s.enableTerm t).termLines
      alerts := (s.enableTerm t).alerts } := by
  rw [enableTerm]
  split
  · rfl
  · have trans (u w : State) (x : Terminal)
        (hu : u = { s.setTerm t x with alerts := u.alerts, terminals := u.terminals })
        (hw : w = { u with termLines := w.termLines }) :
        w = { s with terminals := w.terminals, termLines := w.termLines, alerts := w.alerts } := by
      rw [hw, hu]
      rfl
    exact trans _ _ _ (freePlaces_frame _ t) (chooseTerm_frame _ _)

theorem State.disableTerm_frame (t : TermNo) :
    s.disableTerm t = { s with
      terminals := (s.disableTerm t).terminals
      termLines := (s.disableTerm t).termLines } := by
  unfold disableTerm
  split <;> rfl

variable {s}

theorem RequestMove.frame {t : TermNo} {u : State} (h : RequestMove s t u) :
    u = { s with
      terminals := u.terminals
      alerts := u.alerts
      freeCount := u.freeCount
      issues := { s.issues with records := u.issues.records } } := by
  cases h <;> rfl

theorem TermMove.frame {l : LineNo} {t : State} (h : TermMove s l t) :
    t = { s with
      terminals := t.terminals
      termLines := t.termLines
      alerts := t.alerts
      upstream := t.upstream
      freeCount := t.freeCount
      issues := { s.issues with records := t.issues.records } } := by
  cases h with
  | pollSent | selectSent => rfl
  | nothing => rw [State.beginSelect_frame, State.answerTaken_frame]
  | request reply hx hh hq hu =>
    rw [State.beginSelect_frame, hu.frame, State.answerTaken_frame]
    rfl
  | alertSet k reply =>
    rw [State.beginSelect_frame, State.evaluate_frame, State.answerTaken_frame]
    rfl
  | retry =>
    rw [State.beginSelect_frame, State.answerTaken_frame]
    rfl
  | received => rw [State.endTransaction_frame, State.receivedAt_frame]
  | busy =>
    rw [State.endTransaction_frame, State.answerTaken_frame]
    rfl
  | missed =>
    rw [State.endTransaction_frame, State.restoreMissed_frame, State.missTerm_frame]
    rfl
  | unheard => rw [State.endTransaction_frame]
  | unheardRetry | unheardBusy | unheardMiss =>
    rw [State.endTransaction_frame]
    rfl

/-! ### RESTART -/

theorem State.chooseTerms_frame (s : State) : s.chooseTerms = { s with termLines := s.chooseTerms.termLines } := by
  rw [chooseTerms]
  generalize List.finRange 4 = ls
  induction ls generalizing s with
  | nil => rfl
  | cons l ls ih => rw [List.foldl_cons, ih, chooseTerm_frame]

theorem State.restartTerminals_frame (s : State) :
    s.restartTerminals = { s with
      terminals := s.restartTerminals.terminals
      termLines := s.restartTerminals.termLines
      alerts := s.restartTerminals.alerts } := by
  have enabled (ts : List TermNo) (u : State) :
      ts.foldl (fun u t => if (u.terminals[t]).enabled then u.freePlaces t else u) u = { u with
        terminals := (ts.foldl (fun u t => if (u.terminals[t]).enabled then u.freePlaces t else u) u).terminals
        alerts := (ts.foldl (fun u t => if (u.terminals[t]).enabled then u.freePlaces t else u) u).alerts } := by
    induction ts generalizing u with
    | nil => rfl
    | cons t ts ih =>
      rw [List.foldl_cons, ih]
      split
      · rw [freePlaces_frame]
      · rfl
  have trans (w : State) (x : Vector Terminal 32) (y : Vector TermLine 4)
      (hw : w = { ({ s with terminals := x, termLines := y } : State) with
        terminals := w.terminals, alerts := w.alerts }) :
      w = { s with terminals := w.terminals, termLines := w.termLines, alerts := w.alerts } := by
    rw [hw]
  unfold restartTerminals
  dsimp only
  exact trans _ _ _ (enabled _ _)

theorem State.restartBlocks_frame (s : State) (serial : Nat) :
    s.restartBlocks serial = { s with
      feed := s.feed.restart serial
      issues := { s.issues with mismatches := 0 }
      tapeA := s.tapeA.restart
      tapeB := s.tapeB.restart
      boards := (s.restartBlocks serial).boards
      lamps := (s.restartBlocks serial).lamps
      control := { s.control with discards := 0 }
      terminals := (s.restartBlocks serial).terminals
      termLines := (s.restartBlocks serial).termLines
      alerts := (s.restartBlocks serial).alerts } := by
  have trans (a u v w : State) (y : Vector RowLamps 128) (hu : u = { a with lamps := y, boards := u.boards })
      (hv : v = { u with terminals := v.terminals, termLines := v.termLines, alerts := v.alerts })
      (hw : w = { v with termLines := w.termLines }) :
      w = { a with
        boards := w.boards, lamps := w.lamps, terminals := w.terminals, termLines := w.termLines
        alerts := w.alerts } := by
    rw [hw, hv, hu]
  exact trans _ _ _ _ _ (chooseBoards_frame _) (restartTerminals_frame _) (chooseTerms_frame _)

theorem State.restart_frame (s : State) (addressed : Bool) (body : Text) (serial : Nat) :
    s.restart addressed body serial = { s with
      feed := s.feed.restart serial
      issues := { s.issues with mismatches := 0 }
      tapeA := s.tapeA.restart
      tapeB := s.tapeB.restart
      boards := (s.restartBlocks serial).boards
      lamps := (s.restartBlocks serial).lamps
      control := { s.control with discards := 0 }
      terminals := (s.restartBlocks serial).terminals
      termLines := (s.restartBlocks serial).termLines
      alerts := (s.restartBlocks serial).alerts
      upstream := s.upstream.restart (restartReplies s.unitSwitch addressed body) } := by
  have upstream (u : State) (hu : u.upstream = s.upstream) (rs : List Text) :
      { u with upstream := u.upstream.restart rs } = { u with upstream := s.upstream.restart rs } := by rw [hu]
  rw [restart]
  refine (upstream _ (by rw [restartBlocks_frame]) _).trans ?_
  rw [restartBlocks_frame]

/-! ### The operations and the data messages -/

/-- No operation but RESTART touches the queues, the session, the notices, the operation in hand or what the Upstream
Port holds. -/
theorem ControlMove.frame {s u : State} (h : ControlMove s u) :
    u = { s with
      feed := { s.feed with counts := u.feed.counts }
      issues := { s.issues with
        records := u.issues.records, flashList := u.issues.flashList, mismatches := u.issues.mismatches }
      boardNotices := u.boardNotices
      lampNotices := u.lampNotices
      terminalNotices := u.terminalNotices
      alertNotices := u.alertNotices
      tapeA := u.tapeA
      tapeB := u.tapeB
      boards := u.boards
      lamps := u.lamps
      lampParams := u.lampParams
      terminals := u.terminals
      termLines := u.termLines
      alerts := u.alerts
      control := { u.control with inHand := s.control.inHand }
      upstream := { s.upstream with lost := u.upstream.lost }
      freeCount := u.freeCount } := by
  cases h with
  | nothing | draw | loadIssue | deleteIssue | watch | clearAlert | setFlashList | setLamps | setFeed | clearCounts =>
    rfl
  | blankRow | setRow => rw [State.mapRow_frame]
  | setAlert =>
    rw [State.evaluate_frame]
    rfl
  | setTape => rw [State.setTape_frame]
  | enable => rw [State.enableTerm_frame]
  | disable => rw [State.disableTerm_frame]

/-- A claim, or its want, touches the Upstream Port and the Control Unit alone. -/
theorem State.takeClaim_frame (s : State) (op : Operation) :
    s.takeClaim op = { s with upstream := (s.takeClaim op).upstream, control := (s.takeClaim op).control } := by
  rw [takeClaim]
  split <;> rfl

theorem State.handEligible_frame (s : State) (r : IssueRecord) (i : TapeItem) :
    s.handEligible r i = { s with
      tapeA := { s.tapeA with arrivals := (s.handEligible r i).tapeA.arrivals }
      tapeB := { s.tapeB with arrivals := (s.handEligible r i).tapeB.arrivals } } := by
  rw [State.handEligible_cases]
  cases r.eligA <;> cases r.eligB <;> rfl

/-- What every data message but MARKET leaves alone; only MARKET OPEN and CLOSE reach past the records, the mismatch
count, the notices and the tapes (R28, R29). -/
theorem DataMove.frame {s u : State} (h : DataMove s u) :
    (∃ present clock roll, u = ((s.openSession present clock).announceOpen).openRecords roll)
      ∨ u = s.returnLive.closeSession
      ∨ u = { s with
          issues := { s.issues with records := u.issues.records, mismatches := u.issues.mismatches }
          boardNotices := u.boardNotices
          lampNotices := u.lampNotices
          terminalNotices := u.terminalNotices
          alertNotices := u.alertNotices
          tapeA := { s.tapeA with arrivals := u.tapeA.arrivals }
          tapeB := { s.tapeB with arrivals := u.tapeB.arrivals } } := by
  cases h with
  | opened present clock roll => exact .inl ⟨present, clock, roll, rfl⟩
  | closed => exact .inr (.inl rfl)
  | unapplied | mismatch | quote => exact .inr (.inr rfl)
  | trade =>
    refine .inr (.inr ?_)
    rw [State.tradePrint, State.handEligible_frame]
    rfl
  | late =>
    refine .inr (.inr ?_)
    rw [State.latePrint, State.handEligible_frame]
    rfl
  | alternate =>
    refine .inr (.inr ?_)
    unfold State.alternatePrint
    dsimp only
    split <;> rfl
  | status =>
    refine .inr (.inr ?_)
    rw [State.setHalted, State.handEligible_frame]
    rfl
  | correct =>
    refine .inr (.inr ?_)
    rw [State.correct, State.handEligible_frame]
    rfl

/-! ### The lines and the lamps -/

/-- What no command of the lines, the lamps or the Alert Table touches: the Feed Receiver, the tapes, the parameters and
the Control Unit, and of the Issue Table all but the records. -/
theorem LineMove.frame {s u : State} (h : LineMove s u) :
    u = { s with
      issues := { s.issues with records := u.issues.records }
      boardNotices := u.boardNotices
      lampNotices := u.lampNotices
      terminalNotices := u.terminalNotices
      alertNotices := u.alertNotices
      boards := u.boards
      lamps := u.lamps
      terminals := u.terminals
      termLines := u.termLines
      alerts := u.alerts
      upstream := u.upstream
      freeCount := u.freeCount } := by
  cases h with
  | transferSent | broadcastSent | backOffEnd | terminalNotice => rfl
  | boardNotice => rw [State.chooseBoards_frame, State.markRows_frame]
  | accept => rw [acceptAt_frame]
  | hold => rw [holdAt_frame]
  | miss => rw [missAt_frame]
  | lampNotice => rw [State.chooseBoards_frame, State.noticeRows_frame]
  | phaseEnd => rw [State.chooseBoards_frame, State.moveLamps_eq]
  | terminal ht => rw [ht.frame]
  | alertNotice => rw [State.noticeSlots_frame]

end Sys2Proof.Machine
end

