-- ==== Sys2Proof/Proofs/RecordsKept.lean ====
section
/-! PROOFS. Every step keeps the issue records (R1, R4, R10, R18 to R21): what each move stores is a record whose rules
hold, under a symbol that no other record has. -/

namespace Sys2Proof.Machine

/-! ### The records as a list -/

theorem nodup_of_recordsOk {rs : Records} (ok : recordsOk rs = true) : rs.Nodup := by
  simp only [recordsOk, Bool.and_eq_true, decide_eq_true_eq] at ok
  exact List.Nodup.of_map _ (ok.1.imp fun h => ne_of_lt h)

/-- No symbol stands twice, said of the records that hold them. -/
theorem symbols_nodup_iff {rs : Records} (ok : recordsOk rs = true) :
    (rs.map fun p => p.2.symbol).Nodup ↔ ∀ p ∈ rs, ∀ q ∈ rs, p.2.symbol = q.2.symbol → p = q :=
  ⟨fun h _ hp _ hq e => List.inj_on_of_nodup_map h hp hq e, fun h => (nodup_of_recordsOk ok).map_on h⟩

theorem mem_putRecord_iff {rs : Records} {n : Nat} {r : IssueRecord} {p : Nat × IssueRecord}
    (ok : recordsOk rs = true) (h1 : 1 ≤ n) (h2 : n ≤ Config.maxIssue) :
    p ∈ putRecord rs n r ↔ p = (n, r) ∨ (p ∈ rs ∧ p.1 ≠ n) := by
  have okPut := recordsOk_putRecord r ok h1 h2
  obtain ⟨k, q⟩ := p
  by_cases hk : k = n
  · subst hk
    constructor
    · intro hm
      have hfind := findRecord_of_mem okPut hm
      rw [findRecord_putRecord_self] at hfind
      exact .inl (by rw [Option.some.inj hfind])
    · rintro (e | ⟨-, hne⟩)
      · rw [e]
        exact findRecord_mem (findRecord_putRecord_self rs k r)
      · exact absurd rfl hne
  · constructor
    · intro hm
      have hfind := findRecord_of_mem okPut hm
      rw [findRecord_putRecord_ne r hk] at hfind
      exact .inr ⟨findRecord_mem hfind, hk⟩
    · rintro (e | ⟨hm, -⟩)
      · cases e
        exact absurd rfl hk
      · exact findRecord_mem ((findRecord_putRecord_ne r hk).trans (findRecord_of_mem ok hm))

theorem symbolHeld_eq_false {rs : Records} {n : Nat} {symbol : Text} :
    symbolHeld rs n symbol = false ↔ ∀ p ∈ rs, p.1 ≠ n → p.2.symbol ≠ symbol := by
  simp [symbolHeld]

/-! ### The records that keep their rules -/

/-- The records keep their rules: `State.RecordsInv` said of the records alone. -/
abbrev RecordsKept (rs : Records) : Prop :=
  recordsOk rs = true ∧ (∀ p ∈ rs, p.2.Ok) ∧ (rs.map fun p => p.2.symbol).Nodup

theorem recordsKept_nil : RecordsKept [] := by decide

section
variable {rs : Records} (h : RecordsKept rs)
include h

theorem RecordsKept.find {n : Nat} {r : IssueRecord} (hr : findRecord rs n = some r) : r.Ok :=
  h.2.1 _ (findRecord_mem hr)

/-- A record stored whose symbol no other number has. -/
theorem RecordsKept.put {n : Nat} {q : IssueRecord} (h1 : 1 ≤ n) (h2 : n ≤ Config.maxIssue) (hq : q.Ok)
    (hs : symbolHeld rs n q.symbol = false) : RecordsKept (putRecord rs n q) := by
  obtain ⟨ok, hall, hsym⟩ := h
  rw [symbols_nodup_iff ok] at hsym
  rw [symbolHeld_eq_false] at hs
  have okPut := recordsOk_putRecord q ok h1 h2
  refine ⟨okPut, fun p hp => ?_, (symbols_nodup_iff okPut).2 fun p hp p' hp' e => ?_⟩
  · rcases (mem_putRecord_iff ok h1 h2).1 hp with rfl | ⟨hm, -⟩
    · exact hq
    · exact hall p hm
  · rcases (mem_putRecord_iff ok h1 h2).1 hp with rfl | ⟨hm, hne⟩ <;>
      rcases (mem_putRecord_iff ok h1 h2).1 hp' with rfl | ⟨hm', hne'⟩
    · rfl
    · exact absurd e.symm (hs p' hm' hne')
    · exact absurd e (hs p hm hne)
    · exact hsym p hm p' hm' e

theorem RecordsKept.symbolHeld_self {n : Nat} {r : IssueRecord} (hr : findRecord rs n = some r) :
    symbolHeld rs n r.symbol = false := by
  obtain ⟨ok, -, hsym⟩ := h
  refine symbolHeld_eq_false.2 fun p hp hne e => hne ?_
  rw [(symbols_nodup_iff ok).1 hsym p hp _ (findRecord_mem hr) e]

/-- A LISTED record stored again with its symbol. -/
theorem RecordsKept.update {s : State} (hs : s.issues.records = rs) {n : Nat} {r q : IssueRecord}
    (hr : listed s n = some r) (hq : q.Ok) (e : q.symbol = r.symbol) : RecordsKept (putRecord rs n q) := by
  obtain ⟨h0, hmax, hfind⟩ := listed_eq_some.1 hr
  rw [hs] at hfind
  exact h.put (by omega) hmax hq (e ▸ h.symbolHeld_self hfind)

theorem RecordsKept.free (n : Nat) : RecordsKept (freeRecord rs n) := by
  obtain ⟨ok, hall, hsym⟩ := h
  exact ⟨recordsOk_freeRecord n ok, fun p hp => hall p (mem_freeRecord.1 hp).1,
    hsym.sublist ((freeRecord_sublist rs n).map _)⟩

theorem RecordsKept.map {f : Nat → IssueRecord → IssueRecord} (hok : ∀ n r, r.Ok → (f n r).Ok)
    (hsymbol : ∀ n r, (f n r).symbol = r.symbol) : RecordsKept (mapRecords f rs) := by
  obtain ⟨ok, hall, hsym⟩ := h
  refine ⟨by rwa [recordsOk_mapRecords], fun p hp => ?_, ?_⟩
  · obtain ⟨q, hq, rfl⟩ := List.mem_map.1 hp
    exact hok _ _ (hall q hq)
  · have same : (fun p : Nat × IssueRecord => p.2.symbol) ∘ (fun p : Nat × IssueRecord => (p.1, f p.1 p.2)) =
        fun p => p.2.symbol := funext fun p => hsymbol p.1 p.2
    rwa [mapRecords, List.map_map, same]

end

/-! ### What a move does to a record -/

/-- The whole record after a last-setting print (R30). -/
theorem IssueRecord.print_eq (r : IssueRecord) (p v : Nat) :
    r.print p v = { r with
      last := p
      netChange := (p : Int) - r.close
      tick := tickTest p (if r.traded then r.last else r.close) r.tick
      traded := true
      high := some (if r.traded then max p (r.high.getD p) else p)
      low := some (if r.traded then min p (r.low.getD p) else p)
      volume := min (r.volume + v) 999999999 } := by
  rcases ht : r.traded with _ | _ <;> simp [print, range, setLast, widen, addVolume, reference, ht, Config.maxVolume]

section
variable {r : IssueRecord} (h : r.Ok)
include h

theorem IssueRecord.Ok.addVolume (v : Nat) : (r.addVolume v).Ok := by
  obtain ⟨hs, hd, hc, hl, hn, hr, ht, -, hb, ha⟩ := h
  exact ⟨hs, hd, hc, hl, hn, hr, ht, Nat.min_le_right _ _, hb, ha⟩

/-- The range of a traded record widened around a new last (R20). -/
theorem IssueRecord.Ok.rangeOk_widen {p : Nat} (hp : PriceOk p) (ht : r.traded = true) :
    ((r.setLast p).widen p).rangeOk = true := by
  obtain ⟨-, -, -, -, -, hr, -, -, -, -⟩ := h
  obtain ⟨hp1, hp2⟩ := hp
  rw [rangeOk, ht] at hr
  rcases hh : r.high with _ | hi <;> rcases hlo : r.low with _ | lo <;> rw [hh, hlo] at hr
  · cases hr
  · cases hr
  · cases hr
  · simp only [decide_eq_true_eq] at hr
    simp only [widen, setLast, rangeOk, ht, hh, hlo, Option.getD_some, decide_eq_true_eq]
    omega

theorem IssueRecord.Ok.correct {p : Nat} (hp : PriceOk p) (ht : r.traded = true) : ((r.setLast p).widen p).Ok := by
  have hrange := IssueRecord.Ok.rangeOk_widen h hp ht
  obtain ⟨hs, hd, hc, -, -, -, -, hv, hb, ha⟩ := h
  exact ⟨hs, hd, hc, hp, rfl, hrange, fun e => absurd (ht.symm.trans e) (by decide), hv, hb, ha⟩

theorem IssueRecord.Ok.print {p : Nat} (v : Nat) (hp : PriceOk p) : (r.print p v).Ok := by
  have hrange : (r.print p v).rangeOk = true := by
    rw [IssueRecord.print_eq]
    rcases ht : r.traded with _ | _
    · simp only [rangeOk, Bool.false_eq_true, if_false, decide_eq_true_eq]
      exact ⟨le_rfl, le_rfl, hp⟩
    · have hwide := IssueRecord.Ok.rangeOk_widen h hp ht
      simpa [rangeOk, widen, setLast, ht] using hwide
  rw [IssueRecord.print_eq] at hrange ⊢
  obtain ⟨hs, hd, hc, -, -, -, -, -, hb, ha⟩ := h
  exact ⟨hs, hd, hc, hp, rfl, hrange, fun e => (Bool.noConfusion e), Nat.min_le_right _ _, hb, ha⟩

theorem IssueRecord.Ok.opening {close : Nat} (hc : PriceOk close) : (r.opening close).Ok := by
  obtain ⟨hs, hd, -, -, -, -, -, -, -, -⟩ := h
  exact ⟨hs, hd, hc, hc, (sub_self _).symm, rfl, fun _ => ⟨rfl, rfl⟩, Nat.zero_le _, rfl, rfl⟩

theorem IssueRecord.Ok.openDay (roll : Bool) : (r.openDay roll).Ok := by
  have hclose := h.2.2.1
  have hlast := h.2.2.2.1
  refine IssueRecord.Ok.opening h ?_
  split <;> assumption

end

theorem IssueRecord.load_ok (r : IssueRecord) {symbol : Text} {denom close : Nat} (a b : Bool) (hs : SymbolOk symbol)
    (hd : denom ∈ [8, 16, 32, 64]) (hc : PriceOk close) : (r.load symbol denom close a b).Ok :=
  ⟨hs, hd, hc, hc, (sub_self _).symm, rfl, fun _ => ⟨rfl, rfl⟩, Nat.zero_le _, rfl, rfl⟩

/-- Moving a row from one issue to another changes row lists alone (R23). -/
theorem relink_eq (r : RowNo) (old new : Option Nat) (n : Nat) (x : IssueRecord) :
    relink r old new n x = { x with rows := (relink r old new n x).rows } := by
  rw [relink]
  split
  · rfl
  · split
    · rfl
    · split <;> rfl

/-- A changed watch list changes watcher masks alone (R24). -/
theorem remask_eq (t : TermNo) (old new : List Nat) (n : Nat) (x : IssueRecord) :
    remask t old new n x = { x with watchers := (remask t old new n x).watchers } := by
  rw [remask]
  split
  · rfl
  · split <;> rfl

/-! ### What a move does to the records -/

/-- What a property of the records must survive to be kept by every move. -/
structure RecordsClosed (K : Records → Prop) : Prop where
  nil : K []
  load : ∀ {rs : Records} {n : Nat} {q : IssueRecord}, K rs → 1 ≤ n → n ≤ Config.maxIssue → q.Ok →
    symbolHeld rs n q.symbol = false → K (putRecord rs n q)
  store : ∀ {s : State} {n : Nat} {r q : IssueRecord}, K s.issues.records → listed s n = some r → (r.Ok → q.Ok) →
    q.symbol = r.symbol → K (putRecord s.issues.records n q)
  free : ∀ {rs : Records} (n : Nat), K rs → K (freeRecord rs n)
  map : ∀ {rs : Records} {f : Nat → IssueRecord → IssueRecord}, K rs → (∀ n r, r.Ok → (f n r).Ok) →
    (∀ n r, (f n r).symbol = r.symbol) → K (mapRecords f rs)

theorem recordsKept_closed : RecordsClosed RecordsKept where
  nil := recordsKept_nil
  load h h1 h2 hq hs := h.put h1 h2 hq hs
  store h hr hq e := h.update rfl hr (hq (h.find (listed_eq_some.1 hr).2.2)) e
  free n h := h.free n
  map h hok hsymbol := h.map hok hsymbol

/-- The form of the records alone is kept too. -/
theorem recordsOk_closed : RecordsClosed fun rs => recordsOk rs = true where
  nil := rfl
  load h h1 h2 _ _ := recordsOk_putRecord _ h h1 h2
  store h hr _ _ := by
    obtain ⟨h0, hmax, -⟩ := listed_eq_some.1 hr
    exact recordsOk_putRecord _ h (by omega) hmax
  free n h := recordsOk_freeRecord n h
  map h _ _ := by rwa [recordsOk_mapRecords]

/-- An entry handed to the eligible channels leaves all but the tapes. -/
@[simp] theorem State.handEligible_issues (s : State) (r : IssueRecord) (i : TapeItem) :
    (s.handEligible r i).issues = s.issues := by rw [handEligible_cases]

section
variable {K : Records → Prop} (hK : RecordsClosed K)
include hK

theorem RecordsClosed.relink {rs : Records} (h : K rs) (r : RowNo) (old new : Option Nat) :
    K (mapRecords (Machine.relink r old new) rs) :=
  hK.map h (fun n x hx => by rw [relink_eq]; exact hx) fun n x => by rw [relink_eq]

theorem RecordsClosed.remask {rs : Records} (h : K rs) (t : TermNo) (old new : List Nat) :
    K (mapRecords (Machine.remask t old new) rs) :=
  hK.map h (fun n x hx => by rw [remask_eq]; exact hx) fun n x => by rw [remask_eq]

theorem DataMove.recordsKeep {s u : State} (hm : DataMove s u) (h : K s.issues.records) : K u.issues.records := by
  cases hm with
  | unapplied | mismatch => exact h
  | trade v hr hp =>
    rw [State.tradePrint, State.handEligible_issues]
    refine hK.store h hr (fun hok => hok.print v hp) ?_
    rw [IssueRecord.print_eq]
  | late p v hr =>
    rw [State.latePrint, State.handEligible_issues]
    exact hK.store h hr (fun hok => hok.addVolume v) rfl
  | alternate p v hr =>
    have hput := hK.store h hr (fun hok => hok.addVolume v) rfl
    unfold State.alternatePrint
    dsimp only
    split
    · rw [State.handTape_issues]
      exact hput
    · exact hput
  | quote hr hb ha =>
    exact hK.store h hr (fun ⟨hs, hd, hc, hl, hn, hrange, ht, hv, _, _⟩ =>
      ⟨hs, hd, hc, hl, hn, hrange, ht, hv, hb, ha⟩) rfl
  | status halt hr =>
    rw [State.setHalted, State.handEligible_issues]
    exact hK.store h hr id rfl
  | correct hr ht hp =>
    rw [State.correct, State.handEligible_issues]
    exact hK.store h hr (fun hok => hok.correct hp ht) rfl
  | opened present clock roll =>
    rw [State.announceOpen_frame]
    exact hK.map h (fun _ _ hr => hr.openDay roll) fun _ _ => rfl
  | closed =>
    rw [State.returnLive_frame]
    exact h

theorem ControlMove.recordsKeep {s u : State} (hm : ControlMove s u) (h : K s.issues.records) :
    K u.issues.records := by
  cases hm with
  | nothing | draw | clearAlert | setFlashList | setLamps | setFeed | clearCounts => exact h
  | loadIssue a b hn hs hd hc hh => exact hK.load h hn.1 hn.2 (IssueRecord.load_ok _ a b hs hd hc) hh
  | deleteIssue => exact hK.free _ h
  | blankRow | setRow =>
    rw [State.mapRow_frame]
    exact hK.relink h _ _ _
  | watch => exact hK.remask h _ _ _
  | setAlert =>
    rw [State.evaluate_frame]
    exact h
  | setTape =>
    rw [State.setTape_frame]
    exact h
  | enable =>
    rw [State.enableTerm_frame]
    exact h
  | disable =>
    rw [State.disableTerm_frame]
    exact h

theorem RequestMove.recordsKeep {s u : State} {t : TermNo} (hm : RequestMove s t u)
    (h : K s.issues.records) : K u.issues.records := by
  cases hm with
  | nothing | draw | clearAlert => exact h
  | watch => exact hK.remask h _ _ _

theorem TermMove.recordsKeep {s u : State} {l : LineNo} (hm : TermMove s l u) (h : K s.issues.records) :
    K u.issues.records := by
  cases hm with
  | pollSent | selectSent => exact h
  | nothing =>
    rw [State.beginSelect_frame, State.answerTaken_frame]
    exact h
  | request reply hx hh hq hu =>
    rw [State.beginSelect_frame]
    refine hu.recordsKeep hK ?_
    rw [State.answerTaken_frame]
    exact h
  | alertSet =>
    rw [State.beginSelect_frame, State.evaluate_frame, State.answerTaken_frame]
    exact h
  | retry =>
    rw [State.beginSelect_frame, State.answerTaken_frame]
    exact h
  | received =>
    rw [State.endTransaction_frame, State.receivedAt_frame]
    exact h
  | busy =>
    rw [State.endTransaction_frame, State.answerTaken_frame]
    exact h
  | missed =>
    rw [State.endTransaction_frame, State.restoreMissed_frame, State.missTerm_frame]
    exact h
  | unheard | unheardRetry | unheardBusy | unheardMiss =>
    rw [State.endTransaction_frame]
    exact h

theorem LineMove.recordsKeep {s u : State} (hm : LineMove s u) (h : K s.issues.records) :
    K u.issues.records := by
  cases hm with
  | transferSent | broadcastSent | backOffEnd | terminalNotice => exact h
  | boardNotice =>
    rw [State.chooseBoards_frame, State.markRows_frame]
    exact h
  | accept =>
    rw [acceptAt_frame]
    exact h
  | hold =>
    rw [holdAt_frame]
    exact h
  | miss =>
    rw [missAt_frame]
    exact h
  | lampNotice =>
    rw [State.chooseBoards_frame, State.noticeRows_frame]
    exact h
  | phaseEnd =>
    rw [State.chooseBoards_frame, State.moveLamps_eq]
    exact h
  | terminal ht => exact ht.recordsKeep hK h
  | alertNotice =>
    rw [State.noticeSlots_frame]
    exact h

theorem Move.recordsKeep {s t : State} (hm : Move s t) (h : K s.issues.records) : K t.issues.records := by
  cases hm with
  | powerOn => exact hK.nil
  | idle | character | failure | throughEnd | switchOn | switchOff | tick | upstreamCharacter | upstreamFrame
  | upstreamEnd | readyLine => exact h
  | frame =>
    rw [State.checked_frame]
    exact h
  | quiet =>
    rw [State.goQuiet_frame]
    exact h
  | data v hd => exact hd.recordsKeep hK h
  | claim =>
    rw [State.takeClaim_frame]
    exact h
  | execute table r data hi hc => exact hc.recordsKeep hK h
  | broadcast hi hc => exact hc.recordsKeep hK h
  | restart | restartAll =>
    rw [State.restart_frame]
    exact h
  | tapeJoin | tapeCharacter | flashExpiry =>
    rw [State.tookTape_frame]
    exact h
  | line hl => exact hl.recordsKeep hK h

end

/-- Settles O52: every move keeps the records, and the queue of commands is no part of them. -/
theorem stepsKeepRecords : Obligations.StepsKeepRecords := by
  unfold Obligations.StepsKeepRecords
  intro s t h hstep
  exact step_keeps (P := State.RecordsInv) (fun _ _ h => h) (fun _ _ h hm => hm.recordsKeep recordsKept_closed h) h hstep

end Sys2Proof.Machine
end

