-- ==== Sys2Proof/Proofs/CardAsAWhole.lean ====
section
/-! PROOFS. The machine as a whole: its step, the answer of every command, and the state after reset and power-on. -/

namespace Sys2Proof.Machine

/-- Settles O1: the front of the queue is what the step matches on. -/
theorem stepRunsFrontCommand : Obligations.StepRunsFrontCommand := by
  unfold Obligations.StepRunsFrontCommand
  intro c s
  rfl

/-- Settles O60: each invariant is decided on the one state after reset. -/
theorem resetKeepsInvariants : Obligations.ResetKeepsInvariants := by
  unfold Obligations.ResetKeepsInvariants
  refine ⟨recordsKept_nil, ?_, ?_, ?_, ?_, ?_, ?_, ?_, ?_, ?_, ?_, ?_⟩ <;> decide +kernel

/-! ### Every command answers -/

section
variable {s u : State}

theorem DataMove.pending (h : DataMove s u) : u.pending = s.pending := by
  rcases h.frame with ⟨present, clock, roll, rfl⟩ | rfl | e
  · rw [State.announceOpen_frame]
    rfl
  · rw [State.returnLive_frame]
    rfl
  · rw [e]

theorem Move.pending (h : Move s u) : u.pending = s.pending := by
  cases h with
  | idle | powerOn | character | failure | throughEnd | switchOn | switchOff | tick | upstreamCharacter
  | upstreamFrame | upstreamEnd | readyLine => rfl
  | frame => rw [State.checked_frame]
  | quiet => rw [State.goQuiet_frame]
  | data v hd => exact hd.pending
  | claim =>
    rw [State.takeClaim_frame]
    rfl
  | execute table r data hi hc =>
    rw [hc.frame]
    rfl
  | broadcast hi hc =>
    rw [hc.frame]
    rfl
  | restart | restartAll =>
    rw [State.restart_frame]
    rfl
  | tapeJoin | tapeCharacter | flashExpiry => rw [State.tookTape_frame]
  | line hl => rw [hl.frame]

end

/-- The outcome is a next state. -/
def Answers (o : Host.Outcome State Fault Refusal) : Prop := ∃ t, o = .next t

theorem answers_next (t : State) : Answers (.next t) := ⟨t, rfl⟩

section
variable (s : State)

theorem takeData_answers (k : DataKind) (mine : Text → Bool) (apply : Text → State → State × Verdict) :
    Answers (s.takeData k mine apply) := by
  rw [State.takeData]
  split
  · exact answers_next _
  · split <;> exact answers_next _

theorem takeControl_answers (mine : Text → Bool) (table : Text → Byte) (run whole : Text → State → Done) :
    Answers (s.takeControl mine table run whole) := by
  rw [State.takeControl]
  split <;> exact answers_next _

theorem takeOperation_answers (mine : Text → Bool) (run : Text → State → Done) : Answers (s.takeOperation mine run) :=
  takeControl_answers s _ _ _ _

theorem takeRead_answers (table : Byte) (run : Text → State → Done) : Answers (s.takeRead table run) :=
  takeControl_answers s _ _ _ _

theorem execRestart_answers : Answers (execRestart s) := by
  rw [execRestart]
  split <;> exact answers_next _

theorem execFeedInCharacter_answers (c : Byte) : Answers (execFeedInCharacter c s) := by
  unfold execFeedInCharacter
  dsimp only
  split <;> exact answers_next _

/-- The one stop: a checked frame from below that finds 2 frames held (log 7). -/
theorem execUpstreamInCharacter_answers (c : Byte) :
    Answers (execUpstreamInCharacter c s) ∨ ∃ f, (assemble s.upstream.assembler c).2 = .frame f
      ∧ 2 ≤ s.upstream.buffer.length ∧ execUpstreamInCharacter c s = .fault .upstreamOverrun := by
  unfold execUpstreamInCharacter
  dsimp only
  split
  · split
    · exact .inl (answers_next _)
    · rename_i f hf hb
      exact .inr ⟨f, hf, not_lt.1 hb, rfl⟩
  · exact .inl (answers_next _)
  · exact .inl (answers_next _)

theorem execTransferSent_answers (l : LineNo) : Answers (execTransferSent l s) := by
  rw [execTransferSent]
  split
  · exact answers_next _
  · split <;> exact answers_next _

theorem execBroadcastSent_answers (l : LineNo) : Answers (execBroadcastSent l s) := by
  rw [execBroadcastSent]
  split
  · exact answers_next _
  · split <;> exact answers_next _

theorem execBoardAnswerWaitExpiry_answers (l : LineNo) : Answers (execBoardAnswerWaitExpiry l s) := by
  rw [execBoardAnswerWaitExpiry]
  split
  · exact answers_next _
  · split <;> exact answers_next _

theorem execPollSent_answers (l : LineNo) : Answers (execPollSent l s) := by
  rw [execPollSent]
  split
  · exact answers_next _
  · split <;> exact answers_next _

theorem execSelectSent_answers (l : LineNo) : Answers (execSelectSent l s) := by
  rw [execSelectSent]
  split
  · exact answers_next _
  · split <;> exact answers_next _

theorem execNothing_answers (l : LineNo) : Answers (execNothing l s) := by
  rw [execNothing]
  split
  · exact answers_next _
  · split <;> exact answers_next _

theorem execReceived_answers (l : LineNo) : Answers (execReceived l s) := by
  rw [execReceived]
  split
  · exact answers_next _
  · split <;> exact answers_next _

theorem execBusy_answers (l : LineNo) : Answers (execBusy l s) := by
  unfold execBusy
  split
  · exact answers_next _
  · dsimp only
    split <;> exact answers_next _

theorem execTerminalAnswerWaitExpiry_answers (l : LineNo) : Answers (execTerminalAnswerWaitExpiry l s) := by
  unfold execTerminalAnswerWaitExpiry
  split
  · exact answers_next _
  · split
    · dsimp only
      split <;> exact answers_next _
    · exact answers_next _

theorem exec_answers (c : Instr) :
    Answers (exec c s) ∨ ∃ b f, c = .upstreamInCharacter b ∧ (assemble s.upstream.assembler b).2 = .frame f
      ∧ 2 ≤ s.upstream.buffer.length ∧ exec c s = .fault .upstreamOverrun := by
  cases c
  case upstreamInCharacter b =>
    rcases execUpstreamInCharacter_answers s b with h | ⟨f, h⟩
    · exact .inl h
    · exact .inr ⟨b, f, rfl, h⟩
  all_goals refine .inl ?_
  case heartbeat | trade | outOfSequenceTrade | alternatePrint | quote | issueStatus | correction | marketOpen
  | marketClose =>
    dsimp only [exec]
    exact takeData_answers s _ _ _
  case noOperationCode =>
    dsimp only [exec]
    exact takeControl_answers s _ _ _ _
  case loadIssue | deleteIssue | setRow | setWatchList | addWatch | dropWatch | setAlert | clearAlert | setTape
  | setFlashList | setLamps | setFeed | setTerminal | clearCounts =>
    dsimp only [exec]
    exact takeOperation_answers s _ _
  case readIssue | readRow | readLine | readWatchList | readAlerts | readTape | readCounts | readUnit =>
    dsimp only [exec]
    exact takeRead_answers s _ _
  case powerOn | marketClockTick | boardOtherCharacter | terminalOtherCharacter | readyLineChange | quoteRequest
  | watchAdd | watchDrop | alertSet | alertClear | requestBadOperation => exact answers_next _
  case restart => exact execRestart_answers s
  case feedInCharacter c => exact execFeedInCharacter_answers s c
  case transferSent l => exact execTransferSent_answers s l
  case broadcastSent l => exact execBroadcastSent_answers s l
  case boardAnswerWaitExpiry l => exact execBoardAnswerWaitExpiry_answers s l
  case pollSent l => exact execPollSent_answers s l
  case selectSent l => exact execSelectSent_answers s l
  case nothing l => exact execNothing_answers s l
  case received l => exact execReceived_answers s l
  case busy l => exact execBusy_answers s l
  case terminalAnswerWaitExpiry l => exact execTerminalAnswerWaitExpiry_answers s l
  case throughSwitchChange on => cases on <;> exact answers_next _
  case throughFrameEnd =>
    change Answers (execThroughFrameEnd s)
    rw [execThroughFrameEnd]
    split <;> exact answers_next _
  case silenceTimerExpiry =>
    change Answers (execSilenceTimerExpiry s)
    rw [execSilenceTimerExpiry]
    split <;> exact answers_next _
  case tapeEntryJoin ch =>
    change Answers (execTapeEntryJoin ch s)
    unfold execTapeEntryJoin
    dsimp only
    split <;> exact answers_next _
  case tapeCharacterSent ch =>
    change Answers (execTapeCharacterSent ch s)
    rw [execTapeCharacterSent]
    split <;> exact answers_next _
  case flashTimerExpiry ch =>
    change Answers (execFlashTimerExpiry ch s)
    rw [execFlashTimerExpiry]
    split <;> exact answers_next _
  case boardChangeNotice =>
    change Answers (execBoardChangeNotice s)
    rw [execBoardChangeNotice]
    split <;> exact answers_next _
  case accept l =>
    change Answers (execAccept l s)
    rw [execAccept]
    split <;> exact answers_next _
  case hold l =>
    change Answers (execHold l s)
    rw [execHold]
    split <;> exact answers_next _
  case holdBackOffExpiry l i =>
    change Answers (execHoldBackOffExpiry l i s)
    rw [execHoldBackOffExpiry]
    split <;> exact answers_next _
  case lampChangeNotice =>
    change Answers (execLampChangeNotice s)
    rw [execLampChangeNotice]
    split <;> exact answers_next _
  case phaseTimerExpiry r =>
    change Answers (execPhaseTimerExpiry r s)
    unfold execPhaseTimerExpiry
    dsimp only
    split <;> exact answers_next _
  case terminalChangeNotice =>
    change Answers (execTerminalChangeNotice s)
    rw [execTerminalChangeNotice]
    split <;> exact answers_next _
  case alertChangeNotice =>
    change Answers (execAlertChangeNotice s)
    rw [execAlertChangeNotice]
    split <;> exact answers_next _
  case upstreamFrameEnd =>
    change Answers (execUpstreamFrameEnd s)
    rw [execUpstreamFrameEnd]
    split <;> exact answers_next _

end

/-- Settles O2: no move touches the queue of commands, and only the overrun of the pass-through buffer answers no next
state. -/
theorem commandsAnswer : Obligations.CommandsAnswer := by
  unfold Obligations.CommandsAnswer
  exact ⟨fun _ _ _ h => (exec_moves h).pending, fun c s => exec_answers s c⟩

/-! ### Power-on -/

/-- The arbiter at power-on: the RESTARTED notice is begun where the card above is ready, and waits where it is not
(R193, R195). -/
theorem UpstreamPort.powerOn_arbitrate (unit : Byte) (ready : Bool) :
    (powerOn unit ready).arbitrate = { powerOn unit ready with
      replies := if ready then [] else [restartedBody unit 0]
      transmitting := if ready then some (.own, frameOf (restartedBody unit 0)) else none
      hold := !ready } := by
  cases ready <;> rfl

/-- Settles O12: the arbiter is the one part of the next state that is no power-on value. -/
theorem powerOnState : Obligations.PowerOnState := by
  unfold Obligations.PowerOnState
  intro s unit on
  refine ⟨_, rfl, rfl, rfl, rfl, rfl, rfl, rfl, rfl, rfl, rfl, rfl, rfl, fun ch => ?_, fun l => ?_, rfl, rfl, rfl, rfl,
    fun r => ?_, rfl, fun x => ?_, rfl, ?_⟩
  · cases ch <;> exact ⟨rfl, rfl, rfl, rfl, rfl, rfl, rfl, rfl, rfl, rfl, rfl, rfl⟩
  · simp [State.powerOn, BoardLine.powerOn, BoardModule.powerOn, TermLine.powerOn]
  · simp [State.powerOn, RowLamps.dark]
  · simp [State.powerOn, Terminal.powerOn]
  · have e := UpstreamPort.powerOn_arbitrate unit s.upstream.readyAbove
    refine ⟨congrArg UpstreamPort.claims e, congrArg UpstreamPort.buffer e, congrArg UpstreamPort.lastServed e,
      congrArg UpstreamPort.assembler e, congrArg UpstreamPort.lost e, UpstreamPort.arbitrate_readyAbove _, fun h => ?_,
      fun h => ?_, rfl, rfl, rfl, rfl⟩ <;>
      exact ⟨(congrArg UpstreamPort.replies e).trans (by rw [h]; rfl),
        (congrArg UpstreamPort.transmitting e).trans (by rw [h]; rfl),
        (congrArg UpstreamPort.hold e).trans (by rw [h]; rfl)⟩

end Sys2Proof.Machine
end

