-- ==== Sys2Proof/Proofs/FeedKept.lean ====
section
/-! PROOFS. Every step keeps the Feed Receiver (R54, R56, R57, R59, R61): its silence timer, feed state and sequence lock
against the session, and its queues in their places. -/

namespace Sys2Proof.Machine

/-- The Feed Receiver under a session state: `State.FeedInv` and `State.QueuesInv`, part by part. -/
structure FeedKept (f : FeedReceiver) (session : SessionState) : Prop where
  silence : f.silence.isSome = true ↔ session = .opened ∧ f.feedState = .live
  closed : session = .closed → f.feedState = .live
  lock : f.feedState = .quiet → f.lock = false
  handOver : f.handOver.length ≤ Config.handOverPlaces
  through : f.through.length ≤ Config.throughPlaces
  idle : f.transmitting = none → f.through = []

theorem State.feedKept_iff (s : State) : FeedKept s.feed s.issues.session ↔ s.FeedInv ∧ s.QueuesInv :=
  ⟨fun h => ⟨⟨h.silence, h.closed, h.lock⟩, h.handOver, h.through, h.idle⟩,
    fun ⟨⟨hs, hc, hl⟩, hh, ht, hi⟩ => ⟨hs, hc, hl, hh, ht, hi⟩⟩

/-! ### The through path -/

theorem length_nextThrough_le (es : List ThroughEntry) : (nextThrough es).2.length ≤ es.length := by
  induction es with
  | nil => exact le_rfl
  | cons e es ih =>
    rw [nextThrough]
    split
    · exact ih.trans (Nat.le_succ _)
    · exact Nat.le_succ _

/-- A through queue with nothing to send is empty once it has been served (R61, R63). -/
theorem nextThrough_none {es : List ThroughEntry} (h : (nextThrough es).1 = none) : (nextThrough es).2 = [] := by
  induction es with
  | nil => rfl
  | cons e es ih =>
    rw [nextThrough] at h ⊢
    split
    · rename_i hd
      rw [if_pos hd] at h
      exact ih h
    · rename_i hd
      rw [if_neg hd] at h
      cases h

section
variable {f : FeedReceiver} {session : SessionState}

/-- Feed Through served leaves none waiting behind a free transmitter, whatever stood there before. -/
theorem FeedKept.pump (h : FeedKept { f with transmitting := none, through := [] } session)
    (hl : f.through.length ≤ Config.throughPlaces) : FeedKept f.pump session := by
  obtain ⟨hs, hc, hk, hh, -, -⟩ := h
  rw [FeedReceiver.pump]
  split
  · rename_i ht
    exact ⟨hs, hc, hk, hh, hl, fun e => by simp [e] at ht⟩
  · exact ⟨hs, hc, hk, hh, (length_nextThrough_le _).trans hl, nextThrough_none⟩

/-- A Feed Receiver with its through path emptied keeps its rules. -/
theorem FeedKept.noThrough (h : FeedKept f session) :
    FeedKept { f with transmitting := none, through := [] } session :=
  ⟨h.silence, h.closed, h.lock, h.handOver, Nat.zero_le _, fun _ => rfl⟩

variable (h : FeedKept f session)
include h

/-- What the rules do not read: the assembler, the expected number, the counters and the serial. -/
theorem FeedKept.set (a : Assembler) (e : Byte) (c : FeedCounts) (n : Nat) :
    FeedKept { f with assembler := a, expected := e, counts := c, serial := n } session :=
  ⟨h.silence, h.closed, h.lock, h.handOver, h.through, h.idle⟩

theorem FeedKept.setHandOver {q : List Handed} (hq : q.length ≤ Config.handOverPlaces) :
    FeedKept { f with handOver := q } session :=
  ⟨h.silence, h.closed, h.lock, hq, h.through, h.idle⟩

theorem FeedKept.doom : FeedKept { f with through := f.through.map fun e => { e with doomed := true } } session :=
  ⟨h.silence, h.closed, h.lock, h.handOver, (List.length_map _).trans_le h.through, fun e => by simp [h.idle e]⟩

theorem FeedKept.tick : FeedKept { f with silence := tickTimer f.silence } session :=
  ⟨by rw [tickTimer, Option.isSome_map]; exact h.silence, h.closed, h.lock, h.handOver, h.through, h.idle⟩

theorem FeedKept.restart (serial : Nat) : FeedKept (f.restart serial) session := by
  have hunlocked : FeedKept { f with lock := false } session :=
    ⟨h.silence, h.closed, fun _ => rfl, h.handOver, h.through, h.idle⟩
  refine FeedKept.pump (hunlocked.set f.assembler f.expected .zero f.serial).noThrough ?_
  exact (List.length_filter_le _ _).trans h.through

/-- The fall to QUIET under an OPEN session (R57). -/
theorem FeedKept.goQuiet (c : FeedCounts) (ho : session = .opened) :
    FeedKept { f with feedState := .quiet, silence := none, lock := false, counts := c } session :=
  ⟨⟨(nomatch ·), fun e => (nomatch e.2)⟩, fun e => (nomatch ho.symm.trans e), fun _ => rfl, h.handOver, h.through, h.idle⟩

/-- The open of the session: the silence timer runs while the feed is LIVE (R36, R56). -/
theorem FeedKept.openSession (window : Nat) :
    FeedKept { f with silence := if session = .closed then some window else f.silence } .opened := by
  refine ⟨?_, (nomatch ·), h.lock, h.handOver, h.through, h.idle⟩
  cases session
  · exact h.silence
  · simp [h.closed rfl]

end

/-- The close of the session with the feed LIVE (R37, R59). -/
theorem FeedKept.closeSession {f : FeedReceiver} {session : SessionState} (h : FeedKept f session) :
    FeedKept { f with feedState := .live, silence := none } .closed :=
  ⟨⟨(nomatch ·), fun e => (nomatch e.1)⟩, fun _ => rfl, (nomatch ·), h.handOver, h.through, h.idle⟩

/-! ### A checked frame -/

section
variable {s : State}

/-- A data message leaves the feed LIVE, and the silence timer running while the session is OPEN (R56, R58). -/
theorem State.dataChecked_feed (s : State) (body : Text) :
    (s.dataChecked body).feed = { s.feed with
      expected := (s.dataChecked body).feed.expected
      lock := (s.dataChecked body).feed.lock
      counts := (s.dataChecked body).feed.counts
      feedState := .live
      silence := if s.issues.session = .opened then some s.windowCs else s.feed.silence } := by
  have sequence (n : Byte) : (s.sequence n).feed = { s.feed with
      expected := (s.sequence n).feed.expected
      lock := (s.sequence n).feed.lock
      counts := (s.sequence n).feed.counts } := by
    unfold State.sequence
    dsimp only
    split <;> rfl
  have restart (u : State) : u.restartSilence.feed = { u.feed with
      silence := if u.issues.session = .opened then some u.windowCs else u.feed.silence } := by
    rw [restartSilence]
    split <;> rfl
  rw [dataChecked, restart, returnLive_frame]
  split
  · dsimp only [windowCs]
    rw [sequence_frame]
    dsimp only
    rw [sequence]
  · rfl

theorem FeedKept.dataChecked (h : FeedKept s.feed s.issues.session) (body : Text) :
    FeedKept (s.dataChecked body).feed s.issues.session := by
  rw [State.dataChecked_feed]
  refine ⟨?_, fun _ => rfl, (nomatch ·), h.handOver, h.through, h.idle⟩
  rcases hs : s.issues.session with _ | _
  · simp
  · have hstopped := h.silence
    simp only [hs, h.closed hs, reduceCtorEq, false_and, iff_false] at hstopped
    simpa using hstopped

theorem FeedKept.handOn (h : FeedKept s.feed s.issues.session) (x : Sorted) (body : Text) :
    FeedKept (s.handOn x body).feed s.issues.session := by
  rw [State.handOn]
  split
  · rename_i hl
    exact h.setHandOver (by rw [List.length_append]; exact hl)
  · exact h.set _ _ _ _

theorem FeedKept.sortChecked (h : FeedKept s.feed s.issues.session) (body : Text) :
    FeedKept (s.sortChecked body).feed s.issues.session := by
  have hd := h.dataChecked body
  have hi : (s.dataChecked body).issues = s.issues := by rw [State.dataChecked_frame]
  rw [State.sortChecked]
  split
  · rw [State.sortData]
    split
    · exact hd.set _ _ _ _
    · split
      · exact hd.set _ _ _ _
      · rw [← hi] at hd ⊢
        exact hd.handOn _ _
  · split
    · rw [State.sortControl]
      split
      · exact h.set _ _ _ _
      · split
        · exact h.handOn _ _
        · split
          · exact h.handOn _ _
          · exact h
    · exact h.set _ _ _ _

theorem FeedKept.repeatFrame (h : FeedKept s.feed s.issues.session) (f : Frame) :
    FeedKept (s.repeatFrame f).feed s.issues.session := by
  rw [State.repeatFrame]
  split
  · split
    · rename_i hl
      exact FeedKept.pump h.noThrough (by rw [FeedReceiver.queueThrough, List.length_append]; exact hl)
    · exact h.set _ _ _ _
  · exact h

theorem FeedKept.checked (h : FeedKept s.feed s.issues.session) (f : Frame) :
    FeedKept (s.checked f).feed s.issues.session := by
  have hcounted : FeedKept s.countFrame.feed s.issues.session := h.set _ _ _ _
  have hsorted := FeedKept.sortChecked hcounted f.body
  have hi : (s.countFrame.sortChecked f.body).issues = s.issues := by
    rw [State.sortChecked_frame]
    rfl
  unfold State.checked
  dsimp only
  split
  · rw [← hi]
    refine FeedKept.repeatFrame ?_ f
    rw [hi]
    exact hsorted
  · exact hsorted

end

/-! ### The moves -/

section
variable {s u : State} (h : FeedKept s.feed s.issues.session)
include h

theorem FeedKept.dropHead : FeedKept s.dropHead.feed s.dropHead.issues.session :=
  h.setHandOver ((List.length_tail.trans_le (Nat.sub_le _ _)).trans h.handOver)

theorem FeedKept.data (hm : DataMove s u) : FeedKept u.feed u.issues.session := by
  rcases hm.frame with ⟨present, clock, roll, rfl⟩ | rfl | e
  · rw [State.announceOpen_frame]
    exact h.openSession _
  · rw [State.returnLive_frame]
    exact h.closeSession
  · rw [e]
    exact h

theorem FeedKept.control (hm : ControlMove s u) : FeedKept u.feed u.issues.session := by
  rw [hm.frame]
  exact h.set _ _ _ _

theorem FeedKept.move (hm : Move s u) : FeedKept u.feed u.issues.session := by
  cases hm with
  | powerOn => exact (State.feedKept_iff State.reset).2 (by decide +kernel)
  | idle | switchOn | upstreamCharacter | upstreamFrame | upstreamEnd | readyLine => exact h
  | character | failure => exact h.set _ _ _ _
  | frame a f =>
    rw [State.checked_frame]
    exact FeedKept.checked (s := { s with feed := { s.feed with assembler := a } }) (h.set a _ _ _) f
  | throughEnd => exact FeedKept.pump (f := { s.feed with transmitting := none }) h.noThrough h.through
  | quiet hq =>
    rw [State.goQuiet_frame]
    exact h.goQuiet _ (h.silence.1 (by rw [hq]; rfl)).1
  | switchOff => exact h.doom
  | tick => exact h.tick
  | data v hd => exact (h.dropHead.data hd).set _ _ _ _
  | claim =>
    rw [State.takeClaim_frame]
    exact h.dropHead
  | execute table r data hi hc =>
    have hrun := FeedKept.control (s := s.finished) h hc
    exact hrun
  | broadcast hi hc => exact h.dropHead.control hc
  | restart =>
    rw [State.restart_frame]
    exact h.restart _
  | restartAll =>
    rw [State.restart_frame]
    exact h.dropHead.restart _
  | tapeJoin | tapeCharacter | flashExpiry =>
    rw [State.tookTape_frame]
    exact h
  | line hl =>
    rw [hl.frame]
    exact h

end

/-- Settles O54: every move keeps the Feed Receiver's parts against the session. -/
theorem stepsKeepFeed : Obligations.StepsKeepFeed := by
  unfold Obligations.StepsKeepFeed
  intro s t hf hq hstep
  rw [← State.feedKept_iff]
  exact step_keeps (P := fun s => FeedKept s.feed s.issues.session) (fun _ _ h => h) (fun _ _ h => h.move)
    (s.feedKept_iff.2 ⟨hf, hq⟩) hstep

end Sys2Proof.Machine
end

