-- ==== Sys2Proof/Proofs/TapeChannels.lean ====
section
/-! PROOFS. The Tape Channels (R67 to R92): the equations of a print start, what each command does to its channel, and
that every step keeps both channels' rules. -/

namespace Sys2Proof.Machine

/-! ### The print start -/

/-- The queued entries counted again at a level and block size (R78). -/
def recountedAt (level block : Nat) (fl : Text) (q : List TapeEntry) : List TapeEntry :=
  q.map fun e => ⟨e.item, e.arrival, (itemText level block fl e.item).length⟩

theorem TapeChannel.recount_eq (c : TapeChannel) (fl : Text) :
    c.recount fl = { c with
      queue := recountedAt c.level c.working.block fl c.queue
      backlog := countedSum (recountedAt c.level c.working.block fl c.queue) } := rfl

@[simp] theorem length_recountedAt (level block : Nat) (fl : Text) (q : List TapeEntry) :
    (recountedAt level block fl q).length = q.length := List.length_map _

section
variable (ch : Channel) (fl : Text) (now : BitVec 32) {c d : TapeChannel} {e : TapeEntry} {rest : List TapeEntry}

theorem TapeChannel.copyWorking_same (h : c.working.block = c.loaded.block) :
    c.copyWorking fl = { c with working := c.loaded.toWorking } := if_pos h

theorem TapeChannel.copyWorking_changed (h : c.working.block ≠ c.loaded.block) :
    c.copyWorking fl = { c with
      working := c.loaded.toWorking
      queue := recountedAt c.level c.loaded.block fl c.queue
      backlog := countedSum (recountedAt c.level c.loaded.block fl c.queue) } := if_neg h

/-- A print start with nothing queued takes up the working parameters alone. -/
theorem TapeChannel.printStart_nil (hq : (c.copyWorking fl).queue = []) :
    c.printStart ch fl now = (c.copyWorking fl, []) := by
  simp only [printStart, hq]

/-- The head of the queue is started at the level decided; the entries behind it are counted again when the level
changes (R79, R81 to R83). -/
theorem TapeChannel.printStart_cons (hd : c.copyWorking fl = d) (hq : d.queue = e :: rest) :
    let q := d.backlog - e.counted
    let s := (d.paced now e q).1
    let level := (d.paced now e q).2
    (level = d.level → c.printStart ch fl now =
        ({ d with
          queue := rest
          emission := some ⟨itemText d.level d.working.block fl e.item, 0⟩
          lateness := s
          backlog := q }, []))
      ∧ (level ≠ d.level → c.printStart ch fl now =
        ({ d with
          queue := recountedAt level d.working.block fl rest
          emission := some ⟨itemText level d.working.block fl e.item, 0⟩
          lateness := s
          level := level
          flashTimer := flashThrough d.level level d.flashInterval d.flashTimer
          backlog := countedSum (recountedAt level d.working.block fl rest) },
        [levelNotice ch d.level level 0 s q])) := by
  dsimp only
  constructor
  · intro hl
    simp only [printStart, hd, hq, hl, if_true]
  · intro hl
    simp only [printStart, hd, hq, hl, if_false]
    rfl

end

/-! ### The rules of a channel -/

/-- The rules of a channel but for the idle clause, which a print start restores: `TapeChannel.Inv`, part by part. -/
structure TapeChannel.Kept (c : TapeChannel) : Prop where
  queue : c.queue.length ≤ Config.tapePlaces
  level : c.level ≤ 3
  rate : 4 ≤ c.rate ∧ c.rate ≤ 40
  lateness : c.lateness ≤ Config.maxLateness
  backlog : c.backlog = countedSum c.queue
  flash : c.flashTimer.isSome = true ↔ 2 ≤ c.level
  loaded : c.loaded.Ok

theorem TapeChannel.inv_iff (c : TapeChannel) : c.Inv ↔ c.Kept ∧ (c.emission = none → c.queue = []) :=
  ⟨fun ⟨hq, hl, hr, hs, hb, hf, hi, hp⟩ => ⟨⟨hq, hl, hr, hs, hb, hf, hp⟩, hi⟩,
    fun ⟨⟨hq, hl, hr, hs, hb, hf, hp⟩, hi⟩ => ⟨hq, hl, hr, hs, hb, hf, hi, hp⟩⟩

theorem decideLevel_le {t : Thresholds} {level e : Nat} (h : level ≤ 3) : decideLevel t level e ≤ 3 := by
  rw [decideLevel]
  split
  · omega
  · split <;> omega

/-- A level decided moves at most one step. -/
theorem decideLevel_near (t : Thresholds) (level e : Nat) :
    decideLevel t level e = level + 1 ∨ decideLevel t level e = level ∨ level = decideLevel t level e + 1 := by
  rw [decideLevel]
  split
  · omega
  · split <;> omega

/-- The flash timer runs exactly at levels 2 and 3 after a change of level too (R85). -/
theorem flashThrough_isSome {before after interval : Nat} {t : Option Nat} (h : t.isSome = true ↔ 2 ≤ before) :
    (flashThrough before after interval t).isSome = true ↔ 2 ≤ after := by
  rw [flashThrough]
  split
  · simp; omega
  · split
    · simp; omega
    · rw [h]; omega

theorem smooth_le (s : Nat) (now arrival : BitVec 32) : smooth s now arrival ≤ Config.maxLateness :=
  Nat.min_le_right _ _

@[simp] theorem countedSum_cons (e : TapeEntry) (q : List TapeEntry) :
    countedSum (e :: q) = e.counted + countedSum q := by simp [countedSum]

@[simp] theorem countedSum_append (p q : List TapeEntry) : countedSum (p ++ q) = countedSum p + countedSum q := by
  simp [countedSum]

section
variable {c : TapeChannel} (h : c.Kept)
include h

/-- What the rules do not read: the emission, the working parameters, the counters and the arrivals. -/
theorem TapeChannel.Kept.set (e : Option Emission) (w : TapeWorking) (dropped merged : Nat) (a : List TapeItem) :
    ({ c with emission := e, working := w, dropped := dropped, merged := merged, arrivals := a } : TapeChannel).Kept :=
  ⟨h.queue, h.level, h.rate, h.lateness, h.backlog, h.flash, h.loaded⟩

theorem TapeChannel.Kept.recount (fl : Text) : (c.recount fl).Kept :=
  ⟨(List.length_map _).trans_le h.queue, h.level, h.rate, h.lateness, rfl, h.flash, h.loaded⟩

theorem TapeChannel.Kept.copyWorking (fl : Text) : (c.copyWorking fl).Kept := by
  have hw := h.set c.emission c.loaded.toWorking c.dropped c.merged c.arrivals
  rw [TapeChannel.copyWorking]
  split
  · exact hw
  · exact hw.recount fl

theorem TapeChannel.Kept.paced (now : BitVec 32) (e : TapeEntry) (q : Nat) :
    (c.paced now e q).1 ≤ Config.maxLateness ∧ (c.paced now e q).2 ≤ 3 := by
  refine ⟨?_, decideLevel_le h.level⟩
  rw [TapeChannel.paced]
  dsimp only
  split
  · exact h.lateness
  · exact smooth_le _ _ _

/-- A print start leaves a channel that is idle only with nothing queued (R79). -/
theorem TapeChannel.Kept.printStart (ch : Channel) (fl : Text) (now : BitVec 32) : (c.printStart ch fl now).1.Inv := by
  rw [TapeChannel.inv_iff]
  have hd := h.copyWorking fl
  rcases hq : (c.copyWorking fl).queue with _ | ⟨e, rest⟩
  · rw [TapeChannel.printStart_nil ch fl now hq]
    exact ⟨hd, fun _ => hq⟩
  · obtain ⟨hsame, hmoves⟩ := TapeChannel.printStart_cons ch fl now rfl hq
    obtain ⟨hs, hl⟩ := hd.paced now e ((c.copyWorking fl).backlog - e.counted)
    have hrest : rest.length ≤ Config.tapePlaces := (Nat.le_succ _).trans (by simpa [hq] using hd.queue)
    by_cases hlevel : ((c.copyWorking fl).paced now e ((c.copyWorking fl).backlog - e.counted)).2
        = (c.copyWorking fl).level
    · rw [hsame hlevel]
      refine ⟨⟨hrest, hd.level, hd.rate, hs, ?_, hd.flash, hd.loaded⟩, (nomatch ·)⟩
      have hb := hd.backlog
      rw [hq, countedSum_cons] at hb
      dsimp only
      omega
    · rw [hmoves hlevel]
      exact ⟨⟨(length_recountedAt _ _ _ _).trans_le hrest, hl, hd.rate, hs, rfl, flashThrough_isSome hd.flash,
        hd.loaded⟩, (nomatch ·)⟩

theorem TapeChannel.Kept.startIfIdle (ch : Channel) (fl : Text) (now : BitVec 32) :
    (c.startIfIdle ch fl now).1.Inv := by
  rw [TapeChannel.startIfIdle]
  split
  · exact h.printStart ch fl now
  · rename_i he
    exact (TapeChannel.inv_iff c).2 ⟨h, fun e => absurd (by rw [e]; rfl) he⟩

theorem TapeChannel.Kept.joinTail (fl : Text) (now : BitVec 32) (i : TapeItem) (hq : c.queue.length < Config.tapePlaces) :
    (c.joinTail fl now i).Kept :=
  ⟨by simp only [TapeChannel.joinTail, List.length_append, List.length_singleton]; omega, h.level, h.rate, h.lateness,
    by simp [TapeChannel.joinTail, h.backlog, countedSum], h.flash, h.loaded⟩

theorem TapeChannel.Kept.joinFlash (fl : Text) (now : BitVec 32) (hq : c.queue.length < Config.tapePlaces) :
    (c.joinFlash fl now).Kept :=
  ⟨by simp only [TapeChannel.joinFlash, List.length_cons]; omega, h.level, h.rate, h.lateness,
    by simp [TapeChannel.joinFlash, h.backlog, Nat.add_comm], h.flash, h.loaded⟩

theorem TapeChannel.Kept.mergeTail (fl : Text) {tail : TapeEntry} (i : TapeItem) (ht : c.queue.getLast? = some tail) :
    (c.mergeTail fl tail i).Kept := by
  have hsplit : c.queue.dropLast ++ [tail] = c.queue := by
    rw [List.dropLast_append_getLast? tail ht]
  have hlen := congrArg List.length hsplit
  have hb := h.backlog
  rw [← hsplit, countedSum_append, countedSum_cons] at hb
  have hq := h.queue
  refine ⟨?_, h.level, h.rate, h.lateness, ?_, h.flash, h.loaded⟩
  · simp only [TapeChannel.mergeTail, List.length_append, List.length_singleton] at hlen ⊢
    omega
  · simp only [TapeChannel.mergeTail, countedSum_append, countedSum_cons]
    omega

theorem TapeChannel.Kept.stepRate : ({ c with rate := stepRate c.rate c.target } : TapeChannel).Kept := by
  obtain ⟨⟨hn, hn'⟩, ⟨hr, hr'⟩, -⟩ := h.loaded
  obtain ⟨hlow, hhigh⟩ := h.rate
  have htarget : 4 ≤ c.target ∧ c.target ≤ 40 := by
    rw [TapeChannel.target]
    split <;> exact ⟨by assumption, by assumption⟩
  refine ⟨h.queue, h.level, ?_, h.lateness, h.backlog, h.flash, h.loaded⟩
  simp only [Sys2Proof.Machine.stepRate]
  split
  · omega
  · split <;> omega

end

theorem TapeChannel.mergeTarget_getLast? {c : TapeChannel} {i : TapeItem} {tail : TapeEntry}
    (h : c.mergeTarget i = some tail) : c.queue.getLast? = some tail := by
  rw [mergeTarget] at h
  split at h
  · exact (Option.filter_eq_some_iff.1 h).1
  · cases h

/-! ### The rules through a channel's commands -/

section
variable {c : TapeChannel} (h : c.Inv)
include h

theorem TapeChannel.Inv.kept : c.Kept := ((TapeChannel.inv_iff c).1 h).1

theorem TapeChannel.Inv.idle : c.emission = none → c.queue = [] := ((TapeChannel.inv_iff c).1 h).2

theorem TapeChannel.Inv.force (ch : Channel) (fl : Text) : (c.force ch fl).1.Inv := by
  obtain ⟨hq, hl, hr, hs, hb, hf, hp⟩ := h.kept
  rw [TapeChannel.force]
  split
  · exact h
  · refine (TapeChannel.inv_iff _).2 ⟨TapeChannel.Kept.recount ?_ fl, fun e => ?_⟩
    · exact ⟨hq, le_rfl, hr, hs, hb, flashThrough_isSome hf, hp⟩
    · rw [TapeChannel.recount_eq]
      dsimp only
      rw [h.idle e]
      rfl

theorem TapeChannel.Inv.take (ch : Channel) (fl : Text) (now : BitVec 32) (i : TapeItem) :
    (c.take ch fl now i).1.Inv := by
  rw [TapeChannel.take]
  split
  · exact h
  · split
    · rename_i tail hm
      have hlast := TapeChannel.mergeTarget_getLast? hm
      refine (TapeChannel.inv_iff _).2 ⟨h.kept.mergeTail fl i hlast, fun e => ?_⟩
      rw [h.idle e] at hlast
      cases hlast
    · split
      · rename_i hq
        exact (h.kept.joinTail fl now i hq).startIfIdle ch fl now
      · have hdropped : ({ c with dropped := satInc c.dropped } : TapeChannel).Inv := h
        dsimp only
        split
        · exact hdropped.force ch fl
        · exact hdropped

theorem TapeChannel.Inv.charSent (ch : Channel) (fl : Text) (now : BitVec 32) : (c.charSent ch fl now).1.Inv := by
  have hrate := h.kept.stepRate
  rw [TapeChannel.charSent]
  split
  · exact h
  · dsimp only
    split
    · exact (TapeChannel.inv_iff _).2 ⟨hrate.set _ _ _ _ _, (nomatch ·)⟩
    · split
      · rename_i hq
        exact (TapeChannel.inv_iff _).2 ⟨hrate.set _ _ _ _ _, fun _ => List.isEmpty_iff.1 hq⟩
      · exact (hrate.set none c.working c.dropped c.merged c.arrivals).printStart ch fl now

theorem TapeChannel.Inv.flashExpiry (ch : Channel) (fl : Text) (now : BitVec 32) (hf : c.flashTimer = some 0) :
    (c.flashExpiry ch fl now).1.Inv := by
  obtain ⟨hq, hl, hr, hs, hb, htimer, hp⟩ := h.kept
  have hlevel : 2 ≤ c.level := htimer.1 (by rw [hf]; rfl)
  have htimed : ({ c with flashTimer := some c.flashInterval } : TapeChannel).Kept :=
    ⟨hq, hl, hr, hs, hb, ⟨fun _ => hlevel, fun _ => rfl⟩, hp⟩
  rw [TapeChannel.flashExpiry]
  dsimp only
  split
  · rename_i hroom
    exact (htimed.joinFlash fl now hroom.1).startIfIdle ch fl now
  · exact (TapeChannel.inv_iff _).2 ⟨htimed, h.idle⟩

theorem TapeChannel.Inv.restart : c.restart.Inv := by
  obtain ⟨-, -, -, -, -, -, hp⟩ := h.kept
  exact ⟨Nat.zero_le _, Nat.zero_le _, hp.1, Nat.zero_le _, rfl, ⟨(nomatch ·), fun e => absurd e (by decide : ¬2 ≤ 0)⟩,
    fun _ => rfl, hp⟩

theorem TapeChannel.Inv.loadParams {p : TapeParams} (hp : p.Ok) : (c.loadParams p).Inv := by
  obtain ⟨hq, hl, hr, hs, hb, hf, hi, -⟩ := h
  exact ⟨hq, hl, hr, hs, hb, hf, hi, hp⟩

theorem TapeChannel.Inv.tick : c.tick.Inv := by
  obtain ⟨hq, hl, hr, hs, hb, hf, hi, hp⟩ := h
  exact ⟨hq, hl, hr, hs, hb, by rw [TapeChannel.tick, tickTimer, Option.isSome_map]; exact hf, hi, hp⟩

end

theorem TapeChannel.powerOn_inv : TapeChannel.powerOn.Inv := by decide

/-! ### The card -/

section
variable {s u : State}

theorem State.TapeInv.tape (h : s.TapeInv) (ch : Channel) : (s.tape ch).Inv := by
  cases ch <;> [exact h.1; exact h.2]

theorem State.TapeInv.setTape (h : s.TapeInv) {ch : Channel} {c : TapeChannel} (hc : c.Inv) :
    (s.setTape ch c).TapeInv := by
  cases ch <;> [exact ⟨hc, h.2⟩; exact ⟨h.1, hc⟩]

theorem State.TapeInv.tookTape (h : s.TapeInv) {ch : Channel} {r : TapeChannel × List (Byte × Text)} (hc : r.1.Inv) :
    (s.tookTape ch r).TapeInv := by
  rw [State.tookTape_frame]
  exact State.TapeInv.setTape h hc

theorem DataMove.tapeInv (hm : DataMove s u) (h : s.TapeInv) : u.TapeInv := by
  rcases hm.frame with ⟨present, clock, roll, rfl⟩ | rfl | e
  · rw [State.announceOpen_frame]
    exact h
  · rw [State.returnLive_frame]
    exact h
  · rw [e]
    exact h

theorem ControlMove.tapeInv (hm : ControlMove s u) (h : s.TapeInv) : u.TapeInv := by
  cases hm with
  | nothing | draw | loadIssue | deleteIssue | watch | clearAlert | setFlashList | setLamps | setFeed | clearCounts =>
    exact h
  | blankRow | setRow =>
    rw [State.mapRow_frame]
    exact h
  | setAlert =>
    rw [State.evaluate_frame]
    exact h
  | setTape ch hp => exact State.TapeInv.setTape h ((State.TapeInv.tape h ch).loadParams hp)
  | enable =>
    rw [State.enableTerm_frame]
    exact h
  | disable =>
    rw [State.disableTerm_frame]
    exact h

theorem Move.tapeInv (h : s.TapeInv) (hm : Move s u) : u.TapeInv := by
  cases hm with
  | powerOn => exact ⟨TapeChannel.powerOn_inv, TapeChannel.powerOn_inv⟩
  | idle | character | failure | throughEnd | switchOn | switchOff | upstreamCharacter | upstreamFrame | upstreamEnd
  | readyLine => exact h
  | tick => exact ⟨TapeChannel.Inv.tick h.1, TapeChannel.Inv.tick h.2⟩
  | frame =>
    rw [State.checked_frame]
    exact h
  | quiet =>
    rw [State.goQuiet_frame]
    exact h
  | data v hd => exact hd.tapeInv h
  | claim =>
    rw [State.takeClaim_frame]
    exact h
  | execute table r data hi hc => exact hc.tapeInv h
  | broadcast hi hc => exact hc.tapeInv h
  | restart | restartAll =>
    rw [State.restart_frame]
    exact ⟨TapeChannel.Inv.restart h.1, TapeChannel.Inv.restart h.2⟩
  | @tapeJoin ch i rest hi =>
    have harrived : ({ s.tape ch with arrivals := rest } : TapeChannel).Inv := State.TapeInv.tape h ch
    exact State.TapeInv.tookTape h (harrived.take ch _ _ _)
  | tapeCharacter ch => exact State.TapeInv.tookTape h ((State.TapeInv.tape h ch).charSent ch _ _)
  | flashExpiry ch hf => exact State.TapeInv.tookTape h ((State.TapeInv.tape h ch).flashExpiry ch _ _ hf)
  | line hl =>
    rw [hl.frame]
    exact h

end

/-- Settles O55: every move keeps the rules of both channels. -/
theorem stepsKeepTapes : Obligations.StepsKeepTapes := by
  unfold Obligations.StepsKeepTapes
  intro s t h hstep
  exact step_keeps (P := State.TapeInv) (fun _ _ h => h) (fun _ _ h => Move.tapeInv h) h hstep

/-! ### The pacing in the words of its rules -/

theorem smooth_eq (s : Nat) (now arrival : BitVec 32) :
    smooth s now arrival = min ((s : Int) + ((if now.toNat < arrival.toNat then 0
      else (now.toNat : Int) - arrival.toNat) - s) / 8).toNat 360000 := by
  rw [smooth]
  split
  · rfl
  · rename_i h
    rw [Nat.cast_sub (not_lt.1 h)]
    rfl

/-- The threshold above a level, and the one below it. -/
theorem Thresholds.up_succ (t : Thresholds) (level : Nat) :
    t.up (level + 1) = (if level = 0 then t.up1 else if level = 1 then t.up2 else t.up3).cs := by
  simp only [up, Nat.add_eq_right, Nat.reduceEqDiff]
  split
  · rfl
  · split <;> rfl

theorem Thresholds.down_eq (t : Thresholds) (level : Nat) :
    t.down level = (if level = 1 then t.down1 else if level = 2 then t.down2 else t.down3).cs := by
  rw [down]
  split
  · rfl
  · split <;> rfl

/-- A level that moves by one crosses between 1 and 2, or not at all (R85). -/
theorem flashThrough_near {before after : Nat} (interval : Nat) (t : Option Nat)
    (h : after = before + 1 ∨ after = before ∨ before = after + 1) :
    flashThrough before after interval t =
      if before = 1 ∧ after = 2 then some interval else if before = 2 ∧ after = 1 then none else t := by
  simp only [flashThrough, show (before < 2 ∧ 2 ≤ after) ↔ (before = 1 ∧ after = 2) by omega,
    show (2 ≤ before ∧ after < 2) ↔ (before = 2 ∧ after = 1) by omega]

theorem channelCode_eq (ch : Channel) : channelCode ch = if ch = .a then 0x41 else 0x42 := by cases ch <;> rfl

theorem recountedAt_cons (level block : Nat) (fl : Text) (e : TapeEntry) (rest : List TapeEntry) :
    recountedAt level block fl (e :: rest) =
      ⟨e.item, e.arrival, (itemText level block fl e.item).length⟩ :: recountedAt level block fl rest := rfl

/-- Recounting twice leaves the later count. -/
theorem recountedAt_recountedAt (level level' block block' : Nat) (fl : Text) (q : List TapeEntry) :
    recountedAt level block fl (recountedAt level' block' fl q) = recountedAt level block fl q := by
  simp [recountedAt]

theorem countedSum_recountedAt (level block : Nat) (fl : Text) (q : List TapeEntry) :
    countedSum (recountedAt level block fl q) = (q.map fun x => (itemText level block fl x.item).length).sum := by
  simp [countedSum, recountedAt, Function.comp_def]

/-- Settles O34: the head that the copy of the working parameters leaves, started at the level decided. -/
theorem printStartPaces : Obligations.PrintStartPaces := by
  unfold Obligations.PrintStartPaces
  intro ch fl now c e rest hq t q waited late x cs code up down level r counted behind
  have hcode : channelCode ch = code := channelCode_eq ch
  -- what the copy of the working parameters leaves at the head: the entry, and its backlog behind
  obtain ⟨e', rest', b, hcopy, hitem, harrival, hb, hrest, hagain⟩ : ∃ (e' : TapeEntry) (rest' : List TapeEntry)
      (b : Nat), c.copyWorking fl = { c with working := c.loaded.toWorking, queue := e' :: rest', backlog := b }
        ∧ e'.item = e.item ∧ e'.arrival = e.arrival ∧ b - e'.counted = q
        ∧ (level = c.level → rest' = behind)
        ∧ ∀ l, recountedAt l c.loaded.block fl rest' = recountedAt l c.loaded.block fl rest := by
    by_cases hblock : c.working.block = c.loaded.block
    · refine ⟨e, rest, c.backlog, ?_, rfl, rfl, (if_pos hblock).symm, fun hl => ?_, fun _ => rfl⟩
      · rw [TapeChannel.copyWorking_same fl hblock, hq]
      · simp [behind, counted, hl, hblock]
    · refine ⟨⟨e.item, e.arrival, (itemText c.level c.loaded.block fl e.item).length⟩,
        recountedAt c.level c.loaded.block fl rest, countedSum (recountedAt c.level c.loaded.block fl (e :: rest)),
        ?_, rfl, rfl, ?_, fun hl => ?_,
        fun _ => recountedAt_recountedAt _ _ _ _ _ _⟩
      · rw [TapeChannel.copyWorking_changed fl hblock, hq, recountedAt_cons]
      · rw [recountedAt_cons, countedSum_cons, Nat.add_sub_cancel_left, countedSum_recountedAt]
        exact (if_neg hblock).symm
      · simp only [behind, counted, hl, hblock, and_false, if_false]
        rfl
  have hpaced : TapeChannel.paced { c with working := c.loaded.toWorking, queue := e' :: rest', backlog := b } now e' q =
      (late, level) := by
    have hlate : (if e'.item = .flash then c.lateness else smooth c.lateness now e'.arrival) = late := by
      rw [hitem, harrival, smooth_eq]
    simp only [TapeChannel.paced, hlate, decideLevel, Thresholds.up_succ, Thresholds.down_eq]
    rfl
  have hnear : level = c.level + 1 ∨ level = c.level ∨ c.level = level + 1 := by
    have := decideLevel_near t c.level x
    rwa [decideLevel, Thresholds.up_succ, Thresholds.down_eq] at this
  obtain ⟨hsame, hmoves⟩ := TapeChannel.printStart_cons ch fl now hcopy rfl
  simp only [hb, hpaced] at hsame hmoves
  by_cases hl : level = c.level
  · have hr : r = _ := hsame hl
    have hflash : (if c.level = 1 ∧ level = 2 then some (c.loaded.interval * 100)
        else if c.level = 2 ∧ level = 1 then none else c.flashTimer) = c.flashTimer := by
      rw [if_neg (by omega), if_neg (by omega)]
    refine ⟨(congrArg Prod.fst hr).trans ?_, (congrArg Prod.snd hr).trans (if_pos hl).symm⟩
    rw [hflash, if_pos hl, ← hrest hl, ← hitem, hl]
    rfl
  · have hr : r = _ := hmoves hl
    have hbehind : recountedAt level c.loaded.block fl rest' = behind := by
      simp only [hagain, behind, counted, hl, false_and, if_false]
      rfl
    refine ⟨(congrArg Prod.fst hr).trans ?_, (congrArg Prod.snd hr).trans ?_⟩
    · rw [if_neg hl, ← flashThrough_near _ _ hnear, ← hbehind, ← hitem]
      rfl
    · rw [if_neg hl, ← hcode]
      rfl

/-! ### An entry handed to a channel -/

theorem TapeChannel.belowMinimum_iff {c : TapeChannel} {i : TapeItem} :
    c.belowMinimum i = true ↔ ∃ n sym d p v x, i = .print n sym d p v x ∧ v / 100 < c.working.minimum := by
  cases i with
  | print n sym d p v x =>
    refine decide_eq_true_iff.trans ⟨fun h => ⟨n, sym, d, p, v, x, rfl, h⟩, ?_⟩
    rintro ⟨_, _, _, _, _, _, e, h⟩
    cases e
    exact h
  | halt | resume | corr | quiet | flash => simp [belowMinimum]

/-- A tail takes a print of the same issue, symbol, price and suffix (R71). -/
theorem mergesInto_iff {tail i : TapeItem} :
    mergesInto tail i = true ↔
      ∃ n sym d d' p v v' x, i = .print n sym d' p v' x ∧ tail = .print n sym d p v x := by
  cases tail <;> cases i <;> simp [mergesInto]
  aesop

theorem TapeChannel.mergeTarget_eq_some {c : TapeChannel} {i : TapeItem} {tail : TapeEntry} :
    c.mergeTarget i = some tail ↔
      c.level = 3 ∧ c.queue.getLast? = some tail ∧ mergesInto tail.item i = true := by
  rw [mergeTarget]
  split <;> simp [*]

theorem isPrint_iff {i : TapeItem} : isPrint i = true ↔ ∃ n sym d p v x, i = .print n sym d p v x := by
  cases i <;> simp [isPrint]

section
variable (ch : Channel) (fl : Text) (now : BitVec 32) {c : TapeChannel} {i : TapeItem}

theorem TapeChannel.take_below (h : c.belowMinimum i = true) : c.take ch fl now i = (c, []) := if_pos h

variable (hb : c.belowMinimum i = false)
include hb

theorem TapeChannel.take_merges {tail : TapeEntry} (hm : c.mergeTarget i = some tail) :
    c.take ch fl now i = (c.mergeTail fl tail i, []) := by
  simp [take, hb, hm]

variable (hm : c.mergeTarget i = none)
include hm

theorem TapeChannel.take_joins (hq : c.queue.length < Config.tapePlaces) :
    c.take ch fl now i = (c.joinTail fl now i).startIfIdle ch fl now := by
  simp [take, hb, hm, hq]

theorem TapeChannel.take_full (hq : Config.tapePlaces ≤ c.queue.length) :
    c.take ch fl now i =
      if isPrint i then ({ c with dropped := satInc c.dropped } : TapeChannel).force ch fl
      else ({ c with dropped := satInc c.dropped }, []) := by
  simp [take, hb, hm, not_lt.2 hq]

end

theorem TapeChannel.startIfIdle_busy (ch : Channel) (fl : Text) (now : BitVec 32) {c : TapeChannel}
    (h : c.emission.isSome = true) : c.startIfIdle ch fl now = (c, []) := by
  rw [startIfIdle, if_neg]
  rcases he : c.emission with _ | e <;> simp_all

theorem TapeChannel.startIfIdle_idle (ch : Channel) (fl : Text) (now : BitVec 32) {c : TapeChannel}
    (h : c.emission = none) : c.startIfIdle ch fl now = c.printStart ch fl now := by
  rw [startIfIdle, if_pos (by rw [h]; rfl)]

/-- The force to level 3 of a print that meets a full queue below it, with the backlog before the recount in its notice
(R72, log 13). -/
theorem TapeChannel.force_below (ch : Channel) (fl : Text) {c : TapeChannel} (h : c.level < 3) :
    c.force ch fl = ({ c with
      level := 3
      queue := recountedAt 3 c.working.block fl c.queue
      backlog := countedSum (recountedAt 3 c.working.block fl c.queue)
      flashTimer := if c.level < 2 then some (c.loaded.interval * 100) else c.flashTimer },
      [levelNotice ch c.level 3 1 c.lateness c.backlog]) := by
  have hf : flashThrough c.level 3 c.flashInterval c.flashTimer =
      if c.level < 2 then some (c.loaded.interval * 100) else c.flashTimer := by
    simp [flashThrough, flashInterval]
  rw [force, if_neg (by omega), hf]
  rfl

theorem exec_tapeEntryJoin {s : State} {ch : Channel} {i : TapeItem} {rest : List TapeItem}
    (h : (s.tape ch).arrivals = i :: rest) :
    exec (.tapeEntryJoin ch) s =
      .next (s.tookTape ch ({ s.tape ch with arrivals := rest }.take ch s.flashNow s.issues.clock i)) := by
  change execTapeEntryJoin ch s = _
  simp only [execTapeEntryJoin, h]

/-- A channel's command that raises no notice sets the channel alone. -/
theorem State.tookTape_quiet (s : State) (ch : Channel) (c : TapeChannel) : s.tookTape ch (c, []) = s.setTape ch c := rfl

/-- Settles O33: one equation for each thing that can become of an entry. -/
theorem tapeEntryTaken : Obligations.TapeEntryTaken := by
  unfold Obligations.TapeEntryTaken
  intro s ch i rest harrived c fl length below joined merges
  have hexec := exec_tapeEntryJoin harrived
  have hbelow : c.belowMinimum i = true ↔ below := TapeChannel.belowMinimum_iff
  have habove (hb : ¬below) : c.belowMinimum i = false := by simpa [← hbelow] using hb
  have hnone (hm : ¬(c.level = 3 ∧ merges)) : c.mergeTarget i = none := by
    rcases ht : c.mergeTarget i with _ | tail
    · rfl
    · obtain ⟨hl, hlast, hinto⟩ := TapeChannel.mergeTarget_eq_some.1 ht
      obtain ⟨n, sym, d, d', p, v, v', x, hi, he⟩ := mergesInto_iff.1 hinto
      exact absurd ⟨hl, n, sym, d, d', p, v, v', x, tail, hi, hlast, he⟩ hm
  refine ⟨fun hb => ?_, fun hb hl n sym d d' p v v' x e hi hlast he => ?_, fun hb hm hq => ⟨fun hbusy => ?_,
    fun hidle => ?_⟩, fun hb hm hq => ⟨fun hno => ?_, fun hprint hl => ?_⟩⟩
  · rw [hexec, TapeChannel.take_below ch _ _ (hbelow.2 hb)]
    rfl
  · have ht : c.mergeTarget i = some e :=
      TapeChannel.mergeTarget_eq_some.2 ⟨hl, hlast, mergesInto_iff.2 ⟨n, sym, d, d', p, v, v', x, hi, he⟩⟩
    have hitem : mergedItem e.item i = .print n sym d p (min (v + v') 99999999) x := by rw [he, hi]; rfl
    rw [hexec, TapeChannel.take_merges ch _ _ (habove hb) ht, TapeChannel.mergeTail, hitem]
    rfl
  · rw [hexec, TapeChannel.take_joins ch _ _ (habove hb) (hnone hm) hq,
      TapeChannel.startIfIdle_busy (c := c.joinTail s.flashNow s.issues.clock i) ch _ _ hbusy]
    rfl
  · rw [hexec, TapeChannel.take_joins ch _ _ (habove hb) (hnone hm) hq,
      TapeChannel.startIfIdle_idle (c := c.joinTail s.flashNow s.issues.clock i) ch _ _ hidle]
    rfl
  · rw [hexec, TapeChannel.take_full ch _ _ (habove hb) (hnone hm) hq]
    rcases hno with hno | hl
    · rw [if_neg fun hp => ?_]
      · rfl
      · obtain ⟨n, sym, d, p, v, x, hi⟩ := isPrint_iff.1 hp
        exact hno n sym d p v x hi
    · rw [TapeChannel.force, if_pos hl, ite_self]
      rfl
  · rw [hexec, TapeChannel.take_full ch _ _ (habove hb) (hnone hm) hq, if_pos (isPrint_iff.2 hprint),
      TapeChannel.force_below (c := { c with dropped := satInc c.dropped }) ch _ hl]
    cases ch <;> rfl

/-! ### The end of a character, and the flash timer -/

section
variable (ch : Channel) (fl : Text) (now : BitVec 32) {c : TapeChannel} {e : Emission} (he : c.emission = some e)
include he

theorem TapeChannel.charSent_more (h : e.sent + 1 < e.text.length) :
    c.charSent ch fl now =
      ({ c with rate := stepRate c.rate c.target, emission := some { e with sent := e.sent + 1 } }, []) := by
  simp only [charSent, he, h, if_true]

theorem TapeChannel.charSent_last (h : e.text.length ≤ e.sent + 1) :
    c.charSent ch fl now =
      if c.queue = [] then ({ c with rate := stepRate c.rate c.target, emission := none }, [])
      else ({ c with rate := stepRate c.rate c.target, emission := none } : TapeChannel).printStart ch fl now := by
  simp only [charSent, he, not_lt.2 h, if_false, List.isEmpty_iff]

end

theorem exec_tapeCharacterSent {s : State} {ch : Channel} {e : Emission} (h : (s.tape ch).emission = some e) :
    exec (.tapeCharacterSent ch) s = .next (s.tookTape ch ((s.tape ch).charSent ch s.flashNow s.issues.clock)) := by
  change execTapeCharacterSent ch s = _
  simp only [execTapeCharacterSent, h]

theorem TapeChannel.flashQueued_iff {c : TapeChannel} : c.flashQueued = true ↔ ∃ e ∈ c.queue, e.item = .flash := by
  simp [flashQueued]

/-- Settles O35: the cases of the end of a character, and of the flash timer. -/
theorem tapeMoves : Obligations.TapeMoves := by
  unfold Obligations.TapeMoves
  intro s ch c fl target rate n queued timed
  refine ⟨fun e he => ?_, fun hf => ?_, fun hf => ?_⟩
  · have hexec := exec_tapeCharacterSent he
    refine ⟨fun hmore => ?_, fun hlast hq => ?_, fun hlast hq => ?_⟩
    · rw [hexec, TapeChannel.charSent_more ch _ _ he hmore]
      rfl
    · rw [hexec, TapeChannel.charSent_last ch _ _ he hlast, if_pos hq]
      rfl
    · rw [hexec, TapeChannel.charSent_last ch _ _ he hlast, if_neg hq]
      rfl
  · have hexec : exec (.flashTimerExpiry ch) s =
        .next (s.tookTape ch (c.flashExpiry ch fl s.issues.clock)) := if_pos hf
    have hqueued : timed.flashQueued = true ↔ queued := TapeChannel.flashQueued_iff
    have hexpiry : c.flashExpiry ch fl s.issues.clock =
        if timed.queue.length < Config.tapePlaces ∧ timed.flashQueued = false then
          (timed.joinFlash fl s.issues.clock).startIfIdle ch fl s.issues.clock
        else (timed, []) := rfl
    refine ⟨fun hfull => ?_, fun hroom hno => ⟨fun hbusy => ?_, fun hidle => ?_⟩⟩
    · have hstays : ¬(timed.queue.length < Config.tapePlaces ∧ timed.flashQueued = false) := by
        rintro ⟨hl, hq⟩
        rcases hfull with hfull | hfull
        · exact absurd hl (not_lt.2 hfull)
        · rw [hqueued.2 hfull] at hq
          cases hq
      rw [hexec, hexpiry, if_neg hstays]
      rfl
    all_goals
      have hjoins : timed.queue.length < Config.tapePlaces ∧ timed.flashQueued = false :=
        ⟨hroom, by simpa [← hqueued] using hno⟩
    · rw [hexec, hexpiry, if_pos hjoins,
        TapeChannel.startIfIdle_busy (c := timed.joinFlash fl s.issues.clock) ch _ _ hbusy]
      rfl
    · rw [hexec, hexpiry, if_pos hjoins,
        TapeChannel.startIfIdle_idle (c := timed.joinFlash fl s.issues.clock) ch _ _ hidle]
      rfl
  · exact if_neg hf

end Sys2Proof.Machine
end

