-- ==== Sys2Proof/Proofs/LinksKept.lean ====
section
/-! PROOFS. Every step keeps the links of the Issue Table (R23 to R25, R39): what each row shows, what each watch list
and alert slot names, and what an operation of a block leaves of them. -/

namespace Sys2Proof.Machine

/-- What every step of a fold leaves, the fold leaves. -/
theorem foldl_view {α β γ : Type} {f : α → β → α} {view : α → γ} (h : ∀ a b, view (f a b) = view a) (bs : List β)
    (a : α) : view (bs.foldl f a) = view a := by
  induction bs generalizing a with
  | nil => rfl
  | cons b bs ih => rw [List.foldl_cons, ih, h]

/-! ### What each row shows -/

theorem State.rowIssue_rowOf (s : State) (l : LineNo) (i : ModuleNo) :
    s.rowIssue (rowOf l i) = ((s.boards[l]).modules[i]).mapping.map Mapping.issue := by
  simp only [rowIssue, rowLine_rowOf, rowModule_rowOf]

/-- What every row shows is read off the mappings. -/
theorem State.rowIssue_congr {s u : State} (h : ∀ (l : LineNo) (i : ModuleNo),
    ((u.boards[l]).modules[i]).mapping = ((s.boards[l]).modules[i]).mapping) : u.rowIssue = s.rowIssue :=
  funext fun r => congrArg (Option.map Mapping.issue) (h (rowLine r) (rowModule r))

/-- A line set leaves what every row shows, where its modules' mappings stand. -/
theorem State.setBoard_rowIssue {s : State} {l : LineNo} {b : BoardLine}
    (h : ∀ i : ModuleNo, (b.modules[i]).mapping = ((s.boards[l]).modules[i]).mapping) :
    (s.setBoard l b).rowIssue = s.rowIssue := by
  refine State.rowIssue_congr fun k i => ?_
  rw [setBoard_board]
  split
  · rename_i e
    subst e
    exact h i
  · rfl

theorem BoardLine.change_mapping (b : BoardLine) (i : ModuleNo) {f : BoardModule → BoardModule}
    (hf : ∀ m, (f m).mapping = m.mapping) (j : ModuleNo) :
    ((b.change i f).modules[j]).mapping = (b.modules[j]).mapping := by
  obtain ⟨k, hk⟩ := b.change_module i f j
  rw [hk]
  split
  · rename_i h
    rw [h]
    exact hf _
  · rfl

theorem BoardModule.restored_mapping (m : BoardModule) (body : TransferBody) :
    (m.restored body).mapping = m.mapping := by
  unfold restored
  split
  · split <;> rfl
  · split <;> rfl
  · rfl
  · rfl

theorem BoardModule.missed_mapping (m : BoardModule) (body : TransferBody) : (m.missed body).mapping = m.mapping := by
  rw [missed]
  split
  · rfl
  · split
    · exact BoardModule.restored_mapping _ _
    · rfl

@[simp] theorem State.raiseAll_rowIssue (s : State) (ns : List (Byte × Text)) : (s.raiseAll ns).rowIssue = s.rowIssue := by
  rw [raiseAll_frame]
  rfl

@[simp] theorem State.chooseBoard_rowIssue (s : State) (l : LineNo) : (s.chooseBoard l).rowIssue = s.rowIssue := by
  refine State.setBoard_rowIssue fun i => ?_
  obtain ⟨d, o, k, h⟩ := (s.boards[l]).choose_module s.issues.records (fun m => s.lamps[rowOf l m]) i
  rw [h]

theorem State.chooseBoards_rows (s : State) : s.chooseBoards.rowIssue = s.rowIssue :=
  funext (State.chooseBoards_rowIssue s)

@[simp] theorem acceptAt_rowIssue (s : State) (l : LineNo) (i : ModuleNo) : (acceptAt l i s).rowIssue = s.rowIssue := by
  rw [acceptAt, State.chooseBoard_rowIssue, State.raiseAll_rowIssue]
  exact State.setBoard_rowIssue (BoardLine.change_mapping _ i fun _ => rfl)

@[simp] theorem holdAt_rowIssue (s : State) (l : LineNo) (i : ModuleNo) (t : Transfer) :
    (holdAt l i t s).rowIssue = s.rowIssue := by
  rw [holdAt, State.chooseBoard_rowIssue, State.raiseAll_rowIssue]
  exact State.setBoard_rowIssue (BoardLine.change_mapping _ i fun m => BoardModule.restored_mapping m.answered t.body)

@[simp] theorem missAt_rowIssue (s : State) (l : LineNo) (i : ModuleNo) (t : Transfer) :
    (missAt l i t s).rowIssue = s.rowIssue := by
  rw [missAt, State.chooseBoard_rowIssue, State.raiseAll_rowIssue]
  exact State.setBoard_rowIssue (BoardLine.change_mapping _ i fun m => m.missed_mapping t.body)

@[simp] theorem State.markRows_rowIssue (s : State) (fs : FieldSet) (rs : List RowNo) :
    (s.markRows fs rs).rowIssue = s.rowIssue := by
  funext r
  obtain ⟨⟨k, hk⟩, -⟩ := s.markRows_module fs rs (rowLine r) (rowModule r)
  rw [rowIssue, hk]
  rfl

@[simp] theorem State.noticeRows_rowIssue (s : State) (n : ChangeNotice) (rs : List RowNo) :
    (s.noticeRows n rs).rowIssue = s.rowIssue := by
  induction rs generalizing s with
  | nil => rfl
  | cons r rs ih =>
    rw [noticeRows, ih, noticeRow]
    split
    · exact funext (State.moveLamps_rowIssue s r _)
    · rfl

@[simp] theorem State.darkenRows_rowIssue (s : State) (rs : List RowNo) : (s.darkenRows rs).rowIssue = s.rowIssue := by
  funext r
  obtain ⟨d, k, h⟩ := s.darkenRows_module rs (rowLine r) (rowModule r)
  rw [rowIssue, h]
  rfl

/-- Every line changed the same way leaves what every row shows, where the mappings stand. -/
theorem State.mapBoards_rowIssue {s u : State} {f : BoardLine → BoardLine} (h : u.boards = s.boards.map f)
    (hf : ∀ (b : BoardLine) (i : ModuleNo), ((f b).modules[i]).mapping = (b.modules[i]).mapping) :
    u.rowIssue = s.rowIssue := by
  refine State.rowIssue_congr fun l i => ?_
  rw [h, show (s.boards.map f)[l] = f s.boards[l] from Vector.getElem_map _ _]
  exact hf _ i

@[simp] theorem State.tellBoards_rowIssue (s : State) (f : FeedState) : (s.tellBoards f).rowIssue = s.rowIssue := by
  rw [tellBoards, chooseBoards_rows]
  exact State.mapBoards_rowIssue rfl fun _ _ => rfl

@[simp] theorem State.announceOpen_rowIssue (s : State) : s.announceOpen.rowIssue = s.rowIssue := by
  rw [announceOpen, chooseBoards_rows, darkenRows_rowIssue]

@[simp] theorem State.clearCounts_rowIssue (s : State) : s.clearCounts.rowIssue = s.rowIssue :=
  State.mapBoards_rowIssue rfl fun _ _ => rfl

@[simp] theorem State.tick_rowIssue (s : State) : s.tick.rowIssue = s.rowIssue :=
  State.mapBoards_rowIssue rfl fun b i => by simp [BoardLine.tick, BoardModule.tick]

theorem BoardLine.restart_mapping (b : BoardLine) (f : FeedState) (i : ModuleNo) :
    ((b.restart f).modules[i]).mapping = (b.modules[i]).mapping := by
  have settle (is : List ModuleNo) (c : BoardLine) :
      ((is.foldl BoardLine.settleMark c).modules[i]).mapping = (c.modules[i]).mapping :=
    foldl_view (view := fun c : BoardLine => (c.modules[i]).mapping) (fun c j => by
      obtain ⟨k, hk⟩ := (c.settleMark_frame j).2 i
      rw [hk]) is c
  rw [restart, settle]
  simp [BoardModule.restart]

@[simp] theorem State.restartBlocks_rowIssue (s : State) (serial : Nat) :
    (s.restartBlocks serial).rowIssue = s.rowIssue := by
  have trans (a u v w : State) (y : Vector RowLamps 128) (ha : a.rowIssue = s.rowIssue)
      (hu : u.rowIssue = ({ a with lamps := y } : State).rowIssue)
      (hv : v = { u with terminals := v.terminals, termLines := v.termLines, alerts := v.alerts })
      (hw : w = { v with termLines := w.termLines }) : w.rowIssue = s.rowIssue := by
    rw [hw, ← ha, hv]
    exact hu
  exact trans _ _ _ _ _ (State.mapBoards_rowIssue rfl fun b i => b.restart_mapping s.feed.feedState i)
    (State.chooseBoards_rows _) (State.restartTerminals_frame _) (State.chooseTerms_frame _)

theorem State.rowHalted_congr {s t : State} (hi : s.rowIssue = t.rowIssue) (hr : s.issues.records = t.issues.records) :
    s.rowHalted = t.rowHalted := by
  funext r
  rw [rowHalted, rowHalted, hi, hr]

/-- What RESTART leaves at the lines and the lamps (R117, R128). -/
theorem State.restartBlocks_displays (s : State) (serial : Nat) :
    (s.restartBlocks serial).lamps = Vector.ofFn (fun r => RowLamps.remapped (s.rowHalted r))
      ∧ ∀ l : LineNo, (s.restartBlocks serial).boards[l] =
          ((s.boards[l]).restart s.feed.feedState).choose s.issues.records fun m =>
            (s.restartBlocks serial).lamps[rowOf l m] := by
  have trans (a u v w : State) (ha : a.boards = s.boards.map fun b : BoardLine => b.restart s.feed.feedState)
      (hr : a.issues.records = s.issues.records) (hu : u = a.restartLamps.chooseBoards)
      (hv : v = { u with terminals := v.terminals, termLines := v.termLines, alerts := v.alerts })
      (hw : w = { v with termLines := w.termLines }) :
      w.lamps = Vector.ofFn (fun r => RowLamps.remapped (s.rowHalted r)) ∧ ∀ l : LineNo, w.boards[l] =
        ((s.boards[l]).restart s.feed.feedState).choose s.issues.records fun m => w.lamps[rowOf l m] := by
    have hy : w.lamps = a.restartLamps.lamps := by rw [hw, hv, hu, chooseBoards_frame]
    have hhalted : a.rowHalted = s.rowHalted :=
      State.rowHalted_congr (State.mapBoards_rowIssue ha fun b i => b.restart_mapping s.feed.feedState i) hr
    refine ⟨by rw [hy, restartLamps, hhalted], fun l => ?_⟩
    have hl : a.boards[l] = (s.boards[l]).restart s.feed.feedState := by
      rw [ha]
      exact Vector.getElem_map _ _
    rw [hy, hw, hv, hu, chooseBoards_board, restartLamps, ← hl, hr]
  refine trans ?_ _ _ _ ?_ ?_ ?_ (restartTerminals_frame _) (chooseTerms_frame _)
  rotate_left 3
  · rfl
  · rfl
  · rfl

/-- A row set: its own mapping, and what every other row showed. -/
theorem State.mapRow_rowIssue (s : State) (r q : RowNo) (p : Option Mapping) :
    (s.mapRow r p).rowIssue q = if q = r then p.map Mapping.issue else s.rowIssue q := by
  have moved (t : State) (y : RowLamps) (c : Prop) [Decidable c] :
      ((if c then t else t.moveLamps r y).chooseBoard (rowLine r)).rowIssue q = t.rowIssue q := by
    rw [chooseBoard_rowIssue]
    split
    · rfl
    · exact State.moveLamps_rowIssue t r y q
  unfold mapRow
  dsimp only
  obtain ⟨l, i, rfl⟩ : ∃ l i, q = rowOf l i := ⟨_, _, (rowOf_line_module q).symm⟩
  rw [moved, rowIssue_rowOf, rowIssue_rowOf, setBoard_board]
  split
  · rename_i hl
    subst hl
    obtain ⟨k, hk⟩ := (s.boards[rowLine r]).change_module (rowModule r) (fun m => m.remap p) i
    rw [State.setRecords_boards, hk]
    by_cases hi : i = rowModule r
    · subst hi
      rw [rowOf_line_module, if_pos rfl, if_pos rfl, BoardModule.remap]
      split <;> rfl
    · rw [if_neg hi, if_neg fun e => hi (by rw [← e, rowModule_rowOf])]
  · rename_i hl
    rw [if_neg fun e : rowOf l i = r => hl (by rw [← e, rowLine_rowOf])]
    rfl

/-! ### What the watch lists and the alert slots name -/

/-- The issues the watch lists and the alert slots name. -/
def State.names (s : State) : (TermNo → List Nat) × (TermNo → SlotNo → Option Nat) :=
  (s.watchIssues, fun t k => ((s.alerts[t])[k]).map AlertSetting.issue)

/-- A terminal set whose list names the same issues. -/
theorem State.setTerm_names {s : State} {t : TermNo} {x : Terminal}
    (h : x.watch.map WatchEntry.issue = s.watchIssues t) : (s.setTerm t x).names = s.names := by
  have hw : (s.setTerm t x).watchIssues = s.watchIssues := by
    funext q
    rw [watchIssues, setTerm_term]
    split
    · rename_i e
      subst e
      exact h
    · rfl
  rw [names, hw]
  rfl

/-- A slot set that names the issue it named. -/
theorem State.setAlert_names {s : State} {t : TermNo} {k : SlotNo} {a b : AlertSetting}
    (h : (s.alerts[t])[k] = some b) (he : a.issue = b.issue) : (s.setAlert t k (some a)).names = s.names := by
  refine Prod.ext rfl (funext fun u => funext fun j => ?_)
  simp only [names, setAlert_slot]
  split
  · rename_i e
    obtain ⟨rfl, rfl⟩ := e
    rw [h, Option.map_some, Option.map_some, he]
  · rfl

@[simp] theorem State.raise_names (s : State) (k : Byte) (t : Text) : (s.raise k t).names = s.names := rfl

@[simp] theorem State.setTermLine_names (s : State) (l : LineNo) (x : TermLine) : (s.setTermLine l x).names = s.names :=
  rfl

@[simp] theorem State.evaluate_names (s : State) (t : TermNo) (k : SlotNo) : (s.evaluate t k).names = s.names := by
  rcases h : (s.alerts[t])[k] with _ | a
  · simp only [evaluate, h]
  · rcases hr : findRecord s.issues.records a.issue with _ | r
    · simp only [evaluate, h, hr]
    · obtain ⟨hfires, hstays, hrearms⟩ := State.evaluate_slot h hr
      rcases hh : a.holds r with _ | _
      · rw [hrearms hh]
        exact State.setAlert_names h rfl
      · rcases hf : a.fired with _ | _
        · rw [hfires hh hf]
          rcases s.fire_cases t k a r with ⟨-, e⟩ | ⟨-, e⟩ <;> rw [e]
          · exact (State.setTerm_names (by rfl)).trans (State.setAlert_names h rfl)
          · exact State.setAlert_names h rfl
        · rw [hstays hh hf]

@[simp] theorem State.payOwed_names (s : State) (t : TermNo) (k : SlotNo) : (s.payOwed t k).names = s.names := by
  unfold payOwed
  split
  · rfl
  · rename_i a h
    split
    · rfl
    · split
      · exact (State.setTerm_names (by rfl)).trans (State.setAlert_names h rfl)
      · rfl

@[simp] theorem State.freePlaces_names (s : State) (t : TermNo) : (s.freePlaces t).names = s.names := by
  have hfeed : (s.payFeed t).names = s.names := by
    unfold payFeed
    dsimp only
    split
    · exact State.setTerm_names rfl
    · rfl
  rw [freePlaces, foldl_view fun a k => State.payOwed_names a t k, hfeed]

@[simp] theorem State.noticeSlots_names (s : State) (n : Nat) (ps : List (TermNo × SlotNo)) :
    (ps.foldl (State.noticeSlot n) s).names = s.names := by
  refine foldl_view (fun a p => ?_) ps s
  rw [noticeSlot]
  split
  · exact State.evaluate_names a p.1 p.2
  · rfl

theorem allPending_issues (ws : List WatchEntry) : (allPending ws).map WatchEntry.issue = ws.map WatchEntry.issue := by
  simp [allPending, Function.comp_def]

theorem addPending_issues (ws : List WatchEntry) (n : Nat) (fs : FieldSet) :
    (addPending ws n fs).map WatchEntry.issue = ws.map WatchEntry.issue := by
  simp only [addPending, List.map_map]
  refine List.map_congr_left fun e _ => ?_
  simp only [Function.comp_apply]
  split <;> rfl

theorem clearPending_issues (ws : List WatchEntry) (i : Nat) :
    (clearPending ws i).map WatchEntry.issue = ws.map WatchEntry.issue := by
  refine List.ext_getElem? fun j => ?_
  rw [clearPending, List.getElem?_map, List.getElem?_map, List.getElem?_modify]
  split <;> simp [Function.comp_def]

theorem Terminal.offerFeed_watch (x : Terminal) (f : FeedState) (carried : Bool) :
    (x.offerFeed f carried).watch = x.watch := by
  rcases x.offerFeed_cases f carried with ⟨q, -, e⟩ | ⟨-, -, e⟩ | ⟨-, -, e⟩ <;> rw [e]

theorem Terminal.restored_issues (x : Terminal) (c : Carried) :
    (x.restored c).watch.map WatchEntry.issue = x.watch.map WatchEntry.issue := by
  cases c with
  | queued | length => rfl
  | entry n fs owed => exact addPending_issues _ _ _

theorem Terminal.select_issues {rs : Records} {d : DropNo} {x y : Terminal} {sel : Select}
    (h : x.select rs d = some (sel, y)) : y.watch.map WatchEntry.issue = x.watch.map WatchEntry.issue := by
  unfold select at h
  split at h
  · cases h
    rfl
  · split at h
    · split at h
      · cases h
        exact clearPending_issues _ _
      · cases h
    · split at h <;> cases h
      rfl

@[simp] theorem State.answerTaken_names (s : State) (t : TermNo) : (s.answerTaken t).names = s.names := by
  by_cases h : (s.terminals[t]).state = .online
  · rw [answerTaken_online h]
    exact State.setTerm_names rfl
  · rw [answerTaken_returns h, offerFeed, State.setTerm_names (congrArg _ (Terminal.offerFeed_watch _ _ _)), raise_names]
    exact State.setTerm_names (allPending_issues _)

@[simp] theorem State.chooseTerm_names (s : State) (l : LineNo) : (s.chooseTerm l).names = s.names := by
  rw [chooseTerm_frame]
  rfl

@[simp] theorem State.endTransaction_names (s : State) (l : LineNo) : (s.endTransaction l).names = s.names := by
  rw [endTransaction_frame]
  rfl

@[simp] theorem State.beginSelect_names (s : State) (l : LineNo) (x : Transaction) :
    (s.beginSelect l x).names = s.names := by
  rw [beginSelect]
  split
  · rename_i h
    exact State.setTerm_names (Terminal.select_issues h)
  · exact State.endTransaction_names s l

@[simp] theorem State.missTerm_names (s : State) (t : TermNo) : (s.missTerm t).names = s.names := by
  unfold missTerm
  dsimp only
  split
  · rfl
  · split <;> exact State.setTerm_names rfl

@[simp] theorem State.restoreMissed_names (s : State) (t : TermNo) (st : Stage) :
    (s.restoreMissed t st).names = s.names := by
  unfold restoreMissed
  split
  · exact State.setTerm_names (Terminal.restored_issues _ _)
  · rfl

@[simp] theorem State.receivedAt_names (s : State) (t : TermNo) (c : Carried) : (s.receivedAt t c).names = s.names := by
  unfold receivedAt
  dsimp only
  split
  · rw [freePlaces_names]
    exact (State.setTerm_names (by rfl)).trans (State.answerTaken_names s t)
  · exact State.answerTaken_names s t

@[simp] theorem State.enableTerm_names (s : State) (t : TermNo) : (s.enableTerm t).names = s.names := by
  rw [enableTerm]
  split
  · rfl
  · rw [chooseTerm_names, freePlaces_names]
    exact State.setTerm_names rfl

@[simp] theorem State.disableTerm_names (s : State) (t : TermNo) : (s.disableTerm t).names = s.names := by
  unfold disableTerm
  split
  · exact State.setTerm_names (by simp [Terminal.disable, watchIssues, Function.comp_def])
  · rfl

/-- Every terminal changed leaves the names, where the lists name the same issues. -/
theorem State.names_congr {s u : State} (ha : u.alerts = s.alerts)
    (h : ∀ t : TermNo, (u.terminals[t]).watch.map WatchEntry.issue = (s.terminals[t]).watch.map WatchEntry.issue) :
    u.names = s.names := by
  rw [names, names, ha, show u.watchIssues = s.watchIssues from funext h]

@[simp] theorem State.tellTerminals_names (s : State) : s.tellTerminals.names = s.names := by
  refine State.names_congr (s := s) (u := s.tellTerminals) (by rw [tellTerminals]) fun t => ?_
  simp only [tellTerminals, Fin.getElem_fin, Vector.getElem_ofFn]
  split
  · exact congrArg _ (Terminal.offerFeed_watch _ _ _)
  · rfl

theorem Terminal.noticed_issues (x : Terminal) (n : ChangeNotice) :
    (x.noticed n).watch.map WatchEntry.issue = x.watch.map WatchEntry.issue := by
  rw [noticed]
  split
  · rfl
  · exact addPending_issues _ _ _

theorem Terminal.restart_issues (x : Terminal) :
    x.restart.watch.map WatchEntry.issue = x.watch.map WatchEntry.issue := by
  rw [restart]
  split
  · rfl
  · exact allPending_issues _

@[simp] theorem State.restartTerminals_names (s : State) : s.restartTerminals.names = s.names := by
  unfold restartTerminals
  dsimp only
  rw [foldl_view (view := State.names) fun a t => ?_]
  · refine State.names_congr rfl fun t => ?_
    simp only [Fin.getElem_fin, Vector.getElem_map]
    exact Terminal.restart_issues _
  · split
    · exact State.freePlaces_names a t
    · rfl

@[simp] theorem State.chooseTerms_names (s : State) : s.chooseTerms.names = s.names := by
  rw [chooseTerms_frame]
  rfl

@[simp] theorem State.restartBlocks_names (s : State) (serial : Nat) : (s.restartBlocks serial).names = s.names := by
  have trans (a u : State) (ha : a.names = s.names) (hu : u = { a with boards := u.boards }) :
      (u.restartTerminals.chooseTerms).names = s.names := by
    rw [chooseTerms_names, restartTerminals_names, hu]
    exact ha
  unfold restartBlocks
  dsimp only
  exact trans _ _ (by rfl) (State.chooseBoards_frame _)

/-! ### The Feed Receiver -/

/-- What every row shows is read off the board lines alone, and the names off the terminals and the slots. -/
theorem State.rowIssue_eq_of_boards {s u : State} (h : u.boards = s.boards) : u.rowIssue = s.rowIssue := by
  unfold rowIssue
  rw [h]

theorem State.names_eq_of {s u : State} (ht : u.terminals = s.terminals) (ha : u.alerts = s.alerts) :
    u.names = s.names := by
  unfold names watchIssues
  rw [ht, ha]

@[simp] theorem State.tellTerminals_rowIssue (s : State) : s.tellTerminals.rowIssue = s.rowIssue :=
  State.rowIssue_eq_of_boards (by rw [tellTerminals])

@[simp] theorem State.tellBoards_names (s : State) (f : FeedState) : (s.tellBoards f).names = s.names := by
  rw [tellBoards_frame]
  rfl

theorem State.returnLive_rowIssue (s : State) : s.returnLive.rowIssue = s.rowIssue := by
  rcases h : s.feed.feedState with _ | _
  · rw [returnLive_live h]
  · rw [returnLive_quiet h, tellTerminals_rowIssue, tellBoards_rowIssue]
    rfl

theorem State.returnLive_names (s : State) : s.returnLive.names = s.names := by
  rcases h : s.feed.feedState with _ | _
  · rw [returnLive_live h]
  · rw [returnLive_quiet h, tellTerminals_names, tellBoards_names]
    rfl

theorem State.goQuiet_rowIssue (s : State) : s.goQuiet.rowIssue = s.rowIssue := by
  rw [goQuiet, tellTerminals_rowIssue, tellBoards_rowIssue]
  rfl

theorem State.goQuiet_names (s : State) : s.goQuiet.names = s.names := by
  rw [goQuiet, tellTerminals_names, tellBoards_names]
  rfl

theorem State.checked_rowIssue (s : State) (f : Frame) : (s.checked f).rowIssue = s.rowIssue := by
  rcases s.checked_reaches f with ⟨hb, -⟩ | ⟨w, hw, hb, -⟩ <;> rw [State.rowIssue_eq_of_boards hb]
  rw [returnLive_rowIssue, hw]
  rfl

theorem State.checked_names (s : State) (f : Frame) : (s.checked f).names = s.names := by
  have ha : (s.checked f).alerts = s.alerts := by rw [checked_frame]
  rcases s.checked_reaches f with ⟨-, ht⟩ | ⟨w, hw, -, ht⟩
  · exact State.names_eq_of ht ha
  · have hwa : w.alerts = s.alerts := by rw [hw]
    rw [State.names_eq_of (s := w.returnLive) ht (by rw [ha, returnLive_frame, hwa]), returnLive_names, hw]
    rfl

/-! ### The links -/

/-- The row list and the watcher mask of a number's record. -/
def linksOf (rs : Records) (n : Nat) : Option (List RowNo × BitVec 32) :=
  (findRecord rs n).map fun r => (r.rows, r.watchers)

/-- The rules of the links, said of the row lists and masks, of what each row shows, of what the watch lists and the
slots name, and of the flash list: `State.LinksInv` but for the form of the records. -/
structure Linked (lk : Nat → Option (List RowNo × BitVec 32)) (row : RowNo → Option Nat)
    (names : (TermNo → List Nat) × (TermNo → SlotNo → Option Nat)) (flash : List Nat) : Prop where
  rows : ∀ {n rows w}, lk n = some (rows, w) →
    rows.Nodup ∧ rows.length ≤ Config.rowPlaces ∧ ∀ r ∈ rows, row r = some n
  mapped : ∀ {r n}, row r = some n → ∃ rows w, lk n = some (rows, w) ∧ r ∈ rows
  masks : ∀ {n rows w}, lk n = some (rows, w) → ∀ t : TermNo, w.getLsbD t.val = true ↔ n ∈ names.1 t
  lists : ∀ t, (names.1 t).Nodup ∧ (names.1 t).length ≤ Config.watchPlaces ∧ ∀ n ∈ names.1 t, (lk n).isSome = true
  flash : flash.Nodup ∧ flash.length ≤ Config.flashPlaces ∧ ∀ n ∈ flash, (lk n).isSome = true
  slots : ∀ {t k n}, names.2 t k = some n → (lk n).isSome = true

@[simp] theorem linksOf_isSome (rs : Records) (n : Nat) : (linksOf rs n).isSome = (findRecord rs n).isSome :=
  Option.isSome_map

theorem linksOf_eq_some {rs : Records} {n : Nat} {rows : List RowNo} {w : BitVec 32} :
    linksOf rs n = some (rows, w) ↔ ∃ r, findRecord rs n = some r ∧ r.rows = rows ∧ r.watchers = w := by
  simp [linksOf]

/-- The card's links, read through `linksOf`. -/
abbrev State.Linked (s : State) : Prop :=
  Machine.Linked (linksOf s.issues.records) s.rowIssue s.names s.issues.flashList

theorem State.linksInv_iff (s : State) : s.LinksInv ↔ recordsOk s.issues.records = true ∧ s.Linked := by
  refine ⟨fun ⟨ok, ⟨hrows, hmapped⟩, ⟨hmasks, hlists⟩, hf, hfl, hfn, hslots⟩ => ⟨ok, ?_⟩,
    fun ⟨ok, h⟩ => ⟨ok, ⟨?_, fun r => ?_⟩, ⟨?_, fun t => ?_⟩, h.flash.1, h.flash.2.1, fun n hn => ?_, fun t k => ?_⟩⟩
  · refine ⟨fun hn => ?_, fun {r n} hr => ?_, fun hn t => ?_, fun t => ?_, ⟨hf, hfl, fun n hn => ?_⟩, fun {t k n} h => ?_⟩
    · obtain ⟨x, hx, rfl, -⟩ := linksOf_eq_some.1 hn
      exact hrows _ (findRecord_mem hx)
    · have := hmapped r
      rw [hr, Option.all_some, Option.any_eq_true] at this
      obtain ⟨x, hx, hmem⟩ := this
      exact ⟨_, _, linksOf_eq_some.2 ⟨x, hx, rfl, rfl⟩, by simpa using hmem⟩
    · obtain ⟨x, hx, -, rfl⟩ := linksOf_eq_some.1 hn
      rw [hmasks _ (findRecord_mem hx) t]
      exact decide_eq_true_iff
    · simpa [names] using hlists t
    · simpa using hfn n hn
    · obtain ⟨a, ha, rfl⟩ := Option.map_eq_some_iff.1 h
      have := hslots t k
      rw [ha, Option.all_some] at this
      simpa using this
  · exact fun p hp => h.rows (linksOf_eq_some.2 ⟨_, findRecord_of_mem ok hp, rfl, rfl⟩)
  · rcases hr : s.rowIssue r with _ | n
    · rfl
    · obtain ⟨rows, w, hn, hmem⟩ := h.mapped hr
      obtain ⟨x, hx, rfl, -⟩ := linksOf_eq_some.1 hn
      rw [Option.all_some, hx, Option.any_some]
      simpa using hmem
  · intro p hp t
    rw [Bool.eq_iff_iff, decide_eq_true_iff]
    exact h.masks (linksOf_eq_some.2 ⟨_, findRecord_of_mem ok hp, rfl, rfl⟩) t
  · simpa [State.Names, names] using h.lists t
  · simpa using h.flash.2.2 n hn
  · rcases ha : (s.alerts[t])[k] with _ | a
    · rfl
    · have := h.slots (t := t) (k := k) (n := a.issue) (by simp only [names, ha, Option.map_some])
      simpa using this

/-! ### The records that keep their links -/

/-- A LISTED record stored with its links. -/
theorem linksOf_putRecord {rs : Records} {n : Nat} {r q : IssueRecord} (hr : findRecord rs n = some r)
    (hrows : q.rows = r.rows) (hw : q.watchers = r.watchers) : linksOf (putRecord rs n q) = linksOf rs := by
  funext m
  by_cases h : m = n
  · subst h
    rw [linksOf, linksOf, findRecord_putRecord_self, hr, Option.map_some, Option.map_some, hrows, hw]
  · rw [linksOf, linksOf, findRecord_putRecord_ne q h]

theorem linksOf_mapRecords (f : Nat → IssueRecord → IssueRecord) (rs : Records) (n : Nat) :
    linksOf (mapRecords f rs) n = (findRecord rs n).map fun r => ((f n r).rows, (f n r).watchers) := by
  rw [linksOf, findRecord_mapRecords, Option.map_map]
  rfl

theorem linksOf_mapRecords_same {f : Nat → IssueRecord → IssueRecord} {rs : Records}
    (hrows : ∀ n r, (f n r).rows = r.rows) (hw : ∀ n r, (f n r).watchers = r.watchers) :
    linksOf (mapRecords f rs) = linksOf rs := by
  funext n
  rw [linksOf_mapRecords, linksOf]
  simp only [hrows, hw]

theorem relink_links (r : RowNo) (old new : Option Nat) (n : Nat) (x : IssueRecord) :
    ((relink r old new n x).rows, (relink r old new n x).watchers) =
      (if old = new then x.rows else if some n = old then x.rows.erase r
        else if some n = new then x.rows ++ [r] else x.rows, x.watchers) := by
  rw [relink]
  split
  · rfl
  · split
    · rfl
    · split <;> rfl

theorem remask_links (t : TermNo) (old new : List Nat) (n : Nat) (x : IssueRecord) :
    ((remask t old new n x).rows, (remask t old new n x).watchers) =
      (x.rows, if n ∈ new then markWatcher x.watchers t
        else if n ∈ old then clearWatcher x.watchers t else x.watchers) := by
  rw [remask]
  split
  · rfl
  · split <;> rfl

theorem oneBit_getLsbD (t u : TermNo) : (1#32 <<< t.val).getLsbD u.val = decide (u = t) := by
  have hu := u.isLt
  rw [BitVec.getLsbD_shiftLeft, BitVec.getLsbD_one, Bool.eq_iff_iff]
  simp only [Fin.ext_iff, Bool.and_eq_true, Bool.not_eq_true', decide_eq_true_eq, decide_eq_false_iff_not]
  omega

theorem markWatcher_getLsbD (w : BitVec 32) (t u : TermNo) :
    (markWatcher w t).getLsbD u.val = (w.getLsbD u.val || decide (u = t)) := by
  rw [markWatcher, BitVec.getLsbD_or, oneBit_getLsbD]

theorem clearWatcher_getLsbD (w : BitVec 32) (t u : TermNo) :
    (clearWatcher w t).getLsbD u.val = (w.getLsbD u.val && !decide (u = t)) := by
  rw [clearWatcher, BitVec.getLsbD_and, BitVec.getLsbD_not, oneBit_getLsbD, decide_eq_true u.isLt, Bool.true_and]

/-! ### What a change of the links keeps -/

section
variable {lk lk' : Nat → Option (List RowNo × BitVec 32)} {row : RowNo → Option Nat}
variable {names : (TermNo → List Nat) × (TermNo → SlotNo → Option Nat)} {flash : List Nat}
variable (h : Machine.Linked lk row names flash)
include h

/-- A FREE number listed, with nothing linked to it (R38). -/
theorem Linked.list {n : Nat} (hn : lk n = none) : Machine.Linked (Function.update lk n (some ([], 0))) row names flash := by
  have some_of (m : Nat) (hm : (lk m).isSome = true) : (Function.update lk n (some ([], 0)) m).isSome = true := by
    rw [Function.update_apply]
    split
    · rfl
    · exact hm
  have split_of {m : Nat} {rows : List RowNo} {w : BitVec 32}
      (hm : Function.update lk n (some ([], 0)) m = some (rows, w)) : (m = n ∧ rows = [] ∧ w = 0) ∨ lk m = some (rows, w) := by
    rw [Function.update_apply] at hm
    split at hm
    · cases hm
      exact .inl ⟨‹_›, rfl, rfl⟩
    · exact .inr hm
  refine ⟨fun hm => ?_, fun hr => ?_, fun hm t => ?_, fun t => ?_, ?_, fun hs => some_of _ (h.slots hs)⟩
  · rcases split_of hm with ⟨-, rfl, -⟩ | hm
    · exact ⟨.nil, Nat.zero_le _, fun _ hr => nomatch hr⟩
    · exact h.rows hm
  · obtain ⟨rows, w, hm, hmem⟩ := h.mapped hr
    exact ⟨rows, w, by rw [Function.update_of_ne (fun e => by rw [e, hn] at hm; cases hm)]; exact hm, hmem⟩
  · rcases split_of hm with ⟨rfl, -, rfl⟩ | hm
    · rw [show BitVec.getLsbD 0 t.val = false from BitVec.getLsbD_zero]
      exact ⟨(nomatch ·), fun hmem => by simpa [hn] using (h.lists t).2.2 _ hmem⟩
    · exact h.masks hm t
  · exact ⟨(h.lists t).1, (h.lists t).2.1, fun m hm => some_of m ((h.lists t).2.2 m hm)⟩
  · exact ⟨h.flash.1, h.flash.2.1, fun m hm => some_of m (h.flash.2.2 m hm)⟩

/-- An issue that nothing names set FREE (R39). -/
theorem Linked.free {n : Nat} (hn : lk n = some ([], 0)) (hs : ∀ t k, names.2 t k ≠ some n) (hf : n ∉ flash) :
    Machine.Linked (Function.update lk n none) row names flash := by
  have ne_of {m : Nat} {rows : List RowNo} {w : BitVec 32} (hm : Function.update lk n none m = some (rows, w)) :
      lk m = some (rows, w) := by
    rw [Function.update_apply] at hm
    split at hm
    · cases hm
    · exact hm
  have watched (t : TermNo) : n ∉ names.1 t := fun hmem =>
    absurd ((h.masks hn t).2 hmem) (by rw [show BitVec.getLsbD 0 t.val = false from BitVec.getLsbD_zero]; decide)
  refine ⟨fun hm => h.rows (ne_of hm), fun {r m} hr => ?_, fun hm => h.masks (ne_of hm), fun t => ?_, ?_, fun {t k m} hm => ?_⟩
  · obtain ⟨rows, w, hm, hmem⟩ := h.mapped hr
    refine ⟨rows, w, ?_, hmem⟩
    rw [Function.update_of_ne, hm]
    rintro rfl
    rw [hn] at hm
    cases hm
    cases hmem
  · refine ⟨(h.lists t).1, (h.lists t).2.1, fun m hm => ?_⟩
    rw [Function.update_of_ne (ne_of_mem_of_not_mem hm (watched t))]
    exact (h.lists t).2.2 m hm
  · refine ⟨h.flash.1, h.flash.2.1, fun m hm => ?_⟩
    rw [Function.update_of_ne (ne_of_mem_of_not_mem hm hf)]
    exact h.flash.2.2 m hm
  · rw [Function.update_of_ne fun e : m = n => hs t k (e ▸ hm)]
    exact h.slots hm

/-- Slots that name what they named, or a LISTED issue (R155). -/
theorem Linked.setSlots {slots : TermNo → SlotNo → Option Nat}
    (hs : ∀ t k n, slots t k = some n → (lk n).isSome = true) : Machine.Linked lk row (names.1, slots) flash :=
  ⟨h.rows, h.mapped, h.masks, h.lists, h.flash, fun hn => hs _ _ _ hn⟩

/-- A new flash list (R25). -/
theorem Linked.setFlash {ns : List Nat} (hn : ns.Nodup) (hl : ns.length ≤ Config.flashPlaces)
    (hr : ∀ n ∈ ns, (lk n).isSome = true) : Machine.Linked lk row names ns :=
  ⟨h.rows, h.mapped, h.masks, h.lists, ⟨hn, hl, hr⟩, h.slots⟩

/-- A row moved from the issue it shows to another with room, or to none (R23, R95). -/
theorem Linked.mapRow {r : RowNo} {new : Option Nat} {rows' : Nat → List RowNo → List RowNo}
    (hroom : ∀ n rows w, new = some n → lk n = some (rows, w) → (rows.filter fun q => q != r).length < Config.rowPlaces)
    (hnew : ∀ n, new = some n → (lk n).isSome = true)
    (hrows : ∀ n rows, rows' n rows = if row r = new then rows else if some n = row r then rows.erase r
      else if some n = new then rows ++ [r] else rows)
    (hlk : ∀ n, lk' n = (lk n).map fun x => (rows' n x.1, x.2)) :
    Machine.Linked lk' (fun q => if q = r then new else row q) names flash := by
  have some_of (n : Nat) : (lk' n).isSome = (lk n).isSome := by rw [hlk, Option.isSome_map]
  -- a row list that does not hold r, whose issue is not the one r shows
  have absent {n : Nat} {rows : List RowNo} {w : BitVec 32} (hn : lk n = some (rows, w)) (hne : some n ≠ row r) :
      r ∉ rows := fun hmem => hne ((h.rows hn).2.2 r hmem).symm
  have of_some {n : Nat} {rs : List RowNo} {w : BitVec 32} (hn : lk' n = some (rs, w)) :
      ∃ rows, lk n = some (rows, w) ∧ rs = rows' n rows := by
    rw [hlk] at hn
    obtain ⟨⟨rows, w'⟩, hx, e⟩ := Option.map_eq_some_iff.1 hn
    cases e
    exact ⟨rows, hx, rfl⟩
  refine ⟨fun {n rs w} hn => ?_, fun {q n} hq => ?_, fun {n rs w} hn t => ?_, fun t => ?_, ?_, fun hs => ?_⟩
  · obtain ⟨rows, hx, rfl⟩ := of_some hn
    obtain ⟨hnodup, hlen, hshow⟩ := h.rows hx
    rw [hrows]
    split
    · rename_i hsame
      refine ⟨hnodup, hlen, fun q hq => ?_⟩
      split
      · rename_i e
        rw [← hsame, ← e]
        exact hshow q hq
      · exact hshow q hq
    · rename_i hmoves
      split
      · refine ⟨hnodup.erase r, (List.erase_sublist.length_le).trans hlen, fun q hq => ?_⟩
        obtain ⟨hne, hmem⟩ := hnodup.mem_erase_iff.1 hq
        rw [if_neg hne]
        exact hshow q hmem
      · rename_i hnot
        have hr := absent hx hnot
        split
        · rename_i hinto
          have hlt := hroom n rows w hinto.symm hx
          rw [List.filter_eq_self.2 fun q hq => by simpa using ne_of_mem_of_not_mem hq hr] at hlt
          refine ⟨List.nodup_append.2 ⟨hnodup, List.nodup_singleton r, ?_⟩, ?_, fun q hq => ?_⟩
          · intro a ha b hb
            rw [List.mem_singleton.1 hb]
            exact ne_of_mem_of_not_mem ha hr
          · rw [List.length_append, List.length_singleton]
            omega
          · rcases List.mem_append.1 hq with hmem | hmem
            · rw [if_neg (ne_of_mem_of_not_mem hmem hr)]
              exact hshow q hmem
            · rw [if_pos (List.mem_singleton.1 hmem), hinto]
        · exact ⟨hnodup, hlen, fun q hq => by rw [if_neg (ne_of_mem_of_not_mem hq hr)]; exact hshow q hq⟩
  · split at hq
    · rename_i e
      subst e
      obtain ⟨⟨rows, w⟩, hx⟩ := Option.isSome_iff_exists.1 (hnew n hq)
      refine ⟨_, w, by rw [hlk, hx]; rfl, ?_⟩
      rw [hrows]
      dsimp only
      split
      · rename_i hsame
        obtain ⟨rows₀, w₀, hx₀, hmem⟩ := h.mapped (hsame.trans hq)
        rw [hx] at hx₀
        cases hx₀
        exact hmem
      · rename_i hmoves
        rw [if_neg fun e => hmoves (e.symm.trans hq.symm), if_pos hq.symm]
        exact List.mem_append_right _ (List.mem_singleton_self q)
    · rename_i hne
      obtain ⟨rows, w, hx, hmem⟩ := h.mapped hq
      refine ⟨_, w, by rw [hlk, hx]; rfl, ?_⟩
      rw [hrows]
      dsimp only
      split
      · exact hmem
      · split
        · exact (List.mem_erase_of_ne hne).2 hmem
        · split
          · exact List.mem_append_left _ hmem
          · exact hmem
  · obtain ⟨rows, hx, -⟩ := of_some hn
    exact h.masks hx t
  · simpa only [some_of] using h.lists t
  · simpa only [some_of] using h.flash
  · rw [some_of]
    exact h.slots hs

/-- A terminal given a new list of LISTED issues (R24, R147). -/
theorem Linked.rewatch {t : TermNo} {ns : List Nat} (hn : ns.Nodup) (hl : ns.length ≤ Config.watchPlaces)
    (hr : ∀ n ∈ ns, (lk n).isSome = true)
    (hlk : ∀ n, lk' n = (lk n).map fun x => (x.1, if n ∈ ns then markWatcher x.2 t
      else if n ∈ names.1 t then clearWatcher x.2 t else x.2)) :
    Machine.Linked lk' row (fun u => if u = t then ns else names.1 u, names.2) flash := by
  have some_of (n : Nat) : (lk' n).isSome = (lk n).isSome := by rw [hlk, Option.isSome_map]
  have of_some {n : Nat} {rows : List RowNo} {w : BitVec 32} (hn : lk' n = some (rows, w)) :
      ∃ w', lk n = some (rows, w') ∧ w = if n ∈ ns then markWatcher w' t
        else if n ∈ names.1 t then clearWatcher w' t else w' := by
    rw [hlk] at hn
    obtain ⟨⟨rows, w'⟩, hx, e⟩ := Option.map_eq_some_iff.1 hn
    cases e
    exact ⟨w', hx, rfl⟩
  refine ⟨fun hx => ?_, fun {q n} hq => ?_, fun {n rs w} hx u => ?_, fun u => ?_, ?_, fun hs => ?_⟩
  · obtain ⟨w', hx, -⟩ := of_some hx
    exact h.rows hx
  · obtain ⟨rows, w, hx, hmem⟩ := h.mapped hq
    exact ⟨rows, _, by rw [hlk, hx]; rfl, hmem⟩
  · obtain ⟨w', hwas, rfl⟩ := of_some hx
    have hmask := h.masks hwas u
    dsimp only
    by_cases hu : u = t
    · subst hu
      rw [if_pos rfl]
      split
      · rw [markWatcher_getLsbD, decide_eq_true rfl, Bool.or_true]
        exact ⟨fun _ => ‹_›, fun _ => rfl⟩
      · split
        · rw [clearWatcher_getLsbD, decide_eq_true rfl, Bool.not_true, Bool.and_false]
          exact ⟨(nomatch ·), fun e => absurd e ‹_›⟩
        · rw [hmask]
          exact ⟨fun e => absurd e ‹_›, fun e => absurd e ‹_›⟩
    · rw [if_neg hu, ← hmask]
      split
      · rw [markWatcher_getLsbD, decide_eq_false hu, Bool.or_false]
      · split
        · rw [clearWatcher_getLsbD, decide_eq_false hu, Bool.not_false, Bool.and_true]
        · rfl
  · simp only [some_of]
    split
    · exact ⟨hn, hl, hr⟩
    · exact h.lists u
  · simpa only [some_of] using h.flash
  · rw [some_of]
    exact h.slots hs

end

/-! ### The moves -/

section
variable {s u : State}

/-- A move that leaves the links as they are. -/
theorem State.Linked.same (h : s.Linked) (hlk : linksOf u.issues.records = linksOf s.issues.records)
    (hrow : u.rowIssue = s.rowIssue) (hnames : u.names = s.names) (hflash : u.issues.flashList = s.issues.flashList) :
    u.Linked := by
  rw [State.Linked, hlk, hrow, hnames, hflash]
  exact h

theorem WatchMove.fits {t : TermNo} {ns : List Nat} (hm : WatchMove s t ns) (h : s.Linked) :
    ns.Nodup ∧ ns.length ≤ Config.watchPlaces ∧ ∀ n ∈ ns, (linksOf s.issues.records n).isSome = true := by
  obtain ⟨hnodup, hlen, hnamed⟩ := h.lists t
  cases hm with
  | set hn hl hr => exact ⟨hn, hl, fun n hmem => by simpa using findRecord_isSome_of_listed (hr n hmem)⟩
  | append hr hn hl =>
    refine ⟨List.nodup_append.2 ⟨hnodup, List.nodup_singleton _, fun a ha b hb => ?_⟩, ?_, fun n hmem => ?_⟩
    · rw [List.mem_singleton.1 hb]
      exact ne_of_mem_of_not_mem ha hn
    · rw [List.length_append, List.length_singleton]
      omega
    · rcases List.mem_append.1 hmem with hmem | hmem
      · exact hnamed n hmem
      · rw [List.mem_singleton.1 hmem, linksOf_isSome]
        exact hr
  | remove n =>
    exact ⟨hnodup.erase n, List.erase_sublist.length_le.trans hlen, fun m hmem => hnamed m (List.mem_of_mem_erase hmem)⟩

theorem State.rewatch_names (t : TermNo) (ns : List Nat) :
    (s.rewatch t ns).names = (fun q => if q = t then ns else s.watchIssues q, s.names.2) := by
  refine Prod.ext (funext fun q => ?_) rfl
  dsimp only
  split
  · rename_i e
    subst e
    exact State.rewatch_watchIssues s q ns
  · rename_i e
    have hne : (s.rewatch t ns).terminals[q] = s.terminals[q] := by
      rw [rewatch, setTerm_term, if_neg e]
      rfl
    simp only [names, watchIssues, hne]

theorem State.Linked.rewatch (h : s.Linked) {t : TermNo} {ns : List Nat} (hm : WatchMove s t ns) :
    (s.rewatch t ns).Linked := by
  obtain ⟨hn, hl, hr⟩ := hm.fits h
  rw [State.Linked, State.rewatch_names]
  refine Machine.Linked.rewatch h hn hl hr fun n => ?_
  rw [State.rewatch, State.setTerm_issues, State.setRecords_issues, linksOf_mapRecords, linksOf, Option.map_map]
  exact congrArg (Option.map · _) (funext fun x => remask_links _ _ _ n x)

theorem State.Linked.mapRow (h : s.Linked) {r : RowNo} {p : Option Mapping} (hroom : ∀ q ∈ p, ∃ x,
    listed s q.issue = some x ∧ (x.rows.filter fun q => q != r).length < Config.rowPlaces) : (s.mapRow r p).Linked := by
  have found {n : Nat} (hn : p.map Mapping.issue = some n) : ∃ x, findRecord s.issues.records n = some x
      ∧ (x.rows.filter fun q => q != r).length < Config.rowPlaces := by
    obtain ⟨q, hq, rfl⟩ := Option.map_eq_some_iff.1 hn
    obtain ⟨x, hx, hl⟩ := hroom q hq
    exact ⟨x, (listed_eq_some.1 hx).2.2, hl⟩
  have hrow : (s.mapRow r p).rowIssue = fun q => if q = r then p.map Mapping.issue else s.rowIssue q :=
    funext fun q => State.mapRow_rowIssue s r q p
  have hnames : (s.mapRow r p).names = s.names := by
    rw [State.mapRow_frame]
    rfl
  rw [State.Linked, hrow, hnames, State.mapRow_frame]
  refine Machine.Linked.mapRow h (fun n rows w hn hx => ?_) (fun n hn => ?_) (fun _ _ => rfl) fun n => ?_
  · obtain ⟨x, hfind, hl⟩ := found hn
    obtain ⟨y, hy, rfl, -⟩ := linksOf_eq_some.1 hx
    rw [hfind] at hy
    cases hy
    exact hl
  · obtain ⟨x, hfind, -⟩ := found hn
    simp [hfind]
  · rw [linksOf_mapRecords, linksOf, Option.map_map]
    exact congrArg (Option.map · _) (funext fun x => relink_links _ _ _ n x)

theorem State.alertNames_iff {n : Nat} : s.alertNames n = true ↔ ∃ t k, s.names.2 t k = some n := by
  simp only [alertNames, allSlots, List.any_eq_true, List.mem_flatMap, List.mem_map, List.mem_finRange, true_and]
  constructor
  · rintro ⟨p, ⟨t, k, rfl⟩, hp⟩
    obtain ⟨a, ha, he⟩ := (Option.any_eq_true _ _).1 hp
    exact ⟨t, k, by simp only [names, ha, Option.map_some, eq_of_beq he]⟩
  · rintro ⟨t, k, hk⟩
    obtain ⟨a, ha, rfl⟩ := Option.map_eq_some_iff.1 hk
    exact ⟨(t, k), ⟨t, k, rfl⟩, by simp only [slotNames, ha, Option.any_some, beq_self_eq_true]⟩

theorem State.Linked.delete (h : s.Linked) {n : Nat} {r : IssueRecord} (hr : listed s n = some r)
    (hu : s.inUse n r = false) : (s.setRecords (freeRecord s.issues.records n)).Linked := by
  simp only [inUse, Bool.or_eq_false_iff, Bool.not_eq_false', List.isEmpty_iff, bne_eq_false_iff_eq,
    List.contains_eq_mem, decide_eq_false_iff_not] at hu
  obtain ⟨⟨⟨hrows, hw⟩, halert⟩, hflash⟩ := hu
  have hfree : linksOf (freeRecord s.issues.records n) = Function.update (linksOf s.issues.records) n none := by
    funext m
    rw [Function.update_apply]
    split
    · rename_i e
      rw [e, linksOf, findRecord_freeRecord_self]
      rfl
    · rename_i e
      rw [linksOf, findRecord_freeRecord_ne e, linksOf]
  rw [State.Linked, State.setRecords_issues, hfree]
  refine Machine.Linked.free h (linksOf_eq_some.2 ⟨r, (listed_eq_some.1 hr).2.2, hrows, hw⟩) (fun t k e => ?_) hflash
  exact absurd (State.alertNames_iff.2 ⟨t, k, e⟩) (by simp [halert])

theorem State.Linked.load (h : s.Linked) (n : Nat) (symbol : Text) (denom close : Nat) (a b : Bool) :
    (s.loadIssue n symbol denom close a b).Linked := by
  rcases hr : findRecord s.issues.records n with _ | r
  · have hput (q : IssueRecord) (hrows : q.rows = []) (hw : q.watchers = 0) : linksOf (putRecord s.issues.records n q) =
        Function.update (linksOf s.issues.records) n (some ([], 0)) := by
      funext m
      rw [Function.update_apply]
      split
      · rename_i e
        rw [e, linksOf, findRecord_putRecord_self, Option.map_some, hrows, hw]
      · rename_i e
        rw [linksOf, findRecord_putRecord_ne q e, linksOf]
    have hlist := Machine.Linked.list h (n := n) (by rw [linksOf, hr]; rfl)
    rw [← hput (IssueRecord.vacant.load symbol denom close a b) rfl rfl] at hlist
    rw [State.Linked, loadIssue, hr]
    exact hlist
  · refine State.Linked.same h ?_ rfl rfl rfl
    rw [loadIssue, hr]
    exact linksOf_putRecord hr rfl rfl

/-- One slot set to name a LISTED issue, or emptied. -/
theorem State.Linked.setAlert (h : s.Linked) (t : TermNo) (k : SlotNo) {a : AlertSlot}
    (ha : ∀ x ∈ a, (findRecord s.issues.records x.issue).isSome = true) : (s.setAlert t k a).Linked := by
  refine Machine.Linked.setSlots h fun q j n hn => ?_
  rw [setAlert_slot] at hn
  split at hn
  · obtain ⟨x, hx, rfl⟩ := Option.map_eq_some_iff.1 hn
    rw [linksOf_isSome]
    exact ha x hx
  · exact h.slots hn

/-- A LISTED record stored again with its links. -/
theorem State.Linked.store (h : s.Linked) {n : Nat} {r q : IssueRecord} (hr : listed s n = some r)
    (hu : u.issues.records = putRecord s.issues.records n q) (hflash : u.issues.flashList = s.issues.flashList)
    (hrows : q.rows = r.rows) (hw : q.watchers = r.watchers) (hrow : u.rowIssue = s.rowIssue)
    (hnames : u.names = s.names) : u.Linked := by
  refine State.Linked.same h ?_ hrow hnames hflash
  rw [hu]
  exact linksOf_putRecord (listed_eq_some.1 hr).2.2 hrows hw

theorem DataMove.linked (hm : DataMove s u) (h : s.Linked) : u.Linked := by
  cases hm with
  | unapplied | mismatch => exact h
  | @trade n r p v hr =>
    rw [State.tradePrint, State.handEligible_cases]
    exact State.Linked.store h hr rfl rfl (by rw [IssueRecord.print_eq]) (by rw [IssueRecord.print_eq]) rfl rfl
  | late p v hr =>
    rw [State.latePrint, State.handEligible_cases]
    exact State.Linked.store h hr rfl rfl rfl rfl rfl rfl
  | alternate p v hr =>
    unfold State.alternatePrint
    dsimp only
    split <;> exact State.Linked.store h hr rfl rfl rfl rfl rfl rfl
  | quote hr => exact State.Linked.store h hr rfl rfl rfl rfl rfl rfl
  | status halt hr =>
    rw [State.setHalted, State.handEligible_cases]
    exact State.Linked.store h hr rfl rfl rfl rfl rfl rfl
  | correct hr =>
    rw [State.correct, State.handEligible_cases]
    exact State.Linked.store h hr rfl rfl rfl rfl rfl rfl
  | opened present clock roll =>
    have hrow := State.announceOpen_rowIssue (s.openSession present clock)
    rw [State.announceOpen_frame] at hrow ⊢
    exact State.Linked.same h (linksOf_mapRecords_same (f := fun _ r => r.openDay roll) (fun _ _ => rfl)
      fun _ _ => rfl) hrow rfl rfl
  | closed =>
    have hrow := State.returnLive_rowIssue s
    have hnames := State.returnLive_names s
    rw [State.returnLive_frame] at hrow hnames ⊢
    exact State.Linked.same h rfl hrow hnames rfl

theorem ControlMove.linked (hm : ControlMove s u) (h : s.Linked) : u.Linked := by
  cases hm with
  | nothing | draw | setFeed => exact h
  | loadIssue a b => exact h.load _ _ _ _ a b
  | deleteIssue hr hu => exact h.delete hr hu
  | blankRow => exact h.mapRow fun _ hq => (nomatch hq)
  | setRow hr hp hl =>
    refine h.mapRow fun q hq => ?_
    obtain rfl := Option.some.inj hq
    exact ⟨_, hr, hl⟩
  | watch hw => exact h.rewatch hw
  | @setAlert t k a hr =>
    have hset := h.setAlert t k (a := some a) fun x hx => by
      obtain rfl := Option.some.inj hx
      exact hr
    have hnames := State.evaluate_names (s.setAlert t k (some a)) t k
    rw [State.evaluate_frame] at hnames ⊢
    exact State.Linked.same hset rfl rfl hnames rfl
  | clearAlert t k => exact h.setAlert t k fun _ hx => (nomatch hx)
  | setTape =>
    rw [State.setTape_frame]
    exact h
  | setFlashList hn hl hr =>
    exact Machine.Linked.setFlash h hn hl fun n hmem => by simpa using findRecord_isSome_of_listed (hr n hmem)
  | setLamps => exact h
  | enable t =>
    have hnames := State.enableTerm_names s t
    rw [State.enableTerm_frame] at hnames ⊢
    exact State.Linked.same h rfl rfl hnames rfl
  | disable t =>
    have hnames := State.disableTerm_names s t
    rw [State.disableTerm_frame] at hnames ⊢
    exact State.Linked.same h rfl rfl hnames rfl
  | clearCounts => exact State.Linked.same h rfl (State.clearCounts_rowIssue s) rfl rfl

theorem RequestMove.linked {t : TermNo} (hm : RequestMove s t u) (h : s.Linked) : u.Linked := by
  cases hm with
  | nothing | draw => exact h
  | watch hw => exact h.rewatch hw
  | clearAlert k => exact h.setAlert t k fun _ hx => (nomatch hx)

/-- An operation of a terminal line that leaves the records, what the rows show and the names. -/
theorem State.Linked.atLine (h : s.Linked) (hframe : u = { s with
      terminals := u.terminals, termLines := u.termLines, alerts := u.alerts, upstream := u.upstream })
    (hnames : u.names = s.names) : u.Linked := by
  rw [hframe] at hnames ⊢
  exact State.Linked.same h rfl rfl hnames rfl

theorem State.Linked.answerTaken (h : s.Linked) (t : TermNo) : (s.answerTaken t).Linked :=
  h.atLine (by rw [State.answerTaken_frame]) (State.answerTaken_names s t)

theorem State.Linked.beginSelect (h : s.Linked) (l : LineNo) (x : Transaction) : (s.beginSelect l x).Linked :=
  h.atLine (by rw [State.beginSelect_frame]) (State.beginSelect_names s l x)

theorem State.Linked.endTransaction (h : s.Linked) (l : LineNo) : (s.endTransaction l).Linked :=
  h.atLine (by rw [State.endTransaction_frame]) (State.endTransaction_names s l)

theorem State.Linked.evaluate (h : s.Linked) (t : TermNo) (k : SlotNo) : (s.evaluate t k).Linked :=
  h.atLine (by rw [State.evaluate_frame]) (State.evaluate_names s t k)

theorem State.Linked.setTerm (h : s.Linked) {t : TermNo} {x : Terminal}
    (hx : x.watch.map WatchEntry.issue = s.watchIssues t) : (s.setTerm t x).Linked :=
  h.atLine rfl (State.setTerm_names hx)

theorem TermMove.linked {l : LineNo} (hm : TermMove s l u) (h : s.Linked) : u.Linked := by
  cases hm with
  | pollSent | selectSent => exact h
  | nothing => exact (h.answerTaken _).beginSelect l _
  | request reply hx hh hq hu =>
    have hrun := hu.linked (h.answerTaken _)
    exact (hrun.setTerm (by rfl)).beginSelect l _
  | alertSet k reply hx hh hq hr ha =>
    refine State.Linked.beginSelect (State.Linked.evaluate (State.Linked.setTerm ?_ (by rfl)) _ k) l _
    refine State.Linked.setAlert (h.answerTaken _) _ k fun y hy => ?_
    obtain rfl := Option.some.inj hy
    rw [State.answerTaken_frame]
    exact hr
  | @retry x =>
    have hretry : ((s.answerTaken (termOf l x.drop)).retry l).Linked := h.answerTaken (termOf l x.drop)
    exact hretry.beginSelect l x
  | @received x c =>
    have hreceived : (s.receivedAt (termOf l x.drop) c).Linked :=
      h.atLine (by rw [State.receivedAt_frame]) (State.receivedAt_names s (termOf l x.drop) c)
    exact hreceived.endTransaction l
  | busy c =>
    have hbusy : (s.countBusy l).Linked := h
    exact ((hbusy.answerTaken _).setTerm (Terminal.restored_issues _ c)).endTransaction l
  | @missed x =>
    have hmiss : (s.countMiss l).Linked := h
    have hterm : ((s.countMiss l).missTerm (termOf l x.drop)).Linked :=
      hmiss.atLine (by rw [State.missTerm_frame]) (State.missTerm_names _ _)
    exact State.Linked.endTransaction (hterm.atLine (by rw [State.restoreMissed_frame])
      (State.restoreMissed_names _ (termOf l x.drop) x.stage)) l
  | unheard => exact h.endTransaction l
  | unheardRetry => exact State.Linked.endTransaction (s := s.retry l) h l
  | unheardBusy => exact State.Linked.endTransaction (s := s.countBusy l) h l
  | unheardMiss => exact State.Linked.endTransaction (s := s.countMiss l) h l

/-- A move of the board lines or the lamps that leaves what every row shows. -/
theorem State.Linked.atBoards (h : s.Linked) (hframe : u = { s with
      boardNotices := u.boardNotices, lampNotices := u.lampNotices, boards := u.boards, lamps := u.lamps,
      upstream := u.upstream }) (hrow : u.rowIssue = s.rowIssue) : u.Linked := by
  rw [hframe] at hrow ⊢
  exact State.Linked.same h rfl hrow rfl rfl

theorem LineMove.linked (hm : LineMove s u) (h : s.Linked) : u.Linked := by
  cases hm with
  | boardNotice =>
    refine State.Linked.atBoards h (by rw [State.chooseBoards_frame, State.markRows_frame]) ?_
    rw [State.chooseBoards_rows, State.markRows_rowIssue]
    rfl
  | transferSent l => exact State.Linked.atBoards h rfl (State.setBoard_rowIssue fun _ => rfl)
  | broadcastSent l =>
    refine State.Linked.atBoards h rfl ?_
    rw [State.chooseBoard_rowIssue]
    exact State.setBoard_rowIssue fun _ => rfl
  | accept l => exact State.Linked.atBoards h (by rw [acceptAt_frame]) (acceptAt_rowIssue s l _)
  | hold l => exact State.Linked.atBoards h (by rw [holdAt_frame]) (holdAt_rowIssue s l _ _)
  | miss l => exact State.Linked.atBoards h (by rw [missAt_frame]) (missAt_rowIssue s l _ _)
  | backOffEnd l i =>
    refine State.Linked.atBoards h rfl ?_
    rw [State.chooseBoard_rowIssue]
    exact State.setBoard_rowIssue (vupd_view (f := fun m : BoardModule => { m with backOff := none })
      (view := BoardModule.mapping) (fun _ => rfl) (s.boards[l]).modules i)
  | lampNotice =>
    refine State.Linked.atBoards h (by rw [State.chooseBoards_frame, State.noticeRows_frame]) ?_
    rw [State.chooseBoards_rows, State.noticeRows_rowIssue]
    rfl
  | phaseEnd r =>
    refine State.Linked.atBoards h (by rw [State.chooseBoards_frame, State.moveLamps_eq]) ?_
    rw [State.chooseBoards_rows]
    exact funext (State.moveLamps_rowIssue s r _)
  | terminalNotice =>
    refine State.Linked.same h rfl rfl (State.names_congr rfl fun t => ?_) rfl
    simp only [Fin.getElem_fin, Vector.getElem_ofFn]
    split
    · exact Terminal.noticed_issues _ _
    · rfl
  | terminal ht => exact ht.linked h
  | @alertNotice n rest =>
    have hnames := State.noticeSlots_names { s with alertNotices := rest } n.issue allSlots
    rw [State.noticeSlots_frame] at hnames ⊢
    exact State.Linked.same h rfl rfl hnames rfl

theorem linked_powerOn (unit : Byte) (on ready : Bool) (pending : List Instr) :
    (State.powerOn unit on ready pending).Linked := by
  have hrow (r : RowNo) : (State.powerOn unit on ready pending).rowIssue r = none := by
    simp [State.rowIssue, State.powerOn, BoardLine.powerOn, BoardModule.powerOn]
  have hwatch (t : TermNo) : (State.powerOn unit on ready pending).names.1 t = [] := by
    simp [State.names, State.watchIssues, State.powerOn, Terminal.powerOn]
  have hslots (t : TermNo) (k : SlotNo) : (State.powerOn unit on ready pending).names.2 t k = none := by
    simp [State.names, State.powerOn]
  refine ⟨(nomatch ·), fun hr => ?_, (nomatch ·), fun t => ?_, ⟨.nil, Nat.zero_le _, fun _ hn => (nomatch hn)⟩, fun hn => ?_⟩
  · rw [hrow] at hr
    cases hr
  · rw [hwatch]
    exact ⟨.nil, Nat.zero_le _, fun _ hn => (nomatch hn)⟩
  · rw [hslots] at hn
    cases hn

theorem Move.linked (hm : Move s u) (h : s.Linked) : u.Linked := by
  cases hm with
  | powerOn unit on => exact linked_powerOn unit on s.upstream.readyAbove s.pending
  | idle | character | failure | throughEnd | switchOn | switchOff | upstreamCharacter | upstreamFrame
  | upstreamEnd | readyLine => exact h
  | tick => exact State.Linked.same h rfl (State.tick_rowIssue s) rfl rfl
  | frame a f =>
    have hrow := State.checked_rowIssue { s with feed := { s.feed with assembler := a } } f
    have hnames := State.checked_names { s with feed := { s.feed with assembler := a } } f
    rw [State.checked_frame] at hrow hnames ⊢
    exact State.Linked.same h rfl hrow hnames rfl
  | quiet =>
    have hrow := State.goQuiet_rowIssue s
    have hnames := State.goQuiet_names s
    rw [State.goQuiet_frame] at hrow hnames ⊢
    exact State.Linked.same h rfl hrow hnames rfl
  | data v hd => exact hd.linked (s := s.dropHead) h
  | claim =>
    rw [State.takeClaim_frame]
    exact h
  | execute table r data hi hc => exact hc.linked (s := s.finished) h
  | broadcast hi hc => exact hc.linked (s := s.dropHead) h
  | @restart op =>
    have hrow := State.restartBlocks_rowIssue s.finished op.serial
    have hnames := State.restartBlocks_names s.finished op.serial
    rw [State.restart_frame]
    generalize s.finished.restartBlocks op.serial = w at hrow hnames ⊢
    exact State.Linked.same h rfl hrow hnames rfl
  | restartAll op =>
    have hrow := State.restartBlocks_rowIssue s.dropHead op.serial
    have hnames := State.restartBlocks_names s.dropHead op.serial
    rw [State.restart_frame]
    generalize s.dropHead.restartBlocks op.serial = w at hrow hnames ⊢
    exact State.Linked.same h rfl hrow hnames rfl
  | tapeJoin | tapeCharacter | flashExpiry =>
    rw [State.tookTape_frame]
    exact h
  | line hl => exact hl.linked h

end

/-- Settles O53: every move keeps the links, and the records keep their form. -/
theorem stepsKeepLinks : Obligations.StepsKeepLinks := by
  unfold Obligations.StepsKeepLinks
  intro s t h hstep
  refine step_keeps (P := State.LinksInv) (fun _ _ h => h) (fun s u h hm => ?_) h hstep
  rw [State.linksInv_iff] at h ⊢
  exact ⟨hm.recordsKeep recordsOk_closed h.1, hm.linked h.2⟩

end Sys2Proof.Machine
end

