-- ==== Sys2Proof/Proofs/Marks.lean ====
section
/-! PROOFS. The marks of a board line (R98): one equation for each thing that settling a mark can do, and the rules of
the marks that it keeps. -/

namespace Sys2Proof.Machine

/-! ### Settling a mark -/

/-- A line but for its marks and its mark register: the marks are `k`, the register `r`. -/
structure BoardLine.Remarked (b c : BoardLine) (k : ModuleNo → Option Nat) (r : Nat) : Prop where
  line : c = { b with modules := c.modules, markReg := r }
  module : ∀ j : ModuleNo, c.modules[j] = { b.modules[j] with mark := k j }

/-- The mark of a module. -/
abbrev BoardLine.mark (b : BoardLine) (j : ModuleNo) : Option Nat := (b.modules[j]).mark

section
variable {b : BoardLine} {i : ModuleNo}

/-- One mark set, on a line whose other marks are `k`. -/
theorem BoardLine.Remarked.setOne {c : BoardLine} {k : ModuleNo → Option Nat} {r : Nat} (h : b.Remarked c k r)
    (n : Option Nat) (r' : Nat) :
    b.Remarked { c with modules := vupd c.modules i fun m => { m with mark := n }, markReg := r' }
      (fun j => if j = i then n else k j) r' := by
  refine ⟨by rw [h.line], fun j => ?_⟩
  dsimp only
  rw [vupd_get]
  split
  · rename_i e
    subst e
    rw [h.module]
  · exact h.module j

theorem BoardLine.remarked_self (b : BoardLine) : b.Remarked b b.mark b.markReg := ⟨rfl, fun _ => rfl⟩

theorem BoardLine.renumber_remarked (b : BoardLine) :
    b.Remarked b.renumber (fun j => (b.mark j).map b.marksBelow) b.marksHeld :=
  ⟨rfl, fun _ => Vector.getElem_map _ _⟩

theorem BoardLine.settleMark_eq (b : BoardLine) (i : ModuleNo) :
    b.settleMark i = if (b.modules[i]).waits then if (b.mark i).isNone then b.takeMark i else b
      else { b with modules := vupd b.modules i fun m => { m with mark := none } } := rfl

theorem BoardLine.settleMark_rests (h : (b.modules[i]).waits = false) :
    b.Remarked (b.settleMark i) (fun j => if j = i then none else b.mark j) b.markReg := by
  rw [settleMark_eq, if_neg (by rw [h]; decide)]
  exact b.remarked_self.setOne none b.markReg

theorem BoardLine.settleMark_keeps (h : (b.modules[i]).waits = true) (hm : (b.mark i).isSome = true) :
    b.settleMark i = b := by
  rw [settleMark_eq, if_pos h, if_neg (by simpa [Option.isSome_iff_ne_none] using hm)]

variable (h : (b.modules[i]).waits = true) (hm : b.mark i = none)
include h hm

theorem BoardLine.settleMark_takes (hr : b.markReg ≠ Config.markMax) :
    b.Remarked (b.settleMark i) (fun j => if j = i then some b.markReg else b.mark j) (b.markReg + 1) := by
  rw [settleMark_eq, if_pos h, if_pos (by rw [hm]; rfl), takeMark, if_neg hr]
  exact b.remarked_self.setOne _ _

theorem BoardLine.settleMark_renumbers (hr : b.markReg = Config.markMax) :
    b.Remarked (b.settleMark i) (fun j => if j = i then some b.marksHeld else (b.mark j).map b.marksBelow)
      (b.marksHeld + 1) := by
  rw [settleMark_eq, if_pos h, if_pos (by rw [hm]; rfl), takeMark, if_pos hr]
  exact b.renumber_remarked.setOne _ _

end

/-- Settles O36: the four things that settling a mark can do. -/
theorem marksTaken : Obligations.MarksTaken := by
  unfold Obligations.MarksTaken
  intro b i f m c mark holders below set
  let x : BoardLine := { b with modules := vupd b.modules i f }
  have hx (j : ModuleNo) : x.modules[j] = if j = i then m else b.modules[j] := vupd_get _ _ _ _
  have hxi : x.modules[i] = m := (hx i).trans (if_pos rfl)
  have hmark (j : ModuleNo) : x.mark j = mark j := by
    rw [BoardLine.mark, hx, apply_ite BoardModule.mark]
  have settled {k : ModuleNo → Option Nat} {r : Nat} (h : x.Remarked (x.settleMark i) k r) {mine : Option Nat}
      {other : ModuleNo → Option Nat} (hmine : k i = mine) (hother : ∀ j, j ≠ i → k j = other j) :
      set mine other r := by
    refine ⟨(h.module i).trans (by rw [hxi, hmine]), fun j hj => (h.module j).trans ?_, h.line⟩
    rw [hx, if_neg hj, hother j hj]
  have hheld : x.marksHeld = holders := by
    simp only [BoardLine.marksHeld, holders, ← hmark]
  have hbelow : x.marksBelow = below := by
    funext n
    simp only [BoardLine.marksBelow, below, ← hmark]
  refine ⟨fun ⟨hd, hb⟩ => ?_, fun hw => ⟨fun hm => ?_, fun hm hr => ?_, fun hm hr => ?_⟩⟩
  · have hw : (x.modules[i]).waits = false := by rw [hxi, BoardModule.waits, hd, hb]; rfl
    exact settled (BoardLine.settleMark_rests hw) (if_pos rfl) fun j hj => by rw [if_neg hj, hmark]
  all_goals
    have hw : (x.modules[i]).waits = true := by
      rw [hxi, BoardModule.waits]
      rcases hw with hw | hw
      · simp [FieldSet.isEmpty, hw]
      · simp [hw]
    have hmi : x.mark i = m.mark := by rw [BoardLine.mark, hxi]
  · have hk := BoardLine.settleMark_keeps hw (hmi ▸ hm)
    exact settled (r := b.markReg) (k := x.mark) (by rw [hk]; exact x.remarked_self) hmi fun j _ => hmark j
  · exact settled (BoardLine.settleMark_takes hw (hmi.trans hm) (Nat.ne_of_lt hr)) (if_pos rfl)
      fun j hj => by rw [if_neg hj, hmark]
  · have hset := settled (BoardLine.settleMark_renumbers hw (hmi.trans hm) hr) (if_pos rfl)
      (other := fun j => (mark j).map below) fun j hj => by rw [if_neg hj, hmark, hbelow]
    rwa [hheld] at hset

/-! ### The rules of the marks -/

/-- More of a list passes a wider test that some member alone passes. -/
theorem length_filter_lt {α : Type} {p q : α → Bool} {l : List α} {a : α} (hpq : ∀ x, p x = true → q x = true)
    (ha : a ∈ l) (hq : q a = true) (hp : p a = false) : (l.filter p).length < (l.filter q).length := by
  induction l with
  | nil => cases ha
  | cons x l ih =>
    have hle : (l.filter p).length ≤ (l.filter q).length := by
      rw [← List.countP_eq_length_filter, ← List.countP_eq_length_filter]
      exact List.countP_mono_left fun y _ => hpq y
    rcases List.mem_cons.1 ha with rfl | ha
    · simp only [List.filter_cons, hp, hq, Bool.false_eq_true, if_false, if_true, List.length_cons]
      omega
    · have := ih ha
      rw [List.filter_cons, List.filter_cons]
      split
      · rename_i hpx
        rw [if_pos (hpq x hpx), List.length_cons, List.length_cons]
        omega
      · split
        · rw [List.length_cons]
          omega
        · exact this

theorem BoardLine.marksHeld_le (b : BoardLine) : b.marksHeld ≤ 32 :=
  (List.length_filter_le _ _).trans_eq List.length_finRange

theorem BoardLine.marksBelow_lt_marksHeld {b : BoardLine} {j : ModuleNo} {n : Nat} (h : b.mark j = some n) :
    b.marksBelow n < b.marksHeld :=
  length_filter_lt (a := j) (fun x hx => by obtain ⟨k, hk, -⟩ := (Option.any_eq_true _ _).1 hx; rw [hk]; rfl)
    (List.mem_finRange j) (by rw [show (b.modules[j]).mark = some n from h]; rfl)
    (by rw [show (b.modules[j]).mark = some n from h]; simp)

theorem BoardLine.marksBelow_lt {b : BoardLine} {j : ModuleNo} {n k : Nat} (h : b.mark j = some n) (hlt : n < k) :
    b.marksBelow n < b.marksBelow k := by
  refine length_filter_lt (a := j) (fun x hx => ?_) (List.mem_finRange j)
    (by rw [show (b.modules[j]).mark = some n from h]; simpa using hlt)
    (by rw [show (b.modules[j]).mark = some n from h]; simp)
  obtain ⟨m, hm, hlt'⟩ := (Option.any_eq_true _ _).1 hx
  rw [hm, Option.any_some]
  simp only [decide_eq_true_eq] at hlt' ⊢
  omega

/-- The rules of the marks but for modules that are still to be settled. -/
structure BoardLine.MarksBut (b : BoardLine) (ex : List ModuleNo) : Prop where
  register : b.markReg ≤ Config.markMax
  waiting : ∀ j : ModuleNo, j ∉ ex → (b.mark j).isSome = (b.modules[j]).waits
  below : ∀ (j : ModuleNo) (n : Nat), b.mark j = some n → n < b.markReg
  injective : ∀ (i j : ModuleNo) (n : Nat), b.mark i = some n → b.mark j = some n → i = j

theorem BoardLine.marksOk_iff (b : BoardLine) : b.MarksOk ↔ b.MarksBut [] := by
  constructor
  · rintro ⟨hr, hw, hb, hi⟩
    refine ⟨hr, fun j _ => hw j, fun j n hn => ?_, fun i j n hin hjn => hi i j (Option.isSome_of_mem hin) (hin.trans hjn.symm)⟩
    have := hb j
    rw [show (b.modules[j]).mark = some n from hn] at this
    simpa using this
  · intro h
    refine ⟨h.register, fun j => h.waiting j List.not_mem_nil, fun j => ?_, fun i j hi he => ?_⟩
    · rcases hn : (b.modules[j]).mark with _ | n
      · rfl
      · simpa using h.below j n hn
    · obtain ⟨n, hn⟩ := Option.isSome_iff_exists.1 hi
      exact h.injective i j n hn (he.symm.trans hn)

section
variable {b : BoardLine} {i : ModuleNo} {ex : List ModuleNo}

/-- The rules of marks given anew: a held mark is below the register and held once, and the module settled waits
exactly when it holds one. -/
theorem BoardLine.MarksBut.remarked {c : BoardLine} {k : ModuleNo → Option Nat} {r : Nat} (hc : b.Remarked c k r)
    (hr : r ≤ Config.markMax) (hw : ∀ j, j ∉ ex → (k j).isSome = (b.modules[j]).waits)
    (hb : ∀ j n, k j = some n → n < r) (hi : ∀ i j n, k i = some n → k j = some n → i = j) : c.MarksBut ex := by
  have hmark (j : ModuleNo) : c.mark j = k j := by rw [BoardLine.mark, hc.module]
  have hreg : c.markReg = r := by rw [hc.line]
  refine ⟨hreg ▸ hr, fun j hj => ?_, fun j n hn => hreg ▸ hb j n (hmark j ▸ hn), fun i j n hin hjn =>
    hi i j n (hmark i ▸ hin) (hmark j ▸ hjn)⟩
  rw [hmark, hw j hj, hc.module]
  rfl

/-- Settling a mark settles one module, and keeps the rules at the others (R98). -/
theorem BoardLine.MarksBut.settleMark (h : b.MarksBut (i :: ex)) : (b.settleMark i).MarksBut ex := by
  have hwait (k : ModuleNo → Option Nat) (hki : (k i).isSome = (b.modules[i]).waits)
      (hk : ∀ j, j ≠ i → (k j).isSome = (b.mark j).isSome) (j : ModuleNo) (hj : j ∉ ex) :
      (k j).isSome = (b.modules[j]).waits := by
    by_cases hji : j = i
    · rw [hji]
      exact hki
    · rw [hk j hji, h.waiting j fun e => hj ((List.mem_cons.1 e).resolve_left hji)]
  rcases hw : (b.modules[i]).waits with _ | _
  · refine BoardLine.MarksBut.remarked (BoardLine.settleMark_rests hw) h.register
      (hwait _ (by rw [if_pos rfl, hw]; rfl) fun j hj => by rw [if_neg hj]) (fun j n hn => ?_) fun j l n hj hl => ?_
    · split at hn
      · cases hn
      · exact h.below j n hn
    · split at hj
      · cases hj
      · split at hl
        · cases hl
        · exact h.injective j l n hj hl
  · rcases hm : b.mark i with _ | n
    · by_cases hr : b.markReg = Config.markMax
      · have hheld := b.marksHeld_le
        refine BoardLine.MarksBut.remarked (BoardLine.settleMark_renumbers hw hm hr)
          (by simp only [Config.markMax]; omega)
          (hwait _ (by rw [if_pos rfl, hw]; rfl) fun j hj => by rw [if_neg hj, Option.isSome_map])
          (fun j n hn => ?_) fun j l n hj hl => ?_
        · split at hn
          · cases hn
            omega
          · obtain ⟨k, hk, rfl⟩ := Option.map_eq_some_iff.1 hn
            exact (BoardLine.marksBelow_lt_marksHeld hk).trans (Nat.lt_succ_self _)
        · have hne {j : ModuleNo} (hj : Option.map b.marksBelow (b.mark j) = some b.marksHeld) : False := by
            obtain ⟨k, hk, e⟩ := Option.map_eq_some_iff.1 hj
            exact absurd (BoardLine.marksBelow_lt_marksHeld hk) (by omega)
          split at hj <;> split at hl
          · rename_i e e'
            rw [e, e']
          · cases hj
            exact (hne hl).elim
          · cases hl
            exact (hne hj).elim
          · obtain ⟨k, hk, rfl⟩ := Option.map_eq_some_iff.1 hj
            obtain ⟨k', hk', e⟩ := Option.map_eq_some_iff.1 hl
            rcases Nat.lt_trichotomy k k' with hlt | rfl | hlt
            · have := BoardLine.marksBelow_lt hk hlt
              omega
            · exact h.injective j l k hk hk'
            · have := BoardLine.marksBelow_lt hk' hlt
              omega
      · have hreg := h.register
        refine BoardLine.MarksBut.remarked (BoardLine.settleMark_takes hw hm hr) (by omega)
          (hwait _ (by rw [if_pos rfl, hw]; rfl) fun j hj => by rw [if_neg hj]) (fun j n hn => ?_) fun j l n hj hl => ?_
        · split at hn
          · cases hn
            omega
          · have := h.below j n hn
            omega
        · have hne {j : ModuleNo} (hj : b.mark j = some b.markReg) : False := Nat.lt_irrefl _ (h.below j _ hj)
          split at hj <;> split at hl
          · rename_i e e'
            rw [e, e']
          · cases hj
            exact (hne hl).elim
          · cases hl
            exact (hne hj).elim
          · exact h.injective j l n hj hl
    · rw [BoardLine.settleMark_keeps hw (by rw [hm]; rfl)]
      refine ⟨h.register, fun j hj => ?_, h.below, h.injective⟩
      exact hwait b.mark (by rw [hm, hw]; rfl) (fun _ _ => rfl) j hj

theorem BoardLine.MarksBut.settleMarks (is : List ModuleNo) {c : BoardLine} (h : c.MarksBut (is ++ ex)) :
    (is.foldl BoardLine.settleMark c).MarksBut ex := by
  induction is generalizing c with
  | nil => exact h
  | cons i is ih => exact ih h.settleMark

end

end Sys2Proof.Machine
end

