-- ==== Sys2Proof/Proofs/BoardLines.lean ====
section
/-! PROOFS. The Board Line Controllers (R94 to R117): what an idle line chooses, and the rules of a module and of a
line through each thing that happens to them. -/

namespace Sys2Proof.Machine

/-! ### The choice of a waiting module -/

/-- Module y is not to go before module x (R110). -/
def BoardModule.Yields (y x : BoardModule) : Prop :=
  y.rank < x.rank ∨ (y.rank = x.rank ∧ x.mark.getD 0 ≤ y.mark.getD 0)

theorem BoardModule.yields_of_not_outranks {x y : BoardModule} (h : y.outranks x = false) : y.Yields x := by
  simp only [outranks, Bool.or_eq_false_iff, Bool.and_eq_false_iff, decide_eq_false_iff_not] at h
  unfold Yields
  omega

theorem BoardModule.Yields.trans_outranks {x y z : BoardModule} (h : z.Yields y) (ho : x.outranks y = true) :
    z.Yields x := by
  simp only [outranks, Bool.or_eq_true, Bool.and_eq_true, decide_eq_true_eq] at ho
  unfold Yields at h ⊢
  omega

/-- The best of the modules looked at so far: none when none may go, else one to which every other yields. -/
def BoardLine.Best (b : BoardLine) (seen : ModuleNo → Prop) : Option ModuleNo → Prop
  | none => ∀ j, seen j → (b.modules[j]).eligible = false
  | some i => (b.modules[i]).eligible = true
      ∧ ∀ j, seen j → (b.modules[j]).eligible = true → (b.modules[j]).Yields b.modules[i]

/-- One module compared with the best so far (R110). -/
def BoardLine.better (b : BoardLine) (best : Option ModuleNo) (i : ModuleNo) : Option ModuleNo :=
  if (b.modules[i]).eligible then
    match best with
    | none => some i
    | some j => if (b.modules[i]).outranks b.modules[j] then some i else some j
  else best

theorem BoardLine.bestWaiting_eq (b : BoardLine) : b.bestWaiting = (List.finRange 32).foldl b.better none := rfl

theorem BoardLine.Best.better {b : BoardLine} {seen : ModuleNo → Prop} {best : Option ModuleNo} (h : b.Best seen best)
    (i : ModuleNo) : b.Best (fun j => seen j ∨ j = i) (b.better best i) := by
  have self : (b.modules[i]).Yields b.modules[i] := .inr ⟨rfl, le_rfl⟩
  rcases he : (b.modules[i]).eligible with _ | _
  · unfold BoardLine.better
    rw [if_neg (by rw [he]; decide)]
    rcases best with _ | k
    · rintro j (hj | rfl)
      · exact h j hj
      · exact he
    · refine ⟨h.1, ?_⟩
      rintro j (hj | rfl) hej
      · exact h.2 j hj hej
      · rw [he] at hej
        cases hej
  · unfold BoardLine.better
    rw [if_pos he]
    rcases best with _ | k
    · refine ⟨he, ?_⟩
      rintro j (hj | rfl) hej
      · rw [h j hj] at hej
        cases hej
      · exact self
    · obtain ⟨hk, hall⟩ := h
      dsimp only
      rcases ho : (b.modules[i]).outranks b.modules[k] with _ | _
      · rw [if_neg (by decide)]
        refine ⟨hk, ?_⟩
        rintro j (hj | rfl) hej
        · exact hall j hj hej
        · exact BoardModule.yields_of_not_outranks ho
      · rw [if_pos rfl]
        refine ⟨he, ?_⟩
        rintro j (hj | rfl) hej
        · exact (hall j hj hej).trans_outranks ho
        · exact self

theorem BoardLine.bestWaiting_best (b : BoardLine) : b.Best (fun _ => True) b.bestWaiting := by
  have fold (is : List ModuleNo) (seen : ModuleNo → Prop) (best : Option ModuleNo) (h : b.Best seen best) :
      b.Best (fun j => seen j ∨ j ∈ is) (is.foldl b.better best) := by
    induction is generalizing seen best with
    | nil => simpa using h
    | cons i is ih => simpa [or_assoc] using ih _ _ (h.better i)
  have h := fold (List.finRange 32) (fun _ => False) none fun _ hj => hj.elim
  rw [BoardLine.bestWaiting_eq]
  simpa using h

theorem BoardLine.bestWaiting_eq_none {b : BoardLine} :
    b.bestWaiting = none ↔ ∀ j : ModuleNo, (b.modules[j]).eligible = false := by
  have h := b.bestWaiting_best
  constructor
  · intro e
    rw [e] at h
    exact fun j => h j trivial
  · intro hall
    rcases e : b.bestWaiting with _ | i
    · rfl
    · rw [e] at h
      exact absurd h.1 (by rw [hall i]; decide)

/-! ### The sweep -/

/-- Whether the sweep may stop at a module (R111). -/
def BoardModule.swept (m : BoardModule) : Bool := m.mapping.isSome && m.backOff.isNone

/-- How far a module stands after the sweep pointer. -/
def BoardLine.sweepDistance (b : BoardLine) (j : ModuleNo) : Nat := (j.val + 32 - (b.sweep.val + 1) % 32) % 32

theorem BoardLine.sweepPlace_distance (b : BoardLine) (j : ModuleNo) : b.sweepPlace (b.sweepDistance j) = j := by
  apply Fin.ext
  simp only [sweepPlace, sweepDistance]
  omega

theorem BoardLine.swept_place (b : BoardLine) (j : ModuleNo) :
    (b.modules[b.sweepPlace (b.sweepDistance j)]).swept = (b.modules[j]).swept :=
  congrArg (fun i : ModuleNo => (b.modules[i]).swept) (b.sweepPlace_distance j)

theorem BoardLine.distance_sweepPlace (b : BoardLine) {k : Nat} (hk : k < 32) : b.sweepDistance (b.sweepPlace k) = k := by
  simp only [sweepPlace, sweepDistance]
  omega

theorem BoardLine.sweepDistance_lt (b : BoardLine) (j : ModuleNo) : b.sweepDistance j < 32 := Nat.mod_lt _ (by decide)

theorem BoardLine.sweepNext_eq (b : BoardLine) : b.sweepNext =
    ((List.range 32).find? fun k => (b.modules[b.sweepPlace k]).swept).map b.sweepPlace := by
  rw [sweepNext, List.find?_map]
  rfl

theorem BoardLine.sweepNext_eq_none {b : BoardLine} :
    b.sweepNext = none ↔ ∀ j : ModuleNo, (b.modules[j]).swept = false := by
  rw [sweepNext_eq, Option.map_eq_none_iff, List.find?_eq_none]
  constructor
  · intro h j
    have := h _ (List.mem_range.2 (b.sweepDistance_lt j))
    rw [b.swept_place] at this
    exact Bool.eq_false_iff.2 this
  · exact fun h k _ => Bool.eq_false_iff.1 (h _)

/-- The sweep stops at the first module that it may stop at (R111). -/
theorem BoardLine.sweepNext_first {b : BoardLine} {i : ModuleNo} (hi : (b.modules[i]).swept = true)
    (hfirst : ∀ j : ModuleNo, (b.modules[j]).swept = true → b.sweepDistance i ≤ b.sweepDistance j) :
    b.sweepNext = some i := by
  rw [sweepNext_eq]
  rcases hf : (List.range 32).find? fun k => (b.modules[b.sweepPlace k]).swept with _ | k
  · have := List.find?_eq_none.1 hf _ (List.mem_range.2 (b.sweepDistance_lt i))
    rw [b.swept_place] at this
    exact absurd hi this
  · obtain ⟨hk, hmem, hbefore⟩ := List.find?_range_eq_some.1 hf
    have hle := hfirst _ hk
    rw [b.distance_sweepPlace (List.mem_range.1 hmem)] at hle
    have hge : ¬b.sweepDistance i < k := fun hlt => by
      have := hbefore _ hlt
      rw [b.swept_place, hi] at this
      cases this
    rw [Option.map_some, show k = b.sweepDistance i by omega, b.sweepPlace_distance]

theorem BoardLine.sweepNext_swept {b : BoardLine} {i : ModuleNo} (h : b.sweepNext = some i) :
    (b.modules[i]).swept = true :=
  List.find?_some (p := fun i : ModuleNo => (b.modules[i]).swept) h

/-! ### What an idle line begins -/

theorem BoardModule.waits_iff (m : BoardModule) : m.waits = true ↔ m.dirty ≠ .empty ∨ m.blanking = true := by
  simp [waits, FieldSet.isEmpty]

theorem BoardModule.eligible_iff (m : BoardModule) :
    m.eligible = true ↔ (m.dirty ≠ .empty ∨ m.blanking = true) ∧ m.backOff = none := by
  simp [eligible, waits_iff]

theorem BoardModule.swept_iff (m : BoardModule) : m.swept = true ↔ m.mapping.isSome = true ∧ m.backOff = none := by
  simp [swept]

theorem BoardModule.rank_eq (m : BoardModule) :
    m.rank = if m.blanking then 3 else (m.mapping.map Mapping.priority).getD 3 := by
  rw [rank]
  split
  · rfl
  · rcases m.mapping with _ | p <;> rfl

theorem BoardLine.startBroadcast_eq (b : BoardLine) (f : FeedState) :
    b.startBroadcast f = { b with
      broadcast := none
      inFlight := some ⟨.broadcast f, [319#9, 0x0F#9, if f = .quiet then 0x01 else 0x00,
        0x0F + if f = .quiet then 0x01 else 0x00], none⟩ } := by
  cases f <;> rfl

section
variable {b : BoardLine} {i : ModuleNo} (records : Records) (lampsOf : ModuleNo → RowLamps)

theorem BoardLine.serve_fields {p : Mapping} (hp : (b.modules[i]).mapping = some p)
    (hd : (b.modules[i]).dirty ≠ .empty) :
    b.serve records lampsOf i =
      b.startFields records (lampsOf i) i (.update i p.issue (b.modules[i]).dirty) p.issue (b.modules[i]).dirty := by
  have he : (b.modules[i]).dirty.isEmpty = false := by simpa [FieldSet.isEmpty] using hd
  unfold serve
  simp only [hp, he]

theorem BoardLine.serve_blanking (h : (b.modules[i]).mapping = none ∨ (b.modules[i]).dirty = .empty) :
    b.serve records lampsOf i = b.startBlanking i := by
  unfold serve
  dsimp only
  split
  · rename_i hp he
    rcases h with h | h
    · rw [h] at hp
      cases hp
    · rw [h] at he
      cases he
  · rfl

theorem BoardLine.refresh_mapped {p : Mapping} (hp : (b.modules[i]).mapping = some p) :
    b.refresh records lampsOf i =
      { b with sweep := i }.startFields records (lampsOf i) i (.refresh i p.issue p.mask) p.issue p.mask := by
  simp only [refresh, hp]

end

/-- Settles O38: the choice, with the best waiting module and the first the sweep may stop at. -/
theorem nextTransferChosen : Obligations.NextTransferChosen := by
  unfold Obligations.NextTransferChosen
  intro b records lampsOf c waits rank ready open_ after row
  have hready (j : ModuleNo) : (b.modules[j]).eligible = true ↔ ready j := BoardModule.eligible_iff _
  have hopen (j : ModuleNo) : (b.modules[j]).swept = true ↔ open_ j := BoardModule.swept_iff _
  have hnone (h : ¬∃ j, ready j) : b.bestWaiting = none :=
    BoardLine.bestWaiting_eq_none.2 fun j => Bool.eq_false_iff.2 fun e => h ⟨j, (hready j).1 e⟩
  have hcases (h : b.inFlight = none) := b.choose_cases records lampsOf h
  refine ⟨fun h => BoardLine.choose_busy records lampsOf h, fun h f hf => ?_, fun h hb ⟨j, hj⟩ => ?_,
    fun h hb hno i hi hfirst p hp => ?_, fun h hb hno hnoOpen => ?_⟩
  · rcases hcases h with ⟨g, hg, e⟩ | ⟨hb, -⟩ | ⟨hb, -⟩ | ⟨hb, -⟩
    · rw [hf] at hg
      obtain rfl := Option.some.inj hg
      exact e.trans (b.startBroadcast_eq f)
    all_goals
      rw [hf] at hb
      cases hb
  · have hbest := b.bestWaiting_best
    rcases hw : b.bestWaiting with _ | i
    · exact absurd ((hready j).2 hj) (by rw [BoardLine.bestWaiting_eq_none.1 hw j]; decide)
    · rw [hw] at hbest
      obtain ⟨hi, hall⟩ := hbest
      have hc : c = b.serve records lampsOf i := by
        rcases hcases h with ⟨g, hg, -⟩ | ⟨-, k, hk, e⟩ | ⟨-, hn, -⟩ | ⟨-, hn, -⟩
        · rw [hb] at hg
          cases hg
        · rw [hw] at hk
          obtain rfl := Option.some.inj hk
          exact e
        all_goals
          rw [hw] at hn
          cases hn
      refine ⟨i, (hready i).1 hi, fun k hk => ?_, fun p hp hd => ?_, fun hblank => ?_⟩
      · have hy := hall k trivial ((hready k).2 hk)
        rwa [BoardModule.Yields, BoardModule.rank_eq, BoardModule.rank_eq] at hy
      · exact hc.trans (BoardLine.serve_fields records lampsOf hp hd)
      · exact hc.trans (BoardLine.serve_blanking records lampsOf hblank)
  · have hs : b.sweepNext = some i :=
      BoardLine.sweepNext_first ((hopen i).2 hi) fun k hk => hfirst k ((hopen k).1 hk)
    rcases hcases h with ⟨g, hg, -⟩ | ⟨-, k, hk, -⟩ | ⟨-, -, k, hk, e⟩ | ⟨-, -, hn, -⟩
    · rw [hb] at hg
      cases hg
    · rw [hnone hno] at hk
      cases hk
    · rw [hs] at hk
      obtain rfl := Option.some.inj hk
      exact e.trans (BoardLine.refresh_mapped records lampsOf hp)
    · rw [hs] at hn
      cases hn
  · rcases hcases h with ⟨g, hg, -⟩ | ⟨-, k, hk, -⟩ | ⟨-, -, k, hk, -⟩ | ⟨-, -, -, e⟩
    · rw [hb] at hg
      cases hg
    · rw [hnone hno] at hk
      cases hk
    · exact absurd ⟨k, (hopen k).1 (BoardLine.sweepNext_swept hk)⟩ hnoOpen
    · exact e

end Sys2Proof.Machine
end

