-- ==== Sys2Proof/Proofs/BoardsKept.lean ====
section
/-! PROOFS. Every step keeps the rules of the board lines (R94, R97, R98, R106, R109, R110, R113): module by module, line
by line, move by move. -/

namespace Sys2Proof.Machine

/-! ### A module -/

theorem FieldSet.union_inter (x y z : FieldSet) : (x.union y).inter z = (x.inter z).union (y.inter z) := by
  simp only [union, inter, Bool.and_or_distrib_right]

theorem FieldSet.inter_inter_self (x z : FieldSet) : (x.inter z).inter z = x.inter z := by
  simp only [inter, Bool.and_assoc, Bool.and_self]

/-- Shown fields joined to a dirty set of shown fields. -/
theorem FieldSet.union_shown {x y z : FieldSet} (h : x.inter z = x) :
    (x.union (y.inter z)).inter z = x.union (y.inter z) := by
  rw [FieldSet.union_inter, FieldSet.inter_inter_self, h]

section
variable {m : BoardModule} (h : m.Ok)
include h

theorem BoardModule.Ok.set (k : Option Nat) (t : Option Nat) : ({ m with mark := k, backOff := t } : BoardModule).Ok := h

theorem BoardModule.Ok.clearDirty : ({ m with dirty := .empty } : BoardModule).Ok := by
  obtain ⟨-, hdark, hblank, ht, hs, hp⟩ := h
  exact ⟨rfl, fun e => ⟨rfl, (hdark e).2⟩, hblank, ht, hs, hp⟩

theorem BoardModule.Ok.clearBlanking : ({ m with blanking := false } : BoardModule).Ok := by
  obtain ⟨hd, hdark, -, ht, hs, hp⟩ := h
  exact ⟨hd, fun e => ⟨(hdark e).1, rfl⟩, (nomatch ·), ht, hs, hp⟩

/-- Shown fields marked at a module that is not DARK (R99). -/
theorem BoardModule.Ok.mark (hn : m.state ≠ .dark) (fs : FieldSet) :
    ({ m with dirty := m.dirty.union (fs.inter m.shown) } : BoardModule).Ok := by
  obtain ⟨hd, -, hblank, ht, hs, hp⟩ := h
  exact ⟨FieldSet.union_shown hd, fun e => absurd e hn, hblank, ht, hs, hp⟩

theorem BoardModule.Ok.answered : m.answered.Ok := by
  obtain ⟨hd, -, hblank, -, -, hp⟩ := h
  refine ⟨hd, (nomatch ·), fun e => ?_, Nat.zero_le _, ⟨(nomatch ·), fun e => absurd e (by decide : (0 : Nat) ≠ 3)⟩, hp⟩
  simp only [BoardModule.answered, Bool.or_eq_true, Bool.and_eq_true] at e
  rcases e with e | e
  · exact hblank e
  · exact Option.isNone_iff_eq_none.1 e.2

theorem BoardModule.Ok.restored (hn : m.state ≠ .dark) (body : TransferBody) : (m.restored body).Ok := by
  have hsent {p : Mapping} (hp : m.mapping = some p) (n : Nat) (fs : FieldSet) :
      (if p.issue = n then { m with dirty := m.dirty.union (fs.inter p.mask) } else m).Ok := by
    split
    · have hm := h.mark hn fs
      rwa [show m.shown = p.mask by rw [shown, hp]] at hm
    · exact h
  unfold BoardModule.restored
  split
  · exact hsent ‹_› _ _
  · exact hsent ‹_› _ _
  · rename_i hp
    obtain ⟨hd, -, -, ht, hs, hall⟩ := h
    exact ⟨hd, fun e => absurd e hn, fun _ => hp, ht, hs, hall⟩
  · exact h

theorem BoardModule.Ok.missed (body : TransferBody) : (m.missed body).Ok := by
  rw [BoardModule.missed]
  split
  · exact h
  · rename_i hn
    split
    · rename_i hlt
      have hmore : ({ m with timeouts := m.timeouts + 1 } : BoardModule).Ok := by
        obtain ⟨hd, hdark, hblank, -, -, hp⟩ := h
        exact ⟨hd, hdark, hblank, Nat.le_of_lt hlt, ⟨fun e => absurd e hn, fun e => absurd e (Nat.ne_of_lt hlt)⟩, hp⟩
      exact hmore.restored hn body
    · obtain ⟨-, -, -, -, -, hp⟩ := h
      exact ⟨rfl, fun _ => ⟨rfl, rfl⟩, (nomatch ·), le_rfl, ⟨fun _ => rfl, fun _ => rfl⟩, hp⟩

theorem BoardModule.Ok.remap {p : Option Mapping} (hp : p.all (fun q => decide q.Ok) = true) : (m.remap p).Ok := by
  obtain ⟨-, -, -, ht, hs, -⟩ := h
  rw [BoardModule.remap]
  split
  · exact ⟨rfl, fun _ => ⟨rfl, rfl⟩, (nomatch ·), ht, hs, hp⟩
  · rename_i hn
    exact ⟨FieldSet.inter_self _, fun e => absurd e hn, fun e => Option.isNone_iff_eq_none.1 e, ht, hs, hp⟩

theorem BoardModule.Ok.restart : m.restart.Ok := by
  obtain ⟨-, -, -, -, -, hp⟩ := h
  refine ⟨FieldSet.inter_self _, (nomatch ·), fun e => ?_, Nat.zero_le _,
    ⟨(nomatch ·), fun e => absurd e (by decide : (0 : Nat) ≠ 3)⟩, hp⟩
  simp only [BoardModule.restart, Bool.and_eq_true] at e
  exact Option.isNone_iff_eq_none.1 e.1

end

theorem BoardModule.powerOn_ok : BoardModule.powerOn.Ok := by decide

/-! ### A line -/

/-- The rules of a line but for what it would choose, which a choice restores. -/
structure BoardLine.Kept (b : BoardLine) : Prop where
  modules : ∀ i : ModuleNo, (b.modules[i]).Ok
  marks : b.MarksBut []

/-- The rules of a line: `State.BoardInv` at one line. -/
abbrev BoardLine.Rules (b : BoardLine) : Prop := (∀ i : ModuleNo, (b.modules[i]).Ok) ∧ b.MarksOk ∧ b.IdleOk

theorem BoardLine.rules_iff (b : BoardLine) : b.Rules ↔ b.Kept ∧ b.IdleOk :=
  ⟨fun ⟨hm, hk, hi⟩ => ⟨⟨hm, b.marksOk_iff.1 hk⟩, hi⟩, fun ⟨h, hi⟩ => ⟨h.modules, b.marksOk_iff.2 h.marks, hi⟩⟩

theorem BoardLine.idleOk_iff (b : BoardLine) : b.IdleOk ↔ (b.inFlight = none → b.broadcast = none
    ∧ (∀ j : ModuleNo, (b.modules[j]).eligible = false) ∧ ∀ j : ModuleNo, (b.modules[j]).swept = false) := by
  rw [← BoardLine.bestWaiting_eq_none, ← BoardLine.sweepNext_eq_none]

section
variable {b : BoardLine} (h : b.Kept)
include h

/-- The rules read the modules and the register alone. -/
theorem BoardLine.Kept.congr {c : BoardLine} (hm : c.modules = b.modules) (hr : c.markReg = b.markReg) : c.Kept := by
  have hmark (j : ModuleNo) : c.mark j = b.mark j := by rw [BoardLine.mark, hm]
  refine ⟨fun i => by rw [hm]; exact h.modules i, ⟨hr ▸ h.marks.register, fun j hj => ?_, fun j n hn => ?_, fun i j n hi hj => ?_⟩⟩
  · rw [hmark, hm]
    exact h.marks.waiting j hj
  · rw [hr]
    exact h.marks.below j n ((hmark j).symm.trans hn)
  · exact h.marks.injective i j n ((hmark i).symm.trans hi) ((hmark j).symm.trans hj)

/-- A module changed, its rules and its mark kept (R98). -/
theorem BoardLine.Kept.change {i : ModuleNo} {f : BoardModule → BoardModule} (hf : (f b.modules[i]).Ok)
    (hmark : (f b.modules[i]).mark = (b.modules[i]).mark) : (b.change i f).Kept := by
  refine ⟨fun j => ?_, BoardLine.MarksBut.settleMark ?_⟩
  · obtain ⟨k, hk⟩ := b.change_module i f j
    rw [hk]
    split
    · exact hf.set k _
    · exact (h.modules j).set k _
  · have hkept (j : ModuleNo) : BoardLine.mark { b with modules := vupd b.modules i f } j = b.mark j := by
      rw [BoardLine.mark, vupd_get]
      split
      · rename_i e
        subst e
        exact hmark
      · rfl
    refine ⟨h.marks.register, fun j hj => ?_, fun j n hn => h.marks.below j n ((hkept j).symm.trans hn),
      fun j l n hj hl => h.marks.injective j l n ((hkept j).symm.trans hj) ((hkept l).symm.trans hl)⟩
    rw [hkept, h.marks.waiting j List.not_mem_nil, vupd_ne _ _ (List.ne_of_not_mem_cons hj)]

theorem BoardLine.Kept.markFields (i : ModuleNo) (fs : FieldSet) : (b.markFields i fs).Kept := by
  rw [BoardLine.markFields]
  split
  · exact h
  · rename_i hn
    exact h.change ((h.modules i).mark (fun e => hn (.inl e)) fs) rfl

/-- A transfer put in flight, or its end, with whatever the rules do not read. -/
theorem BoardLine.Kept.set (t : Option Transfer) (f : Option FeedState) (i : ModuleNo) (x y : Nat) :
    ({ b with inFlight := t, broadcast := f, sweep := i, holds := x, timeouts := y } : BoardLine).Kept :=
  h.congr rfl rfl

theorem BoardLine.Kept.startFields (records : Records) (lamps : RowLamps) (i : ModuleNo) (body : TransferBody)
    (issue : Nat) (fs : FieldSet) : (b.startFields records lamps i body issue fs).Kept := by
  have hsent : ({ b with
      inFlight := some ⟨body, transferChars i.val (rowBlocks records lamps issue fs), none⟩ } : BoardLine).Kept :=
    h.congr rfl rfl
  exact hsent.change (f := fun m => { m with dirty := .empty }) (h.modules i).clearDirty rfl

theorem BoardLine.Kept.startBlanking (i : ModuleNo) : (b.startBlanking i).Kept := by
  have hsent : ({ b with inFlight := some ⟨.blanking i, transferChars i.val [0x0E], none⟩ } : BoardLine).Kept :=
    h.congr rfl rfl
  exact hsent.change (f := fun m => { m with blanking := false }) (h.modules i).clearBlanking rfl

/-- A choice keeps the rules, and restores that an idle line has nothing to choose (R110). -/
theorem BoardLine.Kept.choose (records : Records) (lampsOf : ModuleNo → RowLamps) :
    (b.choose records lampsOf).Rules := by
  have busy {c : BoardLine} (hc : c.Kept) (ht : c.inFlight.isSome = true) : c.Rules :=
    c.rules_iff.2 ⟨hc, fun e => by rw [e] at ht; cases ht⟩
  rcases hf : b.inFlight with _ | t
  · rcases b.choose_cases records lampsOf hf with ⟨f, -, e⟩ | ⟨-, i, -, e⟩ | ⟨-, -, i, hi, e⟩ | ⟨hb, hw, hs, e⟩ <;>
      rw [e]
    · exact busy (h.congr rfl rfl) rfl
    · rcases hp : (b.modules[i]).mapping with _ | p
      · rw [BoardLine.serve_blanking records lampsOf (.inl hp)]
        exact busy (h.startBlanking i) (by simp [BoardLine.startBlanking])
      · by_cases hd : (b.modules[i]).dirty = .empty
        · rw [BoardLine.serve_blanking records lampsOf (.inr hd)]
          exact busy (h.startBlanking i) (by simp [BoardLine.startBlanking])
        · rw [BoardLine.serve_fields records lampsOf hp hd]
          exact busy (h.startFields _ _ i _ _ _) (by simp [BoardLine.startFields])
    · obtain ⟨p, hp⟩ := Option.isSome_iff_exists.1 ((BoardModule.swept_iff _).1 (BoardLine.sweepNext_swept hi)).1
      rw [BoardLine.refresh_mapped records lampsOf hp]
      have hswept : ({ b with sweep := i } : BoardLine).Kept := h.congr rfl rfl
      exact busy (hswept.startFields _ _ i _ _ _) (by simp [BoardLine.startFields])
    · exact b.rules_iff.2 ⟨h, fun _ => ⟨hb, hw, hs⟩⟩
  · rw [BoardLine.choose_busy records lampsOf (by rw [hf]; rfl)]
    exact busy h (by rw [hf]; rfl)

theorem BoardLine.Kept.restart (f : FeedState) : (b.restart f).Kept := by
  have hmodule (j : ModuleNo) : (b.modules.map BoardModule.restart)[j] = (b.modules[j]).restart := Vector.getElem_map _ _
  let c : BoardLine := ⟨b.modules.map BoardModule.restart, 0, 31, none, some f, 0, 0⟩
  have hnone (j : ModuleNo) : c.mark j = none := by
    rw [BoardLine.mark, hmodule]
    rfl
  have hc : c.MarksBut (List.finRange 32 ++ []) := by
    refine ⟨Nat.zero_le _, fun j hj => absurd (List.mem_append_left _ (List.mem_finRange j)) hj, fun j n hn => ?_,
      fun i j n hi hj => ?_⟩
    · rw [hnone] at hn
      cases hn
    · rw [hnone] at hi
      cases hi
  refine ⟨fun j => ?_, BoardLine.MarksBut.settleMarks _ hc⟩
  have settle (is : List ModuleNo) (d : BoardLine) (hd : (d.modules[j]).Ok) :
      ((is.foldl BoardLine.settleMark d).modules[j]).Ok := by
    induction is generalizing d with
    | nil => exact hd
    | cons i is ih =>
      refine ih _ ?_
      obtain ⟨k, hk⟩ := (d.settleMark_frame i).2 j
      rw [hk]
      exact hd.set k _
  refine settle _ c ?_
  rw [hmodule]
  exact (h.modules j).restart

end

theorem BoardLine.Rules.tick {b : BoardLine} (h : b.Rules) : b.tick.Rules := by
  rw [BoardLine.rules_iff, BoardLine.idleOk_iff] at h ⊢
  obtain ⟨hk, hi⟩ := h
  have hmodule (j : ModuleNo) : b.tick.modules[j] = (b.modules[j]).tick := Vector.getElem_map _ _
  have hnone (m : BoardModule) : m.tick.backOff.isNone = m.backOff.isNone := Option.isNone_map
  refine ⟨⟨fun j => ?_, ⟨hk.marks.register, fun j hj => ?_, fun j n hn => ?_, fun i j n hni hnj => ?_⟩⟩, fun e => ?_⟩
  · rw [hmodule]
    exact (hk.modules j).set _ _
  · rw [BoardLine.mark, hmodule]
    exact hk.marks.waiting j hj
  · rw [BoardLine.mark, hmodule] at hn
    exact hk.marks.below j n hn
  · rw [BoardLine.mark, hmodule] at hni hnj
    exact hk.marks.injective i j n hni hnj
  · obtain ⟨hb, hw, hs⟩ := hi (Option.map_eq_none_iff.1 e)
    refine ⟨hb, fun j => ?_, fun j => ?_⟩
    · rw [hmodule, BoardModule.eligible, hnone]
      exact hw j
    · rw [hmodule, BoardModule.swept, hnone]
      exact hs j

/-- What neither the rules nor the choice read. -/
theorem BoardLine.Rules.counts {b : BoardLine} (h : b.Rules) (x y : Nat) :
    ({ b with holds := x, timeouts := y } : BoardLine).Rules := h

theorem BoardLine.powerOn_rules : BoardLine.powerOn.Rules := by
  have hmodule (j : ModuleNo) : BoardLine.powerOn.modules[j] = .powerOn := Vector.getElem_replicate _
  rw [BoardLine.rules_iff, BoardLine.idleOk_iff]
  refine ⟨⟨fun j => ?_, ⟨Nat.zero_le _, fun j _ => ?_, fun j n hn => ?_, fun i j n hi _ => ?_⟩⟩,
    fun _ => ⟨rfl, fun j => ?_, fun j => ?_⟩⟩
  · rw [hmodule]
    exact BoardModule.powerOn_ok
  · rw [BoardLine.mark, hmodule]
    rfl
  · rw [BoardLine.mark, hmodule] at hn
    cases hn
  · rw [BoardLine.mark, hmodule] at hi
    cases hi
  all_goals
    rw [hmodule]
    rfl

/-! ### The lines of the card -/

/-- The rules of every line but for what it would choose. -/
def State.BoardsKept (s : State) : Prop := ∀ l : LineNo, (s.boards[l]).Kept

section
variable {s u : State}

theorem State.BoardInv.rules (h : s.BoardInv) (l : LineNo) : (s.boards[l]).Rules := h l

theorem State.BoardInv.kept (h : s.BoardInv) : s.BoardsKept := fun l => ((BoardLine.rules_iff _).1 (h l)).1

theorem State.BoardInv.congr (h : s.BoardInv) (hb : u.boards = s.boards) : u.BoardInv := by
  rw [State.BoardInv, hb]
  exact h

theorem State.BoardsKept.congr (h : s.BoardsKept) (hb : u.boards = s.boards) : u.BoardsKept := by
  rw [State.BoardsKept, hb]
  exact h

/-- The choice of every line restores the rules. -/
theorem State.BoardsKept.chooseBoards (h : s.BoardsKept) : s.chooseBoards.BoardInv := by
  intro l
  rw [State.chooseBoards_board]
  exact (h l).choose _ _

theorem State.BoardsKept.setBoard (h : s.BoardsKept) {l : LineNo} {b : BoardLine} (hb : b.Kept) :
    (s.setBoard l b).BoardsKept := by
  intro k
  rw [State.setBoard_board]
  split
  · exact hb
  · exact h k

/-- One line set, and its choice. -/
theorem State.BoardInv.chooseBoard (h : s.BoardInv) {l : LineNo} {b : BoardLine} (hb : b.Kept)
    (hu : u.boards = s.boards.set l b) : (u.chooseBoard l).BoardInv := by
  have hline (k : LineNo) : u.boards[k] = if k = l then b else s.boards[k] := by
    rw [hu]
    exact getElem_set_fin _ _ _ _
  intro k
  rw [State.chooseBoard, State.setBoard_board]
  split
  · rw [hline, if_pos rfl]
    exact hb.choose _ _
  · rename_i hk
    rw [hline, if_neg hk]
    exact h k

/-- A transfer ended at a line, its module changed, with the notices and the choice that follow. -/
theorem State.BoardInv.ended (h : s.BoardInv) (l : LineNo) (i : ModuleNo) {f : BoardModule → BoardModule}
    (hf : ∀ m : BoardModule, m.Ok → (f m).Ok) (hmark : ∀ m, (f m).mark = m.mark) (x y : Nat) (ns : List (Byte × Text)) :
    (((s.setBoard l { s.boards[l].ended i f with holds := x, timeouts := y }).raiseAll ns).chooseBoard l).BoardInv := by
  have hk := h.kept l
  have hfree : ({ s.boards[l] with inFlight := none } : BoardLine).Kept := hk.congr rfl rfl
  have hended : (s.boards[l].ended i f).Kept := hfree.change (hf _ (hk.modules i)) (hmark _)
  have hcounted : ({ s.boards[l].ended i f with holds := x, timeouts := y } : BoardLine).Kept := hended.congr rfl rfl
  exact h.chooseBoard hcounted (by rw [State.raiseAll_frame]; rfl)

theorem BoardModule.restored_mark (m : BoardModule) (body : TransferBody) : (m.restored body).mark = m.mark := by
  unfold restored
  split
  · split <;> rfl
  · split <;> rfl
  · rfl
  · rfl

theorem BoardModule.missed_mark (m : BoardModule) (body : TransferBody) : (m.missed body).mark = m.mark := by
  rw [missed]
  split
  · rfl
  · split
    · exact BoardModule.restored_mark _ _
    · rfl

theorem BoardModule.remap_mark (m : BoardModule) (p : Option Mapping) : (m.remap p).mark = m.mark := by
  rw [remap]
  split <;> rfl

theorem State.BoardInv.acceptAt (h : s.BoardInv) (l : LineNo) (i : ModuleNo) : (acceptAt l i s).BoardInv := by
  rw [Machine.acceptAt]
  exact h.ended l i (fun _ hm => hm.answered) (fun _ => rfl) (s.boards[l].ended i BoardModule.answered).holds
    (s.boards[l].ended i BoardModule.answered).timeouts _

theorem State.BoardInv.holdAt (h : s.BoardInv) (l : LineNo) (i : ModuleNo) (t : Transfer) :
    (holdAt l i t s).BoardInv := by
  rw [Machine.holdAt]
  let f (m : BoardModule) : BoardModule := { m.answered.restored t.body with backOff := some Config.backOff }
  exact h.ended l i (f := f) (fun m hm => (hm.answered.restored (by simp [BoardModule.answered]) t.body).set _ _)
    (fun m => BoardModule.restored_mark m.answered t.body) _ (s.boards[l].ended i f).timeouts _

theorem State.BoardInv.missAt (h : s.BoardInv) (l : LineNo) (i : ModuleNo) (t : Transfer) :
    (missAt l i t s).BoardInv := by
  rw [Machine.missAt]
  exact h.ended l i (f := fun m => m.missed t.body) (fun m hm => hm.missed t.body) (fun m => m.missed_mark t.body)
    (s.boards[l].ended i fun m => m.missed t.body).holds _ _

theorem State.BoardsKept.markRow (h : s.BoardsKept) (fs : FieldSet) (r : RowNo) : (s.markRow fs r).BoardsKept := by
  intro l
  rw [State.markRow_board]
  split
  · exact (h l).markFields _ fs
  · exact h l

theorem State.BoardsKept.markRows (h : s.BoardsKept) (fs : FieldSet) (rs : List RowNo) :
    (s.markRows fs rs).BoardsKept := by
  induction rs generalizing s with
  | nil => exact h
  | cons r rs ih => exact ih (h.markRow fs r)

theorem State.BoardsKept.moveLamps (h : s.BoardsKept) (r : RowNo) (y : RowLamps) : (s.moveLamps r y).BoardsKept := by
  rw [State.moveLamps_eq]
  rcases lampsMark s.lamps[r] y with _ | _
  · exact h.congr rfl
  · exact State.BoardsKept.congr (h.markRow .lampsOnly r) rfl

theorem State.BoardsKept.noticeRows (h : s.BoardsKept) (n : ChangeNotice) (rs : List RowNo) :
    (s.noticeRows n rs).BoardsKept := by
  induction rs generalizing s with
  | nil => exact h
  | cons r rs ih =>
    refine ih ?_
    rw [State.noticeRow]
    split
    · exact h.moveLamps r _
    · exact h

theorem State.BoardsKept.darkenRows (h : s.BoardsKept) (rs : List RowNo) : (s.darkenRows rs).BoardsKept := by
  induction rs generalizing s with
  | nil => exact h
  | cons r rs ih => exact ih (h.moveLamps r _)

theorem State.BoardInv.tellBoards (h : s.BoardInv) (f : FeedState) : (s.tellBoards f).BoardInv := by
  rw [State.tellBoards]
  refine State.BoardsKept.chooseBoards fun l => ?_
  have htold : (s.boards.map fun b : BoardLine => { b with broadcast := some f })[l] =
      { s.boards[l] with broadcast := some f } := Vector.getElem_map _ _
  exact (h.kept l).congr ((congrArg BoardLine.modules htold).trans rfl) ((congrArg BoardLine.markReg htold).trans rfl)

theorem State.BoardInv.announceOpen (h : s.BoardInv) : s.announceOpen.BoardInv := by
  rw [State.announceOpen]
  exact (h.kept.darkenRows _).chooseBoards

theorem State.BoardInv.returnLive (h : s.BoardInv) : s.returnLive.BoardInv := by
  rcases hf : s.feed.feedState with _ | _
  · rwa [State.returnLive_live hf]
  · rw [State.returnLive_quiet hf, State.tellTerminals]
    have htold : (State.tellBoards ({ s with feed := { s.feed with feedState := .live } }.raise 0x04 []) .live).BoardInv :=
      State.BoardInv.tellBoards (h.congr rfl) .live
    exact htold.congr rfl

theorem State.BoardInv.goQuiet (h : s.BoardInv) : s.goQuiet.BoardInv := by
  rw [State.goQuiet]
  dsimp only
  rw [State.tellTerminals]
  refine State.BoardInv.congr (State.BoardInv.tellBoards (h.congr ?_) .quiet) rfl
  rfl

theorem State.BoardInv.checked (h : s.BoardInv) (f : Frame) : (s.checked f).BoardInv := by
  rcases s.checked_reaches f with ⟨hb, -⟩ | ⟨w, hw, hb, -⟩
  · exact h.congr hb
  · have hlive : w.returnLive.BoardInv := State.BoardInv.returnLive (h.congr (by rw [hw]))
    exact hlive.congr hb

/-- A row set: its module, its lamps with their marking, and the choice of its line (R96, R126). -/
theorem State.BoardInv.mapRow (h : s.BoardInv) (r : RowNo) {p : Option Mapping}
    (hp : p.all (fun q => decide q.Ok) = true) : (s.mapRow r p).BoardInv := by
  have hk := h.kept (rowLine r)
  have hremap := hk.change (i := rowModule r) (f := fun m => m.remap p) ((hk.modules _).remap hp) (BoardModule.remap_mark _ p)
  -- the lamps of a row mark its own line alone
  have moved (t : State) (y : RowLamps) (c : Prop) [Decidable c] (b : BoardLine) (hb : b.Kept)
      (ht : t.boards = s.boards.set (rowLine r) b) : ((if c then t else t.moveLamps r y).chooseBoard (rowLine r)).BoardInv := by
    split
    · exact h.chooseBoard hb ht
    · rw [State.moveLamps_eq]
      rcases lampsMark t.lamps[r] y with _ | _
      · exact h.chooseBoard hb ht
      · refine h.chooseBoard (b := b.markFields (rowModule r) .lampsOnly) (hb.markFields _ _) ?_
        simp [State.markRow, ht]
  unfold State.mapRow
  dsimp only
  exact moved _ _ _ _ hremap rfl

theorem State.BoardInv.mapLines (h : s.BoardInv) {f : BoardLine → BoardLine} (hf : ∀ b : BoardLine, b.Rules → (f b).Rules)
    (hu : u.boards = s.boards.map f) : u.BoardInv := by
  intro l
  rw [hu, show (s.boards.map f)[l] = f s.boards[l] from Vector.getElem_map _ _]
  exact hf _ (h l)

theorem State.BoardInv.restartBlocks (h : s.BoardInv) (serial : Nat) : (s.restartBlocks serial).BoardInv := by
  have trans (a u v w : State) (ha : a.BoardsKept) (hu : u = a.chooseBoards)
      (hv : v = { u with terminals := v.terminals, termLines := v.termLines, alerts := v.alerts })
      (hw : w = { v with termLines := w.termLines }) : w.BoardInv := by
    rw [hw, hv, hu]
    exact ha.chooseBoards
  unfold State.restartBlocks
  dsimp only
  refine trans _ _ _ _ (fun l => ?_) rfl (State.restartTerminals_frame _) (State.chooseTerms_frame _)
  rw [State.restartLamps, show (s.boards.map fun b : BoardLine => b.restart s.feed.feedState)[l] =
    (s.boards[l]).restart s.feed.feedState from Vector.getElem_map _ _]
  exact (h.kept l).restart _

/-! ### The moves -/

theorem DataMove.boardInv (hm : DataMove s u) (h : s.BoardInv) : u.BoardInv := by
  rcases hm.frame with ⟨present, clock, roll, rfl⟩ | rfl | e
  · exact State.BoardInv.congr (State.BoardInv.announceOpen (s := s.openSession present clock) (h.congr rfl)) rfl
  · exact h.returnLive.congr rfl
  · rw [e]
    exact h

theorem ControlMove.boardInv (hm : ControlMove s u) (h : s.BoardInv) : u.BoardInv := by
  cases hm with
  | nothing | draw | loadIssue | deleteIssue | watch | clearAlert | setFlashList | setLamps | setFeed => exact h
  | blankRow r => exact h.mapRow r rfl
  | setRow hr hp => exact h.mapRow _ (decide_eq_true hp)
  | setAlert =>
    rw [State.evaluate_frame]
    exact h
  | setTape =>
    rw [State.setTape_frame]
    exact h
  | enable =>
    rw [State.enableTerm_frame]
    exact h
  | disable =>
    rw [State.disableTerm_frame]
    exact h
  | clearCounts => exact h.mapLines (fun b hb => hb.counts 0 0) rfl

theorem LineMove.boardInv (hm : LineMove s u) (h : s.BoardInv) : u.BoardInv := by
  cases hm with
  | @boardNotice n rest =>
    exact State.BoardsKept.chooseBoards (State.BoardsKept.markRows (s := { s with boardNotices := rest })
      (h.kept.congr rfl) n.fields n.rows)
  | transferSent l ht =>
    intro k
    rw [State.setBoard_board]
    split
    · exact (BoardLine.rules_iff _).2 ⟨(h.kept l).congr rfl rfl, (nomatch ·)⟩
    · exact h k
  | broadcastSent l =>
    have hfree : ({ s.boards[l] with inFlight := none } : BoardLine).Kept := (h.kept l).congr rfl rfl
    exact h.chooseBoard hfree rfl
  | accept l => exact h.acceptAt l _
  | hold l => exact h.holdAt l _ _
  | miss l => exact h.missAt l _ _
  | backOffEnd l i =>
    refine h.chooseBoard (b := { s.boards[l] with
      modules := vupd s.boards[l].modules i fun m => { m with backOff := none } }) ?_ rfl
    have hk := h.kept l
    have hmark (j : ModuleNo) : (vupd s.boards[l].modules i fun m => { m with backOff := none })[j] =
        { (s.boards[l]).modules[j] with
          backOff := if j = i then none else ((s.boards[l]).modules[j]).backOff } := by
      rw [vupd_get]
      split
      · rename_i e
        subst e
        rfl
      · rfl
    refine ⟨fun j => ?_, ⟨hk.marks.register, fun j hj => ?_, fun j n hn => ?_, fun p q n hp hq => ?_⟩⟩
    · rw [hmark]
      exact (hk.modules j).set _ _
    · rw [BoardLine.mark, hmark]
      exact hk.marks.waiting j hj
    · rw [BoardLine.mark, hmark] at hn
      exact hk.marks.below j n hn
    · rw [BoardLine.mark, hmark] at hp hq
      exact hk.marks.injective p q n hp hq
  | @lampNotice n rest =>
    exact State.BoardsKept.chooseBoards (State.BoardsKept.noticeRows (s := { s with lampNotices := rest })
      (h.kept.congr rfl) n n.rows)
  | phaseEnd r => exact State.BoardsKept.chooseBoards (h.kept.moveLamps r _)
  | terminalNotice => exact h.congr rfl
  | terminal ht =>
    rw [ht.frame]
    exact h
  | alertNotice =>
    rw [State.noticeSlots_frame]
    exact h

theorem Move.boardInv (hm : Move s u) (h : s.BoardInv) : u.BoardInv := by
  cases hm with
  | powerOn =>
    intro l
    rw [show (State.powerOn _ _ s.upstream.readyAbove s.pending).boards[l] = .powerOn from Vector.getElem_replicate _]
    exact BoardLine.powerOn_rules
  | idle | character | failure | throughEnd | switchOn | switchOff | upstreamCharacter | upstreamFrame
  | upstreamEnd | readyLine => exact h
  | tick => exact h.mapLines (fun b hb => hb.tick) rfl
  | frame a f => exact State.BoardInv.checked (s := { s with feed := { s.feed with assembler := a } }) h f
  | quiet => exact h.goQuiet
  | data v hd => exact hd.boardInv h
  | claim =>
    rw [State.takeClaim_frame]
    exact h
  | execute table r data hi hc => exact hc.boardInv h
  | broadcast hi hc => exact hc.boardInv h
  | @restart op =>
    have hblocks := State.BoardInv.restartBlocks (s := s.finished) h op.serial
    rw [State.restart_frame]
    generalize s.finished.restartBlocks op.serial = w at hblocks ⊢
    exact hblocks.congr rfl
  | restartAll op =>
    have hblocks := State.BoardInv.restartBlocks (s := s.dropHead) h op.serial
    rw [State.restart_frame]
    generalize s.dropHead.restartBlocks op.serial = w at hblocks ⊢
    exact hblocks.congr rfl
  | tapeJoin | tapeCharacter | flashExpiry =>
    rw [State.tookTape_frame]
    exact h
  | line hl => exact hl.boardInv h

end

end Sys2Proof.Machine
end

