-- ==== Sys2Proof/Proofs/LampsKept.lean ====
section
/-! PROOFS. Every step keeps the rules of the lamps (R118, R124, R125): what each operation leaves of a row's lamps, and
that a flash keeps its count and a blank row stays dark. -/

namespace Sys2Proof.Machine

/-! ### An arrow -/

section
variable {a : Arrow} {p : LampParams} (h : a.Ok p.flashCount) (hc : 1 ≤ p.flashCount)

theorem LampParams.freshFlash_ok (p : LampParams) (hc : 1 ≤ p.flashCount) :
    (Arrow.flashUp p.freshFlash).Ok p.flashCount ∧ (Arrow.flashDown p.freshFlash).Ok p.flashCount :=
  ⟨decide_eq_true ⟨hc, le_rfl⟩, decide_eq_true ⟨hc, le_rfl⟩⟩

include h in
theorem Arrow.Ok.tickTimer : a.tickTimer.Ok p.flashCount := by
  cases a <;> exact h

include h in
theorem Arrow.Ok.expire : (a.expire p).Ok p.flashCount := by
  have flashed {f g : Flash} (hf : 1 ≤ f.remaining ∧ f.remaining ≤ p.flashCount) (hg : f.expire p = some g) :
      1 ≤ g.remaining ∧ g.remaining ≤ p.flashCount := by
    rw [Flash.expire] at hg
    split at hg
    · cases hg
      exact hf
    · split at hg <;> cases hg
      dsimp only
      omega
  cases a with
  | steadyNone | steadyUp | steadyDown => rfl
  | flashUp f =>
    have hf := of_decide_eq_true (show decide (1 ≤ f.remaining ∧ f.remaining ≤ p.flashCount) = true from h)
    rw [Arrow.expire]
    split
    · exact decide_eq_true (flashed hf ‹_›)
    · rfl
  | flashDown f =>
    have hf := of_decide_eq_true (show decide (1 ≤ f.remaining ∧ f.remaining ≤ p.flashCount) = true from h)
    rw [Arrow.expire]
    split
    · exact decide_eq_true (flashed hf ‹_›)
    · rfl

include h hc in
theorem RowLamps.noticed_ok {x : RowLamps} (hx : x.arrow = a) (n : ChangeNotice) :
    (x.noticed p n).arrow.Ok p.flashCount := by
  obtain ⟨hup, hdown⟩ := p.freshFlash_ok hc
  subst hx
  rw [RowLamps.noticed]
  dsimp only
  split
  · rfl
  · split
    · split
      · unfold Arrow.tickUp
        split
        · rename_i e
          rw [e] at h
          exact h
        · exact hup
      · unfold Arrow.tickDown
        split
        · rename_i e
          rw [e] at h
          exact h
        · exact hdown
    · exact h

end

/-- A flash cut to a new count (R125). -/
theorem Arrow.Ok.cut {a : Arrow} {old new : Nat} (h : a.Ok old) (hc : 1 ≤ new) : (a.cut new).Ok new := by
  have cut {f : Flash} (hf : 1 ≤ f.remaining) : 1 ≤ min f.remaining new ∧ min f.remaining new ≤ new := by omega
  cases a with
  | steadyNone | steadyUp | steadyDown => rfl
  | flashUp f | flashDown f =>
    have hf := of_decide_eq_true (show decide (1 ≤ f.remaining ∧ f.remaining ≤ old) = true from h)
    exact decide_eq_true (cut hf.1)

/-! ### The rows -/

/-- The rules of one row's lamps: `State.LampInv` at one row. -/
abbrev RowLamps.Ok (x : RowLamps) (count : Nat) (issue : Option Nat) : Prop :=
  x.arrow.Ok count ∧ (issue = none → x = .dark)

theorem RowLamps.dark_ok (count : Nat) (issue : Option Nat) : RowLamps.dark.Ok count issue := ⟨rfl, fun _ => rfl⟩

theorem RowLamps.remapped_ok {halted : Bool} {issue : Option Nat} (count : Nat) (h : issue = none → halted = false) :
    (RowLamps.remapped halted).Ok count issue := ⟨rfl, fun e => by rw [h e]; rfl⟩

section
variable {s u : State} (h : s.LampInv)
include h

/-- Lamps that keep their rules, with the parameters as they stand and each row showing what it did. -/
theorem State.LampInv.rows (hp : u.lampParams = s.lampParams) (hi : u.rowIssue = s.rowIssue)
    (hl : ∀ r : RowNo, (u.lamps[r]).Ok s.lampParams.flashCount (s.rowIssue r)) : u.LampInv := by
  obtain ⟨ho, hf, hc, -⟩ := h
  rw [State.LampInv, hp, hi]
  exact ⟨ho, hf, hc, hl⟩

theorem State.LampInv.row (r : RowNo) : (s.lamps[r]).Ok s.lampParams.flashCount (s.rowIssue r) := h.2.2.2 r

theorem State.LampInv.count : 1 ≤ s.lampParams.flashCount := h.2.2.1.1

theorem State.LampInv.same (hp : u.lampParams = s.lampParams) (hi : u.rowIssue = s.rowIssue) (hl : u.lamps = s.lamps) :
    u.LampInv := by
  refine State.LampInv.rows h hp hi fun r => ?_
  rw [hl]
  exact State.LampInv.row h r

/-- One row's lamps changed. -/
theorem State.LampInv.moveLamps {r : RowNo} {y : RowLamps} (hy : y.Ok s.lampParams.flashCount (s.rowIssue r)) :
    (s.moveLamps r y).LampInv := by
  refine State.LampInv.rows h (by rw [State.moveLamps_eq]) (funext (State.moveLamps_rowIssue s r y)) fun q => ?_
  by_cases hq : q = r
  · subst hq
    rw [State.moveLamps_self]
    exact hy
  · rw [State.moveLamps_ne _ _ hq]
    exact State.LampInv.row h q

theorem State.LampInv.chooseBoards : s.chooseBoards.LampInv :=
  State.LampInv.same h (by rw [State.chooseBoards_frame]) (State.chooseBoards_rows s) (by rw [State.chooseBoards_frame])

theorem State.LampInv.phaseEnd (r : RowNo) :
    (s.moveLamps r { s.lamps[r] with arrow := (s.lamps[r]).arrow.expire s.lampParams }).LampInv := by
  obtain ⟨ha, hd⟩ := State.LampInv.row h r
  refine State.LampInv.moveLamps h ⟨ha.expire, fun e => ?_⟩
  rw [hd e]
  rfl

theorem State.LampInv.announceOpen : s.announceOpen.LampInv := by
  rw [State.announceOpen]
  refine State.LampInv.chooseBoards (State.LampInv.rows h (by rw [State.darkenRows_frame])
    (State.darkenRows_rowIssue _ _) fun r => ?_)
  rw [State.darkenRows_lamps, if_pos (List.mem_finRange r)]
  exact RowLamps.dark_ok _ _

theorem State.LampInv.tick : s.tick.LampInv := by
  refine State.LampInv.rows h rfl (State.tick_rowIssue s) fun r => ?_
  rw [show s.tick.lamps[r] = (s.lamps[r]).tick from Vector.getElem_map _ _]
  obtain ⟨ha, hd⟩ := State.LampInv.row h r
  refine ⟨ha.tickTimer, fun e => ?_⟩
  rw [hd e]
  rfl

theorem State.LampInv.loadLamps {p : LampParams} (ho : 1 ≤ p.onTime ∧ p.onTime ≤ 255)
    (hf : 1 ≤ p.offTime ∧ p.offTime ≤ 255) (hc : 1 ≤ p.flashCount ∧ p.flashCount ≤ 15) : (s.loadLamps p).LampInv := by
  refine ⟨ho, hf, hc, fun r => ?_⟩
  rw [show (s.loadLamps p).lamps[r] = { s.lamps[r] with arrow := (s.lamps[r]).arrow.cut p.flashCount } from
    Vector.getElem_map _ _]
  obtain ⟨ha, hd⟩ := State.LampInv.row h r
  refine ⟨ha.cut hc.1, fun e => ?_⟩
  rw [hd e]
  rfl

end

theorem State.LampInv.noticeRows {s : State} (h : s.LampInv) (n : ChangeNotice) (rs : List RowNo) :
    (s.noticeRows n rs).LampInv := by
  induction rs generalizing s with
  | nil => exact h
  | cons r rs ih =>
    refine ih ?_
    rw [State.noticeRow]
    split
    · rename_i hr
      exact State.LampInv.moveLamps h ⟨RowLamps.noticed_ok (State.LampInv.row h r).1 (State.LampInv.count h) rfl n,
        fun e => absurd (hr.symm.trans e) (Option.some_ne_none _)⟩
    · exact h

theorem State.mapRow_lamps (s : State) (r : RowNo) (p : Option Mapping) :
    (s.mapRow r p).lamps = if s.rowIssue r = p.map Mapping.issue then s.lamps
      else s.lamps.set r (RowLamps.remapped (s.mappingHalted p)) := by
  have moved (t : State) (y : RowLamps) (c : Prop) [Decidable c] :
      ((if c then t else t.moveLamps r y).chooseBoard (rowLine r)).lamps = if c then t.lamps else t.lamps.set r y := by
    rw [State.chooseBoard, State.setBoard_lamps]
    split
    · rfl
    · rw [State.moveLamps_eq]
  unfold State.mapRow
  dsimp only
  exact moved _ _ _

theorem State.LampInv.mapRow {s : State} (h : s.LampInv) (r : RowNo) (p : Option Mapping) : (s.mapRow r p).LampInv := by
  have hp : (s.mapRow r p).lampParams = s.lampParams := by rw [State.mapRow_frame]
  have hlamps := State.mapRow_lamps s r p
  obtain ⟨ho, hf, hc, hrows⟩ := h
  rw [State.LampInv, hp]
  refine ⟨ho, hf, hc, fun q => ?_⟩
  rw [State.mapRow_rowIssue, hlamps]
  by_cases hq : q = r
  · subst hq
    rw [if_pos rfl]
    split
    · rename_i e
      exact ⟨(hrows q).1, fun hn => (hrows q).2 (e.trans hn)⟩
    · rw [getElem_set_fin, if_pos rfl]
      refine RowLamps.remapped_ok _ fun e => ?_
      rw [Option.map_eq_none_iff.1 e]
      rfl
  · rw [if_neg hq]
    split
    · exact hrows q
    · rw [getElem_set_fin, if_neg hq]
      exact hrows q

theorem State.LampInv.restartBlocks {s : State} (h : s.LampInv) (serial : Nat) :
    (s.restartBlocks serial).LampInv := by
  refine State.LampInv.rows h (by rw [State.restartBlocks_frame]) (State.restartBlocks_rowIssue s serial) fun r => ?_
  have hlamps : (s.restartBlocks serial).lamps[r] = RowLamps.remapped (s.rowHalted r) := by
    rw [(s.restartBlocks_displays serial).1]
    exact Vector.getElem_ofFn _
  rw [hlamps]
  refine RowLamps.remapped_ok _ fun e => ?_
  rw [State.rowHalted, e]

/-! ### The moves -/

section
variable {s u : State}

theorem DataMove.lampInv (hm : DataMove s u) (h : s.LampInv) : u.LampInv := by
  rcases hm.frame with ⟨present, clock, roll, rfl⟩ | rfl | e
  · have hopen : (s.openSession present clock).announceOpen.LampInv := State.LampInv.announceOpen h
    generalize (s.openSession present clock).announceOpen = w at hopen ⊢
    exact hopen
  · have hlive : s.returnLive.LampInv := State.LampInv.same h (by rw [State.returnLive_frame])
      (State.returnLive_rowIssue s) (by rw [State.returnLive_frame])
    exact State.LampInv.same hlive rfl rfl rfl
  · rw [e]
    exact h

theorem ControlMove.lampInv (hm : ControlMove s u) (h : s.LampInv) : u.LampInv := by
  cases hm with
  | nothing | draw | loadIssue | deleteIssue | watch | clearAlert | setFlashList | setFeed => exact h
  | blankRow | setRow => exact State.LampInv.mapRow h _ _
  | setAlert =>
    rw [State.evaluate_frame]
    exact h
  | setTape =>
    rw [State.setTape_frame]
    exact h
  | setLamps ho hf hc => exact State.LampInv.loadLamps h ho hf hc
  | enable =>
    rw [State.enableTerm_frame]
    exact h
  | disable =>
    rw [State.disableTerm_frame]
    exact h
  | clearCounts => exact State.LampInv.same h rfl (State.clearCounts_rowIssue s) rfl

theorem LineMove.lampInv (hm : LineMove s u) (h : s.LampInv) : u.LampInv := by
  cases hm with
  | @boardNotice n rest =>
    have hrow := State.markRows_rowIssue { s with boardNotices := rest } n.fields n.rows
    refine State.LampInv.chooseBoards ?_
    rw [State.markRows_frame] at hrow ⊢
    exact State.LampInv.same h rfl hrow rfl
  | transferSent l => exact State.LampInv.same h rfl (State.setBoard_rowIssue fun _ => rfl) rfl
  | broadcastSent l =>
    exact State.LampInv.same h rfl ((State.chooseBoard_rowIssue _ l).trans (State.setBoard_rowIssue fun _ => rfl)) rfl
  | accept l => exact State.LampInv.same h (by rw [acceptAt_frame]) (acceptAt_rowIssue s l _) (by rw [acceptAt_frame])
  | hold l => exact State.LampInv.same h (by rw [holdAt_frame]) (holdAt_rowIssue s l _ _) (by rw [holdAt_frame])
  | miss l => exact State.LampInv.same h (by rw [missAt_frame]) (missAt_rowIssue s l _ _) (by rw [missAt_frame])
  | backOffEnd l i =>
    exact State.LampInv.same h rfl ((State.chooseBoard_rowIssue _ l).trans
      (State.setBoard_rowIssue (vupd_view (f := fun m : BoardModule => { m with backOff := none })
        (view := BoardModule.mapping) (fun _ => rfl) (s.boards[l]).modules i))) rfl
  | @lampNotice n rest =>
    exact State.LampInv.chooseBoards (State.LampInv.noticeRows (s := { s with lampNotices := rest }) h n n.rows)
  | phaseEnd r => exact State.LampInv.chooseBoards (State.LampInv.phaseEnd h r)
  | terminalNotice => exact h
  | terminal ht =>
    rw [ht.frame]
    exact h
  | alertNotice =>
    rw [State.noticeSlots_frame]
    exact h

theorem lampInv_powerOn (unit : Byte) (on ready : Bool) (pending : List Instr) :
    (State.powerOn unit on ready pending).LampInv := by
  have hp : (State.powerOn unit on ready pending).lampParams = .default := rfl
  rw [State.LampInv, hp]
  refine ⟨by decide, by decide, by decide, fun r => ?_⟩
  rw [show (State.powerOn unit on ready pending).lamps[r] = .dark from Vector.getElem_replicate _]
  exact RowLamps.dark_ok _ _

theorem Move.lampInv (hm : Move s u) (h : s.LampInv) : u.LampInv := by
  cases hm with
  | powerOn unit on => exact lampInv_powerOn unit on s.upstream.readyAbove s.pending
  | idle | character | failure | throughEnd | switchOn | switchOff | upstreamCharacter | upstreamFrame
  | upstreamEnd | readyLine => exact h
  | tick => exact State.LampInv.tick h
  | frame a f =>
    have hrow := State.checked_rowIssue { s with feed := { s.feed with assembler := a } } f
    rw [State.checked_frame] at hrow ⊢
    exact State.LampInv.same h rfl hrow rfl
  | quiet =>
    have hrow := State.goQuiet_rowIssue s
    rw [State.goQuiet_frame] at hrow ⊢
    exact State.LampInv.same h rfl hrow rfl
  | data v hd => exact hd.lampInv (s := s.dropHead) h
  | claim =>
    rw [State.takeClaim_frame]
    exact h
  | execute table r data hi hc => exact hc.lampInv (s := s.finished) h
  | broadcast hi hc => exact hc.lampInv (s := s.dropHead) h
  | @restart op =>
    have hblocks := State.LampInv.restartBlocks (s := s.finished) h op.serial
    have hparams : (s.finished.restartBlocks op.serial).lampParams = s.lampParams := by rw [State.restartBlocks_frame]; rfl
    rw [State.restart_frame]
    generalize s.finished.restartBlocks op.serial = w at hblocks hparams ⊢
    exact State.LampInv.same hblocks hparams.symm rfl rfl
  | restartAll op =>
    have hblocks := State.LampInv.restartBlocks (s := s.dropHead) h op.serial
    have hparams : (s.dropHead.restartBlocks op.serial).lampParams = s.lampParams := by rw [State.restartBlocks_frame]; rfl
    rw [State.restart_frame]
    generalize s.dropHead.restartBlocks op.serial = w at hblocks hparams ⊢
    exact State.LampInv.same hblocks hparams.symm rfl rfl
  | tapeJoin | tapeCharacter | flashExpiry =>
    rw [State.tookTape_frame]
    exact h
  | line hl => exact hl.lampInv h

end

/-- Settles O56: every move keeps the rules of the lines, and those of the lamps. -/
theorem stepsKeepDisplays : Obligations.StepsKeepDisplays := by
  unfold Obligations.StepsKeepDisplays
  exact ⟨fun s t h hstep => step_keeps (P := State.BoardInv) (fun _ _ h => h) (fun _ _ h hm => hm.boardInv h) h hstep,
    fun s t h hstep => step_keeps (P := State.LampInv) (fun _ _ h => h) (fun _ _ h hm => hm.lampInv h) h hstep⟩

end Sys2Proof.Machine
end

