-- ==== Sys2Proof/Proofs/Places.lean ====
section
/-! PROOFS. Places freed at a terminal (R144, R160): the owed FEED status, then the owed alerts in ascending slot
number. -/

namespace Sys2Proof.Machine

/-! ### One terminal or line set -/

theorem State.setTerm_self (s : State) (t : TermNo) : s.setTerm t s.terminals[t] = s := by
  rw [setTerm, Fin.getElem_fin, Vector.set_getElem_self]

theorem State.setTerm_setTerm (s : State) (t : TermNo) (x y : Terminal) :
    (s.setTerm t x).setTerm t y = s.setTerm t y := by
  rw [setTerm, setTerm_terminals, Vector.set_set]
  rfl

theorem State.setTermLine_setTermLine (s : State) (l : LineNo) (x y : TermLine) :
    (s.setTermLine l x).setTermLine l y = s.setTermLine l y := by
  rw [setTermLine, setTermLine_termLines, Vector.set_set]
  rfl

/-! ### What a slot owes -/

/-- The message that a slot owes, built from the record and the clock as they stand. -/
def State.owes (s : State) (t : TermNo) (k : SlotNo) : Option OutMessage :=
  match (s.alerts[t])[k] with
  | none => none
  | some a =>
    if a.owed then (findRecord s.issues.records a.issue).map fun r => .alert (alertChars k a r s.issues.clock)
    else none

/-- The slots of a list that owe, each with its message. -/
def State.owing (s : State) (t : TermNo) (ks : List SlotNo) : List (SlotNo × OutMessage) :=
  ks.filterMap fun k => (s.owes t k).map fun m => (k, m)

/-- A slot that owes nothing more. -/
def paidSlot (a : AlertSlot) : AlertSlot := a.map fun a => { a with owed := false }

theorem State.owedSlots_eq (s : State) (t : TermNo) : s.owedSlots t = s.owing t (List.finRange 8) := by
  unfold owedSlots owing
  refine List.filterMap_congr fun k _ => ?_
  rcases ha : (s.alerts[t])[k] with _ | a
  · simp only [owes, ha, Option.map_none]
  · by_cases ho : a.owed = true
    · simp only [owes, ha, ho, if_true, Option.map_map, Function.comp_def]
    · simp only [owes, ha, ho, if_false, Option.map_none, Bool.false_eq_true]

theorem State.owes_congr {s u : State} {t : TermNo} {k : SlotNo} (ha : (u.alerts[t])[k] = (s.alerts[t])[k])
    (hi : u.issues = s.issues) : u.owes t k = s.owes t k := by
  rw [owes, owes, ha, hi]

theorem State.owing_congr {s u : State} {t : TermNo} {ks : List SlotNo}
    (ha : ∀ k ∈ ks, (u.alerts[t])[k] = (s.alerts[t])[k]) (hi : u.issues = s.issues) : u.owing t ks = s.owing t ks :=
  List.filterMap_congr fun k hk => by rw [State.owes_congr (ha k hk) hi]

theorem State.owing_length_le (s : State) (t : TermNo) (ks : List SlotNo) : (s.owing t ks).length ≤ ks.length :=
  List.length_filterMap_le _ _

theorem State.owing_slots_subset {s : State} {t : TermNo} {ks : List SlotNo} {k : SlotNo}
    (h : k ∈ (s.owing t ks).map Prod.fst) : k ∈ ks := by
  obtain ⟨p, hp, rfl⟩ := List.mem_map.1 h
  obtain ⟨j, hj, hm⟩ := List.mem_filterMap.1 hp
  obtain ⟨m, -, rfl⟩ := Option.map_eq_some_iff.1 hm
  exact hj

/-! ### One payment -/

/-- The card with a slot's owed message queued. -/
def State.paySlot (s : State) (t : TermNo) (k : SlotNo) (m : OutMessage) : State :=
  (s.setAlert t k (paidSlot (s.alerts[t])[k])).setTerm t ((s.terminals[t]).push m)

theorem State.paySlot_terminal (s : State) (t v : TermNo) (k : SlotNo) (m : OutMessage) :
    (s.paySlot t k m).terminals[v] = if v = t then (s.terminals[t]).push m else s.terminals[v] :=
  State.setTerm_term _ _ _ _

theorem State.paySlot_slot (s : State) (t v : TermNo) (k j : SlotNo) (m : OutMessage) :
    ((s.paySlot t k m).alerts[v])[j] = if v = t ∧ j = k then paidSlot (s.alerts[t])[k] else (s.alerts[v])[j] :=
  State.setAlert_slot _ _ _ _ _ _

theorem State.paySlot_slots (s : State) {t v : TermNo} (k : SlotNo) (m : OutMessage) (h : v ≠ t) :
    (s.paySlot t k m).alerts[v] = s.alerts[v] := by
  rw [paySlot, setTerm_alerts, setAlert_alerts, getElem_set_fin, if_neg h]

theorem Terminal.takesOffer_iff (x : Terminal) :
    x.takesOffer = true ↔ x.queue.length < 8 ∧ x.state ≠ .disabled := by
  rw [takesOffer, Bool.and_eq_true, decide_eq_true_iff, decide_eq_true_iff]
  rfl

/-- A slot that owes is paid where the terminal's queue takes its message (R160). -/
theorem State.payOwed_pays {s : State} {t : TermNo} {k : SlotNo} {m : OutMessage} (h : s.owes t k = some m)
    (ht : (s.terminals[t]).takesOffer = true) :
    s.payOwed t k = s.paySlot t k m := by
  rw [owes] at h
  split at h
  · cases h
  · rename_i a ha
    split at h
    · rename_i ho
      obtain ⟨r, hr, rfl⟩ := Option.map_eq_some_iff.1 h
      simp only [payOwed, ha, hr, ho, ht, and_self, if_true, paySlot, paidSlot, Option.map_some]
    · cases h

theorem State.payOwed_waits {s : State} {t : TermNo} {k : SlotNo}
    (h : s.owes t k = none ∨ (s.terminals[t]).takesOffer = false) : s.payOwed t k = s := by
  rw [payOwed]
  split
  · rfl
  · rename_i a ha
    split
    · rfl
    · rename_i r hr
      rw [if_neg]
      rintro ⟨ho, ht⟩
      rcases h with h | h
      · simp only [owes, ha, ho, hr, if_true, Option.map_some] at h
        cases h
      · rw [ht] at h
        cases h

/-! ### The slots one after another -/

/-- The owed slots of a list paid in its order while a place is free (R160): `sent` are those whose messages join. -/
structure State.Paid (s u : State) (t : TermNo) (sent : List (SlotNo × OutMessage)) : Prop where
  terminal : u.terminals[t] = { s.terminals[t] with queue := (s.terminals[t]).queue ++ sent.map Prod.snd }
  slot : ∀ k : SlotNo, (u.alerts[t])[k] =
    if k ∈ sent.map Prod.fst then paidSlot (s.alerts[t])[k] else (s.alerts[t])[k]
  others : ∀ v : TermNo, v ≠ t → u.terminals[v] = s.terminals[v] ∧ u.alerts[v] = s.alerts[v]

theorem State.Paid.none (s : State) (t : TermNo) : s.Paid s t [] :=
  ⟨by rw [List.map_nil, List.append_nil], fun _ => rfl, fun _ _ => ⟨rfl, rfl⟩⟩

/-- A payment before others, of a slot that is not among them. -/
theorem State.Paid.cons {s u : State} {t : TermNo} {k : SlotNo} {m : OutMessage} {sent : List (SlotNo × OutMessage)}
    (hk : k ∉ sent.map Prod.fst) (h : (s.paySlot t k m).Paid u t sent) : s.Paid u t ((k, m) :: sent) := by
  obtain ⟨hterm, hslot, hothers⟩ := h
  refine ⟨?_, fun j => ?_, fun v hv => ?_⟩
  · rw [hterm, State.paySlot_terminal, if_pos rfl, Terminal.push, List.map_cons, List.append_assoc,
      List.singleton_append]
  · rw [hslot j, State.paySlot_slot, List.map_cons]
    by_cases hj : j = k
    · subst hj
      rw [if_neg hk, if_pos ⟨rfl, rfl⟩, if_pos List.mem_cons_self]
    · simp only [hj, and_false, if_false, List.mem_cons, false_or]
  · obtain ⟨ht, ha⟩ := hothers v hv
    exact ⟨by rw [ht, State.paySlot_terminal, if_neg hv], by rw [ha, State.paySlot_slots _ _ _ hv]⟩

/-- With a full queue no slot is paid. -/
theorem State.payAll_full {s : State} {t : TermNo} (ks : List SlotNo) (h : (s.terminals[t]).takesOffer = false) :
    ks.foldl (State.payOwed t) s = s := by
  induction ks with
  | nil => rfl
  | cons k ks ih => rw [List.foldl_cons, State.payOwed_waits (.inr h), ih]

theorem State.payAll_paid (s : State) {t : TermNo} {ks : List SlotNo} (hks : ks.Nodup)
    (he : (s.terminals[t]).state ≠ .disabled) :
    s.Paid (ks.foldl (State.payOwed t) s) t ((s.owing t ks).take (8 - (s.terminals[t]).queue.length)) := by
  induction ks generalizing s with
  | nil =>
    rw [owing, List.filterMap_nil, List.take_nil]
    exact .none s t
  | cons k ks ih =>
    obtain ⟨hk, hks⟩ := List.nodup_cons.1 hks
    by_cases hroom : (s.terminals[t]).queue.length < 8
    · have htakes := (Terminal.takesOffer_iff _).2 ⟨hroom, he⟩
      rw [List.foldl_cons]
      rcases ho : s.owes t k with _ | m
      · have hnext : s.owing t (k :: ks) = s.owing t ks := by
          rw [owing, List.filterMap_cons_none (by rw [ho]; rfl), owing]
        rw [State.payOwed_waits (.inl ho), hnext]
        exact ih s hks he
      · have hnext : s.owing t (k :: ks) = (k, m) :: s.owing t ks := by
          rw [owing, List.filterMap_cons_some (by rw [ho]; rfl), owing]
        have hterm : (s.paySlot t k m).terminals[t] = (s.terminals[t]).push m := by
          rw [State.paySlot_terminal, if_pos rfl]
        have hsame : (s.paySlot t k m).owing t ks = s.owing t ks :=
          State.owing_congr (fun j hj => by
            rw [State.paySlot_slot, if_neg]
            rintro ⟨-, rfl⟩
            exact hk hj) rfl
        have hrest := ih (s.paySlot t k m) hks (by rw [hterm]; exact he)
        rw [hterm, hsame, Terminal.push, List.length_append, List.length_singleton] at hrest
        rw [State.payOwed_pays ho htakes, hnext,
          show 8 - (s.terminals[t]).queue.length = 8 - ((s.terminals[t]).queue.length + 1) + 1 by omega,
          List.take_succ_cons]
        refine State.Paid.cons (fun hmem => hk ?_) hrest
        obtain ⟨p, hp, rfl⟩ := List.mem_map.1 hmem
        exact State.owing_slots_subset (List.mem_map_of_mem (List.mem_of_mem_take hp))
    · have hfull : (s.terminals[t]).takesOffer = false :=
        Bool.eq_false_iff.2 fun h => hroom ((Terminal.takesOffer_iff _).1 h).1
      rw [State.payAll_full _ hfull, show 8 - (s.terminals[t]).queue.length = 0 by omega, List.take_zero]
      exact .none s t

/-! ### Places freed -/

/-- The FEED status that a freeing of places queues at a terminal (R144). -/
def State.feedPaid (s : State) (t : TermNo) : List OutMessage :=
  if (s.terminals[t]).feedOwed ∧ (s.terminals[t]).queue.length < 8 then [.feedStatus s.feed.feedState] else []

theorem State.payFeed_eq (s : State) (t : TermNo) :
    s.payFeed t = s.setTerm t { s.terminals[t] with
      queue := (s.terminals[t]).queue ++ s.feedPaid t
      feedOwed := (s.terminals[t]).feedOwed && (s.feedPaid t).isEmpty } := by
  unfold payFeed
  by_cases h : (s.terminals[t]).feedOwed = true ∧ (s.terminals[t]).queue.length < 8
  · have hpaid : s.feedPaid t = [.feedStatus s.feed.feedState] := if_pos h
    rw [hpaid, List.isEmpty_cons, Bool.and_false]
    exact if_pos h
  · have hpaid : s.feedPaid t = [] := if_neg h
    rw [hpaid, List.append_nil, List.isEmpty_nil, Bool.and_true]
    exact (if_neg h).trans (State.setTerm_self s t).symm

/-- Places freed at an enabled terminal: what joins its queue, and what is no longer owed (R144, R160). -/
theorem State.freePlaces_freed {s : State} {t : TermNo} (he : (s.terminals[t]).state ≠ .disabled) :
    s.Freed (s.freePlaces t) t (s.terminals[t]).queue
      ∧ (s.freePlaces t).terminals[t] = { s.terminals[t] with
          queue := ((s.freePlaces t).terminals[t]).queue, feedOwed := ((s.freePlaces t).terminals[t]).feedOwed }
      ∧ ∀ v : TermNo, v ≠ t →
          (s.freePlaces t).terminals[v] = s.terminals[v] ∧ (s.freePlaces t).alerts[v] = s.alerts[v] := by
  have hterm (v : TermNo) : (s.payFeed t).terminals[v] = if v = t then { s.terminals[t] with
      queue := (s.terminals[t]).queue ++ s.feedPaid t
      feedOwed := (s.terminals[t]).feedOwed && (s.feedPaid t).isEmpty } else s.terminals[v] := by
    rw [payFeed_eq, State.setTerm_term]
  have halerts : (s.payFeed t).alerts = s.alerts := by rw [payFeed_eq, setTerm_alerts]
  have hissues : (s.payFeed t).issues = s.issues := by rw [payFeed_eq, setTerm_issues]
  have hself := (hterm t).trans (if_pos rfl)
  obtain ⟨hpaid, hslot, hothers⟩ := (s.payFeed t).payAll_paid (List.nodup_finRange 8) (by rw [hself]; exact he)
  have howing : (s.payFeed t).owing t (List.finRange 8) = s.owedSlots t := by
    rw [State.owedSlots_eq]
    exact State.owing_congr (fun k _ => by rw [halerts]) hissues
  rw [howing, hself] at hpaid hslot
  rw [freePlaces]
  refine ⟨⟨?_, ?_, fun k => ?_⟩, ?_, fun v hv => ?_⟩
  · rw [hpaid]
    rfl
  · rw [hpaid]
    rfl
  · rw [hslot k, halerts]
    rfl
  · rw [hpaid]
  · rw [(hothers v hv).1, (hothers v hv).2, hterm, if_neg hv, halerts]
    exact ⟨rfl, rfl⟩

/-- What a freeing does depends on what the terminal and its slots owe alone. -/
theorem State.Freed.congr {s v u : State} {t : TermNo} {kept : List OutMessage} (h : v.Freed u t kept)
    (hf : (s.terminals[t]).feedOwed = (v.terminals[t]).feedOwed) (hs : s.feed.feedState = v.feed.feedState)
    (ha : s.alerts[t] = v.alerts[t]) (hr : s.issues.records = v.issues.records)
    (hc : s.issues.clock = v.issues.clock) : s.Freed u t kept := by
  have howed : s.owedSlots t = v.owedSlots t := by
    unfold owedSlots
    rw [ha, hr, hc]
  unfold Freed at h ⊢
  dsimp only at h ⊢
  rw [hf, hs, howed, ha]
  exact h

end Sys2Proof.Machine
end

