-- ==== Sys2Proof/Proofs/TerminalsKept.lean ====
section
/-! PROOFS. Every step keeps the terminals, their lines and the alert slots (R129, R131, R132, R135, R143, R155). -/

namespace Sys2Proof.Machine

/-! ### What is kept, place by place -/

/-- Every terminal and every slot as its rules say. -/
structure State.TermsOk (s : State) : Prop where
  terminal : ∀ t : TermNo, (s.terminals[t]).Ok
  slot : ∀ (t : TermNo) (k : SlotNo) (a : AlertSetting), (s.alerts[t])[k] = some a → a.Ok

/-- Which terminals are enabled. -/
def State.on (s : State) (t : TermNo) : Bool := (s.terminals[t]).enabled

/-- A line idle only while none of its terminals is enabled, and cut where its terminal is not (R131, R132). -/
structure TermLine.Kept (x : TermLine) (on : TermNo → Bool) (l : LineNo) : Prop where
  idle : x.inFlight = none → ∀ d, on (termOf l d) = false
  cut : ∀ y, x.inFlight = some y → (on (termOf l y.drop) || y.cut) = true

/-- Every terminal line as its rules say. -/
def State.LinesOk (s : State) : Prop := ∀ l : LineNo, (s.termLines[l]).Kept s.on l

theorem State.nextDrop_eq_none (s : State) (l : LineNo) :
    s.nextDrop l = none ↔ ∀ d, s.on (termOf l d) = false := by
  constructor
  · intro h d
    by_contra he
    have := State.nextDrop_isSome (s := s) (l := l) (e := d) (by simpa [on, Terminal.enabled] using he)
    rw [h] at this
    cases this
  · intro h
    rw [← Option.not_isSome_iff_eq_none]
    intro hs
    obtain ⟨d, hd⟩ := Option.isSome_iff_exists.1 hs
    exact State.nextDrop_enabled hd (by simpa [on, Terminal.enabled] using h d)

theorem State.terms_iff (s : State) : s.TermInv ∧ s.AlertInv ↔ s.TermsOk ∧ s.LinesOk := by
  constructor
  · rintro ⟨⟨hterm, hidle, hcut⟩, halert⟩
    refine ⟨⟨hterm, fun t k a ha => ?_⟩, fun l => ⟨fun h => (s.nextDrop_eq_none l).1 (hidle l h), fun y hy => ?_⟩⟩
    · have := halert t k
      rw [ha] at this
      exact of_decide_eq_true this
    · have := hcut l
      rw [State.CutOk, hy] at this
      exact this
  · rintro ⟨⟨hterm, hslot⟩, hline⟩
    refine ⟨⟨hterm, fun l h => (s.nextDrop_eq_none l).2 ((hline l).idle h), fun l => ?_⟩, fun t k => ?_⟩
    · rw [State.CutOk]
      rcases hx : (s.termLines[l]).inFlight with _ | y
      · rfl
      · exact (hline l).cut y hx
    · rcases ha : (s.alerts[t])[k] with _ | a
      · rfl
      · exact decide_eq_true (hslot t k a ha)

theorem State.on_iff (s : State) (t : TermNo) : s.on t = true ↔ (s.terminals[t]).state ≠ .disabled := by
  simp [on, Terminal.enabled]

/-! ### One terminal -/

section
variable {x : Terminal}

/-- What an enabled terminal has to keep. -/
structure Terminal.Fit (x : Terminal) : Prop where
  state : x.state ≠ .disabled
  timeouts : x.timeouts ≤ 3
  offline : x.state = .offline ↔ x.timeouts = 3
  queue : x.queue.length ≤ 8
  watch : x.watch.length ≤ 24
  cursor : x.cursor < 24

theorem Terminal.Fit.ok (h : x.Fit) : x.Ok :=
  ⟨fun e => absurd e h.state, h.timeouts, h.offline, h.queue, h.watch, h.cursor⟩

theorem Terminal.Ok.fit (h : x.Ok) (he : x.state ≠ .disabled) : x.Fit := by
  obtain ⟨-, ht, ho, hq, hw, hc⟩ := h
  exact ⟨he, ht, ho, hq, hw, hc⟩

/-- The lists, the cursor and what is owed may change within their places. -/
theorem Terminal.Fit.lists (h : x.Fit) {ws : List WatchEntry} {c : Nat} {q : List OutMessage} (b f : Bool)
    (hw : ws.length ≤ 24) (hc : c < 24) (hq : q.length ≤ 8) :
    ({ x with watch := ws, lengthOwed := b, cursor := c, queue := q, feedOwed := f } : Terminal).Fit :=
  ⟨h.state, h.timeouts, h.offline, hq, hw, hc⟩

theorem Terminal.Fit.queued (h : x.Fit) {q : List OutMessage} (f : Bool) (hq : q.length ≤ 8) :
    ({ x with queue := q, feedOwed := f } : Terminal).Fit := h.lists x.lengthOwed f h.watch h.cursor hq

theorem Terminal.Fit.listed (h : x.Fit) {ws : List WatchEntry} (b : Bool) (hw : ws.length ≤ 24) :
    ({ x with watch := ws, lengthOwed := b } : Terminal).Fit := h.lists b x.feedOwed hw h.cursor h.queue

theorem Terminal.Fit.push (h : x.Fit) (m : OutMessage) (hq : x.queue.length < 8) : (x.push m).Fit :=
  h.queued x.feedOwed (by rw [List.length_append, List.length_singleton]; omega)

theorem Terminal.Fit.offerFeed (h : x.Fit) (f : FeedState) (carried : Bool) : (x.offerFeed f carried).Fit := by
  rcases x.offerFeed_cases f carried with ⟨q, hq, e⟩ | ⟨-, hl, e⟩ | ⟨-, -, e⟩ <;> rw [e]
  · exact h.queued x.feedOwed (by rw [replaceFeed_length hq]; exact h.queue)
  · exact h.push _ hl
  · exact h.queued true h.queue

/-- A terminal with a state that an answer, a miss or an ENABLE gives it. -/
theorem Terminal.Fit.standing (h : x.Fit) {st : TerminalState} {n : Nat} (hs : st ≠ .disabled) (hn : n ≤ 3)
    (ho : st = .offline ↔ n = 3) : ({ x with state := st, timeouts := n } : Terminal).Fit :=
  ⟨hs, hn, ho, h.queue, h.watch, h.cursor⟩

theorem Terminal.Fit.restored (h : x.Fit) (c : Carried) : (x.restored c).Fit := by
  cases c with
  | queued => exact h
  | entry n fs owed => exact h.listed _ (by rw [addPending, List.length_map]; exact h.watch)
  | length => exact h.listed _ h.watch

theorem mem_of_find?_range {n i : Nat} {p q : Nat → Bool} (h : ((List.range n).filter p).find? q = some i) :
    i < n := by
  have := List.mem_of_find?_eq_some h
  rw [List.mem_filter, List.mem_range] at this
  exact this.1

theorem Terminal.nextEntry_lt {i : Nat} (h : x.nextEntry = some i) : i < x.watch.length := by
  unfold nextEntry at h
  dsimp only at h
  split at h
  · obtain rfl := Option.some.inj h
    exact mem_of_find?_range ‹_›
  · exact mem_of_find?_range h

theorem Terminal.Fit.select (h : x.Fit) {rs : Records} {d : DropNo} {sel : Select} {y : Terminal}
    (hs : x.select rs d = some (sel, y)) : y.Fit := by
  rw [Terminal.select] at hs
  split at hs
  · cases hs
    exact h
  · split at hs
    · rename_i i hi
      split at hs
      · cases hs
        refine h.lists _ _ ?_ (lt_of_lt_of_le (Terminal.nextEntry_lt hi) h.watch) h.queue
        rw [clearPending, List.length_modify]
        exact h.watch
      · cases hs
    · split at hs
      · cases hs
        exact h.listed _ h.watch
      · cases hs

theorem length_markFrom (k : Nat) (ws : List WatchEntry) : (markFrom k ws).length = ws.length := by
  have := congrArg List.length (markFrom_issues k ws)
  rwa [List.length_map, List.length_map] at this

theorem pendingOf_empty {ws : List WatchEntry} (h : ∀ e ∈ ws, e.pending = .empty) (n : Nat) :
    pendingOf ws n = .empty := by
  induction ws with
  | nil => rfl
  | cons e es ih =>
    rw [pendingOf]
    split
    · exact h e List.mem_cons_self
    · exact ih fun e he => h e (List.mem_cons_of_mem _ he)

theorem Terminal.Ok.rewatch (h : x.Ok) {new : List Nat} (hn : new.length ≤ 24) : (x.rewatch new).Ok := by
  obtain ⟨hdis, ht, ho, hq, hw, hc⟩ := h
  rw [Terminal.rewatch]
  have hlen : (newEntries x.watch new).length = new.length := List.length_map _
  split
  · rename_i hs
    obtain ⟨he, hl, hf, h0, hp⟩ := hdis hs
    refine ⟨fun _ => ⟨he, hl, hf, h0, fun e hmem => ?_⟩, ht, ho, hq, hlen.trans_le hn, hc⟩
    obtain ⟨n, -, rfl⟩ := List.mem_map.1 hmem
    exact pendingOf_empty hp n
  · rename_i hs
    exact (Terminal.Fit.listed (x := x) ⟨hs, ht, ho, hq, hw, hc⟩ _
      (by rw [length_markFrom]; exact hlen.trans_le hn)).ok

theorem Terminal.Ok.noticed (h : x.Ok) (n : ChangeNotice) : (x.noticed n).Ok := by
  rw [Terminal.noticed]
  split
  · exact h
  · rename_i hs
    have hfit := h.fit hs
    exact (hfit.listed x.lengthOwed (by rw [addPending, List.length_map]; exact hfit.watch)).ok

theorem Terminal.Ok.disable (h : x.Ok) : x.disable.Ok := by
  obtain ⟨-, -, -, -, hw, hc⟩ := h
  refine ⟨fun _ => ⟨rfl, rfl, rfl, rfl, fun e he => ?_⟩, Nat.zero_le _, ⟨(nomatch ·), (nomatch ·)⟩, Nat.zero_le _,
    (List.length_map _).trans_le hw, hc⟩
  obtain ⟨e', -, rfl⟩ := List.mem_map.1 he
  rfl

theorem Terminal.Ok.restart (h : x.Ok) : x.restart.Ok := by
  rw [Terminal.restart]
  split
  · exact h
  · rename_i hs
    have hfit := h.fit hs
    exact Terminal.Fit.ok ⟨(nomatch ·), Nat.zero_le _, ⟨(nomatch ·), (nomatch ·)⟩, Nat.zero_le _,
      (List.length_map _).trans_le hfit.watch, (by decide : (23 : Nat) < 24)⟩

end

/-! ### The operations of the terminals and the slots -/

section
variable {s : State}

theorem State.TermsOk.setTerm (h : s.TermsOk) (t : TermNo) {x : Terminal} (hx : x.Ok) : (s.setTerm t x).TermsOk := by
  refine ⟨fun v => ?_, h.slot⟩
  rw [State.setTerm_term]
  split
  · exact hx
  · exact h.terminal v

theorem State.TermsOk.setAlert (h : s.TermsOk) (t : TermNo) (k : SlotNo) {x : AlertSlot}
    (hx : ∀ a, x = some a → a.Ok) : (s.setAlert t k x).TermsOk := by
  refine ⟨h.terminal, fun v j a ha => ?_⟩
  rw [State.setAlert_slot] at ha
  split at ha
  · exact hx a ha
  · exact h.slot v j a ha

/-- What reads the terminals and the slots alone. -/
theorem State.TermsOk.same {u : State} (h : s.TermsOk) (ht : u.terminals = s.terminals) (ha : u.alerts = s.alerts) :
    u.TermsOk := ⟨fun t => by rw [ht]; exact h.terminal t, fun t k a e => h.slot t k a (by rw [← ha]; exact e)⟩

theorem State.TermsOk.fit (h : s.TermsOk) {t : TermNo} (he : s.on t = true) : (s.terminals[t]).Fit :=
  (h.terminal t).fit ((s.on_iff t).1 he)

theorem State.setTerm_on (t : TermNo) {x : Terminal} (hx : x.enabled = (s.terminals[t]).enabled) :
    (s.setTerm t x).on = s.on := by
  funext v
  rw [State.on, State.setTerm_term]
  split
  · rename_i e
    subst e
    exact hx
  · rfl

theorem State.on_congr {u : State} (h : u.terminals = s.terminals) : u.on = s.on := by
  funext t
  rw [State.on, h]
  rfl

theorem Terminal.enabled_congr {x y : Terminal} (h : x.state = y.state) : x.enabled = y.enabled := by
  rw [Terminal.enabled, Terminal.enabled, h]

theorem Terminal.Fit.enabled {x : Terminal} (h : x.Fit) : x.enabled = true := decide_eq_true h.state

/-- A terminal that was enabled and still is. -/
theorem State.setTerm_on_of_fit {t : TermNo} {x : Terminal} (hx : x.Fit) (he : s.on t = true) :
    (s.setTerm t x).on = s.on := State.setTerm_on t (hx.enabled.trans he.symm)

theorem State.TermsOk.offerFeed (h : s.TermsOk) {t : TermNo} (he : s.on t = true) :
    (s.offerFeed t).TermsOk ∧ (s.offerFeed t).on = s.on :=
  ⟨h.setTerm t ((h.fit he).offerFeed _ _).ok, State.setTerm_on_of_fit ((h.fit he).offerFeed _ _) he⟩

theorem State.TermsOk.answerTaken (h : s.TermsOk) {t : TermNo} (he : s.on t = true) :
    (s.answerTaken t).TermsOk ∧ (s.answerTaken t).on = s.on := by
  have hfit := h.fit he
  by_cases hs : (s.terminals[t]).state = .online
  · have hx : ({ s.terminals[t] with timeouts := 0 } : Terminal).Fit :=
      hfit.standing (st := (s.terminals[t]).state) hfit.state (Nat.zero_le _) (by rw [hs]; exact ⟨(nomatch ·), (nomatch ·)⟩)
    rw [State.answerTaken_online hs]
    exact ⟨h.setTerm t hx.ok, State.setTerm_on_of_fit hx he⟩
  · have hx : ({ s.terminals[t] with
        timeouts := 0, state := .online, watch := allPending (s.terminals[t]).watch, lengthOwed := true } : Terminal).Fit :=
      (hfit.standing (st := .online) (n := 0) (nomatch ·) (Nat.zero_le _) ⟨(nomatch ·), (nomatch ·)⟩).listed true
        ((List.length_map _).trans_le hfit.watch)
    have hon := State.setTerm_on_of_fit hx he
    have hoffered := State.TermsOk.offerFeed (t := t) (State.TermsOk.same
      (u := (s.setTerm t _).raise 0x08 [BitVec.ofNat 8 t.val]) (h.setTerm t hx.ok) rfl rfl) ((congrFun hon t).trans he)
    rw [State.answerTaken_returns hs]
    exact ⟨hoffered.1, hoffered.2.trans hon⟩

theorem AlertSetting.Ok.fired {a : AlertSetting} (h : a.Ok) (o : Bool) :
    ({ a with fired := true, owed := o } : AlertSetting).Ok := ⟨fun _ => rfl, h.2⟩

theorem AlertSetting.Ok.unowed {a : AlertSetting} (h : a.Ok) (b : Bool) :
    ({ a with fired := b, owed := false } : AlertSetting).Ok := ⟨(nomatch ·), h.2⟩

theorem State.TermsOk.evaluate (h : s.TermsOk) (t : TermNo) (k : SlotNo) :
    (s.evaluate t k).TermsOk ∧ (s.evaluate t k).on = s.on := by
  have hset {b : AlertSetting} (hb : b.Ok) : (s.setAlert t k (some b)).TermsOk :=
    h.setAlert t k fun a e => by obtain rfl := Option.some.inj e; exact hb
  rw [State.evaluate]
  split
  · exact ⟨h, rfl⟩
  · rename_i a ha
    split
    · exact ⟨h, rfl⟩
    · split
      · split
        · exact ⟨h, rfl⟩
        · rcases s.fire_cases t k a ‹_› with ⟨htakes, e⟩ | ⟨-, e⟩ <;> rw [e]
          · obtain ⟨hroom, hon⟩ := (Terminal.takesOffer_iff _).1 htakes
            have hx := (h.fit ((s.on_iff t).2 hon)).push (.alert (alertChars k a ‹_› s.issues.clock)) hroom
            exact ⟨(hset ((h.slot t k a ha).fired false)).setTerm t hx.ok,
              State.setTerm_on t (Terminal.enabled_congr rfl)⟩
          · exact ⟨hset ((h.slot t k a ha).fired true), rfl⟩
      · exact ⟨hset ((h.slot t k a ha).unowed false), rfl⟩

theorem State.TermsOk.noticeSlots (h : s.TermsOk) (n : Nat) (ps : List (TermNo × SlotNo)) :
    (ps.foldl (State.noticeSlot n) s).TermsOk ∧ (ps.foldl (State.noticeSlot n) s).on = s.on := by
  induction ps generalizing s with
  | nil => exact ⟨h, rfl⟩
  | cons p ps ih =>
    rw [List.foldl_cons, State.noticeSlot]
    split
    · obtain ⟨hok, hon⟩ := h.evaluate p.1 p.2
      rw [← hon]
      exact ih hok
    · exact ih h

theorem State.TermsOk.freePlaces (h : s.TermsOk) {t : TermNo} (he : s.on t = true) :
    (s.freePlaces t).TermsOk ∧ (s.freePlaces t).on = s.on := by
  obtain ⟨⟨hq, -, hslot⟩, hterm, hothers⟩ := State.freePlaces_freed ((s.on_iff t).1 he)
  have hfit := h.fit he
  have hx : ((s.freePlaces t).terminals[t]).Fit := by
    rw [hterm]
    refine hfit.queued _ ?_
    have := hfit.queue
    rw [hq, List.length_append, List.length_append, List.length_map, List.length_take]
    split
    · rw [List.length_singleton]
      omega
    · rw [List.length_nil]
      omega
  refine ⟨⟨fun v => ?_, fun v k a ha => ?_⟩, funext fun v => ?_⟩
  · by_cases hv : v = t
    · subst hv
      exact hx.ok
    · rw [(hothers v hv).1]
      exact h.terminal v
  · by_cases hv : v = t
    · subst hv
      have hcases : ((s.freePlaces v).alerts[v])[k] = paidSlot (s.alerts[v])[k]
          ∨ ((s.freePlaces v).alerts[v])[k] = (s.alerts[v])[k] := by
        rw [hslot k]
        exact ite_eq_or_eq _ _ _
      rcases hcases with e | e <;> rw [e] at ha
      · obtain ⟨b, hb, rfl⟩ := Option.map_eq_some_iff.1 ha
        exact (h.slot v k b hb).unowed b.fired
      · exact h.slot v k a ha
    · rw [(hothers v hv).2] at ha
      exact h.slot v k a ha
  · by_cases hv : v = t
    · subst hv
      exact hx.enabled.trans he.symm
    · rw [State.on, (hothers v hv).1]
      rfl

theorem State.TermsOk.missTerm (h : s.TermsOk) {t : TermNo} (he : s.on t = true) :
    (s.missTerm t).TermsOk ∧ (s.missTerm t).on = s.on := by
  have hfit := h.fit he
  unfold State.missTerm
  dsimp only
  split
  · exact ⟨h, rfl⟩
  · rename_i hoff
    split
    · rename_i hlt
      have hx : ({ s.terminals[t] with timeouts := (s.terminals[t]).timeouts + 1 } : Terminal).Fit :=
        hfit.standing (st := (s.terminals[t]).state) hfit.state hlt.le
          ⟨fun e => absurd e hoff, fun e => absurd e hlt.ne⟩
      exact ⟨h.setTerm t hx.ok, State.setTerm_on_of_fit hx he⟩
    · have hx : ({ s.terminals[t] with timeouts := Config.missLimit, state := .offline } : Terminal).Fit :=
        hfit.standing (st := .offline) (n := 3) (nomatch ·) le_rfl ⟨fun _ => rfl, fun _ => rfl⟩
      exact ⟨State.TermsOk.same (h.setTerm t hx.ok) rfl rfl, State.setTerm_on_of_fit hx he⟩

theorem State.TermsOk.restore (h : s.TermsOk) {t : TermNo} (he : s.on t = true) (c : Carried) :
    (s.setTerm t ((s.terminals[t]).restored c)).TermsOk
      ∧ (s.setTerm t ((s.terminals[t]).restored c)).on = s.on :=
  ⟨h.setTerm t ((h.fit he).restored c).ok, State.setTerm_on_of_fit ((h.fit he).restored c) he⟩

theorem State.TermsOk.restoreMissed (h : s.TermsOk) {t : TermNo} (he : s.on t = true) (st : Stage) :
    (s.restoreMissed t st).TermsOk ∧ (s.restoreMissed t st).on = s.on := by
  cases st with
  | selectWait sel left => exact h.restore he sel.carried
  | pollSending _ | pollWait _ | selectSending _ => exact ⟨h, rfl⟩

theorem State.TermsOk.receivedAt (h : s.TermsOk) {t : TermNo} (he : s.on t = true) (c : Carried) :
    (s.receivedAt t c).TermsOk ∧ (s.receivedAt t c).on = s.on := by
  obtain ⟨hok, hon⟩ := h.answerTaken he
  unfold State.receivedAt
  dsimp only
  generalize s.answerTaken t = u at hok hon ⊢
  rw [← hon] at he ⊢
  split
  · have hfit := hok.fit he
    have hx : ({ u.terminals[t] with queue := (u.terminals[t]).queue.tail } : Terminal).Fit :=
      hfit.queued (u.terminals[t]).feedOwed (by rw [List.length_tail]; have := hfit.queue; omega)
    have hset := State.setTerm_on_of_fit hx he
    obtain ⟨hfreed, hfon⟩ := (hok.setTerm t hx.ok).freePlaces (t := t) (by rw [hset]; exact he)
    exact ⟨hfreed, hfon.trans hset⟩
  · exact ⟨hok, rfl⟩

theorem State.TermsOk.pushReply (h : s.TermsOk) {t : TermNo} (he : s.on t = true) (cs : Text)
    (hq : (s.terminals[t]).queue.length < 8) : (s.pushReply t cs).TermsOk ∧ (s.pushReply t cs).on = s.on := by
  have hx := (h.fit he).queued (q := .reply cs :: (s.terminals[t]).queue) (s.terminals[t]).feedOwed hq
  exact ⟨h.setTerm t hx.ok, State.setTerm_on_of_fit hx he⟩

theorem WatchMove.length_le (h : s.TermsOk) {t : TermNo} {ns : List Nat} (hw : WatchMove s t ns) : ns.length ≤ 24 := by
  have hlist : (s.watchIssues t).length ≤ 24 := by
    rw [State.watchIssues, List.length_map]
    exact (h.terminal t).2.2.2.2.1
  cases hw with
  | set _ hl => exact hl
  | append _ _ hl =>
    rw [List.length_append, List.length_singleton]
    exact hl
  | remove n => exact (List.length_erase_le).trans hlist

theorem State.TermsOk.rewatch (h : s.TermsOk) (t : TermNo) {ns : List Nat} (hn : ns.length ≤ 24) :
    (s.rewatch t ns).TermsOk ∧ (s.rewatch t ns).on = s.on := by
  have hmasked : (s.setRecords (mapRecords (remask t ((s.terminals[t]).watch.map WatchEntry.issue) ns)
      s.issues.records)).TermsOk := State.TermsOk.same h rfl rfl
  refine ⟨hmasked.setTerm t ((h.terminal t).rewatch hn), ?_⟩
  refine (State.setTerm_on t (Terminal.enabled_congr ?_)).trans (State.on_congr rfl)
  rw [Terminal.rewatch]
  split <;> rfl

theorem State.TermsOk.told (h : s.TermsOk) : s.tellTerminals.TermsOk ∧ s.tellTerminals.on = s.on := by
  have hterm (t : TermNo) : s.tellTerminals.terminals[t] = if (s.terminals[t]).state = .online
      then (s.terminals[t]).offerFeed s.feed.feedState (s.headCarried t) else s.terminals[t] :=
    Vector.getElem_ofFn _
  have hoffer (t : TermNo) (ho : (s.terminals[t]).state = .online) :
      ((s.terminals[t]).offerFeed s.feed.feedState (s.headCarried t)).Fit :=
    ((h.terminal t).fit (by rw [ho]; exact (nomatch ·))).offerFeed _ _
  have halerts : s.tellTerminals.alerts = s.alerts := by rw [State.tellTerminals]
  refine ⟨⟨fun t => ?_, fun t k a ha => h.slot t k a (by rw [← halerts]; exact ha)⟩, funext fun t => ?_⟩
  · rw [hterm]
    split
    · exact (hoffer t ‹_›).ok
    · exact h.terminal t
  · rw [State.on, hterm]
    split
    · rename_i ho
      rw [(hoffer t ho).enabled, State.on, Terminal.enabled, ho]
      rfl
    · rfl

/-! ### The lines -/

theorem State.LinesOk.same {u : State} (h : s.LinesOk) (hl : u.termLines = s.termLines) (ho : u.on = s.on) :
    u.LinesOk := fun l => by
  rw [hl, ho]
  exact h l

theorem State.setTermLine_kept {l : LineNo} {x : TermLine} (h : ∀ k, k ≠ l → (s.termLines[k]).Kept s.on k)
    (hx : x.Kept s.on l) : (s.setTermLine l x).LinesOk := fun k => by
  rw [State.setTermLine_line]
  split
  · rename_i e
    subst e
    exact hx
  · rename_i e
    exact h k e

/-- A line that counts and no more. -/
theorem State.LinesOk.countLine (h : s.LinesOk) (l : LineNo) {f : TermLine → TermLine}
    (hf : ∀ x, (f x).inFlight = x.inFlight) : (s.countLine l f).LinesOk :=
  State.setTermLine_kept (fun k _ => h k)
    ⟨fun e => (h l).idle (by rw [← hf]; exact e), fun y e => (h l).cut y (by rw [← hf]; exact e)⟩

theorem State.chooseTerm_on (s : State) (l : LineNo) : (s.chooseTerm l).on = s.on :=
  State.on_congr (by rw [State.chooseTerm_frame])

theorem State.chooseTerm_ne (s : State) {l k : LineNo} (h : k ≠ l) :
    (s.chooseTerm l).termLines[k] = s.termLines[k] := by
  rcases s.chooseTerm_cases l with ⟨-, e⟩ | ⟨-, -, e⟩ | ⟨d, -, -, e⟩ <;> rw [e]
  rw [State.setTermLine_line, if_neg h]

/-- The line that chooses, whatever it held. -/
theorem State.chooseTerm_self {l : LineNo}
    (hcut : ∀ y, (s.termLines[l]).inFlight = some y → (s.on (termOf l y.drop) || y.cut) = true) :
    ((s.chooseTerm l).termLines[l]).Kept s.on l := by
  rcases s.chooseTerm_cases l with ⟨hbusy, e⟩ | ⟨-, hn, e⟩ | ⟨d, -, hd, e⟩ <;> rw [e]
  · exact ⟨fun hno => absurd (hno ▸ hbusy) (by decide), hcut⟩
  · exact ⟨fun _ => (s.nextDrop_eq_none l).1 hn, hcut⟩
  · rw [State.setTermLine_line, if_pos rfl]
    refine ⟨(nomatch ·), fun y hy => ?_⟩
    obtain rfl := Option.some.inj hy
    rw [(s.on_iff _).2 (State.nextDrop_enabled hd)]
    rfl

theorem State.chooseTerm_kept {l : LineNo} (h : ∀ k, k ≠ l → (s.termLines[k]).Kept s.on k)
    (hcut : ∀ y, (s.termLines[l]).inFlight = some y → (s.on (termOf l y.drop) || y.cut) = true) :
    (s.chooseTerm l).LinesOk := fun k => by
  rw [State.chooseTerm_on]
  by_cases hk : k = l
  · subst hk
    exact State.chooseTerm_self hcut
  · rw [State.chooseTerm_ne s hk]
    exact h k hk

theorem State.endTransaction_kept {l : LineNo} (h : ∀ k, k ≠ l → (s.termLines[k]).Kept s.on k) :
    (s.endTransaction l).LinesOk := by
  refine State.chooseTerm_kept (fun k hk => ?_) fun y hy => ?_
  · rw [State.setTermLine_line, if_neg hk]
    exact h k hk
  · rw [State.setTermLine_line, if_pos rfl] at hy
    cases hy

theorem State.LinesOk.setStage (h : s.LinesOk) {l : LineNo} {x : Transaction} (st : Stage)
    (hx : (s.on (termOf l x.drop) || x.cut) = true) : (s.setStage l x st).LinesOk := by
  refine State.setTermLine_kept (fun k _ => h k) ⟨(nomatch ·), fun y hy => ?_⟩
  obtain rfl := Option.some.inj hy
  exact hx

/-- Both sides of what is kept. -/
structure State.TermsKept (s : State) : Prop where
  terms : s.TermsOk
  lines : s.LinesOk

theorem State.TermsKept.endTransaction (h : s.TermsKept) (l : LineNo) : (s.endTransaction l).TermsKept := by
  refine ⟨?_, State.endTransaction_kept fun k _ => h.lines k⟩
  rw [State.endTransaction_frame]
  exact State.TermsOk.same h.terms rfl rfl

/-- An operation of the terminals and the slots alone. -/
theorem State.TermsKept.local (h : s.TermsKept) {u : State} (hu : u.TermsOk ∧ u.on = s.on)
    (hl : u.termLines = s.termLines) : u.TermsKept := ⟨hu.1, State.LinesOk.same h.lines hl hu.2⟩

theorem State.TermsKept.beginSelect (h : s.TermsKept) {l : LineNo} {x : Transaction}
    (he : s.on (termOf l x.drop) = true) : (s.beginSelect l x).TermsKept := by
  rw [State.beginSelect]
  split
  · rename_i sel y hsel
    have hy := (h.terms.fit he).select hsel
    have hset := h.local ⟨h.terms.setTerm _ hy.ok, State.setTerm_on_of_fit hy he⟩ rfl
    exact ⟨State.TermsOk.same hset.terms rfl rfl,
      hset.lines.setStage _ (by rw [State.setTerm_on_of_fit hy he, he]; rfl)⟩
  · exact h.endTransaction l

theorem State.TermsKept.countLine (h : s.TermsKept) (l : LineNo) {f : TermLine → TermLine}
    (hf : ∀ x, (f x).inFlight = x.inFlight) : (s.countLine l f).TermsKept :=
  ⟨State.TermsOk.same h.terms rfl rfl, h.lines.countLine l hf⟩

theorem State.heard_on {l : LineNo} {x : Transaction} (h : s.heard l x = true) : s.on (termOf l x.drop) = true :=
  (s.on_iff _).2 ((s.heard_iff l x).1 h).1

theorem TermMove.termsKept {u : State} {l : LineNo} (hm : TermMove s l u) (h : s.TermsKept) : u.TermsKept := by
  have hline {x : Transaction} (hx : (s.termLines[l]).inFlight = some x) (st : Stage) : (s.setStage l x st).TermsKept :=
    ⟨State.TermsOk.same h.terms rfl rfl, h.lines.setStage st ((h.lines l).cut x hx)⟩
  have hanswer {x : Transaction} (hh : s.heard l x = true) : (s.answerTaken (termOf l x.drop)).TermsKept
      ∧ (s.answerTaken (termOf l x.drop)).on (termOf l x.drop) = true := by
    have ha := h.terms.answerTaken (State.heard_on hh)
    exact ⟨h.local ha (by rw [State.answerTaken_frame]), by rw [ha.2]; exact State.heard_on hh⟩
  cases hm with
  | pollSent hx => exact hline hx _
  | selectSent hx => exact hline hx _
  | nothing _ hh => exact (hanswer hh).1.beginSelect (hanswer hh).2
  | @request x u reply _ hh hq hu =>
    obtain ⟨hkept, hon⟩ := hanswer hh
    generalize s.answerTaken (termOf l x.drop) = v at hkept hon hq hu
    have htaken : (v.takenAck l).TermsKept := hkept.countLine l fun _ => rfl
    have hrun : u.TermsKept ∧ u.on = v.on ∧ (u.terminals[termOf l x.drop]).queue = (v.terminals[termOf l x.drop]).queue := by
      cases hu with
      | nothing => exact ⟨htaken, rfl, rfl⟩
      | draw n => exact ⟨htaken.local ⟨State.TermsOk.same htaken.terms rfl rfl, rfl⟩ rfl, rfl, rfl⟩
      | @watch ns hw =>
        have hr := htaken.terms.rewatch (termOf l x.drop) (hw.length_le htaken.terms)
        refine ⟨htaken.local hr rfl, hr.2, ?_⟩
        rw [State.rewatch, State.setTerm_term, if_pos rfl, Terminal.rewatch]
        split <;> rfl
      | clearAlert k =>
        exact ⟨htaken.local ⟨htaken.terms.setAlert _ k fun a e => (nomatch e), rfl⟩ rfl, rfl, rfl⟩
    obtain ⟨hrun, hron, hrq⟩ := hrun
    have hpush := hrun.terms.pushReply (t := termOf l x.drop) (by rw [hron]; exact hon) reply (by rw [hrq]; exact hq)
    exact (hrun.local hpush rfl).beginSelect (by rw [hpush.2, hron]; exact hon)
  | @alertSet x k a reply _ hh hq _ ha =>
    obtain ⟨hkept, hon⟩ := hanswer hh
    generalize s.answerTaken (termOf l x.drop) = v at hkept hon hq
    have htaken : (v.takenAck l).TermsKept := hkept.countLine l fun _ => rfl
    have hset := htaken.local (u := (v.takenAck l).setAlert (termOf l x.drop) k (some a))
      ⟨htaken.terms.setAlert _ k fun b e => by obtain rfl := Option.some.inj e; exact ha, rfl⟩ rfl
    have hpush := hset.terms.pushReply (t := termOf l x.drop) hon reply hq
    have heval := hpush.1.evaluate (termOf l x.drop) k
    exact ((hset.local hpush rfl).local heval (by rw [State.evaluate_frame])).beginSelect
      (by rw [heval.2, hpush.2]; exact hon)
  | retry _ hh =>
    have hretry : ((s.answerTaken _).retry l).TermsKept := (hanswer hh).1.countLine l fun _ => rfl
    exact hretry.beginSelect (hanswer hh).2
  | received c _ hh =>
    exact (h.local (h.terms.receivedAt (State.heard_on hh) c) (by rw [State.receivedAt_frame])).endTransaction l
  | @busy x c _ hh =>
    have hcount : (s.countBusy l).TermsKept := h.countLine l fun _ => rfl
    have ha := hcount.terms.answerTaken (t := termOf l x.drop) (State.heard_on hh)
    have hkept := hcount.local ha (by rw [State.answerTaken_frame])
    exact (hkept.local (ha.1.restore (by rw [ha.2]; exact State.heard_on hh) c) rfl).endTransaction l
  | @missed x _ hh =>
    have hcount : (s.countMiss l).TermsKept := h.countLine l fun _ => rfl
    have hm := hcount.terms.missTerm (t := termOf l x.drop) (State.heard_on hh)
    have hkept := hcount.local hm (by rw [State.missTerm_frame])
    have hr := hm.1.restoreMissed (t := termOf l x.drop) (by rw [hm.2]; exact State.heard_on hh) x.stage
    exact (hkept.local hr (by rw [State.restoreMissed_frame])).endTransaction l
  | unheard => exact h.endTransaction l
  | unheardRetry =>
    have hretry : (s.retry l).TermsKept := h.countLine l fun _ => rfl
    exact hretry.endTransaction l
  | unheardBusy =>
    have hcount : (s.countBusy l).TermsKept := h.countLine l fun _ => rfl
    exact hcount.endTransaction l
  | unheardMiss =>
    have hcount : (s.countMiss l).TermsKept := h.countLine l fun _ => rfl
    exact hcount.endTransaction l

/-! ### The other blocks -/

/-- What reads the terminals, their lines and the slots alone. -/
theorem State.TermsKept.same {u : State} (h : s.TermsKept) (ht : u.terminals = s.terminals)
    (hl : u.termLines = s.termLines) (ha : u.alerts = s.alerts) : u.TermsKept :=
  h.local ⟨State.TermsOk.same h.terms ht ha, State.on_congr ht⟩ hl

/-- Every line changed in one way that leaves its drop and its cut mark. -/
theorem State.TermsKept.mapLines {u : State} (h : s.TermsKept) {f : TermLine → TermLine}
    (hf : ∀ x y, (f x).inFlight = some y → ∃ z, x.inFlight = some z ∧ z.drop = y.drop ∧ z.cut = y.cut)
    (hn : ∀ x, (f x).inFlight = none → x.inFlight = none) (ht : u.terminals = s.terminals)
    (hl : u.termLines = s.termLines.map f) (ha : u.alerts = s.alerts) : u.TermsKept := by
  refine ⟨State.TermsOk.same h.terms ht ha, fun l => ?_⟩
  have hline : u.termLines[l] = f s.termLines[l] := by
    rw [hl]
    exact Vector.getElem_map _ _
  rw [hline, State.on_congr ht]
  refine ⟨fun e => (h.lines l).idle (hn _ e), fun y hy => ?_⟩
  obtain ⟨z, hz, hd, hc⟩ := hf _ y hy
  rw [← hd, ← hc]
  exact (h.lines l).cut z hz

theorem State.TermsKept.told (h : s.TermsKept) : s.tellTerminals.TermsKept := h.local h.terms.told (by rw [State.tellTerminals])

theorem State.TermsKept.returnLive (h : s.TermsKept) : s.returnLive.TermsKept := by
  rcases hf : s.feed.feedState with _ | _
  · rwa [State.returnLive_live hf]
  · rw [State.returnLive_quiet hf]
    refine State.TermsKept.told ?_
    rw [State.tellBoards_frame]
    exact h.same rfl rfl rfl

theorem State.TermsKept.goQuiet (h : s.TermsKept) : s.goQuiet.TermsKept := by
  unfold State.goQuiet
  dsimp only
  refine State.TermsKept.told ?_
  rw [State.tellBoards_frame]
  exact h.same rfl rfl rfl

theorem State.TermsKept.checked (h : s.TermsKept) (f : Frame) : (s.checked f).TermsKept := by
  have hl : (s.checked f).termLines = s.termLines := by rw [State.checked_frame]
  have ha : (s.checked f).alerts = s.alerts := by rw [State.checked_frame]
  rcases s.checked_reaches f with ⟨-, ht⟩ | ⟨w, hw, -, ht⟩
  · exact h.same ht hl ha
  · have hlive : w.returnLive.TermsKept := by
      refine State.TermsKept.returnLive ?_
      rw [hw]
      exact h.same rfl rfl rfl
    have hwl : w.termLines = s.termLines := by rw [hw]
    have hwa : w.alerts = s.alerts := by rw [hw]
    exact State.TermsKept.same hlive ht (by rw [hl, State.returnLive_frame, hwl]) (by rw [ha, State.returnLive_frame, hwa])

theorem State.TermsKept.disable (h : s.TermsKept) (t : TermNo) : (s.disableTerm t).TermsKept := by
  unfold State.disableTerm
  split
  · have hon (v : TermNo) : (s.setTerm t (s.terminals[t]).disable).on v = if v = t then false else s.on v := by
      rw [State.on, State.setTerm_term]
      split <;> rfl
    have hle (v : TermNo) (hv : s.on v = false) : (s.setTerm t (s.terminals[t]).disable).on v = false := by
      rw [hon, hv, ite_self]
    refine ⟨State.TermsOk.same (h.terms.setTerm t (h.terms.terminal t).disable) rfl rfl,
      State.setTermLine_kept (fun k hk => ⟨fun e d => hle _ ((h.lines k).idle e d), fun y hy => ?_⟩) ?_⟩
    · have hne : termOf k y.drop ≠ t := fun e => hk (by rw [← e, termLine_termOf])
      have hcut := (h.lines k).cut y hy
      rw [hon, if_neg hne]
      exact hcut
    · refine ⟨fun e d => hle _ ((h.lines (termLine t)).idle (Option.map_eq_none_iff.1 e) d), fun y hy => ?_⟩
      obtain ⟨z, hz, e⟩ := Option.map_eq_some_iff.1 hy
      have hcut := (h.lines (termLine t)).cut z hz
      split at e <;> subst e
      · exact Bool.or_true _
      · rename_i hd
        have hne : termOf (termLine t) z.drop ≠ t := fun e =>
          hd ((termDrop_termOf _ _).symm.trans (congrArg termDrop e))
        rw [hon, if_neg hne]
        exact hcut
  · exact h

theorem State.TermsKept.enable (h : s.TermsKept) (t : TermNo) : (s.enableTerm t).TermsKept := by
  unfold State.enableTerm
  split
  · exact h
  · have hok := h.terms.terminal t
    have hx : ({ s.terminals[t] with state := .unknown, timeouts := 0 } : Terminal).Fit :=
      ⟨(nomatch ·), Nat.zero_le _, ⟨(nomatch ·), (nomatch ·)⟩, hok.2.2.2.1, hok.2.2.2.2.1, hok.2.2.2.2.2⟩
    have hon (v : TermNo) : (s.setTerm t { s.terminals[t] with state := .unknown, timeouts := 0 }).on v =
        if v = t then true else s.on v := by
      rw [State.on, State.setTerm_term]
      split <;> rfl
    obtain ⟨hfree, hfon⟩ := (h.terms.setTerm t hx.ok).freePlaces (t := t) (by rw [hon, if_pos rfl])
    have hcut (k : LineNo) (y : Transaction) (hy : (s.termLines[k]).inFlight = some y) :
        ((s.setTerm t { s.terminals[t] with state := .unknown, timeouts := 0 }).on (termOf k y.drop) || y.cut) = true := by
      rw [hon]
      split
      · rfl
      · exact (h.lines k).cut y hy
    have hlines : ((s.setTerm t { s.terminals[t] with state := .unknown, timeouts := 0 }).freePlaces t).termLines =
        s.termLines := by rw [State.freePlaces_frame]; rfl
    rw [← hfon] at hon hcut
    generalize (s.setTerm t { s.terminals[t] with state := .unknown, timeouts := 0 }).freePlaces t = u
      at hfree hfon hlines hon hcut ⊢
    refine ⟨by rw [State.chooseTerm_frame]; exact State.TermsOk.same hfree rfl rfl,
      State.chooseTerm_kept (fun k hk => ⟨fun e d => ?_, fun y hy => ?_⟩) fun y hy => ?_⟩
    · rw [hlines] at e
      rw [hon, if_neg fun e' => hk (by rw [← e', termLine_termOf])]
      exact (h.lines k).idle e d
    · rw [hlines] at hy
      exact hcut k y hy
    · rw [hlines] at hy
      exact hcut _ y hy

theorem ControlMove.termsKept {u : State} (hm : ControlMove s u) (h : s.TermsKept) : u.TermsKept := by
  cases hm with
  | nothing | draw | loadIssue | deleteIssue | setFlashList | setLamps | setFeed => exact h.same rfl rfl rfl
  | blankRow | setRow =>
    rw [State.mapRow_frame]
    exact h.same rfl rfl rfl
  | setTape =>
    rw [State.setTape_frame]
    exact h.same rfl rfl rfl
  | watch hw => exact h.local (h.terms.rewatch _ (hw.length_le h.terms)) rfl
  | @setAlert t k a _ ha =>
    have hset := h.local (u := s.setAlert t k (some a))
      ⟨h.terms.setAlert t k fun b e => by obtain rfl := Option.some.inj e; exact ha, rfl⟩ rfl
    exact hset.local (hset.terms.evaluate t k) (by rw [State.evaluate_frame])
  | clearAlert t k => exact h.local ⟨h.terms.setAlert t k fun a e => (nomatch e), rfl⟩ rfl
  | enable t => exact h.enable t
  | disable t => exact h.disable t
  | clearCounts => exact h.mapLines (f := TermLine.clearCounts) (fun x y hy => ⟨y, hy, rfl, rfl⟩) (fun x hx => hx) rfl rfl rfl

theorem DataMove.termsKept {u : State} (hm : DataMove s u) (h : s.TermsKept) : u.TermsKept := by
  rcases hm.frame with ⟨present, clock, roll, rfl⟩ | rfl | e
  · rw [State.announceOpen_frame]
    exact h.same rfl rfl rfl
  · exact State.TermsKept.same h.returnLive rfl rfl rfl
  · rw [e]
    exact h.same rfl rfl rfl

theorem LineMove.termsKept {u : State} (hm : LineMove s u) (h : s.TermsKept) : u.TermsKept := by
  cases hm with
  | boardNotice =>
    rw [State.chooseBoards_frame, State.markRows_frame]
    exact h.same rfl rfl rfl
  | transferSent | broadcastSent | backOffEnd => exact h.same rfl rfl rfl
  | accept =>
    rw [acceptAt_frame]
    exact h.same rfl rfl rfl
  | hold =>
    rw [holdAt_frame]
    exact h.same rfl rfl rfl
  | miss =>
    rw [missAt_frame]
    exact h.same rfl rfl rfl
  | lampNotice =>
    rw [State.chooseBoards_frame, State.noticeRows_frame]
    exact h.same rfl rfl rfl
  | phaseEnd =>
    rw [State.chooseBoards_frame, State.moveLamps_eq]
    exact h.same rfl rfl rfl
  | @terminalNotice n rest =>
    have hterm (t : TermNo) : (Vector.ofFn fun t : TermNo => if n.watchers.getLsbD t.val then (s.terminals[t]).noticed n
        else s.terminals[t])[t] = if n.watchers.getLsbD t.val then (s.terminals[t]).noticed n else s.terminals[t] :=
      Vector.getElem_ofFn _
    refine h.local ⟨⟨fun t => ?_, h.terms.slot⟩, funext fun t => ?_⟩ rfl
    · rw [hterm]
      split
      · exact (h.terms.terminal t).noticed n
      · exact h.terms.terminal t
    · rw [State.on, hterm]
      split
      · refine Terminal.enabled_congr ?_
        rw [Terminal.noticed]
        split <;> rfl
      · rfl
  | terminal ht => exact ht.termsKept h
  | @alertNotice n rest =>
    have hrest : ({ s with alertNotices := rest } : State).TermsKept := h.same rfl rfl rfl
    exact hrest.local (hrest.terms.noticeSlots n.issue allSlots) (by rw [State.noticeSlots_frame])

/-! ### RESTART -/

/-- Every line chosen in turn leaves none idle that has a terminal to poll. -/
theorem State.chooseAll_kept (ls : List LineNo) {u : State} (h : ∀ k, k ∉ ls → (u.termLines[k]).Kept u.on k)
    (hcut : ∀ k y, (u.termLines[k]).inFlight = some y → (u.on (termOf k y.drop) || y.cut) = true) :
    (ls.foldl State.chooseTerm u).LinesOk := by
  induction ls generalizing u with
  | nil => exact fun k => h k (List.not_mem_nil)
  | cons l ls ih =>
    have hself := State.chooseTerm_self (hcut l)
    rw [List.foldl_cons]
    refine ih (fun k hk => ?_) fun k y hy => ?_ <;> rw [State.chooseTerm_on]
    · by_cases hkl : k = l
      · subst hkl
        exact hself
      · rw [State.chooseTerm_ne u hkl]
        exact h k (by simp [hkl, hk])
    · by_cases hkl : k = l
      · subst hkl
        exact hself.cut y hy
      · rw [State.chooseTerm_ne u hkl] at hy
        exact hcut k y hy

theorem State.chooseTerms_kept (h : s.TermsOk) (hidle : ∀ l : LineNo, (s.termLines[l]).inFlight = none) :
    s.chooseTerms.TermsKept := by
  refine ⟨?_, State.chooseAll_kept _ (fun k hk => absurd (List.mem_finRange k) hk) fun k y hy => ?_⟩
  · rw [State.chooseTerms_frame]
    exact State.TermsOk.same h rfl rfl
  · rw [hidle k] at hy
    cases hy

/-- The places of every enabled terminal freed. -/
theorem State.TermsOk.freeAll (h : s.TermsOk) (ts : List TermNo) :
    (ts.foldl (fun s t => if (s.terminals[t]).enabled then s.freePlaces t else s) s).TermsOk := by
  induction ts generalizing s with
  | nil => exact h
  | cons t ts ih =>
    rw [List.foldl_cons]
    refine ih ?_
    split
    · rename_i he
      exact (h.freePlaces he).1
    · exact h

theorem State.freeAll_frame (s : State) (ts : List TermNo) :
    ts.foldl (fun s t => if (s.terminals[t]).enabled then s.freePlaces t else s) s = { s with
      terminals := (ts.foldl (fun s t => if (s.terminals[t]).enabled then s.freePlaces t else s) s).terminals
      alerts := (ts.foldl (fun s t => if (s.terminals[t]).enabled then s.freePlaces t else s) s).alerts } := by
  induction ts generalizing s with
  | nil => rfl
  | cons t ts ih =>
    rw [List.foldl_cons, ih]
    split
    · rw [State.freePlaces_frame]
    · rfl

theorem State.restartTerminals_eq (s : State) : ∃ a : State, s.restartTerminals =
      (List.finRange 32).foldl (fun s t => if (s.terminals[t]).enabled then s.freePlaces t else s) a
    ∧ a = { s with
        terminals := s.terminals.map Terminal.restart
        termLines := s.termLines.map fun x =>
          { pollPtr := 7, inFlight := none, timeouts := 0, busies := 0, retries := 0, lastAck := x.lastAck } } := by
  unfold restartTerminals
  dsimp only
  exact ⟨_, rfl, rfl⟩

theorem State.TermsOk.restarted (h : s.TermsOk) : s.restartTerminals.chooseTerms.TermsKept := by
  obtain ⟨a, e, ha⟩ := s.restartTerminals_eq
  have hterm (t : TermNo) : a.terminals[t] = (s.terminals[t]).restart := by
    rw [ha]
    exact Vector.getElem_map _ _
  have hidle (l : LineNo) : (a.termLines[l]).inFlight = none := by
    rw [ha, show (s.termLines.map _)[l] = _ from Vector.getElem_map _ _]
  have haok : a.TermsOk :=
    ⟨fun t => by rw [hterm]; exact (h.terminal t).restart, fun t k b hb => h.slot t k b (by rw [ha] at hb; exact hb)⟩
  rw [e]
  refine State.chooseTerms_kept (haok.freeAll _) fun l => ?_
  rw [State.freeAll_frame]
  exact hidle l

theorem State.TermsKept.restartBlocks (h : s.TermsKept) (serial : Nat) : (s.restartBlocks serial).TermsKept := by
  unfold State.restartBlocks
  dsimp only
  refine State.TermsOk.restarted ?_
  rw [State.chooseBoards_frame]
  exact State.TermsOk.same h.terms rfl rfl

/-! ### The moves -/

theorem State.TermsKept.powerOn (ht : ∀ t : TermNo, s.terminals[t] = .powerOn)
    (hl : ∀ l : LineNo, s.termLines[l] = .powerOn) (ha : ∀ (t : TermNo) (k : SlotNo), (s.alerts[t])[k] = none) :
    s.TermsKept := by
  refine ⟨⟨fun t => ?_, fun t k a e => ?_⟩, fun l => ⟨fun _ d => ?_, fun y hy => ?_⟩⟩
  · rw [ht]
    decide
  · rw [ha] at e
    cases e
  · rw [State.on, ht]
    rfl
  · rw [hl] at hy
    cases hy

theorem Move.termsKept {u : State} (hm : Move s u) (h : s.TermsKept) : u.TermsKept := by
  cases hm with
  | powerOn unit on =>
    refine State.TermsKept.powerOn (fun t => ?_) (fun l => ?_) fun t k => ?_
    · exact Vector.getElem_replicate _
    · exact Vector.getElem_replicate _
    · rw [show (State.powerOn unit on s.upstream.readyAbove s.pending).alerts[t] = _ from Vector.getElem_replicate _]
      exact Vector.getElem_replicate _
  | idle | character | failure | throughEnd | switchOn | switchOff | upstreamCharacter | upstreamFrame
  | upstreamEnd | readyLine => exact h.same rfl rfl rfl
  | tick =>
    refine h.mapLines (f := TermLine.tick) (fun x y hy => ?_) (fun x hx => Option.map_eq_none_iff.1 hx) rfl rfl rfl
    obtain ⟨z, hz, rfl⟩ := Option.map_eq_some_iff.1 hy
    exact ⟨z, hz, rfl, rfl⟩
  | frame a f => exact State.TermsKept.checked (s := { s with feed := { s.feed with assembler := a } }) (h.same rfl rfl rfl) f
  | quiet => exact h.goQuiet
  | data v hd =>
    have hu := hd.termsKept (s := s.dropHead) (h.same rfl rfl rfl)
    exact hu.same rfl rfl rfl
  | claim =>
    rw [State.takeClaim_frame]
    exact h.same rfl rfl rfl
  | execute table r data hi hc =>
    have hu := hc.termsKept (s := s.finished) (h.same rfl rfl rfl)
    exact hu.same rfl rfl rfl
  | broadcast hi hc => exact hc.termsKept (s := s.dropHead) (h.same rfl rfl rfl)
  | @restart op =>
    have hblocks := State.TermsKept.restartBlocks (s := s.finished) (h.same rfl rfl rfl) op.serial
    rw [State.restart_frame]
    generalize s.finished.restartBlocks op.serial = w at hblocks ⊢
    exact hblocks.same rfl rfl rfl
  | restartAll op =>
    have hblocks := State.TermsKept.restartBlocks (s := s.dropHead) (h.same rfl rfl rfl) op.serial
    rw [State.restart_frame]
    generalize s.dropHead.restartBlocks op.serial = w at hblocks ⊢
    exact hblocks.same rfl rfl rfl
  | tapeJoin | tapeCharacter | flashExpiry =>
    rw [State.tookTape_frame]
    exact h.same rfl rfl rfl
  | line hl => exact hl.termsKept h

end

/-- Settles O57: every move keeps each terminal, line and slot. -/
theorem stepsKeepTerminals : Obligations.StepsKeepTerminals := by
  unfold Obligations.StepsKeepTerminals
  intro s t hterm halert hstep
  obtain ⟨hok, hline⟩ := s.terms_iff.1 ⟨hterm, halert⟩
  have ht := step_keeps (P := State.TermsKept) (fun _ _ h => h.same rfl rfl rfl) (fun _ _ h hm => hm.termsKept h)
    ⟨hok, hline⟩ hstep
  exact t.terms_iff.2 ⟨ht.terms, ht.lines⟩

end Sys2Proof.Machine
end

