-- ==== Sys2Proof/Proofs/UpstreamKept.lean ====
section
/-! PROOFS. Every step keeps the Upstream Port, its claim and the parameters of SET FEED (R164, R188, R189, R193, R194,
R176). A block reaches the port by the notices it offers alone. -/

namespace Sys2Proof.Machine

/-! ### The port -/

/-- The port's stores, the place claimed and the RESTARTED notice that the start-up hold waits for. -/
structure UpstreamPort.Kept (u : UpstreamPort) (claimed : Bool) : Prop where
  places : u.replies.length + claimed.toNat ≤ 8
  claims : u.claims = claimed.toNat
  buffer : u.buffer.length ≤ 2
  held : (u.replies.filter isRestarted).length = u.hold.toNat

/-- A free line with the card above ready leaves no frame waiting. -/
def UpstreamPort.Rests (u : UpstreamPort) : Prop :=
  u.transmitting = none → u.readyAbove = true → u.replies = [] ∧ u.buffer = []

theorem State.upstreamInv_iff (s : State) :
    s.UpstreamInv ↔ s.upstream.Kept s.control.inHand.isSome ∧ s.upstream.Rests := by
  constructor
  · rintro ⟨hocc, hcl, hbuf, hheld, hrest⟩
    rw [UpstreamPort.occupied, hcl] at hocc
    exact ⟨⟨hocc, hcl, hbuf, hheld⟩, hrest⟩
  · rintro ⟨⟨hocc, hcl, hbuf, hheld⟩, hrest⟩
    refine ⟨?_, hcl, hbuf, hheld, hrest⟩
    rw [UpstreamPort.occupied, hcl]
    exact hocc

section
variable {u : UpstreamPort} {claimed : Bool}

/-- The choice of the arbiter keeps the stores and leaves no frame waiting at a line it could use. -/
theorem UpstreamPort.Kept.arbitrate (h : u.Kept claimed) : u.arbitrate.Kept claimed ∧ u.arbitrate.Rests := by
  obtain ⟨hplaces, hclaims, hbuffer, hheld⟩ := h
  by_cases hbusy : u.transmitting.isSome = true ∨ u.readyAbove = false
  · rw [UpstreamPort.arbitrate_waits hbusy]
    refine ⟨⟨hplaces, hclaims, hbuffer, hheld⟩, fun hfree hready => ?_⟩
    rcases hbusy with e | e
    · rw [hfree] at e
      cases e
    · rw [hready] at e
      cases e
  · obtain ⟨hfree, hready⟩ := not_or.1 hbusy
    rcases UpstreamPort.arbitrate_serves (Option.not_isSome_iff_eq_none.1 hfree) (Bool.eq_true_of_not_eq_false hready)
      with ⟨hr, hb, e⟩ | ⟨r, rs, hr, -, e⟩ | ⟨f, fs, hb, -, e⟩ <;> rw [e]
    · exact ⟨⟨hplaces, hclaims, hbuffer, hheld⟩, fun _ _ => ⟨hr, hb⟩⟩
    · rw [hr, List.length_cons] at hplaces
      refine ⟨⟨by simp only [UpstreamPort.beginOwn]; omega, hclaims, hbuffer, ?_⟩, (nomatch ·)⟩
      rw [hr, List.filter_cons] at hheld
      simp only [UpstreamPort.beginOwn]
      cases hrs : isRestarted r <;> cases hhold : u.hold <;> simp_all
    · rw [hb, List.length_cons] at hbuffer
      exact ⟨⟨hplaces, hclaims, by simp only [UpstreamPort.beginPassed]; omega, hheld⟩, (nomatch ·)⟩

theorem UpstreamPort.Kept.lost (h : u.Kept claimed) (n : Nat) : ({ u with lost := n } : UpstreamPort).Kept claimed :=
  ⟨h.places, h.claims, h.buffer, h.held⟩

theorem filter_restarted_append (rs : List Text) {body : Text} (h : isRestarted body = false) :
    ((rs ++ [body]).filter isRestarted).length = (rs.filter isRestarted).length := by
  rw [List.filter_append, List.filter_cons, h, List.filter_nil]
  simp

/-- A notice but RESTARTED, offered. -/
theorem UpstreamPort.Kept.offer (h : u.Kept claimed) (hr : u.Rests) {body : Text} (hb : isRestarted body = false) :
    (u.offer body).Kept claimed ∧ (u.offer body).Rests := by
  rcases u.offer_cases body with ⟨hroom, e⟩ | ⟨-, e⟩ <;> rw [e]
  · refine UpstreamPort.Kept.arbitrate ⟨?_, h.claims, h.buffer, (filter_restarted_append _ hb).trans h.held⟩
    rw [UpstreamPort.occupied, h.claims] at hroom
    rw [List.length_append, List.length_singleton]
    omega
  · exact ⟨h.lost _, hr⟩

/-- A reply but RESTARTED joins in the place it claimed. -/
theorem UpstreamPort.Kept.fill (h : u.Kept true) {body : Text} (hb : isRestarted body = false) :
    (u.fill body).Kept false ∧ (u.fill body).Rests := by
  have hplaces := h.places
  rw [UpstreamPort.fill_joins]
  refine UpstreamPort.Kept.arbitrate ⟨?_, ?_, h.buffer, (filter_restarted_append _ hb).trans h.held⟩
  · rw [List.length_append, List.length_singleton]
    exact hplaces
  · rw [h.claims]
    rfl

end

/-! ### The notices of the blocks -/

/-- A port that notices have been offered to, none of them a RESTARTED notice. -/
inductive UpstreamPort.Offers (u : UpstreamPort) : UpstreamPort → Prop where
  | none : Offers u u
  | offer {v : UpstreamPort} {body : Text} (h : Offers u v) (hb : isRestarted body = false) : Offers u (v.offer body)

theorem UpstreamPort.Offers.trans {u v w : UpstreamPort} (h : u.Offers v) (hw : v.Offers w) : u.Offers w := by
  induction hw with
  | none => exact h
  | offer _ hb ih => exact ih.offer hb

theorem UpstreamPort.Offers.kept {u v : UpstreamPort} {claimed : Bool} (hv : u.Offers v) (h : u.Kept claimed)
    (hr : u.Rests) : v.Kept claimed ∧ v.Rests := by
  induction hv with
  | none => exact ⟨h, hr⟩
  | offer _ hb ih => exact ih.1.offer ih.2 hb

theorem isRestarted_noticeBody {unit kind : Byte} (fs : Text) (h : kind ≠ 0x01) :
    isRestarted (noticeBody unit kind fs) = false := by
  rw [isRestarted, show byteAt (noticeBody unit kind fs) 2 = kind from rfl, beq_false_of_ne h, Bool.and_false]

section
variable {s : State}

theorem State.raise_offers (s : State) {kind : Byte} (fs : Text) (h : kind ≠ 0x01) :
    s.upstream.Offers (s.raise kind fs).upstream := .offer .none (isRestarted_noticeBody fs h)

theorem State.raiseAll_offers (s : State) {ns : List (Byte × Text)} (h : ∀ n ∈ ns, n.1 ≠ 0x01) :
    s.upstream.Offers (s.raiseAll ns).upstream := by
  induction ns generalizing s with
  | nil => exact .none
  | cons n ns ih =>
    exact (s.raise_offers n.2 (h n List.mem_cons_self)).trans (ih _ fun m hm => h m (List.mem_cons_of_mem _ hm))

theorem backNotice_kinds (l : LineNo) (i : ModuleNo) (m : BoardModule) : ∀ n ∈ backNotice l i m, n.1 ≠ 0x01 := by
  rw [backNotice]
  split
  · intro n hn
    obtain rfl := List.mem_singleton.1 hn
    exact (by decide : (0x07 : Byte) ≠ 0x01)
  · exact fun n hn => (nomatch hn)

theorem darkNotice_kinds (l : LineNo) (i : ModuleNo) (m : BoardModule) : ∀ n ∈ darkNotice l i m, n.1 ≠ 0x01 := by
  rw [darkNotice]
  split
  · intro n hn
    obtain rfl := List.mem_singleton.1 hn
    exact (by decide : (0x06 : Byte) ≠ 0x01)
  · exact fun n hn => (nomatch hn)

theorem State.boardNotice_offers (s : State) (l : LineNo) (b : BoardLine) {ns : List (Byte × Text)}
    (h : ∀ n ∈ ns, n.1 ≠ 0x01) : s.upstream.Offers (((s.setBoard l b).raiseAll ns).chooseBoard l).upstream :=
  State.raiseAll_offers (s.setBoard l b) h

theorem acceptAt_offers (l : LineNo) (i : ModuleNo) (s : State) : s.upstream.Offers (acceptAt l i s).upstream :=
  s.boardNotice_offers l _ (backNotice_kinds _ _ _)

theorem holdAt_offers (l : LineNo) (i : ModuleNo) (t : Transfer) (s : State) :
    s.upstream.Offers (holdAt l i t s).upstream := s.boardNotice_offers l _ (backNotice_kinds _ _ _)

theorem missAt_offers (l : LineNo) (i : ModuleNo) (t : Transfer) (s : State) :
    s.upstream.Offers (missAt l i t s).upstream := s.boardNotice_offers l _ (darkNotice_kinds _ _ _)

/-! The notices of a Tape Channel are all TAPE_LEVEL. -/

/-- Notices, none of them a RESTARTED notice. -/
abbrev Notices (ns : List (Byte × Text)) : Prop := ∀ n ∈ ns, n.1 ≠ 0x01

theorem notices_nil : Notices [] := fun _ hn => (nomatch hn)

theorem notices_level (ch : Channel) (before after : Nat) (cause : Byte) (lateness backlog : Nat) :
    Notices [levelNotice ch before after cause lateness backlog] := fun n hn => by
  obtain rfl := List.mem_singleton.1 hn
  exact (by decide : (0x05 : Byte) ≠ 0x01)

theorem TapeChannel.printStart_notices (ch : Channel) (fl : Text) (now : BitVec 32) (c : TapeChannel) :
    Notices (c.printStart ch fl now).2 := by
  unfold TapeChannel.printStart
  dsimp only
  split
  · exact notices_nil
  · split
    · exact notices_nil
    · exact notices_level _ _ _ _ _ _

theorem TapeChannel.startIfIdle_notices (ch : Channel) (fl : Text) (now : BitVec 32) (c : TapeChannel) :
    Notices (c.startIfIdle ch fl now).2 := by
  rw [TapeChannel.startIfIdle]
  split
  · exact TapeChannel.printStart_notices _ _ _ _
  · exact notices_nil

theorem TapeChannel.force_notices (ch : Channel) (fl : Text) (c : TapeChannel) : Notices (c.force ch fl).2 := by
  unfold TapeChannel.force
  split
  · exact notices_nil
  · exact notices_level _ _ _ _ _ _

theorem TapeChannel.take_notices (ch : Channel) (fl : Text) (now : BitVec 32) (i : TapeItem) (c : TapeChannel) :
    Notices (c.take ch fl now i).2 := by
  unfold TapeChannel.take
  dsimp only
  split
  · exact notices_nil
  · split
    · exact notices_nil
    · split
      · exact TapeChannel.startIfIdle_notices _ _ _ _
      · split
        · exact TapeChannel.force_notices _ _ _
        · exact notices_nil

theorem TapeChannel.charSent_notices (ch : Channel) (fl : Text) (now : BitVec 32) (c : TapeChannel) :
    Notices (c.charSent ch fl now).2 := by
  unfold TapeChannel.charSent
  dsimp only
  split
  · exact notices_nil
  · split
    · exact notices_nil
    · split
      · exact notices_nil
      · exact TapeChannel.printStart_notices _ _ _ _

theorem TapeChannel.flashExpiry_notices (ch : Channel) (fl : Text) (now : BitVec 32) (c : TapeChannel) :
    Notices (c.flashExpiry ch fl now).2 := by
  unfold TapeChannel.flashExpiry
  dsimp only
  split
  · exact TapeChannel.startIfIdle_notices _ _ _ _
  · exact notices_nil

theorem State.tookTape_offers (s : State) (ch : Channel) {r : TapeChannel × List (Byte × Text)} (h : Notices r.2) :
    s.upstream.Offers (s.tookTape ch r).upstream := by
  have hset := State.raiseAll_offers (s.setTape ch r.1) h
  rwa [State.setTape_upstream] at hset

/-! The Feed Receiver. -/

theorem State.returnLive_offers (s : State) : s.upstream.Offers s.returnLive.upstream := by
  rcases h : s.feed.feedState with _ | _
  · rw [State.returnLive_live h]
    exact .none
  · rw [State.returnLive_quiet h, State.tellTerminals, State.tellBoards_frame]
    exact State.raise_offers _ [] (by decide)

theorem State.goQuiet_offers (s : State) : s.upstream.Offers s.goQuiet.upstream := by
  unfold State.goQuiet
  dsimp only
  rw [State.tellTerminals, State.tellBoards_frame]
  exact State.raise_offers _ [] (by decide)

theorem State.sequence_offers (s : State) (n : Byte) : s.upstream.Offers (s.sequence n).upstream := by
  unfold State.sequence
  dsimp only
  split
  · exact State.raise_offers _ _ (by decide)
  · exact .none

theorem State.dataChecked_offers (s : State) (body : Text) : s.upstream.Offers (s.dataChecked body).upstream := by
  have hrest (u : State) : u.restartSilence.upstream = u.upstream := by rw [State.restartSilence_frame]
  rw [State.dataChecked, hrest]
  split
  · exact (State.sequence_offers _ _).trans (State.returnLive_offers _)
  · exact State.returnLive_offers _

theorem State.checked_offers (s : State) (f : Frame) : s.upstream.Offers (s.checked f).upstream := by
  have hrepeat (u : State) : (if s.repeats f.body then u.repeatFrame f else u).upstream = u.upstream := by
    split
    · rw [State.repeatFrame_frame]
    · rfl
  unfold State.checked
  dsimp only
  rw [hrepeat, State.sortChecked]
  split
  · rw [State.sortData_frame]
    exact State.dataChecked_offers s.countFrame f.body
  · split
    · rw [State.sortControl_frame]
      exact .none
    · exact .none

/-! The Terminal Line Controllers. -/

theorem State.answerTaken_offers (s : State) (t : TermNo) : s.upstream.Offers (s.answerTaken t).upstream := by
  by_cases h : (s.terminals[t]).state = .online
  · rw [State.answerTaken_online h]
    exact .none
  · rw [State.answerTaken_returns h]
    exact State.raise_offers _ _ (by decide)

theorem State.missTerm_offers (s : State) (t : TermNo) : s.upstream.Offers (s.missTerm t).upstream := by
  unfold State.missTerm
  dsimp only
  split
  · exact .none
  · split
    · exact .none
    · exact State.raise_offers _ _ (by decide)

theorem State.beginSelect_upstream (s : State) (l : LineNo) (x : Transaction) :
    (s.beginSelect l x).upstream = s.upstream := by rw [State.beginSelect_frame]

theorem State.endTransaction_upstream (s : State) (l : LineNo) : (s.endTransaction l).upstream = s.upstream := by
  rw [State.endTransaction_frame]

theorem State.receivedAt_offers (s : State) (t : TermNo) (c : Carried) :
    s.upstream.Offers (s.receivedAt t c).upstream := by
  have ha := State.answerTaken_offers s t
  unfold State.receivedAt
  dsimp only
  generalize s.answerTaken t = v at ha ⊢
  cases c with
  | queued =>
    rw [State.freePlaces_frame]
    exact ha
  | entry | length => exact ha

theorem TermMove.offers {u : State} {l : LineNo} (hm : TermMove s l u) : s.upstream.Offers u.upstream := by
  cases hm with
  | pollSent | selectSent => exact .none
  | nothing =>
    rw [State.beginSelect_upstream]
    exact State.answerTaken_offers _ _
  | request reply hx hh hq hu =>
    rw [State.beginSelect_upstream, hu.frame]
    exact State.answerTaken_offers _ _
  | @alertSet x k a reply =>
    have ha := State.answerTaken_offers s (termOf l x.drop)
    generalize s.answerTaken (termOf l x.drop) = v at ha ⊢
    rw [State.beginSelect_upstream, State.evaluate_frame]
    exact ha
  | retry =>
    rw [State.beginSelect_upstream]
    exact State.answerTaken_offers _ _
  | received c =>
    rw [State.endTransaction_upstream]
    exact State.receivedAt_offers _ _ _
  | busy =>
    rw [State.endTransaction_upstream]
    exact State.answerTaken_offers (s.countBusy l) _
  | missed =>
    rw [State.endTransaction_upstream, State.restoreMissed_frame]
    exact State.missTerm_offers (s.countMiss l) _
  | unheard | unheardRetry | unheardBusy | unheardMiss =>
    rw [State.endTransaction_upstream]
    exact .none

theorem LineMove.offers {u : State} (hm : LineMove s u) : s.upstream.Offers u.upstream := by
  cases hm with
  | boardNotice =>
    rw [State.chooseBoards_frame, State.markRows_frame]
    exact .none
  | transferSent | broadcastSent | backOffEnd | terminalNotice => exact .none
  | accept => exact acceptAt_offers _ _ _
  | hold => exact holdAt_offers _ _ _ _
  | miss => exact missAt_offers _ _ _ _
  | lampNotice =>
    rw [State.chooseBoards_frame, State.noticeRows_frame]
    exact .none
  | phaseEnd =>
    rw [State.chooseBoards_frame, State.moveLamps_eq]
    exact .none
  | terminal ht => exact ht.offers
  | alertNotice =>
    rw [State.noticeSlots_frame]
    exact .none

theorem DataMove.offers {u : State} (hm : DataMove s u) : s.upstream.Offers u.upstream := by
  rcases hm.frame with ⟨present, clock, roll, rfl⟩ | rfl | e
  · rw [State.announceOpen_frame]
    exact .none
  · exact State.returnLive_offers s
  · rw [e]
    exact .none

/-! ### The moves -/

/-- The port with its rules, and the parameters of SET FEED with theirs. -/
structure State.PortKept (s : State) : Prop where
  port : s.upstream.Kept s.control.inHand.isSome
  rests : s.upstream.Rests
  window : 1 ≤ s.control.window ∧ s.control.window ≤ 60
  code : altCodeOk s.control.altCode = true

theorem State.portKept_iff (s : State) : s.UpstreamInv ∧ s.ControlInv ↔ s.PortKept := by
  rw [State.upstreamInv_iff]
  exact ⟨fun ⟨⟨hp, hr⟩, hw, hc⟩ => ⟨hp, hr, hw, hc⟩, fun ⟨hp, hr, hw, hc⟩ => ⟨⟨hp, hr⟩, hw, hc⟩⟩

/-- A move of another block: it offers notices, and leaves the Control Unit. -/
theorem State.PortKept.offers {u : State} (h : s.PortKept) (ho : s.upstream.Offers u.upstream)
    (hc : u.control = s.control) : u.PortKept := by
  obtain ⟨hp, hr⟩ := ho.kept h.port h.rests
  exact ⟨by rw [hc]; exact hp, hr, by rw [hc]; exact h.window, by rw [hc]; exact h.code⟩

theorem State.PortKept.same {u : State} (h : s.PortKept) (hu : u.upstream = s.upstream) (hc : u.control = s.control) :
    u.PortKept := h.offers (by rw [hu]; exact .none) hc

/-- A move of the port itself. -/
theorem State.PortKept.arbitrate {p : UpstreamPort} (h : s.PortKept) (hp : p.Kept s.control.inHand.isSome) :
    ({ s with upstream := p.arbitrate } : State).PortKept := ⟨hp.arbitrate.1, hp.arbitrate.2, h.window, h.code⟩

/-- An operation leaves what is in hand, and of the port what it holds. -/
theorem ControlMove.portKept {u : State} (hm : ControlMove s u) (hw : 1 ≤ s.control.window ∧ s.control.window ≤ 60)
    (hc : altCodeOk s.control.altCode = true) :
    (∃ n, u.upstream = { s.upstream with lost := n }) ∧ u.control.inHand = s.control.inHand
      ∧ (1 ≤ u.control.window ∧ u.control.window ≤ 60) ∧ altCodeOk u.control.altCode = true := by
  refine ⟨⟨u.upstream.lost, by rw [hm.frame]⟩, by rw [hm.frame], ?_⟩
  cases hm with
  | nothing | draw | loadIssue | deleteIssue | watch | clearAlert | setFlashList | setLamps | clearCounts =>
    exact ⟨hw, hc⟩
  | blankRow | setRow =>
    rw [State.mapRow_frame]
    exact ⟨hw, hc⟩
  | setAlert =>
    rw [State.evaluate_frame]
    exact ⟨hw, hc⟩
  | setTape =>
    rw [State.setTape_frame]
    exact ⟨hw, hc⟩
  | setFeed hw' hc' => exact ⟨hw', hc'⟩
  | enable =>
    rw [State.enableTerm_frame]
    exact ⟨hw, hc⟩
  | disable =>
    rw [State.disableTerm_frame]
    exact ⟨hw, hc⟩

theorem isRestarted_replyBody (unit : Byte) (body : Text) (table : Byte) (r : Result) (data : Text) :
    isRestarted (replyBody unit body table r data) = false := by
  rw [isRestarted, show byteAt (replyBody unit body table r data) 0 = 0x41 from rfl]
  rfl

theorem filter_restartReplies (unit : Byte) (addressed : Bool) (body : Text) :
    ((restartReplies unit addressed body).filter isRestarted).length = 1
      ∧ (restartReplies unit addressed body).length ≤ 2 := by
  have hreply := isRestarted_replyBody unit body 0 .done []
  have hnotice : isRestarted (restartedBody unit 1) = true := rfl
  unfold restartReplies
  generalize replyBody unit body 0 .done [] = r at hreply ⊢
  generalize restartedBody unit 1 = n at hnotice ⊢
  cases addressed <;> simp [hreply, hnotice]

theorem UpstreamPort.restart_kept (u : UpstreamPort) (unit : Byte) (addressed : Bool) (body : Text) :
    (u.restart (restartReplies unit addressed body)).Kept false
      ∧ (u.restart (restartReplies unit addressed body)).Rests := by
  obtain ⟨hheld, hlen⟩ := filter_restartReplies unit addressed body
  exact UpstreamPort.Kept.arbitrate ⟨hlen.trans (by decide), rfl, Nat.zero_le _, hheld⟩

/-- RESTART leaves one RESTARTED notice, no claim and nothing else in the port. -/
theorem State.PortKept.restart (h : s.PortKept) (hi : s.control.inHand = none) (addressed : Bool) (body : Text)
    (serial : Nat) : (s.restart addressed body serial).PortKept := by
  obtain ⟨hp, hr⟩ := s.upstream.restart_kept s.unitSwitch addressed body
  rw [State.restart_frame]
  exact ⟨by rw [hi]; exact hp, hr, h.window, h.code⟩

theorem UpstreamPort.powerOn_kept (unit : Byte) (ready : Bool) :
    (UpstreamPort.powerOn unit ready).Kept false :=
  ⟨(by decide : 1 ≤ 8), rfl, Nat.zero_le _, rfl⟩

theorem State.PortKept.takeClaim (h : s.PortKept) (hi : s.control.inHand = none) (op : Operation) :
    (s.takeClaim op).PortKept := by
  rw [State.takeClaim]
  split
  · rename_i hfree
    have hclaims : s.upstream.claims = 0 := by rw [h.port.claims, hi]; rfl
    have hroom : s.upstream.occupied < 8 := of_decide_eq_true hfree
    rw [UpstreamPort.occupied, hclaims] at hroom
    exact ⟨⟨hroom, by rw [State.claim, hclaims]; rfl, h.port.buffer, h.port.held⟩, h.rests, h.window, h.code⟩
  · exact ⟨h.port, h.rests, h.window, h.code⟩

theorem Move.portKept {u : State} (hm : Move s u) (h : s.PortKept) : u.PortKept := by
  cases hm with
  | idle => exact h
  | powerOn unit on =>
    obtain ⟨hp, hr⟩ := (UpstreamPort.powerOn_kept unit s.upstream.readyAbove).arbitrate
    exact ⟨hp, hr, (by decide : 1 ≤ 5 ∧ 5 ≤ 60), rfl⟩
  | character | failure | throughEnd | switchOn | switchOff | tick => exact h.same rfl rfl
  | frame a f =>
    exact State.PortKept.offers (s := { s with feed := { s.feed with assembler := a } }) (h.same rfl rfl)
      (State.checked_offers _ f) (by rw [State.checked_frame])
  | quiet => exact h.offers s.goQuiet_offers (by rw [State.goQuiet_frame])
  | data v hd =>
    have hu := State.PortKept.offers (s := s.dropHead) (h.same rfl rfl) hd.offers (by
      rcases hd.frame with ⟨present, clock, roll, rfl⟩ | rfl | e
      · rw [State.announceOpen_frame]
        rfl
      · rw [State.returnLive_frame]
        rfl
      · rw [e])
    exact hu.same rfl rfl
  | claim op hi => exact State.PortKept.takeClaim (s := s.dropHead) (h.same rfl rfl) hi op
  | @execute op u table r data hi hc =>
    obtain ⟨⟨n, hport⟩, hhand, hw, hcode⟩ := hc.portKept h.window h.code
    have hfull : s.upstream.Kept true := by
      have := h.port
      rwa [hi] at this
    have hu : u.upstream.Kept true := by
      rw [hport]
      exact hfull.lost n
    obtain ⟨hp, hr⟩ := hu.fill (isRestarted_replyBody u.unitSwitch op.body table r data)
    refine ⟨?_, hr, hw, hcode⟩
    have hnone : u.control.inHand = none := hhand
    rw [show ((⟨u, r, data⟩ : Done).replied op.body table).control.inHand = none from hnone]
    exact hp
  | broadcast hi hc =>
    obtain ⟨⟨n, hport⟩, hhand, hw, hcode⟩ := hc.portKept h.window h.code
    refine ⟨?_, ?_, hw, hcode⟩
    · rw [hport, hhand]
      exact h.port.lost n
    · rw [hport]
      exact h.rests
  | @restart op hi =>
    obtain ⟨hp, hr⟩ := s.upstream.restart_kept s.unitSwitch true op.body
    rw [State.restart_frame]
    exact ⟨hp, hr, h.window, h.code⟩
  | restartAll op hi => exact State.PortKept.restart (s := s.dropHead) (h.same rfl rfl) hi false op.body op.serial
  | tapeJoin ch =>
    exact h.offers (State.tookTape_offers s ch (TapeChannel.take_notices _ _ _ _ _)) (by rw [State.tookTape_frame])
  | tapeCharacter ch =>
    exact h.offers (State.tookTape_offers s ch (TapeChannel.charSent_notices _ _ _ _)) (by rw [State.tookTape_frame])
  | flashExpiry ch =>
    exact h.offers (State.tookTape_offers s ch (TapeChannel.flashExpiry_notices _ _ _ _)) (by rw [State.tookTape_frame])
  | line hl => exact h.offers hl.offers (by rw [hl.frame])
  | upstreamCharacter a => exact ⟨⟨h.port.places, h.port.claims, h.port.buffer, h.port.held⟩, h.rests, h.window, h.code⟩
  | upstreamFrame a f hroom =>
    refine h.arbitrate ⟨h.port.places, h.port.claims, ?_, h.port.held⟩
    rw [List.length_append, List.length_singleton]
    exact hroom
  | upstreamEnd => exact h.arbitrate ⟨h.port.places, h.port.claims, h.port.buffer, h.port.held⟩
  | readyLine active => exact h.arbitrate ⟨h.port.places, h.port.claims, h.port.buffer, h.port.held⟩

end

/-- Settles O58: every move keeps the port, its claim and the parameters. -/
theorem stepsKeepUpstream : Obligations.StepsKeepUpstream := by
  unfold Obligations.StepsKeepUpstream
  intro s t hup hcontrol hstep
  exact t.portKept_iff.2 (step_keeps (P := State.PortKept) (fun _ _ h => h.same rfl rfl) (fun _ _ h hm => hm.portKept h)
    (s.portKept_iff.1 ⟨hup, hcontrol⟩) hstep)

end Sys2Proof.Machine
end

