-- ==== Sys2Proof/Proofs/CountersKept.lean ====
section
/-! PROOFS. Every step keeps the 36 counters in their 16 bits (R178): each move leaves a counter, clears it, or counts
with `satInc`. -/

namespace Sys2Proof.Machine

theorem countOk_satInc (n : Nat) : CountOk (satInc n) := satInc_le n

/-! ### The counters, block by block -/

def FeedCounts.Ok (c : FeedCounts) : Prop := ∀ n ∈ c.list, CountOk n

abbrev TapeChannel.Counted (c : TapeChannel) : Prop := CountOk c.dropped ∧ CountOk c.merged

/-- The two counters of a board line, and the three of a terminal line. -/
def State.boardTally (s : State) (l : LineNo) : Nat × Nat := ((s.boards[l]).holds, (s.boards[l]).timeouts)

def State.termTally (s : State) (l : LineNo) : Nat × Nat × Nat :=
  ((s.termLines[l]).timeouts, (s.termLines[l]).busies, (s.termLines[l]).retries)

structure State.Counted (s : State) : Prop where
  feed : s.feed.counts.Ok
  mismatches : CountOk s.issues.mismatches
  tapes : s.tapeA.Counted ∧ s.tapeB.Counted
  boards : ∀ l, CountOk (s.boardTally l).1 ∧ CountOk (s.boardTally l).2
  lines : ∀ l, CountOk (s.termTally l).1 ∧ CountOk (s.termTally l).2.1 ∧ CountOk (s.termTally l).2.2
  discards : CountOk s.control.discards
  lost : CountOk s.upstream.lost

theorem forall_mem_flatMap_fin {α : Type} {k : Nat} (v : Vector α k) (f : α → List Nat) :
    (∀ n ∈ v.toList.flatMap f, CountOk n) ↔ ∀ i : Fin k, ∀ n ∈ f v[i], CountOk n := by
  constructor
  · intro h i n hn
    exact h n (List.mem_flatMap.2 ⟨v[i], by simp, hn⟩)
  · intro h n hn
    obtain ⟨a, ha, hn⟩ := List.mem_flatMap.1 hn
    obtain ⟨i, hi, rfl⟩ := Vector.mem_iff_getElem.1 (Vector.mem_toList_iff.1 ha)
    exact h ⟨i, hi⟩ n hn

theorem State.countersInv_iff (s : State) : s.CountersInv ↔ s.Counted := by
  have happend (as bs : List Nat) : (∀ n ∈ as ++ bs, CountOk n) ↔ (∀ n ∈ as, CountOk n) ∧ ∀ n ∈ bs, CountOk n := by
    simp only [List.mem_append, or_imp, forall_and]
  have hcons (a : Nat) (as : List Nat) : (∀ n ∈ a :: as, CountOk n) ↔ CountOk a ∧ ∀ n ∈ as, CountOk n :=
    List.forall_mem_cons
  have hnil : (∀ n ∈ ([] : List Nat), CountOk n) ↔ True := ⟨fun _ => trivial, fun _ n hn => (nomatch hn)⟩
  unfold State.CountersInv State.counters
  simp only [happend, forall_mem_flatMap_fin, hcons, hnil, and_true]
  constructor
  · rintro ⟨⟨⟨⟨hf, hm, ha, ha', hb, hb'⟩, hboards⟩, hlines⟩, hd, hl⟩
    exact ⟨hf, hm, ⟨⟨ha, ha'⟩, hb, hb'⟩, hboards, hlines, hd, hl⟩
  · rintro ⟨hf, hm, ⟨⟨ha, ha'⟩, hb, hb'⟩, hboards, hlines, hd, hl⟩
    exact ⟨⟨⟨⟨hf, hm, ha, ha', hb, hb'⟩, hboards⟩, hlines⟩, hd, hl⟩

/-! ### The feed -/

section
variable {c : FeedCounts}

theorem FeedCounts.ok_iff : c.Ok ↔ CountOk c.received ∧ CountOk c.checkFailure ∧ CountOk c.gap ∧ CountOk c.refused
    ∧ CountOk c.discarded ∧ CountOk c.malformed ∧ CountOk c.quiet ∧ CountOk c.throughLoss ∧ CountOk c.handOverLoss := by
  simp only [FeedCounts.Ok, FeedCounts.list, List.forall_mem_cons, List.not_mem_nil, false_imp_iff, implies_true,
    and_true]

theorem FeedCounts.ok_zero : FeedCounts.zero.Ok := by
  rw [FeedCounts.ok_iff]
  decide

/-- One more of any kind. -/
theorem FeedCounts.Ok.count (h : c.Ok) :
    ({ c with received := satInc c.received } : FeedCounts).Ok
      ∧ ({ c with checkFailure := satInc c.checkFailure } : FeedCounts).Ok
      ∧ ({ c with gap := satInc c.gap } : FeedCounts).Ok
      ∧ ({ c with refused := satInc c.refused } : FeedCounts).Ok
      ∧ ({ c with discarded := satInc c.discarded } : FeedCounts).Ok
      ∧ ({ c with malformed := satInc c.malformed } : FeedCounts).Ok
      ∧ ({ c with quiet := satInc c.quiet } : FeedCounts).Ok
      ∧ ({ c with throughLoss := satInc c.throughLoss } : FeedCounts).Ok
      ∧ ({ c with handOverLoss := satInc c.handOverLoss } : FeedCounts).Ok := by
  simp only [FeedCounts.ok_iff] at h ⊢
  simp only [h, countOk_satInc, and_self]

end

section
variable {s : State}

theorem State.sequence_counts (h : s.feed.counts.Ok) (n : Byte) : (s.sequence n).feed.counts.Ok := by
  unfold State.sequence
  dsimp only
  split
  · exact h.count.2.2.1
  · exact h

theorem State.dataChecked_counts (h : s.feed.counts.Ok) (body : Text) : (s.dataChecked body).feed.counts.Ok := by
  have hrest (u : State) (hu : u.feed.counts.Ok) : u.returnLive.restartSilence.feed.counts.Ok := by
    rw [State.restartSilence]
    split
    · rw [State.returnLive_frame]
      exact hu
    · rw [State.returnLive_frame]
      exact hu
  rw [State.dataChecked]
  refine hrest _ ?_
  split
  · exact State.sequence_counts h _
  · exact h

theorem State.handOn_counts (h : s.feed.counts.Ok) (x : Sorted) (body : Text) : (s.handOn x body).feed.counts.Ok := by
  rw [State.handOn]
  split
  · exact h
  · exact h.count.2.2.2.2.2.2.2.2

theorem State.sortChecked_counts (h : s.feed.counts.Ok) (body : Text) : (s.sortChecked body).feed.counts.Ok := by
  rw [State.sortChecked]
  split
  · have hd := State.dataChecked_counts h body
    generalize s.dataChecked body = u at hd ⊢
    rw [State.sortData]
    split
    · exact hd.count.2.2.2.2.2.1
    · split
      · exact hd.count.2.2.2.2.2.1
      · exact State.handOn_counts hd _ _
  · split
    · rw [State.sortControl]
      split
      · exact h.count.2.2.2.2.2.1
      · split
        · exact State.handOn_counts h _ _
        · split
          · exact State.handOn_counts h _ _
          · exact h
    · exact h.count.2.2.2.2.2.1

theorem FeedReceiver.pump_counts (f : FeedReceiver) : f.pump.counts = f.counts := by
  rw [FeedReceiver.pump]
  split <;> rfl

theorem State.checked_counts (h : s.feed.counts.Ok) (f : Frame) : (s.checked f).feed.counts.Ok := by
  have hsorted := State.sortChecked_counts (s := s.countFrame) h.count.1 f.body
  unfold State.checked
  dsimp only
  generalize s.countFrame.sortChecked f.body = u at hsorted ⊢
  split
  · rw [State.repeatFrame]
    split
    · split
      · rw [FeedReceiver.pump_counts]
        exact hsorted
      · exact hsorted.count.2.2.2.2.2.2.2.1
    · exact hsorted
  · exact hsorted

/-! ### The tapes -/

theorem TapeChannel.Counted.congr {c d : TapeChannel} (h : c.Counted) (hd : d.dropped = c.dropped)
    (hm : d.merged = c.merged) : d.Counted := by
  rw [TapeChannel.Counted, hd, hm]
  exact h

theorem TapeChannel.recount_counted {c : TapeChannel} (h : c.Counted) (fl : Text) : (c.recount fl).Counted := h

theorem TapeChannel.printStart_counted {c : TapeChannel} (h : c.Counted) (ch : Channel) (fl : Text) (now : BitVec 32) :
    (c.printStart ch fl now).1.Counted := by
  have hcopy : (c.copyWorking fl).Counted := by
    unfold TapeChannel.copyWorking
    dsimp only
    split <;> exact h
  unfold TapeChannel.printStart
  dsimp only
  generalize c.copyWorking fl = d at hcopy ⊢
  split
  · exact hcopy
  · split <;> exact hcopy

theorem TapeChannel.startIfIdle_counted {c : TapeChannel} (h : c.Counted) (ch : Channel) (fl : Text)
    (now : BitVec 32) : (c.startIfIdle ch fl now).1.Counted := by
  rw [TapeChannel.startIfIdle]
  split
  · exact TapeChannel.printStart_counted h _ _ _
  · exact h

theorem TapeChannel.take_counted {c : TapeChannel} (h : c.Counted) (ch : Channel) (fl : Text) (now : BitVec 32)
    (i : TapeItem) : (c.take ch fl now i).1.Counted := by
  have hdropped : ({ c with dropped := satInc c.dropped } : TapeChannel).Counted := ⟨countOk_satInc _, h.2⟩
  unfold TapeChannel.take
  dsimp only
  split
  · exact h
  · split
    · exact ⟨h.1, countOk_satInc _⟩
    · split
      · exact TapeChannel.startIfIdle_counted (c := c.joinTail fl now i) h _ _ _
      · split
        · unfold TapeChannel.force
          split <;> exact hdropped
        · exact hdropped

theorem TapeChannel.charSent_counted {c : TapeChannel} (h : c.Counted) (ch : Channel) (fl : Text) (now : BitVec 32) :
    (c.charSent ch fl now).1.Counted := by
  unfold TapeChannel.charSent
  dsimp only
  split
  · exact h
  · split
    · exact h
    · split
      · exact h
      · exact TapeChannel.printStart_counted (c := { c with rate := _, emission := none }) h _ _ _

theorem TapeChannel.flashExpiry_counted {c : TapeChannel} (h : c.Counted) (ch : Channel) (fl : Text)
    (now : BitVec 32) : (c.flashExpiry ch fl now).1.Counted := by
  unfold TapeChannel.flashExpiry
  dsimp only
  split
  · exact TapeChannel.startIfIdle_counted (c := TapeChannel.joinFlash { c with flashTimer := _ } fl now) h _ _ _
  · exact h

/-! ### The lines -/

theorem State.setBoard_boardTally {l : LineNo} {b : BoardLine}
    (h : b.holds = (s.boards[l]).holds ∧ b.timeouts = (s.boards[l]).timeouts) :
    (s.setBoard l b).boardTally = s.boardTally := by
  funext k
  rw [State.boardTally, State.setBoard_board]
  split
  · rename_i e
    subst e
    rw [h.1, h.2]
    rfl
  · rfl

theorem State.chooseBoard_boardTally (s : State) (l : LineNo) : (s.chooseBoard l).boardTally = s.boardTally :=
  State.setBoard_boardTally (BoardLine.choose_counts _ _ _)

theorem State.chooseBoards_boardTally (s : State) : s.chooseBoards.boardTally = s.boardTally := by
  rw [State.chooseBoards]
  exact foldl_view (view := State.boardTally) State.chooseBoard_boardTally _ s

theorem State.raiseAll_boardTally (s : State) (ns : List (Byte × Text)) :
    (s.raiseAll ns).boardTally = s.boardTally := by
  rw [State.raiseAll_frame]
  rfl

theorem BoardLine.markFields_tally (b : BoardLine) (i : ModuleNo) (fs : FieldSet) :
    (b.markFields i fs).holds = b.holds ∧ (b.markFields i fs).timeouts = b.timeouts := by
  rw [BoardLine.markFields_frame]
  exact ⟨rfl, rfl⟩

theorem State.markRow_boardTally (s : State) (fs : FieldSet) (r : RowNo) :
    (s.markRow fs r).boardTally = s.boardTally := State.setBoard_boardTally (BoardLine.markFields_tally _ _ _)

theorem State.markRows_boardTally (s : State) (fs : FieldSet) (rs : List RowNo) :
    (s.markRows fs rs).boardTally = s.boardTally := by
  induction rs generalizing s with
  | nil => rfl
  | cons r rs ih => rw [State.markRows, ih, State.markRow_boardTally]

theorem State.moveLamps_boardTally (s : State) (r : RowNo) (y : RowLamps) :
    (s.moveLamps r y).boardTally = s.boardTally := by
  rw [State.moveLamps]
  split
  · exact State.markRow_boardTally _ _ _
  · rfl

theorem State.noticeRows_boardTally (s : State) (n : ChangeNotice) (rs : List RowNo) :
    (s.noticeRows n rs).boardTally = s.boardTally := by
  induction rs generalizing s with
  | nil => rfl
  | cons r rs ih =>
    rw [State.noticeRows, ih, State.noticeRow]
    split
    · exact State.moveLamps_boardTally _ _ _
    · rfl

theorem State.darkenRows_boardTally (s : State) (rs : List RowNo) : (s.darkenRows rs).boardTally = s.boardTally := by
  induction rs generalizing s with
  | nil => rfl
  | cons r rs ih => rw [State.darkenRows, ih, State.moveLamps_boardTally]

theorem State.mapBoards_boardTally {u : State} {f : BoardLine → BoardLine} (h : u.boards = s.boards.map f)
    (hf : ∀ b, (f b).holds = b.holds ∧ (f b).timeouts = b.timeouts) : u.boardTally = s.boardTally := by
  funext l
  rw [State.boardTally, h, show (s.boards.map f)[l] = f s.boards[l] from Vector.getElem_map _ _, (hf _).1, (hf _).2]
  rfl

theorem State.tellBoards_boardTally (s : State) (f : FeedState) : (s.tellBoards f).boardTally = s.boardTally := by
  rw [State.tellBoards, State.chooseBoards_boardTally]
  exact State.mapBoards_boardTally rfl fun _ => ⟨rfl, rfl⟩

theorem State.announceOpen_boardTally (s : State) : s.announceOpen.boardTally = s.boardTally := by
  rw [State.announceOpen, State.chooseBoards_boardTally, State.darkenRows_boardTally]

theorem State.boardTally_congr {u : State} (h : u.boards = s.boards) : u.boardTally = s.boardTally := by
  funext l
  rw [State.boardTally, h]
  rfl

theorem State.tellTerminals_boardTally (s : State) : s.tellTerminals.boardTally = s.boardTally :=
  State.boardTally_congr (by rw [State.tellTerminals])

theorem State.returnLive_boardTally (s : State) : s.returnLive.boardTally = s.boardTally := by
  rcases h : s.feed.feedState with _ | _
  · rw [State.returnLive_live h]
  · rw [State.returnLive_quiet h, State.tellTerminals_boardTally, State.tellBoards_boardTally]
    rfl

theorem State.goQuiet_boardTally (s : State) : s.goQuiet.boardTally = s.boardTally := by
  rw [State.goQuiet, State.tellTerminals_boardTally, State.tellBoards_boardTally]
  rfl

theorem State.checked_boardTally (s : State) (f : Frame) : (s.checked f).boardTally = s.boardTally := by
  rcases s.checked_reaches f with ⟨hb, -⟩ | ⟨w, hw, hb, -⟩ <;> rw [State.boardTally_congr hb]
  rw [State.returnLive_boardTally, hw]
  rfl

theorem BoardLine.change_tally (b : BoardLine) (i : ModuleNo) (f : BoardModule → BoardModule) :
    (b.change i f).holds = b.holds ∧ (b.change i f).timeouts = b.timeouts :=
  ⟨BoardLine.change_holds _ _ _, BoardLine.change_timeouts _ _ _⟩

theorem BoardLine.ended_tally (b : BoardLine) (i : ModuleNo) (f : BoardModule → BoardModule) :
    (b.ended i f).holds = b.holds ∧ (b.ended i f).timeouts = b.timeouts := BoardLine.change_tally _ i f

theorem State.mapRow_boardTally (s : State) (r : RowNo) (p : Option Mapping) :
    (s.mapRow r p).boardTally = s.boardTally := by
  have moved (t : State) (y : RowLamps) (c : Prop) [Decidable c] :
      ((if c then t else t.moveLamps r y).chooseBoard (rowLine r)).boardTally = t.boardTally := by
    rw [State.chooseBoard_boardTally]
    split
    · rfl
    · exact State.moveLamps_boardTally t r y
  unfold State.mapRow
  dsimp only
  rw [moved]
  exact State.setBoard_boardTally (BoardLine.change_tally _ _ _)

theorem acceptAt_boardTally (l : LineNo) (i : ModuleNo) (s : State) : (acceptAt l i s).boardTally = s.boardTally := by
  rw [acceptAt, State.chooseBoard_boardTally, State.raiseAll_boardTally]
  exact State.setBoard_boardTally (BoardLine.change_tally _ _ _)

/-- The counters of a board line, in range. -/
abbrev BoardsCounted (s : State) : Prop := ∀ l, CountOk (s.boardTally l).1 ∧ CountOk (s.boardTally l).2

theorem BoardsCounted.setBoard (h : BoardsCounted s) {l : LineNo} {b : BoardLine} (hh : CountOk b.holds)
    (ht : CountOk b.timeouts) : BoardsCounted (s.setBoard l b) := fun k => by
  rw [State.boardTally, State.setBoard_board]
  split
  · exact ⟨hh, ht⟩
  · exact h k

theorem BoardsCounted.congr {u : State} (h : BoardsCounted s) (hu : u.boardTally = s.boardTally) : BoardsCounted u := by
  rw [BoardsCounted, hu]
  exact h

theorem BoardsCounted.holdAt (h : BoardsCounted s) (l : LineNo) (i : ModuleNo) (t : Transfer) :
    BoardsCounted (holdAt l i t s) := by
  rw [Machine.holdAt]
  refine BoardsCounted.congr ?_ ((State.chooseBoard_boardTally _ _).trans (State.raiseAll_boardTally _ _))
  exact h.setBoard (countOk_satInc _) (by rw [(BoardLine.ended_tally _ _ _).2]; exact (h l).2)

theorem BoardsCounted.missAt (h : BoardsCounted s) (l : LineNo) (i : ModuleNo) (t : Transfer) :
    BoardsCounted (missAt l i t s) := by
  rw [Machine.missAt]
  refine BoardsCounted.congr ?_ ((State.chooseBoard_boardTally _ _).trans (State.raiseAll_boardTally _ _))
  exact h.setBoard (by rw [(BoardLine.ended_tally _ _ _).1]; exact (h l).1) (countOk_satInc _)

theorem BoardLine.restart_tally (b : BoardLine) (f : FeedState) :
    (b.restart f).holds = 0 ∧ (b.restart f).timeouts = 0 := by
  have settle (is : List ModuleNo) (c : BoardLine) : ((is.foldl BoardLine.settleMark c).holds,
      (is.foldl BoardLine.settleMark c).timeouts) = (c.holds, c.timeouts) :=
    foldl_view (view := fun c : BoardLine => (c.holds, c.timeouts)) (fun c j => by rw [(c.settleMark_frame j).1]) is c
  rw [BoardLine.restart]
  exact Prod.mk.inj (settle _ _)

theorem BoardsCounted.restart (s : State) (serial : Nat) : BoardsCounted (s.restartBlocks serial) := fun l => by
  obtain ⟨hh, ht⟩ := BoardLine.choose_counts ((s.boards[l]).restart s.feed.feedState) s.issues.records
    fun m => (s.restartBlocks serial).lamps[rowOf l m]
  rw [State.boardTally, (s.restartBlocks_displays serial).2 l, hh, ht, (BoardLine.restart_tally _ _).1,
    (BoardLine.restart_tally _ _).2]
  exact ⟨Nat.zero_le _, Nat.zero_le _⟩

/-! The terminal lines. -/

abbrev LinesCounted (s : State) : Prop :=
  ∀ l, CountOk (s.termTally l).1 ∧ CountOk (s.termTally l).2.1 ∧ CountOk (s.termTally l).2.2

theorem LinesCounted.congr {u : State} (h : LinesCounted s) (hu : u.termTally = s.termTally) : LinesCounted u := by
  rw [LinesCounted, hu]
  exact h

theorem State.termTally_congr {u : State} (h : u.termLines = s.termLines) : u.termTally = s.termTally := by
  funext l
  rw [State.termTally, h]
  rfl

theorem State.setTermLine_termTally {l : LineNo} {x : TermLine} (h : x.timeouts = (s.termLines[l]).timeouts
    ∧ x.busies = (s.termLines[l]).busies ∧ x.retries = (s.termLines[l]).retries) :
    (s.setTermLine l x).termTally = s.termTally := by
  funext k
  rw [State.termTally, State.setTermLine_line]
  split
  · rename_i e
    subst e
    rw [h.1, h.2.1, h.2.2]
    rfl
  · rfl

theorem State.chooseTerm_termTally (s : State) (l : LineNo) : (s.chooseTerm l).termTally = s.termTally := by
  rcases s.chooseTerm_cases l with ⟨-, e⟩ | ⟨-, -, e⟩ | ⟨d, -, -, e⟩ <;> rw [e]
  exact State.setTermLine_termTally ⟨rfl, rfl, rfl⟩

theorem State.endTransaction_termTally (s : State) (l : LineNo) : (s.endTransaction l).termTally = s.termTally := by
  rw [State.endTransaction, State.chooseTerm_termTally]
  exact State.setTermLine_termTally ⟨rfl, rfl, rfl⟩

theorem State.beginSelect_termTally (s : State) (l : LineNo) (x : Transaction) :
    (s.beginSelect l x).termTally = s.termTally := by
  rw [State.beginSelect]
  split
  · exact State.setTermLine_termTally ⟨rfl, rfl, rfl⟩
  · exact State.endTransaction_termTally s l

theorem LinesCounted.countLine (h : LinesCounted s) (l : LineNo) {f : TermLine → TermLine}
    (hf : ∀ x, CountOk x.timeouts ∧ CountOk x.busies ∧ CountOk x.retries →
      CountOk (f x).timeouts ∧ CountOk (f x).busies ∧ CountOk (f x).retries) : LinesCounted (s.countLine l f) := by
  intro k
  rw [State.termTally, State.countLine, State.setTermLine_line]
  split
  · exact hf _ (h l)
  · exact h k

theorem LinesCounted.retry (h : LinesCounted s) (l : LineNo) : LinesCounted (s.retry l) :=
  h.countLine l fun _ hx => ⟨hx.1, hx.2.1, countOk_satInc _⟩

theorem LinesCounted.busy (h : LinesCounted s) (l : LineNo) : LinesCounted (s.countBusy l) :=
  h.countLine l fun _ hx => ⟨hx.1, countOk_satInc _, hx.2.2⟩

theorem LinesCounted.miss (h : LinesCounted s) (l : LineNo) : LinesCounted (s.countMiss l) :=
  h.countLine l fun _ hx => ⟨countOk_satInc _, hx.2.1, hx.2.2⟩

theorem State.answerTaken_termTally (s : State) (t : TermNo) : (s.answerTaken t).termTally = s.termTally :=
  State.termTally_congr (by rw [State.answerTaken_frame])

theorem TermMove.counted {u : State} {l : LineNo} (hm : TermMove s l u) (h : LinesCounted s) : LinesCounted u := by
  have hanswer (t : TermNo) : LinesCounted (s.answerTaken t) := h.congr (s.answerTaken_termTally t)
  cases hm with
  | pollSent | selectSent => exact h.congr (State.setTermLine_termTally ⟨rfl, rfl, rfl⟩)
  | nothing => exact (hanswer _).congr (State.beginSelect_termTally _ _ _)
  | @request x u reply _ _ _ hu =>
    have ht : u.termLines = ((s.answerTaken (termOf l x.drop)).takenAck l).termLines := by rw [hu.frame]
    have hcount : LinesCounted ((s.answerTaken (termOf l x.drop)).takenAck l) := (hanswer _).countLine l fun _ hx => hx
    exact hcount.congr ((State.beginSelect_termTally _ _ _).trans (State.termTally_congr ht))
  | @alertSet x k a reply =>
    have hcount : LinesCounted ((s.answerTaken (termOf l x.drop)).takenAck l) := (hanswer _).countLine l fun _ hx => hx
    refine hcount.congr ((State.beginSelect_termTally _ _ _).trans (State.termTally_congr ?_))
    rw [State.evaluate_frame]
    rfl
  | retry => exact ((hanswer _).retry l).congr (State.beginSelect_termTally _ _ _)
  | received =>
    refine h.congr ((State.endTransaction_termTally _ _).trans (State.termTally_congr ?_))
    rw [State.receivedAt_frame]
  | busy =>
    refine (h.busy l).congr ((State.endTransaction_termTally _ _).trans ?_)
    exact State.answerTaken_termTally (s.countBusy l) _
  | missed =>
    refine (h.miss l).congr ((State.endTransaction_termTally _ _).trans (State.termTally_congr ?_))
    rw [State.restoreMissed_frame, State.missTerm_frame]
  | unheard => exact h.congr (State.endTransaction_termTally _ _)
  | unheardRetry => exact (h.retry l).congr (State.endTransaction_termTally _ _)
  | unheardBusy => exact (h.busy l).congr (State.endTransaction_termTally _ _)
  | unheardMiss => exact (h.miss l).congr (State.endTransaction_termTally _ _)

theorem State.enableTerm_termTally (s : State) (t : TermNo) : (s.enableTerm t).termTally = s.termTally := by
  rw [State.enableTerm]
  split
  · rfl
  · rw [State.chooseTerm_termTally]
    exact State.termTally_congr (by rw [State.freePlaces_frame]; rfl)

theorem State.disableTerm_termTally (s : State) (t : TermNo) : (s.disableTerm t).termTally = s.termTally := by
  rw [State.disableTerm]
  split
  · refine (State.setTermLine_termTally ?_).trans (State.termTally_congr rfl)
    exact ⟨rfl, rfl, rfl⟩
  · rfl

theorem LinesCounted.restart (s : State) : LinesCounted s.restartTerminals.chooseTerms := by
  obtain ⟨a, e, ha⟩ := s.restartTerminals_eq
  have hzero (l : LineNo) : a.termTally l = (0, 0, 0) := by
    rw [State.termTally, ha, show (s.termLines.map _)[l] = _ from Vector.getElem_map _ _]
  have hchosen (u : State) : u.chooseTerms.termTally = u.termTally := by
    rw [State.chooseTerms]
    exact foldl_view (view := State.termTally) State.chooseTerm_termTally _ u
  rw [LinesCounted, hchosen, e, State.termTally_congr (s := a) (by rw [State.freeAll_frame])]
  intro l
  rw [hzero]
  exact ⟨Nat.zero_le _, Nat.zero_le _, Nat.zero_le _⟩

/-! ### The port -/

theorem UpstreamPort.Offers.lost {u v : UpstreamPort} (hv : u.Offers v) (h : CountOk u.lost) : CountOk v.lost := by
  induction hv with
  | none => exact h
  | offer _ _ ih =>
    rename_i w body _ _
    rcases w.offer_cases body with ⟨-, e⟩ | ⟨-, e⟩ <;> rw [e]
    · rw [UpstreamPort.arbitrate_lost]
      exact ih
    · exact countOk_satInc _

/-! ### The moves -/

/-- What reads the counters alone. -/
theorem State.Counted.same {u : State} (h : s.Counted) (hf : u.feed.counts = s.feed.counts)
    (hm : u.issues.mismatches = s.issues.mismatches) (ha : u.tapeA.Counted) (hb : u.tapeB.Counted)
    (hboards : u.boardTally = s.boardTally) (hlines : u.termTally = s.termTally)
    (hd : u.control.discards = s.control.discards) (hl : CountOk u.upstream.lost) : u.Counted :=
  ⟨by rw [hf]; exact h.feed, by rw [hm]; exact h.mismatches, ⟨ha, hb⟩, BoardsCounted.congr h.boards hboards,
    LinesCounted.congr h.lines hlines, by rw [hd]; exact h.discards, hl⟩

theorem DataMove.counted {u : State} (hm : DataMove s u) (h : s.Counted) : u.Counted := by
  have hmismatch : CountOk u.issues.mismatches := by
    cases hm with
    | unapplied | quote => exact h.mismatches
    | trade =>
      rw [State.tradePrint, State.handEligible_frame]
      exact h.mismatches
    | late =>
      rw [State.latePrint, State.handEligible_frame]
      exact h.mismatches
    | alternate =>
      unfold State.alternatePrint
      dsimp only
      split <;> exact h.mismatches
    | status =>
      rw [State.setHalted, State.handEligible_frame]
      exact h.mismatches
    | correct =>
      rw [State.correct, State.handEligible_frame]
      exact h.mismatches
    | mismatch => exact countOk_satInc _
    | opened =>
      rw [State.announceOpen_frame]
      exact h.mismatches
    | closed =>
      rw [State.returnLive_frame]
      exact h.mismatches
  rcases hm.frame with ⟨present, clock, roll, rfl⟩ | rfl | e
  · have hboards := State.announceOpen_boardTally (s.openSession present clock)
    rw [State.announceOpen_frame] at hboards ⊢
    exact h.same rfl rfl h.tapes.1 h.tapes.2 hboards rfl rfl h.lost
  · have hboards := State.returnLive_boardTally s
    have hlost := s.returnLive_offers.lost h.lost
    rw [State.returnLive_frame] at hboards hlost ⊢
    exact h.same rfl rfl h.tapes.1 h.tapes.2 hboards rfl rfl hlost
  · rw [e] at hmismatch ⊢
    exact ⟨h.feed, hmismatch, h.tapes, h.boards, h.lines, h.discards, h.lost⟩

theorem State.clearCounts_counted (s : State) : s.clearCounts.Counted := by
  refine ⟨FeedCounts.ok_zero, Nat.zero_le _, ⟨⟨Nat.zero_le _, Nat.zero_le _⟩, Nat.zero_le _, Nat.zero_le _⟩,
    fun l => ?_, fun l => ?_, Nat.zero_le _, Nat.zero_le _⟩
  · rw [State.boardTally, show s.clearCounts.boards[l] = BoardLine.clearCounts s.boards[l] from Vector.getElem_map _ _]
    exact ⟨Nat.zero_le _, Nat.zero_le _⟩
  · rw [State.termTally, show s.clearCounts.termLines[l] = TermLine.clearCounts s.termLines[l] from
      Vector.getElem_map _ _]
    exact ⟨Nat.zero_le _, Nat.zero_le _, Nat.zero_le _⟩

theorem ControlMove.counted {u : State} (hm : ControlMove s u) (h : s.Counted) : u.Counted := by
  cases hm with
  | nothing | draw | loadIssue | deleteIssue | watch | clearAlert | setFlashList | setLamps | setFeed =>
    exact h.same rfl rfl h.tapes.1 h.tapes.2 rfl rfl rfl h.lost
  | blankRow r =>
    have hboards := State.mapRow_boardTally s r none
    rw [State.mapRow_frame] at hboards ⊢
    exact h.same rfl rfl h.tapes.1 h.tapes.2 hboards rfl rfl h.lost
  | @setRow r p =>
    have hboards := State.mapRow_boardTally s r (some p)
    rw [State.mapRow_frame] at hboards ⊢
    exact h.same rfl rfl h.tapes.1 h.tapes.2 hboards rfl rfl h.lost
  | setAlert =>
    rw [State.evaluate_frame]
    exact h.same rfl rfl h.tapes.1 h.tapes.2 rfl rfl rfl h.lost
  | setTape ch =>
    cases ch
    · exact h.same rfl rfl h.tapes.1 h.tapes.2 rfl rfl rfl h.lost
    · exact h.same rfl rfl h.tapes.1 h.tapes.2 rfl rfl rfl h.lost
  | enable t =>
    have hlines := State.enableTerm_termTally s t
    rw [State.enableTerm_frame] at hlines ⊢
    exact h.same rfl rfl h.tapes.1 h.tapes.2 rfl hlines rfl h.lost
  | disable t =>
    have hlines := State.disableTerm_termTally s t
    rw [State.disableTerm_frame] at hlines ⊢
    exact h.same rfl rfl h.tapes.1 h.tapes.2 rfl hlines rfl h.lost
  | clearCounts => exact s.clearCounts_counted

/-- A line's move leaves every counter but its line's and that of the notices lost. -/
theorem State.Counted.lines_moved {u : State} (h : s.Counted) (hm : LineMove s u) (hb : BoardsCounted u)
    (hl : LinesCounted u) : u.Counted := by
  have hlost := hm.offers.lost h.lost
  have hframe := hm.frame
  generalize hboards : u.boards = bs at hframe
  refine ⟨?_, ?_, ?_, hb, hl, ?_, hlost⟩ <;> rw [hframe]
  · exact h.feed
  · exact h.mismatches
  · exact h.tapes
  · exact h.discards

theorem LineMove.counted {u : State} (hm : LineMove s u) (h : s.Counted) : u.Counted := by
  have hsame (hlines : u.termTally = s.termTally) (hb : BoardsCounted u) : u.Counted :=
    h.lines_moved hm hb (LinesCounted.congr h.lines hlines)
  have hboards (e : u.boardTally = s.boardTally) : BoardsCounted u := BoardsCounted.congr h.boards e
  cases hm with
  | boardNotice =>
    refine hsame (State.termTally_congr (by rw [State.chooseBoards_frame, State.markRows_frame])) (hboards ?_)
    rw [State.chooseBoards_boardTally, State.markRows_boardTally]
    rfl
  | transferSent => exact hsame rfl (hboards (State.setBoard_boardTally ⟨rfl, rfl⟩))
  | broadcastSent | backOffEnd =>
    exact hsame rfl (hboards ((State.chooseBoard_boardTally _ _).trans (State.setBoard_boardTally ⟨rfl, rfl⟩)))
  | accept l =>
    exact hsame (State.termTally_congr (by rw [acceptAt_frame])) (hboards (acceptAt_boardTally l _ s))
  | hold l => exact hsame (State.termTally_congr (by rw [holdAt_frame])) (BoardsCounted.holdAt h.boards l _ _)
  | miss l => exact hsame (State.termTally_congr (by rw [missAt_frame])) (BoardsCounted.missAt h.boards l _ _)
  | lampNotice =>
    refine hsame (State.termTally_congr (by rw [State.chooseBoards_frame, State.noticeRows_frame])) (hboards ?_)
    rw [State.chooseBoards_boardTally, State.noticeRows_boardTally]
    rfl
  | phaseEnd r =>
    refine hsame (State.termTally_congr (by rw [State.chooseBoards_frame, State.moveLamps_eq])) (hboards ?_)
    rw [State.chooseBoards_boardTally, State.moveLamps_boardTally]
  | terminalNotice => exact hsame rfl (hboards rfl)
  | terminal ht =>
    refine h.lines_moved (.terminal ht) (hboards (State.boardTally_congr (by rw [ht.frame]))) (ht.counted h.lines)
  | alertNotice =>
    refine hsame (State.termTally_congr (by rw [State.noticeSlots_frame])) (hboards (State.boardTally_congr ?_))
    rw [State.noticeSlots_frame]

theorem UpstreamPort.restart_lost (p : UpstreamPort) (rs : List Text) : (p.restart rs).lost = 0 := by
  rw [UpstreamPort.restart, UpstreamPort.arbitrate_lost]

theorem FeedReceiver.restart_counts (f : FeedReceiver) (serial : Nat) : (f.restart serial).counts = .zero := by
  rw [FeedReceiver.restart, FeedReceiver.pump_counts]

theorem LinesCounted.restartBlocks (s : State) (serial : Nat) : LinesCounted (s.restartBlocks serial) := by
  unfold State.restartBlocks
  dsimp only
  exact LinesCounted.restart _

theorem State.restart_counted (s : State) (addressed : Bool) (body : Text) (serial : Nat) :
    (s.restart addressed body serial).Counted := by
  have hb := BoardsCounted.restart s serial
  have hl := LinesCounted.restartBlocks s serial
  rw [State.restart_frame]
  generalize s.restartBlocks serial = w at hb hl ⊢
  refine ⟨?_, Nat.zero_le _, ⟨⟨Nat.zero_le _, Nat.zero_le _⟩, Nat.zero_le _, Nat.zero_le _⟩, hb, hl, Nat.zero_le _, ?_⟩
  · rw [FeedReceiver.restart_counts]
    exact FeedCounts.ok_zero
  · rw [UpstreamPort.restart_lost]
    exact Nat.zero_le _

theorem Verdict.count_ok {c : FeedCounts} (h : c.Ok) (v : Verdict) : (v.count c).Ok := by
  cases v with
  | applied => exact h
  | discarded => exact h.count.2.2.2.2.1
  | refused => exact h.count.2.2.2.1

/-- A new state of a channel, with its notices. -/
theorem State.Counted.tookTape (h : s.Counted) {ch : Channel} {r : TapeChannel × List (Byte × Text)}
    (hc : (s.tape ch).Counted → r.1.Counted) (hn : Notices r.2) : (s.tookTape ch r).Counted := by
  have hlost := (State.tookTape_offers s ch hn).lost h.lost
  rw [State.tookTape_frame] at hlost ⊢
  cases ch
  · exact h.same rfl rfl (hc h.tapes.1) h.tapes.2 rfl rfl rfl hlost
  · exact h.same rfl rfl h.tapes.1 (hc h.tapes.2) rfl rfl rfl hlost

theorem State.powerOn_counted {p : State} (hf : p.feed.counts = .zero) (hm : p.issues.mismatches = 0)
    (ha : p.tapeA = .powerOn) (hb : p.tapeB = .powerOn) (hboards : ∀ l : LineNo, p.boards[l] = .powerOn)
    (hlines : ∀ l : LineNo, p.termLines[l] = .powerOn) (hd : p.control.discards = 0) (hl : p.upstream.lost = 0) :
    p.Counted := by
  refine ⟨by rw [hf]; exact FeedCounts.ok_zero, by rw [hm]; exact Nat.zero_le _, by rw [ha, hb]; decide, fun l => ?_,
    fun l => ?_, by rw [hd]; exact Nat.zero_le _, by rw [hl]; exact Nat.zero_le _⟩
  · rw [State.boardTally, hboards]
    exact ⟨Nat.zero_le _, Nat.zero_le _⟩
  · rw [State.termTally, hlines]
    exact ⟨Nat.zero_le _, Nat.zero_le _, Nat.zero_le _⟩

theorem Move.counted {u : State} (hm : Move s u) (h : s.Counted) : u.Counted := by
  have hfeed {f : FeedReceiver} (e : f.counts.Ok) (b : Bool) :
      ({ s with feed := f, throughSwitch := b } : State).Counted :=
    ⟨e, h.mismatches, h.tapes, h.boards, h.lines, h.discards, h.lost⟩
  cases hm with
  | powerOn unit on =>
    refine State.powerOn_counted rfl rfl rfl rfl (fun l => ?_) (fun l => ?_) rfl ?_
    · exact Vector.getElem_replicate _
    · exact Vector.getElem_replicate _
    · rw [UpstreamPort.arbitrate_lost]
      rfl
  | idle => exact h
  | character | switchOn | switchOff =>
    refine hfeed ?_ _
    exact h.feed
  | failure => exact hfeed h.feed.count.2.1 _
  | throughEnd => exact hfeed (by rw [FeedReceiver.pump_counts]; exact h.feed) _
  | tick =>
    refine h.same rfl rfl h.tapes.1 h.tapes.2 (State.mapBoards_boardTally rfl fun b => ⟨rfl, rfl⟩) ?_ rfl h.lost
    funext l
    rw [State.termTally, show s.tick.termLines[l] = TermLine.tick s.termLines[l] from Vector.getElem_map _ _]
    rfl
  | frame a f =>
    have hfeed := State.checked_counts (s := { s with feed := { s.feed with assembler := a } }) h.feed f
    have hboards := State.checked_boardTally { s with feed := { s.feed with assembler := a } } f
    have hlost := (State.checked_offers { s with feed := { s.feed with assembler := a } } f).lost h.lost
    rw [State.checked_frame] at hfeed hboards hlost ⊢
    exact ⟨hfeed, h.mismatches, h.tapes, BoardsCounted.congr h.boards hboards, h.lines, h.discards, hlost⟩
  | quiet =>
    have hboards := State.goQuiet_boardTally s
    have hlost := s.goQuiet_offers.lost h.lost
    rw [State.goQuiet_frame] at hboards hlost ⊢
    exact ⟨h.feed.count.2.2.2.2.2.2.1, h.mismatches, h.tapes, BoardsCounted.congr h.boards hboards, h.lines,
      h.discards, hlost⟩
  | data v hd =>
    have hdrop : s.dropHead.Counted := ⟨h.feed, h.mismatches, h.tapes, h.boards, h.lines, h.discards, h.lost⟩
    obtain ⟨hf, hm, ht, hb, hl, hdisc, hlost⟩ := hd.counted hdrop
    exact ⟨Verdict.count_ok hf v, hm, ht, hb, hl, hdisc, hlost⟩
  | claim op =>
    rw [State.takeClaim]
    split
    · exact ⟨h.feed, h.mismatches, h.tapes, h.boards, h.lines, h.discards, h.lost⟩
    · exact ⟨h.feed, h.mismatches, h.tapes, h.boards, h.lines, countOk_satInc _, h.lost⟩
  | @execute op u table r data hi hc =>
    have hfin : s.finished.Counted := ⟨h.feed, h.mismatches, h.tapes, h.boards, h.lines, h.discards, h.lost⟩
    obtain ⟨hf, hm, ht, hb, hl, hdisc, hlost⟩ := hc.counted hfin
    refine ⟨hf, hm, ht, hb, hl, hdisc, ?_⟩
    rw [Done.replied, UpstreamPort.fill_joins, UpstreamPort.arbitrate_lost]
    exact hlost
  | broadcast hi hc =>
    exact hc.counted ⟨h.feed, h.mismatches, h.tapes, h.boards, h.lines, h.discards, h.lost⟩
  | restart => exact State.restart_counted _ _ _ _
  | restartAll => exact State.restart_counted _ _ _ _
  | @tapeJoin ch i rest =>
    exact h.tookTape (fun hc => TapeChannel.take_counted (c := { s.tape ch with arrivals := rest }) hc _ _ _ _)
      (TapeChannel.take_notices _ _ _ _ _)
  | tapeCharacter ch =>
    exact h.tookTape (fun hc => TapeChannel.charSent_counted hc _ _ _) (TapeChannel.charSent_notices _ _ _ _)
  | flashExpiry ch =>
    exact h.tookTape (fun hc => TapeChannel.flashExpiry_counted hc _ _ _) (TapeChannel.flashExpiry_notices _ _ _ _)
  | line hl => exact hl.counted h
  | upstreamCharacter => exact ⟨h.feed, h.mismatches, h.tapes, h.boards, h.lines, h.discards, h.lost⟩
  | upstreamFrame | upstreamEnd | readyLine =>
    refine ⟨h.feed, h.mismatches, h.tapes, h.boards, h.lines, h.discards, ?_⟩
    rw [UpstreamPort.arbitrate_lost]
    exact h.lost

end

/-- Settles O59: every move keeps each counter. -/
theorem stepsKeepCounters : Obligations.StepsKeepCounters := by
  unfold Obligations.StepsKeepCounters
  intro s t h hstep
  refine t.countersInv_iff.2 (step_keeps (P := State.Counted) (fun _ _ h => ?_) (fun _ _ h hm => hm.counted h)
    (s.countersInv_iff.1 h) hstep)
  exact ⟨h.feed, h.mismatches, h.tapes, h.boards, h.lines, h.discards, h.lost⟩

end Sys2Proof.Machine
end

