-- ==== Sys2Proof/Proofs/DataSteps.lean ====
section
/-! PROOFS. The data messages (R27, R30 to R35): what each does when it is applied, and the count of one that is not. -/

namespace Sys2Proof.Machine

/-! ### A data message taken -/

/-- The card with the head of its hand-over queue gone. -/
abbrev State.dropped (s : State) (rest : List Handed) : State := { s with feed := { s.feed with handOver := rest } }

theorem State.taken_of_idle {s : State} (h : s.control.inHand = none) (rest : List Handed) :
    s.taken rest = s.dropped rest := by
  rw [taken, ← h]

section
variable {s : State} {k : DataKind} {body : Text} {rest : List Handed} {mine : Text → Bool}
  {apply : Text → State → State × Verdict} {t : State}

theorem takeData_applies (h : s.DataTurn k body rest) (hm : mine body = true)
    (ha : apply body (s.dropped rest) = (t, .applied)) : s.takeData k mine apply = .next t := by
  obtain ⟨hi, serial, hq⟩ := h
  rw [State.takeData_due hi hq hm, ha]
  rfl

theorem takeData_refuses (h : s.DataTurn k body rest) (hm : mine body = true)
    (ha : apply body (s.dropped rest) = (s.dropped rest, .refused)) : s.takeData k mine apply =
      .next ((s.dropped rest).countFeed fun c => { c with refused := min (c.refused + 1) 65535 }) := by
  obtain ⟨hi, serial, hq⟩ := h
  rw [State.takeData_due hi hq hm, ha]
  rfl

theorem takeData_discards (h : s.DataTurn k body rest) (hm : mine body = true)
    (ha : apply body (s.dropped rest) = (s.dropped rest, .discarded)) : s.takeData k mine apply =
      .next ((s.dropped rest).countFeed fun c => { c with discarded := min (c.discarded + 1) 65535 }) := by
  obtain ⟨hi, serial, hq⟩ := h
  rw [State.takeData_due hi hq hm, ha]
  rfl

end

/-! ### The verdicts -/

section
variable {s : State} {body : Text} {r : IssueRecord} {p : Nat}

theorem State.gate_eq_ok (hs : s.issues.session = .opened) (hr : listed s (issueAt body) = some r) :
    s.gate body = .ok r := by
  simp only [gate, hs, hr]

theorem State.gate_closed (hs : s.issues.session = .closed) : s.gate body = .error .discarded := by
  simp only [gate, hs]

theorem State.gate_free (hs : s.issues.session = .opened) (hr : listed s (issueAt body) = none) :
    s.gate body = .error .refused := by
  simp only [gate, hs, hr]

theorem printVolume_zero (h : readNat body 9 4 = 0) : printVolume body = none := if_pos h

theorem printVolume_some (h : readNat body 9 4 ≠ 0) : printVolume body = some (min (readNat body 9 4) 99999999) :=
  if_neg h

theorem State.gatePrint_eq_ok (hs : s.issues.session = .opened) (hr : listed s (issueAt body) = some r)
    (hp : feedPriceAt body 5 = some p) (hv : readNat body 9 4 ≠ 0) :
    s.gatePrint body = .ok (r, p, min (readNat body 9 4) 99999999) := by
  simp only [gatePrint, State.gate_eq_ok hs hr, hp, printVolume_some hv]

theorem State.gatePrint_error {v : Verdict} (h : s.gate body = .error v) : s.gatePrint body = .error v := by
  simp only [gatePrint, h]

/-- A print with a refused price or a volume of 0 is refused, whatever it names. -/
theorem State.gatePrint_refused (hs : s.issues.session = .opened)
    (h : feedPriceAt body 5 = none ∨ readNat body 9 4 = 0) : s.gatePrint body = .error .refused := by
  rcases hr : listed s (issueAt body) with _ | r
  · exact State.gatePrint_error (State.gate_free hs hr)
  · rcases h with h | h
    · simp only [gatePrint, State.gate_eq_ok hs hr, h]
    · rcases hp : feedPriceAt body 5 with _ | p <;>
        simp only [gatePrint, State.gate_eq_ok hs hr, hp, printVolume_zero h]

end

/-! ### The records -/

/-- A record stored, its notice delivered and its entry handed to the eligible channels. -/
theorem State.applyRecord_handEligible (s : State) (n : Nat) (q : IssueRecord) (fs : FieldSet) (i : TapeItem) :
    (s.applyRecord n q fs).handEligible q i = { s with
      issues := { s.issues with records := putRecord s.issues.records n q }
      boardNotices := s.boardNotices ++ [noticeOf n q fs]
      lampNotices := s.lampNotices ++ [noticeOf n q fs]
      terminalNotices := s.terminalNotices ++ [noticeOf n q fs]
      alertNotices := s.alertNotices ++ [noticeOf n q fs]
      tapeA := if q.eligA then { s.tapeA with arrivals := s.tapeA.arrivals ++ [i] } else s.tapeA
      tapeB := if q.eligB then { s.tapeB with arrivals := s.tapeB.arrivals ++ [i] } else s.tapeB } :=
  State.handEligible_cases _ q i

theorem printFields_eq (t : Tick) :
    printFields t = ⟨false, true, true, true, decide (t = .up ∨ t = .down), false, true⟩ := by
  cases t <;> rfl

/-- Settles O13: the print passes its checks, and the record and the entries are those of the rules. -/
theorem tradeApplied : Obligations.TradeApplied := by
  unfold Obligations.TradeApplied
  refine ⟨?_, fun p ref prev => ⟨fun h => ?_, fun h => ?_, fun h => ?_⟩⟩
  · intro s body rest r p hturn hflag hs hr hp hv
    refine takeData_applies hturn (by rw [outOfSequence, hflag]; rfl) ?_
    rw [applyTrade, State.gatePrint_eq_ok (s := s.dropped rest) hs hr hp hv]
    dsimp only
    rw [State.tradePrint, State.applyRecord_handEligible, printFields_eq, IssueRecord.print_eq]
    rfl
  · exact if_pos h
  · unfold tickTest
    rw [if_neg (by omega), if_pos h]
  · subst h
    unfold tickTest
    rw [if_neg (lt_irrefl _), if_neg (lt_irrefl _)]
    refine ⟨?_, ?_, ?_⟩
    · rintro (rfl | rfl) <;> rfl
    · rintro (rfl | rfl) <;> rfl
    · rintro rfl
      rfl

/-- An entry that joins the ones handed over, or none. -/
theorem arrivals_append_if (c : TapeChannel) (b : Bool) (x : TapeItem) :
    (if b then { c with arrivals := c.arrivals ++ [x] } else c) =
      { c with arrivals := c.arrivals ++ if b then [x] else [] } := by
  cases b
  · exact congrArg (fun a => { c with arrivals := a }) (List.append_nil _).symm
  · rfl

/-- Settles O14: only the volume moves, and the entry goes to the channels each kind allows. -/
theorem volumePrintsApplied : Obligations.VolumePrintsApplied := by
  unfold Obligations.VolumePrintsApplied
  intro s body rest r p hs hr hp hv
  have hgate := State.gatePrint_eq_ok (s := s.dropped rest) hs hr hp hv
  refine ⟨fun hturn hflag => takeData_applies hturn hflag ?_, fun hturn => takeData_applies hturn rfl ?_⟩
  · rw [applyLate, hgate]
    dsimp only
    rw [State.latePrint, State.applyRecord_handEligible, arrivals_append_if, arrivals_append_if]
    rfl
  · rw [applyAlternate, hgate]
    refine Prod.ext ?_ rfl
    have hitem (b : Bool) (u : State) (i : TapeItem) : (if b then u.handTape .b i else u) =
        { u with
          tapeA := { u.tapeA with arrivals := u.tapeA.arrivals ++ [] }
          tapeB := { u.tapeB with arrivals := u.tapeB.arrivals ++ if b then [i] else [] } } := by
      rw [List.append_nil, ← arrivals_append_if]
      cases b <;> rfl
    exact hitem _ _ _

theorem quoteSide_eq {present : Bool} {body : Text} {i : Nat} (h : present = true → (feedPriceAt body i).isSome = true) :
    quoteSide present body i = some (if present then feedPriceAt body i else none) := by
  rw [quoteSide]
  cases present
  · rfl
  · obtain ⟨p, hp⟩ := Option.isSome_iff_exists.1 (h rfl)
    simp only [if_true, hp, Option.map_some]

theorem quoteSide_none {present : Bool} {body : Text} {i : Nat}
    (h : ¬ (present = true → (feedPriceAt body i).isSome = true)) : quoteSide present body i = none := by
  obtain ⟨rfl, hp⟩ := Classical.not_imp.1 h
  rw [quoteSide, if_pos rfl, Option.not_isSome_iff_eq_none.1 hp, Option.map_none]

/-- Settles O15: both sides of a QUOTE, and the flag, notice and markers of an ISSUE STATUS. -/
theorem quotesAndStatusApplied : Obligations.QuotesAndStatusApplied := by
  unfold Obligations.QuotesAndStatusApplied
  constructor
  · intro s body rest r hturn hs hr
    have hgate := State.gate_eq_ok (s := s.dropped rest) hs hr
    refine ⟨fun hgood => takeData_applies hturn rfl ?_, fun hbad => takeData_refuses hturn rfl ?_⟩
    · rw [applyQuote, hgate]
      dsimp only
      rw [quoteSide_eq hgood.1, quoteSide_eq hgood.2]
      rfl
    · rw [applyQuote, hgate]
      dsimp only
      rcases not_and_or.1 hbad with h | h
      · rw [quoteSide_none h]
      · rw [quoteSide_none h]
        split
        · rename_i e
          cases e
        · rfl
  · intro s body rest r halt hturn hr hevent
    refine takeData_applies hturn rfl ?_
    have hhalt : haltEvent (byteAt body 5) = some halt := by
      rw [hevent]
      cases halt <;> rfl
    have hlisted : listed (s.dropped rest) (issueAt body) = some r := hr
    rw [applyStatus, hlisted, hhalt]
    dsimp only
    rw [State.setHalted, State.applyRecord_handEligible]
    rfl

/-- Settles O16: applied to a traded record whose last is the old price, else counted. -/
theorem correctionApplied : Obligations.CorrectionApplied := by
  unfold Obligations.CorrectionApplied
  intro s body rest r old p hturn hs hr hold hp
  have happly : applyCorrection body (s.dropped rest) =
      ((s.dropped rest).correction (issueAt body) r old p, .applied) := by
    rw [applyCorrection, State.gate_eq_ok (s := s.dropped rest) hs hr]
    dsimp only
    rw [hold, hp]
  refine ⟨fun h => takeData_applies hturn rfl ?_, fun h => takeData_applies hturn rfl ?_⟩
  · rw [happly, State.correction, if_pos h, State.correct, State.applyRecord_handEligible]
    rfl
  · rw [happly, State.correction, if_neg h]
    rfl

/-! ### Messages that are not applied -/

/-- A command that finds its data message due and does not apply it. -/
def State.Rejects (s : State) (body : Text) (rest : List Handed) (c : Instr) (v : Verdict) : Prop :=
  ∃ k mine apply, s.DataTurn k body rest ∧ mine body = true ∧ exec c s = s.takeData k mine apply
    ∧ apply body (s.dropped rest) = (s.dropped rest, v)

section
variable {s : State} {body : Text} {rest : List Handed} {c : Instr} {v : Verdict}

theorem State.Rejects.refused (h : s.Rejects body rest c .refused) :
    exec c s = .next ((s.taken rest).countFeed fun c => { c with refused := min (c.refused + 1) 65535 }) := by
  obtain ⟨k, mine, apply, hturn, hm, he, ha⟩ := h
  rw [he, State.taken_of_idle hturn.1, takeData_refuses hturn hm ha]

theorem State.Rejects.discarded (h : s.Rejects body rest c .discarded) :
    exec c s = .next ((s.taken rest).countFeed fun c => { c with discarded := min (c.discarded + 1) 65535 }) := by
  obtain ⟨k, mine, apply, hturn, hm, he, ha⟩ := h
  rw [he, State.taken_of_idle hturn.1, takeData_discards hturn hm ha]

/-- A print of one of the three kinds, due and in its own command (R30, R31, R32). -/
def State.PrintTurn (s : State) (body : Text) (rest : List Handed) (c : Instr) : Prop :=
  (c = .trade ∧ s.DataTurn .trade body rest ∧ (byteAt body 13).getLsbD 0 = false)
    ∨ (c = .outOfSequenceTrade ∧ s.DataTurn .trade body rest ∧ (byteAt body 13).getLsbD 0 = true)
    ∨ (c = .alternatePrint ∧ s.DataTurn .alternate body rest)

theorem State.PrintTurn.rejects (h : s.PrintTurn body rest c) (hv : (s.dropped rest).gatePrint body = .error v) :
    s.Rejects body rest c v := by
  rcases h with ⟨rfl, h, hflag⟩ | ⟨rfl, h, hflag⟩ | ⟨rfl, h⟩
  · exact ⟨_, _, applyTrade, h, by rw [outOfSequence, hflag]; rfl, rfl, by rw [applyTrade, hv]⟩
  · exact ⟨_, _, applyLate, h, hflag, rfl, by rw [applyLate, hv]⟩
  · exact ⟨_, fun _ => true, applyAlternate, h, rfl, rfl, by rw [applyAlternate, hv]⟩

theorem quote_rejects (h : s.DataTurn .quote body rest) (hv : (s.dropped rest).gate body = .error v) :
    s.Rejects body rest .quote v := ⟨_, fun _ => true, applyQuote, h, rfl, rfl, by rw [applyQuote, hv]⟩

theorem correction_rejects (h : s.DataTurn .correction body rest) (hv : (s.dropped rest).gate body = .error v) :
    s.Rejects body rest .correction v := ⟨_, fun _ => true, applyCorrection, h, rfl, rfl, by rw [applyCorrection, hv]⟩

theorem correction_rejects_price (h : s.DataTurn .correction body rest) (hs : s.issues.session = .opened)
    (hp : feedPriceAt body 5 = none ∨ feedPriceAt body 9 = none) : s.Rejects body rest .correction .refused := by
  rcases hr : listed (s.dropped rest) (issueAt body) with _ | r
  · exact correction_rejects h (State.gate_free hs hr)
  · refine ⟨_, fun _ => true, applyCorrection, h, rfl, rfl, ?_⟩
    rw [applyCorrection, State.gate_eq_ok (s := s.dropped rest) hs hr]
    rcases hp with hp | hp
    · simp only [hp]
    · rcases ho : feedPriceAt body 5 with _ | old <;> simp only [hp]

theorem status_rejects (h : s.DataTurn .issueStatus body rest)
    (hv : listed s (issueAt body) = none ∨ haltEvent (byteAt body 5) = none) :
    s.Rejects body rest .issueStatus .refused := by
  refine ⟨_, fun _ => true, applyStatus, h, rfl, rfl, ?_⟩
  have hl : listed (s.dropped rest) (issueAt body) = listed s (issueAt body) := rfl
  rw [applyStatus, hl]
  rcases hv with hv | hv
  · rw [hv]
  · rw [hv]
    rcases listed s (issueAt body) with _ | r <;> rfl

theorem market_rejects (h : s.DataTurn .market body rest) (h1 : byteAt body 3 ≠ 1) (h2 : byteAt body 3 ≠ 2) :
    s.Rejects body rest .marketOpen .refused ∧ s.Rejects body rest .marketClose .refused :=
  ⟨⟨_, fun b => byteAt b 3 != 2, applyOpen, h, by simpa using h2, rfl, if_neg h1⟩,
    ⟨_, fun b => byteAt b 3 != 1, applyClose, h, by simpa using h1, rfl, if_neg h2⟩⟩

end

/-- Settles O17: each message that fails a check, by its command. -/
theorem unappliedMessagesCounted : Obligations.UnappliedMessagesCounted := by
  unfold Obligations.UnappliedMessagesCounted
  intro s body rest
  dsimp only
  refine ⟨fun hturn => ?_, fun c hc hs => ?_, fun c hc hr => ?_, fun c hc hs hp => ?_, fun hturn hs hp => ?_,
    fun c hc h1 h2 => ?_, fun hturn h1 h2 => ?_⟩
  · rw [State.taken_of_idle hturn.1]
    exact takeData_applies (mine := fun _ => true) (apply := fun _ s => (s, .applied)) hturn rfl rfl
  · have hgate : (s.dropped rest).gate body = .error .discarded := State.gate_closed hs
    rcases hc with hc | ⟨rfl, hturn⟩ | ⟨rfl, hturn⟩
    · exact (State.PrintTurn.rejects hc (State.gatePrint_error hgate)).discarded
    · exact (quote_rejects hturn hgate).discarded
    · exact (correction_rejects hturn hgate).discarded
  · rcases hc with ⟨hc, hs⟩ | ⟨rfl, hturn⟩
    · have hgate : (s.dropped rest).gate body = .error .refused := State.gate_free hs hr
      rcases hc with hc | ⟨rfl, hturn⟩ | ⟨rfl, hturn⟩
      · exact (State.PrintTurn.rejects hc (State.gatePrint_error hgate)).refused
      · exact (quote_rejects hturn hgate).refused
      · exact (correction_rejects hturn hgate).refused
    · exact (status_rejects hturn (.inl hr)).refused
  · exact (State.PrintTurn.rejects hc (State.gatePrint_refused hs hp)).refused
  · exact (correction_rejects_price hturn hs hp).refused
  · obtain ⟨rfl, hturn⟩ := hc
    refine (status_rejects hturn (.inr ?_)).refused
    rw [haltEvent, if_neg h1, if_neg h2]
  · obtain ⟨ho, hc⟩ := market_rejects hturn h1 h2
    exact ⟨ho.refused, hc.refused⟩

end Sys2Proof.Machine
end

