-- ==== Sys2Proof/Proofs/Marked.lean ====
section
/-! PROOFS. Fields marked at rows one after another, and the choice of each line that follows (R99, R100, R119). -/

namespace Sys2Proof.Machine

/-! ### One module marked -/

section
variable (b : BoardLine)

/-- Which modules hold a mark once a module's is settled. -/
theorem BoardLine.settleMark_isSome (i j : ModuleNo) :
    ((b.settleMark i).mark j).isSome = if j = i then (b.modules[i]).waits else (b.mark j).isSome := by
  have hmark {c : BoardLine} {k : ModuleNo → Option Nat} {r : Nat} (h : b.Remarked c k r) : c.mark j = k j := by
    rw [BoardLine.mark, h.module]
  cases hw : (b.modules[i]).waits
  · rw [hmark (BoardLine.settleMark_rests hw)]
    split <;> rfl
  · rcases hm : b.mark i with _ | n
    · by_cases hr : b.markReg = Config.markMax
      · rw [hmark (BoardLine.settleMark_renumbers hw hm hr)]
        split
        · rfl
        · exact Option.isSome_map
      · rw [hmark (BoardLine.settleMark_takes hw hm hr)]
        split <;> rfl
    · rw [BoardLine.settleMark_keeps hw (by rw [hm]; rfl)]
      split
      · rename_i e
        rw [e, hm]
        rfl
      · rfl

theorem BoardLine.change_isSome (i j : ModuleNo) (f : BoardModule → BoardModule) :
    ((b.change i f).mark j).isSome = if j = i then (f b.modules[i]).waits else (b.mark j).isSome := by
  rw [BoardLine.change, BoardLine.settleMark_isSome]
  have hself : ({ b with modules := vupd b.modules i f } : BoardLine).modules[i] = f b.modules[i] := vupd_self _ _ _
  rw [hself]
  split
  · rfl
  · rename_i h
    exact congrArg (fun m : BoardModule => m.mark.isSome) (vupd_ne _ _ h)

/-- The fields joined to a module's dirty set, where there are any, with its mark settled. -/
def BoardLine.mark1 (marked : ModuleNo → FieldSet) (i : ModuleNo) : BoardLine :=
  if marked i = .empty then b else b.change i fun m => { m with dirty := m.dirty.union (marked i) }

theorem BoardLine.mark1_frame (marked : ModuleNo → FieldSet) (i : ModuleNo) :
    b.mark1 marked i = { b with modules := (b.mark1 marked i).modules, markReg := (b.mark1 marked i).markReg } := by
  rw [BoardLine.mark1]
  split
  · rfl
  · exact b.change_frame i _

theorem BoardLine.mark1_module (marked : ModuleNo → FieldSet) (i j : ModuleNo) :
    (b.mark1 marked i).modules[j] = { b.modules[j] with
      dirty := if j = i then (b.modules[j]).dirty.union (marked j) else (b.modules[j]).dirty
      mark := (b.mark1 marked i).mark j } := by
  rw [BoardLine.mark]
  unfold BoardLine.mark1
  split
  · rename_i he
    by_cases hj : j = i
    · subst hj
      simp only [if_true, he, FieldSet.union_empty]
    · simp only [hj, if_false]
  · obtain ⟨k, hk⟩ := b.change_module i (fun m => { m with dirty := m.dirty.union (marked i) }) j
    rw [hk]
    by_cases hj : j = i
    · subst hj
      simp only [if_true]
    · simp only [hj, if_false]

/-- A module whose fields are already dirty and which holds its mark. -/
def BoardLine.MarkedAt (marked : ModuleNo → FieldSet) (i : ModuleNo) : Prop :=
  (b.modules[i]).dirty.union (marked i) = (b.modules[i]).dirty ∧ (marked i ≠ .empty → (b.mark i).isSome = true)

variable {b} {marked : ModuleNo → FieldSet}

theorem FieldSet.union_isEmpty {x y : FieldSet} (h : (x.union y).isEmpty = true) : y = .empty := by
  rw [FieldSet.isEmpty_iff] at h
  obtain ⟨x1, x2, x3, x4, x5, x6, x7⟩ := x
  obtain ⟨y1, y2, y3, y4, y5, y6, y7⟩ := y
  simp only [FieldSet.union, FieldSet.empty, FieldSet.mk.injEq, Bool.or_eq_false_iff] at h ⊢
  exact ⟨h.1.2, h.2.1.2, h.2.2.1.2, h.2.2.2.1.2, h.2.2.2.2.1.2, h.2.2.2.2.2.1.2, h.2.2.2.2.2.2.2⟩

theorem waits_of_marked {m : BoardModule} {fs : FieldSet} (h : fs ≠ .empty) :
    ({ m with dirty := m.dirty.union fs } : BoardModule).waits = true := by
  rw [BoardModule.waits, Bool.or_eq_true]
  refine .inl ?_
  rw [Bool.not_eq_true', Bool.eq_false_iff]
  exact fun e => h (FieldSet.union_isEmpty e)

/-- Marked once more, such a module changes nothing. -/
theorem BoardLine.MarkedAt.again {i : ModuleNo} (h : b.MarkedAt marked i) : b.mark1 marked i = b := by
  rw [BoardLine.mark1]
  split
  · rfl
  · rename_i he
    have hsame : ({ b.modules[i] with dirty := (b.modules[i]).dirty.union (marked i) } : BoardModule) = b.modules[i] := by
      rw [h.1]
    have hmodules : vupd b.modules i (fun m => { m with dirty := m.dirty.union (marked i) }) = b.modules := by
      rw [vupd, hsame, Fin.getElem_fin, Vector.set_getElem_self]
    have hwaits := waits_of_marked (m := b.modules[i]) he
    rw [hsame] at hwaits
    rw [BoardLine.change, hmodules]
    exact BoardLine.settleMark_keeps hwaits (h.2 he)

theorem BoardLine.mark1_markedAt (b : BoardLine) (marked : ModuleNo → FieldSet) (i : ModuleNo) :
    (b.mark1 marked i).MarkedAt marked i := by
  refine ⟨?_, fun he => ?_⟩
  · rw [BoardLine.mark1_module, if_pos rfl, FieldSet.union_union_self]
  · rw [BoardLine.mark1, if_neg he, BoardLine.change_isSome, if_pos rfl]
    exact waits_of_marked he

theorem BoardLine.MarkedAt.mark1 {i : ModuleNo} (h : b.MarkedAt marked i) (j : ModuleNo) :
    (b.mark1 marked j).MarkedAt marked i := by
  by_cases hij : i = j
  · subst hij
    exact b.mark1_markedAt marked i
  · refine ⟨?_, fun he => ?_⟩
    · rw [BoardLine.mark1_module, if_neg hij]
      exact h.1
    · rw [BoardLine.mark1]
      split
      · exact h.2 he
      · rw [BoardLine.change_isSome, if_neg hij]
        exact h.2 he

end

/-! ### The rows of a line, one after another -/

/-- The modules of a line marked, in the order of the rows given. -/
def BoardLine.markAll (b : BoardLine) (marked : ModuleNo → FieldSet) (rs : List RowNo) : BoardLine :=
  rs.foldl (fun b r => b.mark1 marked (rowModule r)) b

theorem BoardLine.markAll_frame (b : BoardLine) (marked : ModuleNo → FieldSet) (rs : List RowNo) :
    b.markAll marked rs =
      { b with modules := (b.markAll marked rs).modules, markReg := (b.markAll marked rs).markReg } := by
  induction rs generalizing b with
  | nil => rfl
  | cons r rs ih =>
    rw [BoardLine.markAll, List.foldl_cons]
    refine (ih _).trans ?_
    rw [BoardLine.mark1_frame]
    rfl

theorem BoardLine.markAll_module (b : BoardLine) (marked : ModuleNo → FieldSet) (rs : List RowNo) (i : ModuleNo) :
    (b.markAll marked rs).modules[i] = { b.modules[i] with
      dirty := if i ∈ rs.map rowModule then (b.modules[i]).dirty.union (marked i) else (b.modules[i]).dirty
      mark := ((b.markAll marked rs).modules[i]).mark } := by
  induction rs generalizing b with
  | nil => rfl
  | cons r rs ih =>
    rw [BoardLine.markAll, List.foldl_cons]
    refine (ih _).trans ?_
    rw [BoardLine.mark1_module]
    dsimp only
    rw [List.map_cons]
    by_cases hi : i = rowModule r
    · rw [if_pos hi, if_pos (List.mem_cons.2 (.inl hi)), FieldSet.union_union_self, ite_self]
      rfl
    · simp only [hi, if_false, List.mem_cons, false_or]
      rfl

/-- What is marked at the modules of a line: the fields given for its row, of those it shows, unless it is DARK. -/
def State.markedAt (s : State) (l : LineNo) (fields : RowNo → FieldSet) (i : ModuleNo) : FieldSet :=
  if ((s.boards[l]).modules[i]).state = .dark then .empty
  else (fields (rowOf l i)).inter ((((s.boards[l]).modules[i]).mapping.map Mapping.mask).getD .empty)

theorem State.marked_of_markAll {s u : State} {records : Records} {lamps : RowNo → RowLamps} {rows : List RowNo}
    {fields : RowNo → FieldSet}
    (h : ∀ l : LineNo, u.boards[l] = ((s.boards[l]).markAll (s.markedAt l fields)
      (rows.filter fun r => rowLine r = l)).choose records fun i => lamps (rowOf l i)) :
    s.Marked u records lamps rows fields := by
  intro l
  refine ⟨(s.boards[l]).markAll_frame (s.markedAt l fields) _, fun i => ?_, h l⟩
  refine (BoardLine.markAll_module _ (s.markedAt l fields) _ i).trans ?_
  have hmem : i ∈ (rows.filter fun r => rowLine r = l).map rowModule ↔ rowOf l i ∈ rows := by
    constructor
    · intro hi
      obtain ⟨r, hr, rfl⟩ := List.mem_map.1 hi
      obtain ⟨hr, hl⟩ := List.mem_filter.1 hr
      obtain rfl := of_decide_eq_true hl
      rwa [rowOf_line_module]
    · intro hi
      exact List.mem_map.2 ⟨_, List.mem_filter.2 ⟨hi, by simp⟩, rowModule_rowOf l i⟩
  simp only [hmem]
  rfl

/-! ### Fields marked at the rows of a list -/

theorem BoardModule.shown_eq (m : BoardModule) : m.shown = (m.mapping.map Mapping.mask).getD .empty := by
  rw [BoardModule.shown]
  rcases m.mapping with _ | p <;> rfl

theorem BoardLine.markFields_eq {b : BoardLine} {marked : ModuleNo → FieldSet} {i : ModuleNo} {fs : FieldSet}
    (h : marked i = if (b.modules[i]).state = .dark then .empty else fs.inter (b.modules[i]).shown) :
    b.markFields i fs = b.mark1 marked i := by
  rw [BoardLine.markFields, BoardLine.mark1]
  by_cases hd : (b.modules[i]).state = .dark
  · rw [if_pos (.inl hd), if_pos (by rw [h, if_pos hd])]
  · rw [if_neg hd] at h
    by_cases he : marked i = .empty
    · rw [if_pos (.inr ((FieldSet.isEmpty_iff _).2 (h.symm.trans he))), if_pos he]
    · rw [if_neg he, if_neg (not_or.2 ⟨hd, fun e => he (h.trans ((FieldSet.isEmpty_iff _).1 e))⟩), BoardLine.change,
        BoardLine.change]
      congr 2
      rw [vupd, vupd, h]

/-- Boards whose modules show the same mappings in the same states. -/
def State.SameModules (s u : State) : Prop := ∀ (l : LineNo) (i : ModuleNo),
  ((u.boards[l]).modules[i]).state = ((s.boards[l]).modules[i]).state
    ∧ ((u.boards[l]).modules[i]).mapping = ((s.boards[l]).modules[i]).mapping

theorem State.SameModules.markRow {s u : State} (h : s.SameModules u) (fs : FieldSet) (r : RowNo) :
    s.SameModules (u.markRow fs r) := by
  intro l i
  rw [State.markRow_board]
  split
  · obtain ⟨k, hk⟩ := (u.boards[l]).markFields_module (rowModule r) fs i
    rw [hk]
    exact h l i
  · exact h l i

theorem State.SameModules.markedAt {s u : State} (h : s.SameModules u) (l : LineNo) (fields : RowNo → FieldSet)
    (i : ModuleNo) : s.markedAt l fields i = if ((u.boards[l]).modules[i]).state = .dark then .empty
      else (fields (rowOf l i)).inter ((u.boards[l]).modules[i]).shown := by
  rw [State.markedAt, BoardModule.shown_eq, (h l i).1, (h l i).2]

/-- A row marked, seen at one line. -/
theorem State.SameModules.markRow_board {s u : State} (h : s.SameModules u) (fields : RowNo → FieldSet) (r : RowNo)
    (l : LineNo) : (u.markRow (fields r) r).boards[l] =
      if rowLine r = l then (u.boards[l]).mark1 (s.markedAt l fields) (rowModule r) else u.boards[l] := by
  rw [State.markRow_board]
  by_cases hl : rowLine r = l
  · subst hl
    rw [if_pos rfl, if_pos rfl]
    refine BoardLine.markFields_eq ?_
    rw [h.markedAt, rowOf_line_module]
  · rw [if_neg (fun e => hl e.symm), if_neg hl]

theorem State.markRows_markAll {s u : State} (h : s.SameModules u) (fs : FieldSet) (rs : List RowNo) (l : LineNo) :
    (u.markRows fs rs).boards[l] = (u.boards[l]).markAll (s.markedAt l fun _ => fs) (rs.filter fun r => rowLine r = l) := by
  induction rs generalizing u with
  | nil => rfl
  | cons r rs ih =>
    rw [State.markRows, ih (h.markRow fs r), h.markRow_board (fun _ => fs) r l]
    by_cases hl : rowLine r = l
    · rw [if_pos hl, List.filter_cons_of_pos (by simpa using hl)]
      rfl
    · rw [if_neg hl, List.filter_cons_of_neg (by simpa using hl)]

theorem FieldSet.inter_terminal (x : FieldSet) : x.inter .terminal = { x with lamps := false } := by
  simp [FieldSet.inter, FieldSet.terminal]

/-- Settles O37: the rows of the notice marked, and the entries of its issue. -/
theorem noticesMark : Obligations.NoticesMark := by
  unfold Obligations.NoticesMark
  constructor
  · intro s n rest hn
    have hexec : exec .boardChangeNotice s =
        .next (({ s with boardNotices := rest }.markRows n.fields n.rows).chooseBoards) := by
      change execBoardChangeNotice s = _
      rw [execBoardChangeNotice, hn]
    have hmarked := State.markRows_markAll (s := s) (u := { s with boardNotices := rest }) (fun _ _ => ⟨rfl, rfl⟩)
      n.fields n.rows
    refine ⟨_, hexec, State.marked_of_markAll fun l => ?_, fun l hl => ?_, ?_⟩
    · rw [State.chooseBoards_board, hmarked, State.markRows_frame]
    · rw [State.chooseBoards_board, hmarked, BoardLine.choose_busy, BoardLine.markAll_frame]
      rw [BoardLine.markAll_frame]
      exact hl
    · rw [State.chooseBoards_frame, State.markRows_frame]
  · intro s n rest hn
    have hexec : exec .terminalChangeNotice s = .next { s with
        terminalNotices := rest
        terminals := Vector.ofFn fun t =>
          if n.watchers.getLsbD t.val then (s.terminals[t]).noticed n else s.terminals[t] } := by
      change execTerminalChangeNotice s = _
      rw [execTerminalChangeNotice, hn]
    refine ⟨_, hexec, fun x => ?_, rfl⟩
    refine (Vector.getElem_ofFn _).trans ?_
    dsimp only [Fin.eta]
    by_cases hw : n.watchers.getLsbD x.val = true
    · by_cases hd : (s.terminals[x]).state = .disabled
      · rw [if_pos hw, if_neg fun h => h.2 hd]
        exact if_pos hd
      · rw [if_pos hw, if_pos ⟨hw, hd⟩]
        refine (if_neg hd).trans ?_
        rw [addPending, FieldSet.inter_terminal]
    · rw [if_neg hw, if_neg fun h => hw h.1]

end Sys2Proof.Machine
end

