-- ==== Sys2Proof/Proofs/LampSteps.lean ====
section
/-! PROOFS. Rows whose lamps change one after another (R119, R120 to R123, R127), and the LAMPS that each change
marks. -/

namespace Sys2Proof.Machine

/-! ### What a change of a row's lamps marks -/

/-- The fields that a change of a row's lamps marks: LAMPS where the arrow state, its phase or the halt lamp differs. -/
def lampFields (x y : RowLamps) : FieldSet :=
  if x.arrow.stateAndPhase ≠ y.arrow.stateAndPhase ∨ x.halt ≠ y.halt then .lampsOnly else .empty

theorem Arrow.face_eq_iff (a b : Arrow) : a.face = b.face ↔ a.stateAndPhase = b.stateAndPhase := by
  cases a <;> cases b <;> simp [face, stateAndPhase]

theorem lampsMark_iff (x y : RowLamps) :
    lampsMark x y = true ↔ x.arrow.stateAndPhase ≠ y.arrow.stateAndPhase ∨ x.halt ≠ y.halt := by
  rw [lampsMark, Bool.or_eq_true, bne_iff_ne, bne_iff_ne, ne_eq, Arrow.face_eq_iff]

theorem lampFields_eq (x y : RowLamps) : lampFields x y = if lampsMark x y then .lampsOnly else .empty := by
  rw [lampFields]
  by_cases h : lampsMark x y = true
  · rw [if_pos h, if_pos ((lampsMark_iff x y).1 h)]
  · rw [if_neg h, if_neg fun e => h ((lampsMark_iff x y).2 e)]

theorem lampsMark_self (x : RowLamps) : lampsMark x x = false :=
  Bool.eq_false_iff.2 fun h => by simpa using (lampsMark_iff x x).1 h

theorem State.moveLamps_same (s : State) (r : RowNo) : s.moveLamps r s.lamps[r] = s := by
  rw [moveLamps, if_neg (by rw [lampsMark_self]; decide), setLamps, Fin.getElem_fin, Vector.set_getElem_self]

/-! ### Rows one after another -/

/-- The lamps of rows changed in turn, each by what `g` makes of them. -/
def State.moveEach (g : RowNo → RowLamps → RowLamps) (s : State) : List RowNo → State
  | [] => s
  | r :: rs => (s.moveLamps r (g r s.lamps[r])).moveEach g rs

theorem State.darkenRows_eq (s : State) (rs : List RowNo) : s.darkenRows rs = s.moveEach (fun _ _ => .dark) rs := by
  induction rs generalizing s with
  | nil => rfl
  | cons r rs ih => rw [darkenRows, ih, moveEach]

/-- What a notice makes of the lamps of a row: only a row that still shows its issue changes (log 4). -/
def State.noticeMove (s : State) (n : ChangeNotice) (r : RowNo) (x : RowLamps) : RowLamps :=
  if s.rowIssue r = some n.issue then x.noticed s.lampParams n else x

theorem State.noticeRows_eq {s u : State} (n : ChangeNotice) (rs : List RowNo) (hi : u.rowIssue = s.rowIssue)
    (hp : u.lampParams = s.lampParams) : u.noticeRows n rs = u.moveEach (s.noticeMove n) rs := by
  induction rs generalizing u with
  | nil => rfl
  | cons r rs ih =>
    have hstep : u.noticeRow n r = u.moveLamps r (s.noticeMove n r u.lamps[r]) := by
      rw [noticeRow, noticeMove, hi, hp]
      split
      · rfl
      · exact (State.moveLamps_same u r).symm
    have hissue : (u.noticeRow n r).rowIssue = s.rowIssue := by
      rw [hstep, ← hi]
      exact funext (State.moveLamps_rowIssue u r _)
    rw [noticeRows, moveEach, ← hstep]
    exact ih hissue (by rw [hstep, State.moveLamps_eq]; exact hp)

theorem State.moveEach_frame (g : RowNo → RowLamps → RowLamps) (s : State) (rs : List RowNo) :
    s.moveEach g rs = { s with lamps := (s.moveEach g rs).lamps, boards := (s.moveEach g rs).boards } := by
  induction rs generalizing s with
  | nil => rfl
  | cons r rs ih => rw [moveEach, ih, State.moveLamps_eq]

section
variable {g : RowNo → RowLamps → RowLamps} (hg : ∀ r x, g r (g r x) = g r x)
include hg

theorem State.moveEach_lamps (s : State) (rs : List RowNo) (q : RowNo) :
    (s.moveEach g rs).lamps[q] = if q ∈ rs then g q s.lamps[q] else s.lamps[q] := by
  induction rs generalizing s with
  | nil => rfl
  | cons r rs ih =>
    rw [moveEach, ih]
    by_cases hq : q = r
    · subst hq
      rw [State.moveLamps_self, hg, ite_self, if_pos List.mem_cons_self]
    · simp only [State.moveLamps_ne s _ hq, List.mem_cons, hq, false_or]

/-- The marks at one line, as those of the rows in their order. -/
theorem State.moveEach_markAll {s u : State} {fields : RowNo → FieldSet} (h : s.SameModules u) (rs : List RowNo)
    (hf : ∀ r ∈ rs, fields r = lampFields s.lamps[r] (g r s.lamps[r]))
    (hu : ∀ r : RowNo, u.lamps[r] = s.lamps[r] ∨ u.lamps[r] = g r s.lamps[r]
      ∧ (u.boards[rowLine r]).MarkedAt (s.markedAt (rowLine r) fields) (rowModule r)) (l : LineNo) :
    (u.moveEach g rs).boards[l] =
      (u.boards[l]).markAll (s.markedAt l fields) (rs.filter fun r => rowLine r = l) := by
  induction rs generalizing u with
  | nil => rfl
  | cons r rs ih =>
    have hf' : ∀ q ∈ rs, fields q = lampFields s.lamps[q] (g q s.lamps[q]) := fun q hq => hf q (List.mem_cons_of_mem _ hq)
    have hcons (b : BoardLine) : b.markAll (s.markedAt l fields) ((r :: rs).filter fun r => rowLine r = l) =
        (if rowLine r = l then b.mark1 (s.markedAt l fields) (rowModule r) else b).markAll (s.markedAt l fields)
          (rs.filter fun r => rowLine r = l) := by
      by_cases hl : rowLine r = l
      · rw [if_pos hl, List.filter_cons_of_pos (by simpa using hl)]
        rfl
      · rw [if_neg hl, List.filter_cons_of_neg (by simpa using hl)]
    rw [moveEach, hcons]
    rcases hu r with hr | ⟨hr, hmarked⟩
    · have hmove : u.moveLamps r (g r u.lamps[r]) =
          { u with lamps := u.lamps.set r (g r s.lamps[r]), boards := (u.markRow (fields r) r).boards } := by
        rw [State.moveLamps_eq, hr, hf r List.mem_cons_self, lampFields_eq]
        split
        · rfl
        · have hempty : u.markRow .empty r = u := by
            rw [markRow, BoardLine.markFields, if_pos (.inr (by simp [FieldSet.inter, FieldSet.isEmpty, FieldSet.empty])),
              setBoard, Fin.getElem_fin, Vector.set_getElem_self]
          rw [hempty]
      have hboard (k : LineNo) : (u.moveLamps r (g r u.lamps[r])).boards[k] =
          if rowLine r = k then (u.boards[k]).mark1 (s.markedAt k fields) (rowModule r) else u.boards[k] := by
        rw [hmove]
        exact h.markRow_board fields r k
      have hsame : s.SameModules (u.moveLamps r (g r u.lamps[r])) := by
        rw [hmove]
        exact h.markRow (fields r) r
      rw [ih hsame hf' fun q => ?_, hboard]
      by_cases hq : q = r
      · subst hq
        refine .inr ⟨by rw [State.moveLamps_self, hr], ?_⟩
        rw [hboard, if_pos rfl]
        exact BoardLine.mark1_markedAt _ _ _
      · rw [State.moveLamps_ne u _ hq]
        refine (hu q).imp_right fun ⟨hlamps, hm⟩ => ⟨hlamps, ?_⟩
        rw [hboard]
        split
        · exact hm.mark1 _
        · exact hm
    · have hstay : u.moveLamps r (g r u.lamps[r]) = u := by
        have hsame : g r u.lamps[r] = u.lamps[r] := by rw [hr, hg]
        rw [hsame, State.moveLamps_same]
      rw [hstay, ih h hf' hu]
      split
      · rename_i hl
        subst hl
        rw [hmarked.again]
      · rfl

/-- The rows' lamps changed and the lines' choice, as the markings of the rows. -/
theorem State.moveEach_marked (s : State) (rs : List RowNo) :
    s.Marked (s.moveEach g rs).chooseBoards s.issues.records (fun q => (s.moveEach g rs).lamps[q]) rs
      fun q => lampFields s.lamps[q] (s.moveEach g rs).lamps[q] := by
  refine State.marked_of_markAll fun l => ?_
  rw [State.chooseBoards_board, State.moveEach_markAll hg (s := s) (fun _ _ => ⟨rfl, rfl⟩) rs (fun r hr => ?_)
    (fun _ => .inl rfl) l, State.moveEach_frame]
  rw [State.moveEach_lamps hg, if_pos hr]

end

/-! ### A notice and a phase timer -/

section
variable (s : State) (n : ChangeNotice)

theorem State.noticeMove_twice (r : RowNo) (x : RowLamps) :
    s.noticeMove n r (s.noticeMove n r x) = s.noticeMove n r x := by
  rw [noticeMove, noticeMove]
  split
  · exact RowLamps.noticed_noticed x _ n
  · rfl

theorem exec_lampChangeNotice {rest : List ChangeNotice} (h : s.lampNotices = n :: rest) :
    exec .lampChangeNotice s =
      .next (({ s with lampNotices := rest } : State).moveEach (s.noticeMove n) n.rows).chooseBoards := by
  change execLampChangeNotice s = _
  rw [execLampChangeNotice, h]
  dsimp only
  rw [State.noticeRows_eq (s := s) (u := { s with lampNotices := rest }) n n.rows rfl rfl]

/-- The arrow that a notice leaves (R120, R127). -/
theorem RowLamps.noticed_eq (x : RowLamps) (p : LampParams) :
    let full := n.fields = ⟨true, true, true, true, true, true, true⟩
    let moves := n.fields.last = true ∧ n.fields.lamps = true ∧ ¬ full
    let fresh : Flash := ⟨.on, p.flashCount, p.onTime⟩
    x.noticed p n = ⟨if full then .steadyNone
      else if moves ∧ n.tick = .up then (match x.arrow with | .flashUp f => .flashUp f | _ => .flashUp fresh)
      else if moves ∧ n.tick = .down then (match x.arrow with | .flashDown f => .flashDown f | _ => .flashDown fresh)
      else x.arrow, n.halted⟩ := by
  dsimp only
  have htick : n.isTick = true ↔ (n.fields.last = true ∧ n.fields.lamps = true
      ∧ ¬ n.fields = ⟨true, true, true, true, true, true, true⟩) ∧ (n.tick = .up ∨ n.tick = .down) := by
    simp only [ChangeNotice.isTick, tickNamesLamps, Bool.and_eq_true, Bool.or_eq_true, beq_iff_eq, bne_iff_ne, ne_eq,
      FieldSet.full]
    tauto
  rw [noticed]
  refine congrArg (RowLamps.mk · n.halted) ?_
  by_cases hfull : n.fields = ⟨true, true, true, true, true, true, true⟩
  · rw [if_pos hfull]
    exact if_pos hfull
  · rw [if_neg hfull]
    refine (if_neg hfull).trans ?_
    by_cases hmoves : n.fields.last = true ∧ n.fields.lamps = true
        ∧ ¬ n.fields = ⟨true, true, true, true, true, true, true⟩
    · rcases ht : n.tick with _ | _ | _ | _ | _
      all_goals simp only [htick, hmoves, ht, not_false_eq_true, and_self, if_true, if_false,
        reduceCtorEq, or_self, or_true, or_false, and_false]
      all_goals rfl
    · rw [if_neg fun h => hmoves (htick.1 h).1, if_neg fun h => hmoves h.1, if_neg fun h => hmoves h.1]

end

/-- The arrow that the expiry of a running phase timer leaves (R121). -/
theorem Arrow.expire_eq (p : LampParams) {a : Arrow} {f : Flash} (h : a.flash? = some f) :
    let flash (g : Flash) : Arrow := if decide (a = .flashUp f) then .flashUp g else .flashDown g
    a.expire p = if f.phase = .on then flash ⟨.off, f.remaining, p.offTime⟩
      else if 2 ≤ f.remaining then flash ⟨.on, f.remaining - 1, p.onTime⟩
      else if decide (a = .flashUp f) then .steadyUp else .steadyDown := by
  obtain ⟨phase, remaining, timer⟩ := f
  cases a with
  | steadyNone | steadyUp | steadyDown => exact absurd h (by simp [Arrow.flash?])
  | flashUp f | flashDown f =>
    obtain rfl : f = ⟨phase, remaining, timer⟩ := Option.some.inj h
    cases phase
    · simp [Arrow.expire, Flash.expire]
    · by_cases hr : 2 ≤ remaining <;> simp [Arrow.expire, Flash.expire, hr]

/-- The same lamps at every row. -/
abbrev RowLamps.always (y : RowLamps) : RowNo → RowLamps → RowLamps := fun _ _ => y

theorem RowLamps.always_twice (y : RowLamps) (r : RowNo) (x : RowLamps) :
    RowLamps.always y r (RowLamps.always y r x) = RowLamps.always y r x := rfl

/-- Rows changed in turn and the lines' choice: the lamps, the marks, and nothing else. -/
theorem State.moveEach_chosen {g : RowNo → RowLamps → RowLamps} (hg : ∀ r x, g r (g r x) = g r x) (s : State)
    (rs : List RowNo) {t : State} (h : t = (s.moveEach g rs).chooseBoards) :
    (∀ q : RowNo, t.lamps[q] = if q ∈ rs then g q s.lamps[q] else s.lamps[q])
      ∧ s.Marked t s.issues.records (fun q => t.lamps[q]) rs (fun q => lampFields s.lamps[q] t.lamps[q])
      ∧ t = { s with lamps := t.lamps, boards := t.boards } := by
  have hlamps : t.lamps = (s.moveEach g rs).lamps := by rw [h, State.chooseBoards_frame]
  refine ⟨fun q => ?_, ?_, ?_⟩
  · rw [hlamps, State.moveEach_lamps hg]
  · rw [hlamps, h]
    exact State.moveEach_marked hg s rs
  · rw [h, State.chooseBoards_frame, State.moveEach_frame]

theorem Arrow.timer_eq (a : Arrow) : a.timer = a.flash?.map Flash.timer := by
  cases a <;> rfl

/-- Settles O41: a notice and a phase timer change the lamps row by row, and each change marks LAMPS. -/
theorem lampsMove : Obligations.LampsMove := by
  refine ⟨fun s n rest h => ?_, fun s r => ⟨fun f hf hz => ?_, fun hf => ?_⟩⟩
  · obtain ⟨hlamps, hmarked, hframe⟩ := State.moveEach_chosen (s.noticeMove_twice n) { s with lampNotices := rest } n.rows rfl
    refine ⟨_, exec_lampChangeNotice s n h, fun r => (hlamps r).trans ?_, hmarked, hframe⟩
    rw [State.noticeMove]
    by_cases hr : r ∈ n.rows
    · by_cases hi : s.rowIssue r = some n.issue
      · rw [if_pos hr, if_pos hi, if_pos ⟨hr, hi⟩]
        exact RowLamps.noticed_eq n _ _
      · rw [if_pos hr, if_neg hi, if_neg fun e => hi e.2]
    · rw [if_neg hr, if_neg fun e => hr e.1]
  · obtain ⟨y, hy⟩ : ∃ y : RowLamps, y = ⟨(s.lamps[r]).arrow.expire s.lampParams, (s.lamps[r]).halt⟩ := ⟨_, rfl⟩
    have hexec : exec (.phaseTimerExpiry r) s = .next (s.moveEach y.always [r]).chooseBoards := by
      rw [hy]
      refine if_pos ?_
      rw [Arrow.timer_eq, hf, Option.map_some, hz]
    obtain ⟨hlamps, hmarked, hframe⟩ := State.moveEach_chosen y.always_twice s [r] rfl
    refine ⟨_, hexec, (hlamps r).trans ?_, fun q hq => (hlamps q).trans ?_, hmarked, hframe⟩
    · rw [if_pos (List.mem_singleton.2 rfl)]
      exact hy.trans (congrArg (RowLamps.mk · (s.lamps[r]).halt) (Arrow.expire_eq _ hf))
    · rw [if_neg fun e => hq (List.mem_singleton.1 e)]
  · refine if_neg ?_
    rw [Arrow.timer_eq]
    intro e
    obtain ⟨f, hflash, hz⟩ := Option.map_eq_some_iff.1 e
    exact hf f hflash hz

end Sys2Proof.Machine
end

