-- ==== Sys2Proof/Proofs/Words.lean ====
section
/-! PROOFS. What the statements' words say of the model's operations: a new feed state told to the board lines and
offered to the terminals (R114, R145), and the choice of a terminal line (R132). -/

namespace Sys2Proof.Machine

/-! ### The feed state told -/

theorem BoardLine.told (b : BoardLine) (f : FeedState) (records : Records) (lampsOf : ModuleNo → RowLamps) :
    b.Told ({ b with broadcast := some f }.choose records lampsOf) f (feedStateCode f) := by
  refine ⟨fun h => BoardLine.choose_busy _ _ h, fun h => ?_⟩
  have hstart : { b with broadcast := some f }.choose records lampsOf = { b with broadcast := some f }.startBroadcast f :=
    by simp only [BoardLine.choose, h, Option.isSome_none, Bool.false_eq_true, if_false]
  rw [hstart]
  cases f <;> rfl

theorem State.tellBoards_told (s : State) (f : FeedState) (l : LineNo) :
    (s.boards[l]).Told (s.tellBoards f).boards[l] f (feedStateCode f) := by
  rw [tellBoards, State.chooseBoards_board]
  have hmap : (s.boards.map fun b : BoardLine => { b with broadcast := some f })[l] =
      { s.boards[l] with broadcast := some f } := Vector.getElem_map _ _
  rw [hmap]
  exact BoardLine.told _ _ _ _

/-! ### The feed state offered -/

theorem State.headCarried_iff (s : State) (t : TermNo) : s.headCarried t = true ↔ s.Carries t := by
  unfold headCarried Carries
  rcases (s.termLines[termLine t]).inFlight with _ | ⟨drop, stage, cut⟩
  · simp
  · cases stage <;> simp [and_assoc]

theorem Terminal.offered (x : Terminal) (f : FeedState) (carried : Bool) :
    x.Offered (x.offerFeed f carried) f (if carried then 1 else 0) := by
  have hfeed (m : OutMessage) : m.isFeed = true ↔ ∃ g, m = .feedStatus g := by cases m <;> simp [OutMessage.isFeed]
  rcases replaceFeed_cases f carried x.queue with ⟨⟨m, hm, hf⟩, e⟩ | ⟨hnone, e⟩
  · obtain ⟨g, rfl⟩ := (hfeed m).1 hf
    refine ⟨fun _ => ?_, fun h => absurd ⟨g, hm⟩ h⟩
    simp only [offerFeed, e]
    refine congrArg (f := fun q => ({ x with queue := x.queue.take (if carried then 1 else 0) ++ q } : Terminal))
      (List.map_congr_left fun m _ => ?_)
    cases m <;> rfl
  · refine ⟨fun ⟨g, hg⟩ => absurd (hnone _ hg) (by simp [OutMessage.isFeed]), fun _ => ⟨fun hl => ?_, fun hl => ?_⟩⟩
    · simp only [offerFeed, e]
      exact if_pos hl
    · simp only [offerFeed, e]
      exact if_neg (not_lt.2 hl)

theorem State.feedOffered (s : State) (t : TermNo) (x : Terminal) (f : FeedState) :
    s.FeedOffered t x (x.offerFeed f (s.headCarried t)) f := by
  have hoffered := x.offered f (s.headCarried t)
  refine ⟨fun h => ?_, fun h => ?_⟩
  · rw [(s.headCarried_iff t).2 h] at hoffered ⊢
    exact hoffered
  · rw [Bool.eq_false_iff.2 fun e => h ((s.headCarried_iff t).1 e)] at hoffered ⊢
    exact hoffered

theorem State.tellTerminals_told (s : State) : s.ToldTerminals s.tellTerminals s.feed.feedState := by
  intro x
  have hx : s.tellTerminals.terminals[x] = if (s.terminals[x]).state = .online
      then (s.terminals[x]).offerFeed s.feed.feedState (s.headCarried x) else s.terminals[x] :=
    Vector.getElem_ofFn _
  rw [hx]
  refine ⟨fun h => ?_, fun h => if_neg h⟩
  rw [if_pos h]
  exact s.feedOffered x _ _

/-! ### The choice of a terminal line -/

theorem TermLine.behind_pollPlace (x : TermLine) {k : Nat} (h : k < 8) : x.behind (x.pollPlace k) = k := by
  rw [behind, pollPlace]
  have := x.pollPtr.isLt
  dsimp only
  omega

theorem TermLine.pollPlace_behind (x : TermLine) (d : DropNo) : x.pollPlace (x.behind d) = d := by
  refine Fin.ext ?_
  rw [behind, pollPlace]
  have := x.pollPtr.isLt
  have := d.isLt
  dsimp only
  omega

/-- The drop polled next is the enabled one that stands least far behind the poll pointer. -/
theorem State.nextDrop_eq_some {s : State} {l : LineNo} {e : DropNo} (he : (s.terminals[termOf l e]).state ≠ .disabled)
    (hmin : ∀ f : DropNo, (s.terminals[termOf l f]).state ≠ .disabled →
      (s.termLines[l]).behind e ≤ (s.termLines[l]).behind f) : s.nextDrop l = some e := by
  rw [nextDrop, List.find?_map, Option.map_eq_some_iff]
  refine ⟨(s.termLines[l]).behind e, List.find?_range_eq_some.2 ⟨?_, ?_, fun j hj => ?_⟩, TermLine.pollPlace_behind _ _⟩
  · rw [Function.comp_apply, TermLine.pollPlace_behind]
    exact decide_eq_true he
  · exact List.mem_range.2 (Nat.mod_lt _ (by decide))
  · rw [Function.comp_apply, Bool.not_eq_true', Terminal.enabled, decide_eq_false_iff_not]
    intro hd
    have hle := hmin _ hd
    rw [TermLine.behind_pollPlace _ (hj.trans (Nat.mod_lt _ (by decide)))] at hle
    exact absurd hj (not_lt.2 hle)

theorem pollChar_eq (d : DropNo) : pollChar d = 0x70 + BitVec.ofNat 8 d.val :=
  BitVec.ofNat_add 0x70 d.val

theorem TermLine.behind_congr {x y : TermLine} (h : x.pollPtr = y.pollPtr) : x.behind = y.behind := by
  unfold behind
  rw [h]

theorem State.chooseTerm_polls {s : State} {l : LineNo} {x : TermLine} (h : s.termLines[l] = { x with inFlight := none }) :
    State.Polls x (s.chooseTerm l) l := by
  have hterms : (s.chooseTerm l).terminals = s.terminals := by rw [State.chooseTerm_frame]
  have hidle : ¬ (s.termLines[l]).inFlight.isSome = true := by rw [h]; simp
  have hbehind : (s.termLines[l]).behind = x.behind := TermLine.behind_congr (by rw [h])
  have hline {d : DropNo} (hd : s.nextDrop l = some d) : (s.chooseTerm l).termLines[l] =
      { s.termLines[l] with pollPtr := d, inFlight := some ⟨d, .pollSending (pollChar d), false⟩ } := by
    rw [chooseTerm, if_neg hidle]
    simp only [hd]
    rw [State.setTermLine_line, if_pos rfl]
  refine ⟨fun hall => ?_, fun e he hmin => ?_⟩
  · have hnone : s.nextDrop l = none :=
      (s.nextDrop_eq_none l).2 fun d => Bool.eq_false_iff.2 fun hd => (s.on_iff _).1 hd (by rw [← hterms]; exact hall d)
    rw [chooseTerm, if_neg hidle]
    simp only [hnone]
    exact h
  · rw [hline (State.nextDrop_eq_some (hterms ▸ he) fun f hf => by rw [hbehind]; exact hmin f (hterms ▸ hf)), h,
      pollChar_eq]

/-- A transaction ended: the line polls the next enabled terminal (R132). -/
theorem State.endTransaction_polls (s : State) (l : LineNo) : State.Polls s.termLines[l] (s.endTransaction l) l :=
  State.chooseTerm_polls ((s.setTermLine_line l l _).trans (if_pos rfl))

end Sys2Proof.Machine
end

