-- ==== Sys2Proof/Proofs/MarketSteps.lean ====
section
/-! PROOFS. MARKET OPEN and MARKET CLOSE (R36, R37, R59). -/

namespace Sys2Proof.Machine

/-- The lamps put out at every row, and the lines' choice (R127). -/
theorem State.announceOpen_chosen (s : State) :
    (∀ r : RowNo, s.announceOpen.lamps[r] = ⟨.steadyNone, false⟩)
      ∧ s.Marked s.announceOpen s.issues.records (fun r => s.announceOpen.lamps[r]) (List.finRange 128)
        (fun r => if (s.lamps[r]).arrow ≠ .steadyNone ∨ (s.lamps[r]).halt = true
          then ⟨false, false, false, false, true, false, false⟩ else .empty)
      ∧ s.announceOpen = { s with lamps := s.announceOpen.lamps, boards := s.announceOpen.boards } := by
  obtain ⟨hlamps, hmarked, hframe⟩ := State.moveEach_chosen RowLamps.dark.always_twice s (List.finRange 128)
    (t := s.announceOpen) (by rw [announceOpen, State.darkenRows_eq])
  have hdark (r : RowNo) : s.announceOpen.lamps[r] = RowLamps.dark :=
    (hlamps r).trans (if_pos (List.mem_finRange r))
  refine ⟨hdark, ?_, hframe⟩
  have hfields : (fun q : RowNo => lampFields s.lamps[q] s.announceOpen.lamps[q]) = fun r =>
      if (s.lamps[r]).arrow ≠ .steadyNone ∨ (s.lamps[r]).halt = true
        then ⟨false, false, false, false, true, false, false⟩ else .empty := by
    funext r
    have hface : (s.lamps[r]).arrow.stateAndPhase ≠ (0, none) ↔ (s.lamps[r]).arrow ≠ .steadyNone := by
      cases (s.lamps[r]).arrow <;> simp [Arrow.stateAndPhase]
    have hhalt : (s.lamps[r]).halt ≠ false ↔ (s.lamps[r]).halt = true := by simp
    rw [hdark, lampFields]
    exact if_congr (or_congr hface hhalt) rfl rfl
  rw [← hfields]
  exact hmarked

/-- The fields of a state that MARKET OPEN's last step changes. -/
theorem State.openRecords_eq (s : State) (roll : Bool) :
    s.openRecords roll =
      let notices : List ChangeNotice := s.issues.records.map fun x =>
        ⟨x.1, ⟨true, true, true, true, true, true, true⟩, .none, false, x.2.rows, x.2.watchers⟩
      { s with
        issues := { s.issues with records := s.issues.records.map fun x => (x.1, x.2.openDay roll) }
        boardNotices := s.boardNotices ++ notices
        lampNotices := s.lampNotices ++ notices
        terminalNotices := s.terminalNotices ++ notices
        alertNotices := s.alertNotices ++ notices } := by
  have hrecords : mapRecords (fun _ r => r.openDay roll) s.issues.records =
      s.issues.records.map fun x => (x.1, x.2.openDay roll) := rfl
  rw [openRecords, hrecords, List.map_map]
  rfl

/-- The feed returned to LIVE: the notice, the board lines and the terminals (R58, R114, R145). -/
theorem State.returnLive_returns {s : State} (h : s.feed.feedState = .quiet) :
    s.returnLive.upstream = s.upstream.offer [0x42, s.unitSwitch, 0x04]
      ∧ (∀ l : LineNo, (s.boards[l]).Told s.returnLive.boards[l] .live 0x00)
      ∧ s.ToldTerminals s.returnLive .live := by
  obtain ⟨u, hu⟩ : ∃ u : State, u = { s with feed := { s.feed with feedState := .live } }.raise 0x04 [] := ⟨_, rfl⟩
  have hlive := State.returnLive_quiet h
  rw [← hu] at hlive
  have hboards := u.tellBoards_told .live
  have hterms := (u.tellBoards .live).tellTerminals_told
  have htold : s.returnLive.boards = (u.tellBoards .live).boards := by rw [hlive, State.tellTerminals]
  have hport : s.returnLive.upstream = u.upstream := by rw [hlive, State.tellTerminals, State.tellBoards_frame]
  rw [← hlive, State.tellBoards_frame] at hterms
  refine ⟨?_, ?_, ?_⟩
  · rw [hport, hu]
    rfl
  · rw [htold]
    rw [hu] at hboards ⊢
    exact hboards
  · rw [hu] at hterms
    exact hterms

/-- The feed gone QUIET (R57, R114, R145). -/
theorem State.goQuiet_goes (s : State) :
    s.goQuiet.upstream = s.upstream.offer [0x42, s.unitSwitch, 0x03]
      ∧ (∀ l : LineNo, (s.boards[l]).Told s.goQuiet.boards[l] .quiet 0x01)
      ∧ s.ToldTerminals s.goQuiet .quiet := by
  obtain ⟨u, hu⟩ : ∃ u : State, u = (({ s with feed := { s.feed with
      feedState := .quiet
      silence := none
      lock := false
      counts := { s.feed.counts with quiet := satInc s.feed.counts.quiet } } }.raise 0x03 []).handTape .a .quiet).handTape
        .b .quiet := ⟨_, rfl⟩
  have hquiet : s.goQuiet = (u.tellBoards .quiet).tellTerminals := by rw [hu, State.goQuiet]
  have hboards := u.tellBoards_told .quiet
  have hterms := (u.tellBoards .quiet).tellTerminals_told
  have htold : s.goQuiet.boards = (u.tellBoards .quiet).boards := by rw [hquiet, State.tellTerminals]
  have hport : s.goQuiet.upstream = u.upstream := by rw [hquiet, State.tellTerminals, State.tellBoards_frame]
  rw [← hquiet, State.tellBoards_frame] at hterms
  refine ⟨?_, ?_, ?_⟩
  · rw [hport, hu]
    rfl
  · rw [htold]
    rw [hu] at hboards ⊢
    exact hboards
  · rw [hu] at hterms
    exact hterms

/-- Settles O18: the open and the close of the market, each block's part. -/
theorem marketMessagesApplied : Obligations.MarketMessagesApplied := by
  refine ⟨fun s body rest h he => ?_, fun s body rest h he => ⟨fun hlive => ?_, fun hquiet => ?_⟩⟩
  · have hexec : exec .marketOpen s = .next ((((s.dropped rest).openSession ((byteAt body 4).getLsbD 0)
        (BitVec.ofNat 32 (readNat body 5 4))).announceOpen).openRecords ((byteAt body 4).getLsbD 1)) :=
      takeData_applies h (by rw [he]; rfl) (if_pos he)
    generalize hu : (s.dropped rest).openSession ((byteAt body 4).getLsbD 0) (BitVec.ofNat 32 (readNat body 5 4)) = u
      at hexec
    obtain ⟨hlamps, hmarked, hframe⟩ := u.announceOpen_chosen
    generalize u.announceOpen = v at hexec hlamps hmarked hframe
    rw [State.openRecords_eq] at hexec
    subst hu
    rw [hframe] at hexec
    refine ⟨_, hexec, ?_, rfl, hlamps, rfl, rfl, rfl, rfl,
      ⟨List.finRange 128, List.nodup_finRange 128, List.mem_finRange, hmarked⟩, rfl⟩
    refine congrArg (fun rs => ({ s.issues with records := rs, session := _, clock := _ } : IssueTable))
      (List.map_congr_left fun x _ => congrArg (Prod.mk x.1) ?_)
    rw [IssueRecord.openDay, IssueRecord.opening]
    simp only [Bool.and_eq_true]
  · have hexec : exec .marketClose s = .next (s.dropped rest).returnLive.closeSession :=
      takeData_applies h (by rw [he]; rfl) (if_pos he)
    rw [hexec, State.returnLive_live (s := s.dropped rest) hlive]
    rfl
  · have hexec : exec .marketClose s = .next (s.dropped rest).returnLive.closeSession :=
      takeData_applies h (by rw [he]; rfl) (if_pos he)
    obtain ⟨hport, hboards, hterms⟩ := State.returnLive_returns (s := s.dropped rest) hquiet
    have hframe := State.returnLive_frame (s := s.dropped rest)
    generalize (s.dropped rest).returnLive = v at *
    rw [hframe] at hexec
    exact ⟨_, hexec, rfl, rfl, hport, hboards, hterms, rfl⟩

/-! ### The clock (R13, R15) -/

theorem Arrow.tickTimer_eq (a : Arrow) :
    a.tickTimer.timer = a.timer.map (· - 1) ∧ a.tickTimer.stateAndPhase = a.stateAndPhase
      ∧ a.tickTimer.flash?.map Flash.remaining = a.flash?.map Flash.remaining := by
  cases a <;> exact ⟨rfl, rfl, rfl⟩

/-- Settles O11: every timer is one field of its block, counted by the block's own tick. -/
theorem clockTickCounts : Obligations.ClockTickCounts := by
  intro s
  have hlamps (r : RowNo) : s.tick.lamps[r] = (s.lamps[r]).tick := Vector.getElem_map _ _
  have hboards (l : LineNo) : s.tick.boards[l] = (s.boards[l]).tick := Vector.getElem_map _ _
  have hlines (l : LineNo) : s.tick.termLines[l] = (s.termLines[l]).tick := Vector.getElem_map _ _
  have htimer (x : Option Nat) : tickTimer x = x.map (· - 1) := by cases x <;> rfl
  refine ⟨s.tick, rfl, rfl, ?_, ?_, ?_, fun r => ?_, fun l => ⟨fun i => ?_, ?_, ?_⟩, rfl⟩
  · rw [← htimer]
    rfl
  · rw [← htimer]
    rfl
  · rw [← htimer]
    rfl
  · obtain ⟨h1, h2, h3⟩ := (s.lamps[r]).arrow.tickTimer_eq
    rw [hlamps]
    exact ⟨h1, h2, rfl, h3⟩
  · rw [hboards, ← htimer]
    exact Vector.getElem_map _ _
  · have htransfer : Transfer.tick = fun x => ⟨x.body, x.chars, x.wait.map (· - 1)⟩ :=
      funext fun x => by rw [Transfer.tick, htimer]
    rw [hboards, BoardLine.tick, htransfer]
  · rw [hlines, TermLine.tick]
    refine congrArg (fun y => { s.termLines[l] with inFlight := y }) (Option.map_congr fun x _ => ?_)
    rcases x with ⟨drop, stage, cut⟩
    cases stage <;> rfl

end Sys2Proof.Machine
end

