-- ==== Sys2Proof/Proofs/FeedSteps.lean ====
section
/-! PROOFS. A checked frame at the Feed Receiver: its counts and sequence check, the feed state, the hand-over queue
and the through path (R46 to R63). -/

namespace Sys2Proof.Machine

/-! ### The operations of the Feed Receiver -/

theorem State.handOn_eq (s : State) (x : Sorted) (body : Text) :
    s.handOn x body = { s with feed := { s.feed with
      handOver := if s.feed.handOver.length < 32 then s.feed.handOver ++ [⟨x, body, s.feed.serial⟩]
        else s.feed.handOver
      counts := { s.feed.counts with
        handOverLoss := if s.feed.handOver.length < 32 then s.feed.counts.handOverLoss
          else min (s.feed.counts.handOverLoss + 1) 65535 } } } := by
  rw [handOn]
  by_cases h : s.feed.handOver.length < 32
  · simp only [h, if_true]
    exact if_pos h
  · simp only [h, if_false]
    exact if_neg h

theorem State.sequence_eq (s : State) (n : Byte) :
    s.sequence n = { s with
      feed := { s.feed with
        expected := n + 1
        lock := true
        counts := { s.feed.counts with
          gap := if s.feed.lock = true ∧ s.feed.expected ≠ n then min (s.feed.counts.gap + 1) 65535
            else s.feed.counts.gap } }
      upstream := if s.feed.lock = true ∧ s.feed.expected ≠ n
        then s.upstream.offer [0x42, s.unitSwitch, 0x02, s.feed.expected, n] else s.upstream } := by
  unfold sequence
  dsimp only
  split <;> rfl

theorem State.restartSilence_eq (s : State) :
    s.restartSilence = { s with feed := { s.feed with
      silence := if s.issues.session = .opened then some (s.control.window * 100) else s.feed.silence } } := by
  rw [restartSilence]
  split <;> rfl

/-- What a data message of some length brings about at its check while the feed is LIVE (R51, R52, R56). -/
theorem State.dataChecked_live {s : State} {body : Text} (h : s.feed.feedState = .live) :
    let n := byteAt body 2
    let gap := 3 ≤ body.length ∧ s.feed.lock = true ∧ s.feed.expected ≠ n
    s.dataChecked body = { s with
      feed := { s.feed with
        expected := if 3 ≤ body.length then n + 1 else s.feed.expected
        lock := s.feed.lock || decide (3 ≤ body.length)
        silence := if s.issues.session = .opened then some (s.control.window * 100) else s.feed.silence
        counts := { s.feed.counts with gap := if gap then min (s.feed.counts.gap + 1) 65535 else s.feed.counts.gap } }
      upstream := if gap then s.upstream.offer [0x42, s.unitSwitch, 0x02, s.feed.expected, n] else s.upstream } := by
  dsimp only
  rw [dataChecked, State.restartSilence_eq]
  by_cases hl : 3 ≤ body.length
  · simp only [hl, if_true, true_and, decide_true, Bool.or_true]
    rw [State.returnLive_live (by rw [State.sequence_eq]; exact h), State.sequence_eq]
  · simp only [hl, if_false, false_and, decide_false, Bool.or_false]
    rw [State.returnLive_live h]

/-- The part of the Feed Receiver that the through path may change (R61, R62). -/
def FeedReceiver.Passed (f g : FeedReceiver) : Prop :=
  g = { f with
    through := g.through
    transmitting := g.transmitting
    counts := { f.counts with throughLoss := g.counts.throughLoss } }

theorem FeedReceiver.Passed.handOver {f g : FeedReceiver} (h : f.Passed g) :
    g.handOver = f.handOver ∧ g.counts.handOverLoss = f.counts.handOverLoss := by
  rw [h]
  exact ⟨rfl, rfl⟩

theorem FeedReceiver.pump_frame (f : FeedReceiver) :
    f.pump = { f with through := f.pump.through, transmitting := f.pump.transmitting } := by
  rw [pump]
  split <;> rfl

theorem State.repeatFrame_passed (s : State) (f : Frame) : s.feed.Passed (s.repeatFrame f).feed := by
  rw [repeatFrame]
  split
  · split
    · rw [FeedReceiver.Passed, FeedReceiver.pump_frame]
      rfl
    · rfl
  · rfl

theorem State.checked_passed (s : State) (f : Frame) :
    (s.countFrame.sortChecked f.body).feed.Passed (s.checked f).feed
      ∧ s.checked f = { s.countFrame.sortChecked f.body with feed := (s.checked f).feed } := by
  unfold checked
  generalize s.countFrame.sortChecked f.body = u
  dsimp only
  split
  · exact ⟨u.repeatFrame_passed f, u.repeatFrame_frame f⟩
  · exact ⟨rfl, rfl⟩

/-- A character that completes a frame: the assembler moves on, and the frame is checked (R46). -/
theorem exec_feedInCharacter_frame {s : State} {c : Byte} {f : Frame} (h : (assemble s.feed.assembler c).2 = .frame f) :
    ∃ w : State, w = { s with feed := { s.feed with assembler := (assemble s.feed.assembler c).1 } }
      ∧ exec (.feedInCharacter c) s = .next (w.checked f) := by
  refine ⟨_, rfl, ?_⟩
  change execFeedInCharacter c s = _
  rw [execFeedInCharacter, h]

/-! ### The types of data messages (R46, R199) -/

theorem kindOf_eq_none {alt t : Byte} (h : t.toNat < 0x30 ∨ 0x35 < t.toNat) (ha : alt = 0 ∨ t ≠ alt) :
    kindOf alt t = none := by
  have hne (c : Byte) (hc : 0x30 ≤ c.toNat ∧ c.toNat ≤ 0x35) : t ≠ c := by
    rintro rfl
    omega
  rw [kindOf, if_neg (hne 0x30 (by decide)), if_neg (hne 0x31 (by decide)), if_neg (hne 0x32 (by decide)),
    if_neg (hne 0x33 (by decide)), if_neg (hne 0x34 (by decide)), if_neg (hne 0x35 (by decide)),
    if_neg fun e => ha.elim e.1 fun hn => hn e.2]

theorem kindOf_alternate {alt : Byte} (h : 0x50 ≤ alt.toNat) : kindOf alt alt = some .alternate := by
  have hne (c : Byte) (hc : c.toNat < 0x50) : alt ≠ c := by
    rintro rfl
    omega
  rw [kindOf, if_neg (hne 0x30 (by decide)), if_neg (hne 0x31 (by decide)), if_neg (hne 0x32 (by decide)),
    if_neg (hne 0x33 (by decide)), if_neg (hne 0x34 (by decide)), if_neg (hne 0x35 (by decide)),
    if_pos ⟨hne 0 (by decide), rfl⟩]

theorem isDataType_eq_false {alt t : Byte} (h : t.toNat < 0x30 ∨ 0x36 < t.toNat) (ha : alt = 0 ∨ t ≠ alt) :
    isDataType alt t = false := by
  rw [isDataType, decide_eq_false (by omega), Bool.false_or, Bool.and_eq_false_iff]
  exact ha.imp (fun h => by rw [h]; rfl) fun h => beq_eq_false_iff_ne.2 h

theorem isDataType_self {alt : Byte} (h : alt ≠ 0) : isDataType alt alt = true := by
  rw [isDataType, Bool.or_eq_true, Bool.and_eq_true]
  exact .inr ⟨bne_iff_ne.2 h, beq_self_eq_true alt⟩

theorem isDataType_of_kindOf {alt t : Byte} {k : DataKind} (h : kindOf alt t = some k) : isDataType alt t = true := by
  by_contra hd
  rw [isDataType, Bool.or_eq_true, Bool.and_eq_true, decide_eq_true_eq, bne_iff_ne, beq_iff_eq] at hd
  rw [not_or, not_and_or, not_and_or] at hd
  rw [kindOf_eq_none (by omega) (hd.2.imp not_not.1 id)] at h
  exact nomatch h

theorem State.sortChecked_enough {s : State} {body : Text} {k : DataKind}
    (hk : kindOf s.control.altCode (byteAt body 0) = some k) (hl : kindLength k ≤ body.length) :
    s.sortChecked body = (s.dataChecked body).handOn (.data k) body := by
  rw [sortChecked, if_pos (isDataType_of_kindOf hk), sortData, State.dataChecked_frame]
  dsimp only
  rw [hk]
  exact if_neg (not_lt.2 hl)

theorem kindLength_ge (k : DataKind) : 3 ≤ kindLength k := by cases k <;> decide

/-- Settles O7: the sorting of a data message that is long enough, the feed being LIVE. -/
theorem dataMessageChecked : Obligations.DataMessageChecked := by
  refine ⟨fun alt halt => ⟨fun x hx => ?_, ⟨rfl, ?_⟩, fun hne => ⟨isDataType_self hne, ?_, rfl⟩,
    fun t ht ha => ⟨isDataType_eq_false ht ha, kindOf_eq_none (by omega) ha⟩⟩, fun s c f k hf hk hl hlive => ?_⟩
  · simp only [List.mem_cons, List.not_mem_nil, or_false] at hx
    rcases hx with rfl | rfl | rfl | rfl | rfl | rfl <;> exact ⟨rfl, rfl, rfl⟩
  · refine kindOf_eq_none (.inr (by decide)) (halt.imp_right fun h => ?_)
    rintro rfl
    exact absurd h.1 (by decide)
  · exact kindOf_alternate (halt.resolve_left hne).1
  · obtain ⟨w, hw, hexec⟩ := exec_feedInCharacter_frame hf
    have hlong : 3 ≤ f.body.length := (kindLength_ge k).trans hl
    have hsorted := State.sortChecked_enough (s := w.countFrame) (body := f.body) (by rw [hw]; exact hk) hl
    obtain ⟨hpassed, hframe⟩ := w.checked_passed f
    rw [hsorted, State.dataChecked_live (by rw [hw]; exact hlive), State.handOn_eq] at hpassed hframe
    simp only [hlong, true_and, if_true, decide_true, Bool.or_true] at hpassed hframe
    generalize w.checked f = t at hexec hpassed hframe
    rw [FeedReceiver.Passed] at hpassed
    subst hw
    refine ⟨t, hexec, ?_, fun hq => ?_, fun hq => ?_, ?_, ?_⟩
    · rw [hpassed]
      rfl
    · rw [hpassed]
      exact ⟨if_pos hq, if_pos hq⟩
    · rw [hpassed]
      exact ⟨if_neg (not_lt.2 hq), if_neg (not_lt.2 hq)⟩
    · rw [hframe]
      rfl
    · rw [hframe]
      rfl

/-! ### Other messages -/

theorem State.addressedHere_iff (s : State) (body : Text) :
    s.addressedHere body = true ↔ byteAt body 1 ≠ 0 ∧ byteAt body 1 = s.unitSwitch := by
  rw [addressedHere, Bool.and_eq_true, bne_iff_ne, beq_iff_eq]

/-- A message that is no data message: where it is handed, and that nothing else is touched (R47, R49). -/
theorem State.sortOther {s : State} {body : Text} (h : isDataType s.control.altCode (byteAt body 0) = false) :
    let t := s.sortChecked body
    let control := byteAt body 0 = 0x40 ∧ 3 ≤ body.length
    let unit := byteAt body 1
    t.feed = { s.feed with
        handOver := t.feed.handOver
        counts := { s.feed.counts with
          malformed := if control then s.feed.counts.malformed else min (s.feed.counts.malformed + 1) 65535
          handOverLoss := t.feed.counts.handOverLoss } }
      ∧ (control → unit = 0 → t = s.handOn (.control false) body)
      ∧ (control → unit ≠ 0 → unit = s.unitSwitch → t = s.handOn (.control true) body)
      ∧ (¬ control ∨ (unit ≠ 0 ∧ unit ≠ s.unitSwitch) → t.feed.handOver = s.feed.handOver
          ∧ t.feed.counts.handOverLoss = s.feed.counts.handOverLoss)
      ∧ t = { s with feed := t.feed } := by
  have hnot : ¬ isDataType s.control.altCode (byteAt body 0) = true := by rw [h]; decide
  dsimp only
  by_cases hc : byteAt body 0 = 0x40 ∧ 3 ≤ body.length
  · have hsort : s.sortChecked body = if byteAt body 1 = 0 then s.handOn (.control false) body
        else if s.addressedHere body then s.handOn (.control true) body else s := by
      rw [sortChecked, if_neg hnot, if_pos hc.1, sortControl, if_neg (not_lt.2 hc.2)]
    rw [if_pos hc]
    by_cases hu : byteAt body 1 = 0
    · rw [hsort, if_pos hu, State.handOn_eq]
      exact ⟨rfl, fun _ _ => rfl, fun _ hn => absurd hu hn, fun e => absurd e (by simp [hc, hu]), rfl⟩
    · rw [hsort, if_neg hu]
      by_cases hs : byteAt body 1 = s.unitSwitch
      · rw [if_pos ((s.addressedHere_iff body).2 ⟨hu, hs⟩), State.handOn_eq]
        exact ⟨rfl, fun _ e => absurd e hu, fun _ _ _ => rfl, fun e => absurd e (by simp [hc, hs]), rfl⟩
      · rw [if_neg fun e => hs ((s.addressedHere_iff body).1 e).2]
        exact ⟨rfl, fun _ e => absurd e hu, fun _ _ e => absurd e hs, fun _ => ⟨rfl, rfl⟩, rfl⟩
  · have hsort : s.sortChecked body = s.malformed := by
      rw [sortChecked, if_neg hnot]
      split
      · exact if_pos (by have := ‹byteAt body 0 = 0x40›; by_contra hl; exact hc ⟨this, by omega⟩)
      · rfl
    rw [if_neg hc, hsort]
    exact ⟨rfl, fun e => absurd e hc, fun e => absurd e hc, fun _ => ⟨rfl, rfl⟩, rfl⟩

/-- The hand-over of a message, as the statements write it (R54). -/
theorem State.handOn_handed (s : State) (x : Sorted) (body : Text) :
    (s.feed.handOver.length < 32 → (s.handOn x body).feed.handOver = s.feed.handOver ++ [⟨x, body, s.feed.serial⟩]
        ∧ (s.handOn x body).feed.counts.handOverLoss = s.feed.counts.handOverLoss)
      ∧ (32 ≤ s.feed.handOver.length → (s.handOn x body).feed.handOver = s.feed.handOver
        ∧ (s.handOn x body).feed.counts.handOverLoss = min (s.feed.counts.handOverLoss + 1) 65535) := by
  rw [State.handOn_eq]
  exact ⟨fun h => ⟨if_pos h, if_pos h⟩, fun h => ⟨if_neg (not_lt.2 h), if_neg (not_lt.2 h)⟩⟩

/-- A malformed data message: what it leaves of the feed in either feed state (R47). -/
theorem State.sortMalformed {s : State} {body : Text} (h : isDataType s.control.altCode (byteAt body 0) = true)
    (hk : ∀ k, kindOf s.control.altCode (byteAt body 0) = some k → body.length < kindLength k) :
    s.sortChecked body = (s.dataChecked body).malformed := by
  rw [sortChecked, if_pos h, sortData, State.dataChecked_frame]
  rcases hkind : kindOf s.control.altCode (byteAt body 0) with _ | k
  · rfl
  · exact if_pos (hk k hkind)

theorem State.dataChecked_kept (s : State) (body : Text) :
    let t := s.dataChecked body
    t.feed.handOver = s.feed.handOver ∧ t.feed.counts.handOverLoss = s.feed.counts.handOverLoss
      ∧ t.feed.counts.received = s.feed.counts.received ∧ t.feed.counts.malformed = s.feed.counts.malformed := by
  dsimp only
  rw [dataChecked, State.restartSilence_eq, State.returnLive_frame]
  split
  · rw [State.sequence_eq]
    exact ⟨rfl, rfl, rfl, rfl⟩
  · exact ⟨rfl, rfl, rfl, rfl⟩

/-- Settles O8: control messages by unit address, and malformed messages. -/
theorem otherMessagesSorted : Obligations.OtherMessagesSorted := by
  refine ⟨fun s c f hf hd => ?_, fun s c f hf hd hk => ?_⟩
  · obtain ⟨w, hw, hexec⟩ := exec_feedInCharacter_frame hf
    obtain ⟨hpassed, hframe⟩ := w.checked_passed f
    obtain ⟨hfeed, hall, hmine, hnone, hrest⟩ :=
      State.sortOther (s := w.countFrame) (body := f.body) (by rw [hw]; exact hd)
    have hhanded (x : Sorted) := w.countFrame.handOn_handed x f.body
    generalize w.countFrame.sortChecked f.body = u at *
    generalize w.checked f = t at *
    obtain ⟨hover, hloss⟩ := hpassed.handOver
    rw [FeedReceiver.Passed] at hpassed
    subst hw
    refine ⟨t, hexec, ?_, fun hc hu => ?_, fun hc hu hs => ?_, fun hn => ?_, ?_⟩
    · rw [hpassed, hfeed]
      rfl
    · dsimp only
      rw [hover, hloss, hall hc hu]
      exact hhanded _
    · dsimp only
      rw [hover, hloss, hmine hc hu hs]
      exact hhanded _
    · rw [hover, hloss]
      exact hnone hn
    · rw [hframe, hrest]
      rfl
  · obtain ⟨w, hw, hexec⟩ := exec_feedInCharacter_frame hf
    obtain ⟨hpassed, hframe⟩ := w.checked_passed f
    rw [State.sortMalformed (by rw [hw]; exact hd) (by rw [hw]; exact hk)] at hpassed hframe
    obtain ⟨hover, hloss⟩ := hpassed.handOver
    obtain ⟨hkept, hkeptLoss, hreceived, hmalformed⟩ := w.countFrame.dataChecked_kept f.body
    have hrest := w.countFrame.dataChecked_frame f.body
    have hlive := State.dataChecked_live (s := w.countFrame) (body := f.body)
    generalize w.countFrame.dataChecked f.body = u at *
    generalize w.checked f = t at *
    rw [FeedReceiver.Passed] at hpassed
    subst hw
    refine ⟨t, hexec, ?_, ?_, ?_, ?_, ?_, ?_, ?_, ?_, ?_, ?_, ?_, fun h => ?_⟩
    · rw [hpassed]
      exact hreceived
    · rw [hpassed]
      exact congrArg (fun n => min (n + 1) 65535) hmalformed
    · exact hover.trans hkept
    · exact hloss.trans hkeptLoss
    iterate 7
      · rw [hframe]
        dsimp only [State.malformed, State.countFeed]
        rw [hrest]
        rfl
    · rw [hlive h] at hpassed hframe
      rw [hframe, hpassed]
      rfl

/-! ### The feed state (R57, R58) -/

/-- A data message checked while the feed is QUIET and the lock clear: the return to LIVE, and no gap (R52, R58). -/
theorem State.dataChecked_quiet {s : State} (body : Text) (h : s.feed.feedState = .quiet) (hl : s.feed.lock = false) :
    let t := s.dataChecked body
    t.feed = { s.feed with
        expected := if 3 ≤ body.length then byteAt body 2 + 1 else s.feed.expected
        lock := decide (3 ≤ body.length)
        silence := if s.issues.session = .opened then some (s.control.window * 100) else s.feed.silence
        feedState := .live }
      ∧ t.upstream = s.upstream.offer [0x42, s.unitSwitch, 0x04]
      ∧ (∀ l : LineNo, (s.boards[l]).Told t.boards[l] .live 0x00) ∧ s.ToldTerminals t .live
      ∧ t = { s with feed := t.feed, upstream := t.upstream, boards := t.boards, terminals := t.terminals } := by
  obtain ⟨v, hv⟩ : ∃ v : State, v = { s with feed := { s.feed with
      expected := if 3 ≤ body.length then byteAt body 2 + 1 else s.feed.expected
      lock := decide (3 ≤ body.length) } } := ⟨_, rfl⟩
  have hchecked : s.dataChecked body = v.returnLive.restartSilence := by
    rw [dataChecked, hv]
    by_cases hlong : 3 ≤ body.length
    · rw [if_pos hlong, State.sequence_eq]
      simp only [hl, hlong, Bool.false_eq_true, false_and, if_false, if_true, decide_true]
    · simp only [hlong, if_false, decide_false, ← hl]
  obtain ⟨hport, hboards, hterms⟩ := State.returnLive_returns (s := v) (by rw [hv]; exact h)
  have hframe := v.returnLive_frame
  rw [hchecked, State.restartSilence_eq]
  generalize v.returnLive = t at *
  subst hv
  refine ⟨?_, hport, hboards, hterms, ?_⟩
  · rw [hframe]
  · rw [hframe]

/-- Settles O9: the feed falls QUIET at the expiry of the silence timer, and a data message returns it to LIVE. -/
theorem feedStateChanges : Obligations.FeedStateChanges := by
  refine ⟨fun s c f hf hd hquiet hlock => ?_, fun s => ⟨fun h => ?_, fun h => if_neg h⟩⟩
  · obtain ⟨w, hw, hexec⟩ := exec_feedInCharacter_frame hf
    obtain ⟨hpassed, hframe⟩ := w.checked_passed f
    obtain ⟨hfeed, hport, hboards, hterms, hrest⟩ :=
      State.dataChecked_quiet (s := w.countFrame) f.body (by rw [hw]; exact hquiet) (by rw [hw]; exact hlock)
    have hhanded (x : Sorted) := (w.countFrame.dataChecked f.body).handOn_handed x f.body
    rcases hkind : (kindOf s.control.altCode (byteAt f.body 0)).filter fun k => decide (kindLength k ≤ f.body.length)
      with _ | k
    · have hshort (k : DataKind) (hk : kindOf s.control.altCode (byteAt f.body 0) = some k) :
          f.body.length < kindLength k := by simpa using Option.filter_eq_none_iff.1 hkind k hk
      rw [State.sortMalformed (by rw [hw]; exact hd) (by rw [hw]; exact hshort)] at hpassed hframe
      obtain ⟨hover, hloss⟩ := hpassed.handOver
      generalize w.countFrame.dataChecked f.body = u at *
      generalize w.checked f = t at *
      rw [FeedReceiver.Passed] at hpassed
      subst hw
      refine ⟨t, hexec, ?_, fun k e => (nomatch e), fun k e => (nomatch e), fun _ => ⟨?_, ?_⟩, ?_, ?_, ?_, ?_⟩
      · rw [hpassed, State.malformed, State.countFeed, hfeed]
        rfl
      · rw [hover, State.malformed, State.countFeed, hfeed]
        rfl
      · rw [hloss, State.malformed, State.countFeed, hfeed]
        rfl
      · rw [hframe]
        exact hport
      · rw [hframe]
        exact hboards
      · rw [hframe]
        exact hterms
      · rw [hframe, State.malformed, State.countFeed, hrest]
        rfl
    · obtain ⟨hk, hl⟩ := Option.filter_eq_some_iff.1 hkind
      rw [State.sortChecked_enough (by rw [hw]; exact hk) (of_decide_eq_true hl)] at hpassed hframe
      obtain ⟨hover, hloss⟩ := hpassed.handOver
      replace hhanded := hhanded (.data k)
      generalize w.countFrame.dataChecked f.body = u at *
      rw [hfeed] at hhanded
      generalize w.checked f = t at *
      rw [FeedReceiver.Passed] at hpassed
      subst hw
      refine ⟨t, hexec, ?_, fun k e hq => ?_, fun k e hq => ?_, fun e => (nomatch e), ?_, ?_, ?_, ?_⟩
      · rw [hpassed, State.handOn_eq, hfeed]
        rfl
      · obtain rfl := Option.some.inj e
        rw [hover, hloss]
        exact hhanded.1 hq
      · obtain rfl := Option.some.inj e
        rw [hover, hloss]
        exact hhanded.2 hq
      · rw [hframe, State.handOn_eq]
        exact hport
      · rw [hframe, State.handOn_eq]
        exact hboards
      · rw [hframe, State.handOn_eq]
        exact hterms
      · rw [hframe, State.handOn_eq, hrest]
        rfl
  · have hexec : exec .silenceTimerExpiry s = .next s.goQuiet := if_pos h
    obtain ⟨hport, hboards, hterms⟩ := s.goQuiet_goes
    have hframe := s.goQuiet_frame
    generalize s.goQuiet = t at *
    rw [hframe] at hexec
    exact ⟨_, hexec, rfl, hport, rfl, rfl, hboards, hterms, rfl⟩

/-! ### The through path (R61 to R63) -/

/-- What the through path works on: its queue, its transmitter, its count and the serial number. -/
def FeedReceiver.path (f : FeedReceiver) : List ThroughEntry × Option ThroughEntry × Nat × Nat :=
  (f.through, f.transmitting, f.counts.throughLoss, f.serial)

theorem State.dataChecked_path (s : State) (body : Text) : (s.dataChecked body).feed.path = s.feed.path := by
  rw [dataChecked, State.restartSilence_eq, State.returnLive_frame]
  split
  · rw [State.sequence_eq]
    rfl
  · rfl

theorem State.handOn_path (s : State) (x : Sorted) (body : Text) : (s.handOn x body).feed.path = s.feed.path := by
  rw [State.handOn_eq]
  rfl

theorem State.sortChecked_path (s : State) (body : Text) : (s.sortChecked body).feed.path = s.feed.path := by
  rw [sortChecked]
  split
  · rw [sortData, ← s.dataChecked_path body]
    split
    · rfl
    · split
      · rfl
      · exact State.handOn_path _ _ _
  · split
    · rw [sortControl]
      split
      · rfl
      · split
        · exact State.handOn_path _ _ _
        · split
          · exact State.handOn_path _ _ _
          · rfl
    · rfl

theorem State.repeats_iff (s : State) (body : Text) :
    s.repeats body = true ↔ ¬ (byteAt body 0 = 0x40 ∧ byteAt body 1 ≠ 0 ∧ byteAt body 1 = s.unitSwitch) := by
  rw [repeats, Bool.not_eq_true', ← Bool.not_eq_true, Bool.and_eq_true, beq_iff_eq, State.addressedHere_iff]

theorem FeedReceiver.pump_busy {f : FeedReceiver} (h : f.transmitting.isSome = true) : f.pump = f := if_pos h

theorem FeedReceiver.pump_idle {f : FeedReceiver} (h : f.transmitting = none) :
    f.pump = { f with transmitting := (nextThrough f.through).1, through := (nextThrough f.through).2 } :=
  if_neg (by rw [h]; decide)

/-- A frame offered to the through path with the switch on (R61, R62). -/
theorem State.repeatFrame_path {s : State} (f : Frame) (h : s.throughSwitch = true) :
    let t := s.repeatFrame f
    let e : ThroughEntry := ⟨f, s.feed.serial, false⟩
    (4 ≤ s.feed.through.length → t.feed.through = s.feed.through ∧ t.feed.transmitting = s.feed.transmitting
        ∧ t.feed.counts.throughLoss = min (s.feed.counts.throughLoss + 1) 65535)
      ∧ (s.feed.through.length < 4 → s.feed.transmitting.isSome = true →
          t.feed.through = s.feed.through ++ [e] ∧ t.feed.transmitting = s.feed.transmitting
            ∧ t.feed.counts.throughLoss = s.feed.counts.throughLoss)
      ∧ (s.feed.through = [] → s.feed.transmitting = none →
          t.feed.through = [] ∧ t.feed.transmitting = some e
            ∧ t.feed.counts.throughLoss = s.feed.counts.throughLoss) := by
  have hroom (hl : s.feed.through.length < 4) :
      s.repeatFrame f = { s with feed := (s.feed.queueThrough f).pump } := by
    rw [repeatFrame, if_pos h]
    exact if_pos hl
  refine ⟨fun hl => ?_, fun hl hb => ?_, fun hq hb => ?_⟩
  · have hfull : s.repeatFrame f = s.countFeed fun c => { c with throughLoss := satInc c.throughLoss } := by
      rw [repeatFrame, if_pos h]
      exact if_neg (not_lt.2 hl)
    rw [hfull]
    exact ⟨rfl, rfl, rfl⟩
  · rw [hroom hl, FeedReceiver.pump_busy (f := s.feed.queueThrough f) hb]
    exact ⟨rfl, rfl, rfl⟩
  · rw [hroom (by rw [hq]; decide), FeedReceiver.pump_idle (f := s.feed.queueThrough f) hb]
    have hnext : nextThrough (s.feed.queueThrough f).through = (some ⟨f, s.feed.serial, false⟩, []) := by
      rw [FeedReceiver.queueThrough, hq]
      rfl
    rw [hnext]
    exact ⟨rfl, rfl, rfl⟩

theorem nextThrough_append {gone : List ThroughEntry} (h : ∀ x ∈ gone, x.doomed = true) (es : List ThroughEntry) :
    nextThrough (gone ++ es) = nextThrough es := by
  induction gone with
  | nil => rfl
  | cons x gone ih =>
    rw [List.cons_append, nextThrough, if_pos (h x List.mem_cons_self)]
    exact ih fun y hy => h y (List.mem_cons_of_mem _ hy)

/-- Settles O10: a checked frame, the end of a frame and the switch at the through path. -/
theorem throughPathFollowed : Obligations.ThroughPathFollowed := by
  refine ⟨fun s c f hf => ?_, fun s e gone rest he hgone => ⟨fun x hx hq => ?_, fun hq => ?_⟩, fun s => rfl,
    fun s => rfl⟩
  · obtain ⟨w, hw, hexec⟩ := exec_feedInCharacter_frame hf
    have hswitch : (w.checked f).throughSwitch = s.throughSwitch := by
      rw [State.checked_frame, hw]
    have hchecked : w.checked f = if w.repeats f.body then (w.countFrame.sortChecked f.body).repeatFrame f
      else w.countFrame.sortChecked f.body := rfl
    have hon : (w.countFrame.sortChecked f.body).throughSwitch = s.throughSwitch := by
      rw [State.sortChecked_frame, hw]
      rfl
    have hpath := w.countFrame.sortChecked_path f.body
    have hunit : w.unitSwitch = s.unitSwitch := by rw [hw]
    generalize w.countFrame.sortChecked f.body = u at *
    have hstart : w.countFrame.feed.path = (s.feed.through, s.feed.transmitting, s.feed.counts.throughLoss,
        s.feed.serial + 1) := by
      rw [hw]
      rfl
    rw [hstart] at hpath
    obtain ⟨hthrough, hsent, hloss, hserial⟩ : u.feed.through = s.feed.through
        ∧ u.feed.transmitting = s.feed.transmitting ∧ u.feed.counts.throughLoss = s.feed.counts.throughLoss
        ∧ u.feed.serial = s.feed.serial + 1 := by
      simpa [FeedReceiver.path] using hpath
    have hmine (hm : ¬ (byteAt f.body 0 = 0x40 ∧ byteAt f.body 1 ≠ 0 ∧ byteAt f.body 1 = s.unitSwitch)) :
        w.checked f = u.repeatFrame f := by
      rw [hchecked, if_pos ((w.repeats_iff f.body).2 (by rw [hunit]; exact hm))]
    have hoffer := u.repeatFrame_path f
    rw [hthrough, hsent, hloss, hserial, hon] at hoffer
    refine ⟨w.checked f, hexec, hswitch, fun h => ?_, fun hm hs => ?_, fun hm hs => ?_, fun hm hs => ?_⟩
    · have hstay : w.checked f = u := by
        rw [hchecked]
        rcases h with hm | hs
        · rw [if_neg fun e => (w.repeats_iff f.body).1 e (by rw [hunit]; exact hm)]
        · have hoff : u.repeatFrame f = u := if_neg (by rw [hon, hs]; decide)
          rw [hoff, ite_self]
      rw [hstay]
      exact ⟨hthrough, hsent, hloss⟩
    · rw [hmine hm]
      exact (hoffer hs).1
    · rw [hmine hm]
      exact (hoffer hs).2.1
    · rw [hmine hm]
      exact (hoffer hs).2.2
  · have hexec : exec .throughFrameEnd s = .next { s with feed := { s.feed with transmitting := none }.pump } := by
      change execThroughFrameEnd s = _
      rw [execThroughFrameEnd, he]
    have hnext : nextThrough s.feed.through = (some x, rest) := by
      rw [hq, nextThrough_append hgone, nextThrough, if_neg (by rw [hx]; decide)]
    rw [hexec, FeedReceiver.pump_idle (f := { s.feed with transmitting := none }) rfl]
    dsimp only
    rw [hnext]
  · have hexec : exec .throughFrameEnd s = .next { s with feed := { s.feed with transmitting := none }.pump } := by
      change execThroughFrameEnd s = _
      rw [execThroughFrameEnd, he]
    have hnext : nextThrough s.feed.through = (none, []) := by
      rw [hq, ← List.append_nil gone, nextThrough_append hgone]
      rfl
    rw [hexec, FeedReceiver.pump_idle (f := { s.feed with transmitting := none }) rfl]
    dsimp only
    rw [hnext]

end Sys2Proof.Machine
end

