-- ==== Sys2Proof/Proofs/Wire.lean ====
section
/-! PROOFS. Frames on a line: the cyclic check bit by bit, the fill characters, and the assembler over all characters
of a frame (R41 to R45). -/

namespace Sys2Proof.Machine

/-! ### The cyclic check -/

theorem crcBit_eq (reg : BitVec 16) (b : Bool) :
    crcBit reg b = (reg >>> 1) ^^^ (if (b ^^ reg.getLsbD 0) = true then 0xA001#16 else 0#16) := by
  unfold crcBit
  dsimp only
  split
  · rfl
  · rw [BitVec.xor_zero]

theorem crcOf_eq (cs : Text) :
    crcOf cs = (cs.flatMap fun c => (List.range 8).map c.getLsbD).foldl crcBit 0#16 := by
  rw [crcOf, List.foldl_flatMap]
  refine congrArg (fun g => cs.foldl g 0#16) (funext fun reg => funext fun c => ?_)
  rw [crcChar, List.foldl_map]

theorem extract_append (x : BitVec 16) : x.extractLsb' 8 8 ++ x.extractLsb' 0 8 = x := by
  refine BitVec.eq_of_getLsbD_eq fun i hi => ?_
  rw [BitVec.getLsbD_append]
  by_cases h : i < 8
  · simp [h]
  · have hlow : i - 8 < 8 := by omega
    have hsum : 8 + (i - 8) = i := by omega
    simp [h, hlow, hsum]

/-! ### The characters of a frame -/

/-- A character inside a frame, with the fill character that follows one of value 96h (R41). -/
def stuffed (c : Byte) : Text := if c = 0x96 then [0x96, 0x00] else [c]

theorem stuff_eq (cs : Text) : stuff cs = cs.flatMap stuffed := by
  induction cs with
  | nil => rfl
  | cons c cs ih =>
    rw [stuff, List.flatMap_cons, ih, stuffed]
    by_cases h : c = 0x96
    · rw [if_pos h]
      exact if_pos h
    · rw [if_neg h]
      exact if_neg h

/-! ### The assembler over a run of characters -/

/-- A run of characters that takes the assembler from one state to another and brings nothing about. -/
def Silent (a : Assembler) (cs : Text) (b : Assembler) : Prop :=
  assembleAll a cs = (b, List.replicate cs.length .nothing)

theorem assembleAll_append {a b : Assembler} {xs : Text} (h : Silent a xs b) (ys : Text) :
    assembleAll a (xs ++ ys) =
      ((assembleAll b ys).1, List.replicate xs.length .nothing ++ (assembleAll b ys).2) := by
  induction xs generalizing a with
  | nil =>
    obtain rfl : a = b := congrArg Prod.fst h
    rfl
  | cons c xs ih =>
    have hstep : Silent (assemble a c).1 xs b ∧ (assemble a c).2 = .nothing := by
      have h1 := congrArg Prod.fst h
      have h2 := congrArg Prod.snd h
      simp only [assembleAll, List.length_cons, List.replicate_succ, List.cons.injEq] at h1 h2
      exact ⟨Prod.ext h1 h2.2, h2.1⟩
    have happ := ih hstep.1
    simp only [List.cons_append, assembleAll, happ, hstep.2, List.length_cons, List.replicate_succ]

theorem Silent.trans {a b c : Assembler} {xs ys : Text} (h : Silent a xs b) (h' : Silent b ys c) :
    Silent a (xs ++ ys) c := by
  rw [Silent, assembleAll_append h, h', List.length_append, List.replicate_append_replicate]

theorem silent_body (n : Nat) (got : Text) (c : Byte) :
    Silent (.body n got false) (stuffed c) (takeBody n got c).1 := by
  have hnothing (d : Byte) : (takeBody n got d).2 = .nothing := by
    rw [takeBody]
    split <;> rfl
  rw [stuffed]
  split
  · rename_i h
    subst h
    exact Prod.ext rfl (congrArg (fun o => [Assembled.nothing, o]) (hnothing 0x96))
  · rename_i h
    have hstep : assemble (.body n got false) c = takeBody n got c := if_neg h
    rw [Silent, assembleAll, hstep]
    exact Prod.ext rfl (congrArg (fun o => [o]) (hnothing c))

theorem silent_bodies {n : Nat} (c : Byte) (cs got : Text) (h : got.length + (c :: cs).length = n) :
    Silent (.body n got false) ((c :: cs).flatMap stuffed) (.check (got ++ c :: cs) none false) := by
  induction cs generalizing c got with
  | nil =>
    have hlast : (takeBody n got c).1 = .check (got ++ [c]) none false := by
      rw [takeBody]
      simp only [List.length_append]
      exact congrArg Prod.fst (if_neg (by simp at h ⊢; omega))
    have hbody := silent_body n got c
    rw [hlast] at hbody
    rw [List.flatMap_cons, List.flatMap_nil, List.append_nil]
    exact hbody
  | cons d cs ih =>
    have hmore : (takeBody n got c).1 = .body n (got ++ [c]) false := by
      rw [takeBody]
      exact congrArg Prod.fst (if_pos (by simp at h ⊢; omega))
    have hbody := silent_body n got c
    rw [hmore] at hbody
    have hrest := ih d (got ++ [c]) (by simp at h ⊢; omega)
    rw [List.append_assoc] at hrest
    rw [List.flatMap_cons]
    exact hbody.trans hrest

theorem silent_check (got : Text) (h : Byte) :
    Silent (.check got none false) (stuffed h) (.check got (some h) false) := by
  rw [stuffed]
  split
  · rename_i hh
    subst hh
    rfl
  · rename_i hh
    have hstep : assemble (.check got none false) h = takeCheck got none h := if_neg hh
    rw [Silent, assembleAll, hstep]
    rfl

/-- The last check character: the frame is tested (R42, R45). -/
theorem assembleAll_last (got : Text) (h l : Byte) :
    assembleAll (.check got (some h) false) (stuffed l) =
      (.hunt, List.replicate ((stuffed l).length - 1) .nothing
        ++ [if (⟨got, h, l⟩ : Frame) = frameOf got then .frame ⟨got, h, l⟩ else .failure]) := by
  have htest : (takeCheck got (some h) l) =
      (.hunt, if (⟨got, h, l⟩ : Frame) = frameOf got then .frame ⟨got, h, l⟩ else .failure) := by
    rw [takeCheck]
    refine congrArg (Prod.mk _) (if_congr ?_ rfl rfl)
    rw [frameGood, beq_iff_eq]
  rw [stuffed]
  split
  · rename_i hl
    subst hl
    have hrun : assembleAll (.check got (some h) false) [0x96, 0x00] =
        ((takeCheck got (some h) 0x96).1, [.nothing, (takeCheck got (some h) 0x96).2]) := rfl
    rw [hrun, htest]
    rfl
  · rename_i hl
    have hstep : assemble (.check got (some h) false) l = takeCheck got (some h) l := if_neg hl
    rw [assembleAll, hstep, htest]
    rfl

/-- Settles O6: the check register, the fill characters, and a whole frame at the assembler. -/
theorem frameRoundTrip : Obligations.FrameRoundTrip := by
  refine ⟨fun body => ⟨?_, rfl, extract_append _⟩, fun f => ?_, fun body h l hmin hmax => ?_⟩
  · rw [frameCheck, crcOf_eq]
    exact congrArg (fun g => List.foldl g 0#16 _) (funext fun reg => funext fun b => crcBit_eq reg b)
  · rw [wireChars, stuff_eq]
    rfl
  · obtain ⟨b, bs, rfl⟩ : ∃ b bs, body = b :: bs := List.exists_cons_of_length_pos (by omega)
    have hval : (BitVec.ofNat 8 (b :: bs).length).toNat = (b :: bs).length := by
      rw [BitVec.toNat_ofNat]
      omega
    have hsync : BitVec.ofNat 8 (b :: bs).length ≠ 0x96 := fun e => by
      rw [e] at hval
      exact absurd hval (by simp at hmax ⊢; omega)
    have hopen : Silent .hunt [0x96, 0x96, BitVec.ofNat 8 (b :: bs).length] (.body (b :: bs).length [] false) := by
      have hstart : assemble .synced (BitVec.ofNat 8 (b :: bs).length) = (.body (b :: bs).length [] false, .nothing) := by
        refine (if_neg hsync).trans ((if_pos (by rw [hval]; omega)).trans ?_)
        rw [hval]
      have hrun : assembleAll .hunt [0x96, 0x96, BitVec.ofNat 8 (b :: bs).length] =
          ((assemble .synced (BitVec.ofNat 8 (b :: bs).length)).1,
            [.nothing, .nothing, (assemble .synced (BitVec.ofNat 8 (b :: bs).length)).2]) := rfl
      rw [Silent, hrun, hstart]
      rfl
    have hwire : wireChars ⟨b :: bs, h, l⟩ =
        ([0x96, 0x96, BitVec.ofNat 8 (b :: bs).length] ++ ((b :: bs).flatMap stuffed ++ stuffed h)) ++ stuffed l := by
      have hlen : stuffed (BitVec.ofNat 8 (b :: bs).length) = [BitVec.ofNat 8 (b :: bs).length] := if_neg hsync
      rw [wireChars, stuff_eq, List.flatMap_cons, hlen, List.flatMap_append]
      simp only [List.flatMap_cons, List.flatMap_nil, List.append_nil, List.append_assoc, List.cons_append,
        List.nil_append]
      rfl
    have hsilent := hopen.trans ((silent_bodies b bs [] (Nat.zero_add _)).trans (silent_check (b :: bs) h))
    have hpos : 1 ≤ (stuffed l).length := by
      rw [stuffed]
      split <;> exact Nat.succ_pos _
    dsimp only
    rw [hwire, assembleAll_append hsilent, assembleAll_last, ← List.append_assoc, List.replicate_append_replicate,
      ← Nat.add_sub_assoc hpos]
    simp only [List.length_append]

end Sys2Proof.Machine
end

