-- ==== Sys2Proof/Proofs/Answers.lean ====
section
/-! PROOFS. The answers of terminals: the select that follows one (R137), the end of a transaction, and missed answers
(R135, R138). -/

namespace Sys2Proof.Machine

/-! ### What a turn carries (R137) -/

section
variable {x : Terminal} {records : Records} {d : DropNo}

theorem Terminal.select_queued {m : OutMessage} {ms : List OutMessage} (h : x.queue = m :: ms) :
    x.select records d = some (⟨.queued, selectChars d m.chars⟩, x) := by
  rw [select, h]

theorem Terminal.select_entry {i : Nat} {e : WatchEntry} (h : x.queue = []) (hi : x.nextEntry = some i)
    (he : x.watch[i]? = some e) :
    x.select records d = some (⟨.entry e.issue e.pending x.lengthOwed,
        selectChars d (entryUpdate records i x.watch.length e.issue e.pending)⟩,
      { x with cursor := i, watch := clearPending x.watch i, lengthOwed := false }) := by
  simp only [select, h, hi, he]

theorem Terminal.select_length (h : x.queue = []) (hi : x.nextEntry = none) (hl : x.lengthOwed = true) :
    x.select records d =
      some (⟨.length, selectChars d (lengthUpdate x.watch.length)⟩, { x with lengthOwed := false }) := by
  simp only [select, h, hi, hl, if_true]

theorem Terminal.select_nothing (h : x.queue = []) (hi : x.nextEntry = none) (hl : x.lengthOwed = false) :
    x.select records d = none := by
  simp only [select, h, hi, hl, if_false, Bool.false_eq_true]

/-- An entry is ready when something of it is pending. -/
def Terminal.ready (x : Terminal) (i : Nat) : Bool := x.watch[i]?.any fun e => !e.pending.isEmpty

theorem Terminal.ready_iff (x : Terminal) (i : Nat) :
    x.ready i = true ↔ ∃ e, x.watch[i]? = some e ∧ e.pending ≠ .empty := by
  rw [ready, Option.any_eq_true]
  simp only [Bool.not_eq_true', ← Bool.not_eq_true, FieldSet.isEmpty_iff, ne_eq]

/-- The first ready entry after the service cursor, else the first up to it. -/
theorem Terminal.nextEntry_eq (x : Terminal) :
    x.nextEntry = ((List.range x.watch.length).find? fun i => x.ready i && decide (x.cursor < i)).or
      ((List.range x.watch.length).find? fun i => x.ready i && decide (i ≤ x.cursor)) := by
  have hand (p q : Nat → Bool) : (fun i => decide (p i = true ∧ q i = true)) = fun i => p i && q i :=
    funext fun i => by rw [Bool.decide_and, Bool.decide_eq_true, Bool.decide_eq_true]
  unfold nextEntry
  dsimp only
  rw [List.find?_filter, List.find?_filter, hand, hand]
  change (match (List.range x.watch.length).find? fun i => x.ready i && decide (x.cursor < i) with
    | some i => some i
    | none => (List.range x.watch.length).find? fun i => x.ready i && decide (i ≤ x.cursor)) = _
  rcases (List.range x.watch.length).find? fun i => x.ready i && decide (x.cursor < i) with _ | i <;> rfl

theorem Terminal.nextEntry_none (h : ∀ e ∈ x.watch, e.pending = .empty) : x.nextEntry = none := by
  have hready (i : Nat) : ¬ x.ready i = true := fun hr => by
    obtain ⟨e, he, hp⟩ := (x.ready_iff i).1 hr
    exact hp (h e (List.mem_of_getElem? he))
  have hfind (q : Nat → Bool) : ((List.range x.watch.length).find? fun i => x.ready i && q i) = none :=
    List.find?_eq_none.2 fun i _ hi => hready i (Bool.and_eq_true_iff.1 hi).1
  rw [Terminal.nextEntry_eq, hfind, hfind]
  rfl

theorem Terminal.nextEntry_some {i : Nat} {e : WatchEntry} (hi : x.watch[i]? = some e) (he : e.pending ≠ .empty)
    (hfirst : ∀ j g, x.watch[j]? = some g → g.pending ≠ .empty →
      (x.cursor < i ∧ (j ≤ x.cursor ∨ i ≤ j)) ∨ (i ≤ x.cursor ∧ j ≤ x.cursor ∧ i ≤ j)) : x.nextEntry = some i := by
  have hready : x.ready i = true := (x.ready_iff i).2 ⟨e, hi, he⟩
  have hfound (q : Nat → Bool) (hq : q i = true) (hbefore : ∀ j < i, x.ready j = true → q j = false) :
      ((List.range x.watch.length).find? fun i => x.ready i && q i) = some i := by
    refine List.find?_range_eq_some.2 ⟨by rw [hready, hq]; rfl, ?_, fun j hj => ?_⟩
    · exact List.mem_range.2 (List.getElem?_eq_some_iff.1 hi).1
    · rcases hr : x.ready j
      · rfl
      · rw [hbefore j hj hr]
        rfl
  have horder (j : Nat) (hr : x.ready j = true) := (x.ready_iff j).1 hr |>.elim fun g hg => hfirst j g hg.1 hg.2
  rw [Terminal.nextEntry_eq]
  by_cases hc : x.cursor < i
  · rw [hfound (fun j => decide (x.cursor < j)) (decide_eq_true hc) fun j hj hr => decide_eq_false (by have := horder j hr; omega)]
    rfl
  · have hnone : ((List.range x.watch.length).find? fun i => x.ready i && decide (x.cursor < i)) = none := by
      refine List.find?_eq_none.2 fun j _ hj => ?_
      obtain ⟨hr, hq⟩ := Bool.and_eq_true_iff.1 hj
      have := horder j hr
      have := of_decide_eq_true hq
      omega
    rw [hnone, hfound (fun j => decide (j ≤ x.cursor)) (decide_eq_true (not_lt.1 hc))
      fun j hj hr => decide_eq_false (by have := horder j hr; omega)]
    rfl

end

/-! ### The select that follows an answer -/

section
variable {s : State} {l : LineNo} {x : Transaction}

theorem State.beginSelect_carries {sel : Select} {y : Terminal}
    (h : (s.terminals[termOf l x.drop]).select s.issues.records x.drop = some (sel, y)) :
    s.beginSelect l x = (s.setTerm (termOf l x.drop) y).setStage l x (.selectSending sel) := by
  rw [beginSelect, h]

theorem State.beginSelect_ends (h : (s.terminals[termOf l x.drop]).select s.issues.records x.drop = none) :
    s.beginSelect l x = s.endTransaction l := by
  rw [beginSelect, h]

end

theorem State.setTerm_terminal (s : State) (t : TermNo) (x : Terminal) : (s.setTerm t x).terminals[t] = x :=
  (State.setTerm_term s t t x).trans (if_pos rfl)

theorem TermLine.pollAwaited_wait {y : TermLine} {d : DropNo} {left : Nat} {cut : Bool}
    (h : y.inFlight = some ⟨d, .pollWait left, cut⟩) : y.pollAwaited = some ⟨d, .pollWait left, cut⟩ := by
  rw [pollAwaited, h]
  rfl

theorem TermLine.selectAwaited_wait {y : TermLine} {d : DropNo} {sel : Select} {left : Nat} {cut : Bool}
    (h : y.inFlight = some ⟨d, .selectWait sel left, cut⟩) :
    y.selectAwaited = some (⟨d, .selectWait sel left, cut⟩, sel.carried) := by
  rw [selectAwaited, h]
  rfl

/-- Settles O43: the queue's head, the next pending entry, the owed length, or nothing. -/
theorem nothingAnswered : Obligations.NothingAnswered := by
  intro s l d left h x line hon
  have hexec : exec (.nothing l) s =
      .next ((s.setTerm (termOf l d) { x with timeouts := 0 }).beginSelect l ⟨d, .pollWait left, false⟩) := by
    change execNothing l s = _
    rw [execNothing, TermLine.pollAwaited_wait h]
    dsimp only
    rw [if_pos ((s.heard_iff l _).2 ⟨by dsimp only; rw [hon]; decide, rfl⟩), State.answerTaken_online hon]
  have hself := s.setTerm_terminal (termOf l d) { x with timeouts := 0 }
  refine ⟨fun m ms hq => ?_, fun hq i e hi he hfirst => ?_, fun hq hp hl => ?_, fun hq hp hl => ?_⟩
  · rw [hexec, State.beginSelect_carries (by rw [hself]; exact Terminal.select_queued hq), State.setTerm_setTerm]
    rfl
  · rw [hexec, State.beginSelect_carries (by
      rw [hself]; exact Terminal.select_entry hq (Terminal.nextEntry_some hi he hfirst) hi), State.setTerm_setTerm]
    rfl
  · rw [hexec, State.beginSelect_carries (by
      rw [hself]; exact Terminal.select_length hq (Terminal.nextEntry_none hp) hl), State.setTerm_setTerm]
    rfl
  · rw [hexec, State.beginSelect_ends (by
      rw [hself]; exact Terminal.select_nothing hq (Terminal.nextEntry_none hp) hl)]
    refine ⟨_, rfl, State.endTransaction_polls _ _, ?_, fun k hk => State.endTransaction_ne _ hk⟩
    rw [State.endTransaction_frame]
    rfl

/-! ### The end of a select -/

/-- What an ended transaction leaves to the statements: its line polls, and the other lines stand (R132). -/
theorem State.endTransaction_ended (s : State) (l : LineNo) :
    State.Polls s.termLines[l] (s.endTransaction l) l
      ∧ (s.endTransaction l) = { s with termLines := (s.endTransaction l).termLines }
      ∧ ∀ k : LineNo, k ≠ l → (s.endTransaction l).termLines[k] = s.termLines[k] :=
  ⟨s.endTransaction_polls l, s.endTransaction_frame l, fun _ hk => s.endTransaction_ne hk⟩

theorem State.countLine_line (s : State) (l k : LineNo) (f : TermLine → TermLine) :
    (s.countLine l f).termLines[k] = if k = l then f s.termLines[l] else s.termLines[k] :=
  State.setTermLine_line s l k _

theorem State.setTerm_others (s : State) (t : TermNo) (x : Terminal) {y : TermNo} (h : y ≠ t) :
    (s.setTerm t x).terminals[y] = s.terminals[y] := (State.setTerm_term s t y x).trans (if_neg h)

/-- A RECEIVED from an ONLINE terminal (R138, R144). -/
theorem State.receivedAt_online {s : State} {t : TermNo} (h : (s.terminals[t]).state = .online) (c : Carried) :
    (c ≠ .queued → s.receivedAt t c = s.setTerm t { s.terminals[t] with timeouts := 0 })
      ∧ (c = .queued → s.receivedAt t c = (s.setTerm t { s.terminals[t] with
          timeouts := 0, queue := (s.terminals[t]).queue.tail }).freePlaces t) := by
  refine ⟨fun hc => ?_, fun hc => ?_⟩
  · cases c with
    | queued => exact absurd rfl hc
    | entry | length => exact State.answerTaken_online h
  · subst hc
    unfold receivedAt
    dsimp only
    rw [State.answerTaken_online h, State.setTerm_terminal, State.setTerm_setTerm]

/-- The places freed at a terminal whose queue has been set, seen from the card before (R144, R160). -/
theorem State.freePlaces_set {s : State} {t : TermNo} {y : Terminal} (hy : y.state ≠ .disabled)
    (hf : y.feedOwed = (s.terminals[t]).feedOwed) :
    let v := (s.setTerm t y).freePlaces t
    s.Freed v t y.queue
      ∧ v.terminals[t] = { y with queue := (v.terminals[t]).queue, feedOwed := (v.terminals[t]).feedOwed }
      ∧ (∀ z : TermNo, z ≠ t → v.terminals[z] = s.terminals[z] ∧ v.alerts[z] = s.alerts[z])
      ∧ v = { s with alerts := v.alerts, terminals := v.terminals } := by
  have hself := s.setTerm_terminal t y
  obtain ⟨hfreed, hform, hothers⟩ := State.freePlaces_freed (s := s.setTerm t y) (by rw [hself]; exact hy)
  rw [hself] at hfreed hform
  refine ⟨hfreed.congr (by rw [hself, hf]) rfl rfl rfl rfl, hform, fun z hz => ?_, ?_⟩
  · rw [(hothers z hz).1, (hothers z hz).2, State.setTerm_others s t y hz]
    exact ⟨rfl, rfl⟩
  · exact (s.setTerm t y).freePlaces_frame t

/-- Settles O46: RECEIVED frees the place of the message it answers, and BUSY puts back what was sent. -/
theorem selectsAnswered : Obligations.SelectsAnswered := by
  intro s l d sel left h t x hon rest
  have hdis : x.state ≠ .disabled := by rw [hon]; decide
  have hheard (u : State) (hu : u.terminals[t] = x) : u.heard l ⟨d, .selectWait sel left, false⟩ = true :=
    (u.heard_iff l _).2 ⟨by rw [hu]; exact hdis, rfl⟩
  refine ⟨?_, ?_⟩
  · have hexec : exec (.received l) s = .next ((s.receivedAt t sel.carried).endTransaction l) := by
      change execReceived l s = _
      rw [execReceived, TermLine.selectAwaited_wait h]
      dsimp only
      rw [if_pos (hheard s rfl)]
    obtain ⟨hother, hqueued⟩ := State.receivedAt_online (s := s) (t := t) hon sel.carried
    by_cases hc : sel.carried = .queued
    · obtain ⟨hfreed, hform, hothers, hrest⟩ := State.freePlaces_set (s := s) (t := t)
        (y := { x with timeouts := 0, queue := x.queue.tail }) hdis rfl
      rw [hqueued hc] at hexec
      generalize (State.setTerm s t { s.terminals[t] with timeouts := 0, queue := _ }).freePlaces t = v at *
      obtain ⟨hpolls, hframe, hlines⟩ := v.endTransaction_ended l
      generalize v.endTransaction l = u at *
      have hsame : v.termLines = s.termLines := by rw [hrest]
      rw [hsame] at hpolls hlines
      refine ⟨u, hexec, hpolls, ⟨?_, hlines, fun y hy => ?_⟩, fun hn => absurd hc hn, fun _ => ⟨?_, ?_⟩⟩
      · rw [hframe, hrest]
      · rw [hframe]
        exact hothers y hy
      · rw [hframe]
        exact hfreed
      · rw [hframe]
        exact hform
    · rw [hother hc] at hexec
      obtain ⟨v, hv⟩ : ∃ v : State, v = s.setTerm t { x with timeouts := 0 } := ⟨_, rfl⟩
      rw [← hv] at hexec
      obtain ⟨hpolls, hframe, hlines⟩ := v.endTransaction_ended l
      generalize v.endTransaction l = u at *
      subst hv
      refine ⟨u, hexec, hpolls, ⟨?_, hlines, fun y hy => ?_⟩, fun _ => ⟨?_, ?_⟩, fun hq => absurd hq hc⟩
      · rw [hframe]
        rfl
      · rw [hframe]
        exact ⟨State.setTerm_others s t _ hy, rfl⟩
      · rw [hframe]
        exact s.setTerm_terminal t _
      · rw [hframe]
        rfl
  · have hexec : exec (.busy l) s = .next ((((s.countBusy l).setTerm t { x with timeouts := 0 }).setTerm t
        (({ x with timeouts := 0 } : Terminal).restored sel.carried)).endTransaction l) := by
      change execBusy l s = _
      rw [execBusy, TermLine.selectAwaited_wait h]
      dsimp only
      rw [if_pos (hheard _ rfl), State.answerTaken_online (s := s.countBusy l) hon, State.setTerm_terminal]
      rfl
    rw [State.setTerm_setTerm] at hexec
    obtain ⟨v, hv⟩ : ∃ v : State, v = (s.countBusy l).setTerm t (({ x with timeouts := 0 } : Terminal).restored sel.carried)
      := ⟨_, rfl⟩
    rw [← hv] at hexec
    obtain ⟨hpolls, hframe, hlines⟩ := v.endTransaction_ended l
    generalize v.endTransaction l = u at *
    have hterm : u.terminals[t] = ({ x with timeouts := 0 } : Terminal).restored sel.carried := by
      rw [hframe, hv]
      exact State.setTerm_terminal _ _ _
    have hline (k : LineNo) := s.countLine_line l k fun x => { x with busies := satInc x.busies }
    refine ⟨u, hexec, ⟨?_, fun k hk => ?_, fun y hy => ?_⟩, ?_, ?_, fun hc => ?_, fun hc => ?_, fun n fs owed hc => ?_⟩
    · rw [hframe, hv]
      rfl
    · rw [hlines k hk, hv]
      exact (hline k).trans (if_neg hk)
    · rw [hframe, hv]
      exact ⟨State.setTerm_others _ t _ hy, rfl⟩
    · rw [hframe, hv]
      rfl
    · have hself : v.termLines[l] = { s.termLines[l] with busies := min ((s.termLines[l]).busies + 1) 65535 } := by
        rw [hv]
        exact (hline l).trans (if_pos rfl)
      rw [hself] at hpolls
      exact hpolls
    · rw [hterm, hc]
      rfl
    · rw [hterm, hc]
      rfl
    · rw [hterm, hc]
      rfl

/-! ### Missed answers (R135) -/

/-- An enabled terminal after a missed answer: an OFFLINE one as it stands, any other counted, OFFLINE at the third. -/
def Terminal.missed (x : Terminal) : Terminal :=
  if x.state ≠ .offline then
    if x.timeouts + 1 < 3 then { x with timeouts := x.timeouts + 1 } else { x with timeouts := 3, state := .offline }
  else x

theorem State.missTerm_eq (s : State) (t : TermNo) :
    s.missTerm t = { s.setTerm t (s.terminals[t]).missed with
      upstream := if (s.terminals[t]).state ≠ .offline ∧ 3 ≤ (s.terminals[t]).timeouts + 1
        then s.upstream.offer [0x42, s.unitSwitch, 0x09, BitVec.ofNat 8 t.val] else s.upstream } := by
  unfold missTerm Terminal.missed
  dsimp only
  by_cases ho : (s.terminals[t]).state = .offline
  · rw [if_pos ho, if_neg (not_not.2 ho), if_neg fun h => h.1 ho]
    exact (State.setTerm_self s t).symm
  · rw [if_neg ho, if_pos ho]
    by_cases hl : (s.terminals[t]).timeouts + 1 < 3
    · refine (if_pos hl).trans ?_
      rw [if_pos hl, if_neg fun h => absurd hl (not_lt.2 h.2)]
      rfl
    · refine (if_neg hl).trans ?_
      rw [if_neg hl, if_pos ⟨ho, not_lt.1 hl⟩]
      rfl

theorem State.setTerm_port (s : State) (t : TermNo) (x y : Terminal) (u : UpstreamPort) :
    ({ s.setTerm t x with upstream := u } : State).setTerm t y = { s.setTerm t y with upstream := u } :=
  congrArg (fun w : State => { w with upstream := u }) (State.setTerm_setTerm s t x y)

theorem Terminal.missed_watch (x : Terminal) : x.missed.watch = x.watch := by
  unfold missed
  split
  · split <;> rfl
  · rfl

/-- Settles O47: a missed answer is counted on its line and at an enabled terminal. -/
theorem missedAnswersCounted : Obligations.MissedAnswersCounted := by
  intro s l d stage cut h t x heard counts missed back ends
  have hends {y : Terminal} {v : State} (hexec : exec (.terminalAnswerWaitExpiry l) s = .next (v.endTransaction l))
      (hv : v = { (s.countMiss l).setTerm t y with
        upstream := if counts ∧ 3 ≤ x.timeouts + 1
          then s.upstream.offer [0x42, s.unitSwitch, 0x09, BitVec.ofNat 8 (l.val * 8 + d.val)] else s.upstream }) :
      ends y := by
    obtain ⟨hpolls, hframe, hlines⟩ := v.endTransaction_ended l
    generalize v.endTransaction l = u at *
    have hline (k : LineNo) := s.countLine_line l k fun x => { x with timeouts := satInc x.timeouts }
    have hself : v.termLines[l] = { s.termLines[l] with timeouts := min ((s.termLines[l]).timeouts + 1) 65535 } := by
      rw [hv]
      exact (hline l).trans (if_pos rfl)
    rw [hself] at hpolls
    refine ⟨u, hexec, ?_, hpolls, fun k hk => ?_⟩
    · rw [hframe, hv]
      rfl
    · rw [hlines k hk, hv]
      exact (hline k).trans (if_neg hk)
  have hexec (hdue : stage.due = true) : exec (.terminalAnswerWaitExpiry l) s =
      .next ((if s.heard l ⟨d, stage, cut⟩ then ((s.countMiss l).missTerm t).restoreMissed t stage
        else s.countMiss l).endTransaction l) := by
    change execTerminalAnswerWaitExpiry l s = _
    rw [execTerminalAnswerWaitExpiry, h]
    dsimp only
    rw [if_pos hdue]
    split <;> rfl
  have hheard : s.heard l ⟨d, stage, cut⟩ = true ↔ heard := s.heard_iff l _
  have hdeaf (hn : ¬ heard) : s.countMiss l = { (s.countMiss l).setTerm t x with
      upstream := if counts ∧ 3 ≤ x.timeouts + 1
        then s.upstream.offer [0x42, s.unitSwitch, 0x09, BitVec.ofNat 8 (l.val * 8 + d.val)] else s.upstream } := by
    rw [if_neg fun e => hn e.1.1]
    exact (State.setTerm_self (s.countMiss l) t).symm
  have hmissed (hp : heard) : missed = x.missed := by
    by_cases ho : x.state = .offline
    · exact (if_neg fun e => e.2 ho).trans (if_neg (not_not.2 ho)).symm
    · exact (if_pos ⟨hp, ho⟩).trans (if_pos ho).symm
  have hmiss (hp : heard) : (s.countMiss l).missTerm t = { (s.countMiss l).setTerm t missed with
      upstream := if counts ∧ 3 ≤ x.timeouts + 1
        then s.upstream.offer [0x42, s.unitSwitch, 0x09, BitVec.ofNat 8 (l.val * 8 + d.val)] else s.upstream } := by
    have hcounts : (x.state ≠ .offline ∧ 3 ≤ x.timeouts + 1) ↔ (counts ∧ 3 ≤ x.timeouts + 1) :=
      and_congr_left fun _ => ⟨fun ho => ⟨hp, ho⟩, fun hc => hc.2⟩
    rw [hmissed hp, ← if_congr hcounts rfl rfl]
    exact State.missTerm_eq (s.countMiss l) t
  refine ⟨fun hs => ?_, fun sel hs => ?_, fun hp hs => ?_⟩
  · have hrun := hexec (by rw [hs]; rfl)
    by_cases hp : heard
    · rw [if_pos (hheard.2 hp)] at hrun
      refine hends hrun ?_
      rw [hs, ← hmiss hp]
      rfl
    · have hstay : missed = x := if_neg fun e => hp e.1
      rw [if_neg fun e => hp (hheard.1 e)] at hrun
      rw [hstay]
      exact hends hrun (hdeaf hp)
  · have hrun := hexec (by rw [hs]; rfl)
    by_cases hp : heard
    · have hback : missed.restored sel.carried = back sel.carried := by
        have hwatch : missed.watch = x.watch := (congrArg Terminal.watch (hmissed hp)).trans x.missed_watch
        rcases sel.carried with _ | ⟨n, fs, owed⟩ | _
        · rfl
        · change { missed with watch := addPending missed.watch n fs, lengthOwed := missed.lengthOwed || owed } = _
          rw [hwatch]
          rfl
        · rfl
      rw [if_pos (hheard.2 hp)] at hrun
      refine hends hrun ?_
      rw [if_pos hp, hs, ← hback, hmiss hp]
      have hput (w : State) (hw : w.terminals[t] = missed) :
          w.restoreMissed t (.selectWait sel 0) = w.setTerm t (missed.restored sel.carried) := by
        rw [← hw]
        rfl
      refine (hput _ ?_).trans (State.setTerm_port (s.countMiss l) t missed (missed.restored sel.carried) _)
      exact State.setTerm_terminal (s.countMiss l) t missed
    · rw [if_neg fun e => hp (hheard.1 e)] at hrun
      rw [if_neg hp]
      exact hends hrun (hdeaf hp)
  · have hdue : stage.due = false := by
      rcases stage with _ | left | _ | ⟨sel, left⟩
      · rfl
      · rcases left with _ | left
        · exact absurd rfl hp
        · rfl
      · rfl
      · rcases left with _ | left
        · exact absurd rfl (hs sel)
        · rfl
    change execTerminalAnswerWaitExpiry l s = _
    rw [execTerminalAnswerWaitExpiry, h]
    dsimp only
    rw [if_neg (by rw [hdue]; decide)]

end Sys2Proof.Machine
end

