-- ==== Sys2Proof/Proofs/Returns.lean ====
section
/-! PROOFS. Answers of terminals that are not ONLINE: one that returns is taken as ONLINE, one of a DISABLED terminal
is not heard (R131, R134). -/

namespace Sys2Proof.Machine

/-- The requests of a terminal on a line (R139). -/
def RequestOn (l : LineNo) (c : Instr) : Prop :=
  (∃ f, c = .quoteRequest l f ∨ c = .watchAdd l f ∨ c = .watchDrop l f)
    ∨ (∃ k f e n v, c = .alertSet l k f e n v) ∨ (∃ k, c = .alertClear l k) ∨ ∃ q, c = .requestBadOperation l q

/-- Every request is one run of the model's `request`. -/
theorem RequestOn.run {l : LineNo} {c : Instr} (h : RequestOn l c) :
    ∃ run : TermNo → State → Answered, ∀ s, exec c s = .next (s.request l run) := by
  rcases h with ⟨f, rfl | rfl | rfl⟩ | ⟨k, f, e, n, v, rfl⟩ | ⟨k, rfl⟩ | ⟨q, rfl⟩ <;> exact ⟨_, fun _ => rfl⟩

theorem RequestOn.ne {l : LineNo} {c : Instr} (h : RequestOn l c) :
    c ≠ .nothing l ∧ c ≠ .received l ∧ c ≠ .busy l := by
  rcases h with ⟨f, rfl | rfl | rfl⟩ | ⟨k, f, e, n, v, rfl⟩ | ⟨k, rfl⟩ | ⟨q, rfl⟩ <;> exact ⟨nofun, nofun, nofun⟩

/-! ### A request -/

/-- A request taken or put off, its terminal heard (R136, R137). -/
def State.answerRequest (s : State) (l : LineNo) (x : Transaction) (run : TermNo → State → Answered) : State :=
  let t := termOf l x.drop
  if (s.terminals[t]).queue.length < 8 then (s.runRequest l t (run t)).beginSelect l x else (s.retry l).beginSelect l x

section
variable {s : State} {l : LineNo} {d : DropNo} {left : Nat} {cut : Bool}

theorem State.request_heard (h : (s.termLines[l]).inFlight = some ⟨d, .pollWait left, cut⟩)
    (hh : s.heard l ⟨d, .pollWait left, cut⟩ = true) (run : TermNo → State → Answered) :
    s.request l run = (s.answerTaken (termOf l d)).answerRequest l ⟨d, .pollWait left, cut⟩ run := by
  rw [request, TermLine.pollAwaited_wait h]
  exact if_pos hh

theorem State.request_unheard (h : (s.termLines[l]).inFlight = some ⟨d, .pollWait left, cut⟩)
    (hh : ¬ s.heard l ⟨d, .pollWait left, cut⟩ = true) (run : TermNo → State → Answered) :
    s.request l run = (s.retry l).endTransaction l := by
  rw [request, TermLine.pollAwaited_wait h]
  exact if_neg hh

theorem exec_nothing (h : (s.termLines[l]).inFlight = some ⟨d, .pollWait left, cut⟩) :
    exec (.nothing l) s = .next (if s.heard l ⟨d, .pollWait left, cut⟩ then
      (s.answerTaken (termOf l d)).beginSelect l ⟨d, .pollWait left, cut⟩ else s.endTransaction l) := by
  change execNothing l s = _
  rw [execNothing, TermLine.pollAwaited_wait h]
  dsimp only
  split <;> rfl

theorem exec_received {sel : Select} (h : (s.termLines[l]).inFlight = some ⟨d, .selectWait sel left, cut⟩) :
    exec (.received l) s = .next (if s.heard l ⟨d, .selectWait sel left, cut⟩ then
      (s.receivedAt (termOf l d) sel.carried).endTransaction l else s.endTransaction l) := by
  change execReceived l s = _
  rw [execReceived, TermLine.selectAwaited_wait h]
  dsimp only
  split <;> rfl

/-- A BUSY taken from a terminal: what was sent is put back (R138). -/
def State.busyAt (s : State) (t : TermNo) (c : Carried) : State :=
  (s.answerTaken t).setTerm t (((s.answerTaken t).terminals[t]).restored c)

theorem exec_busy {sel : Select} (h : (s.termLines[l]).inFlight = some ⟨d, .selectWait sel left, cut⟩) :
    exec (.busy l) s = .next (if s.heard l ⟨d, .selectWait sel left, cut⟩ then
      ((s.countBusy l).busyAt (termOf l d) sel.carried).endTransaction l else (s.countBusy l).endTransaction l) := by
  change execBusy l s = _
  rw [execBusy, TermLine.selectAwaited_wait h]
  dsimp only
  split <;> rfl

end

/-! ### A terminal that returns -/

/-- A terminal that returns: ONLINE, its list fully pending, its length owed, before the feed status is offered (R134). -/
def Terminal.returned (x : Terminal) : Terminal :=
  { x with timeouts := 0, state := .online, watch := allPending x.watch, lengthOwed := true }

theorem State.answerTaken_terminal {s : State} {t : TermNo} (h : (s.terminals[t]).state ≠ .online) (y : TermNo) :
    (s.answerTaken t).terminals[y] = if y = t
      then (s.terminals[t]).returned.offerFeed s.feed.feedState (s.headCarried t) else s.terminals[y] := by
  rw [State.answerTaken_returns h, State.offerFeed, State.setTerm_term]
  split
  · exact congrArg (fun x => Terminal.offerFeed x s.feed.feedState (s.headCarried t)) (State.setTerm_terminal s t _)
  · exact State.setTerm_others s t _ ‹_›

theorem Terminal.offerFeed_state (x : Terminal) (f : FeedState) (carried : Bool) :
    (x.offerFeed f carried).state = x.state ∧ (x.offerFeed f carried).timeouts = x.timeouts := by
  rcases x.offerFeed_cases f carried with ⟨q, -, e⟩ | ⟨-, -, e⟩ | ⟨-, -, e⟩ <;> rw [e] <;> exact ⟨rfl, rfl⟩

/-- A second answer taken from a terminal changes nothing more. -/
theorem State.answerTaken_twice (s : State) (t : TermNo) : (s.answerTaken t).answerTaken t = s.answerTaken t := by
  have hself : ((s.answerTaken t).terminals[t]).state = .online ∧ ((s.answerTaken t).terminals[t]).timeouts = 0 := by
    by_cases h : (s.terminals[t]).state = .online
    · rw [State.answerTaken_online h, State.setTerm_terminal]
      exact ⟨h, rfl⟩
    · rw [State.answerTaken_terminal h, if_pos rfl, (Terminal.offerFeed_state _ _ _).1, (Terminal.offerFeed_state _ _ _).2]
      exact ⟨rfl, rfl⟩
  rw [State.answerTaken_online hself.1]
  conv_rhs => rw [← State.setTerm_self (s.answerTaken t) t]
  refine congrArg (State.setTerm _ t) ?_
  generalize (s.answerTaken t).terminals[t] = x at hself ⊢
  rw [← hself.2]

theorem State.receivedAt_answerTaken (s : State) (t : TermNo) (c : Carried) :
    (s.answerTaken t).receivedAt t c = s.receivedAt t c := by
  unfold receivedAt
  rw [State.answerTaken_twice]

/-- A counter of the line and an answer taken do not touch each other. -/
theorem State.answerTaken_countBusy (s : State) (l : LineNo) (t : TermNo) :
    (s.countBusy l).answerTaken t = (s.answerTaken t).countBusy l := by
  have hcarried : (s.countBusy l).headCarried t = s.headCarried t := by
    have hline : ((s.countBusy l).termLines[termLine t]).inFlight = (s.termLines[termLine t]).inFlight := by
      rw [countBusy, State.countLine_line]
      split
      · rename_i h
        subst h
        rfl
      · rfl
    rw [headCarried, headCarried, hline]
  by_cases h : (s.terminals[t]).state = .online
  · rw [State.answerTaken_online h, State.answerTaken_online (s := s.countBusy l) h]
    rfl
  · have hreturns (u : State) (hu : (u.terminals[t]).state ≠ .online) : u.answerTaken t =
        let w := (u.setTerm t (u.terminals[t]).returned).raise 0x08 [BitVec.ofNat 8 t.val]
        w.setTerm t (w.terminals[t].offerFeed u.feed.feedState (u.headCarried t)) := State.answerTaken_returns hu
    rw [hreturns s h, hreturns (s.countBusy l) h, hcarried]
    rfl

/-- The answers that a transaction in flight awaits (R133, R138). -/
def Awaited (l : LineNo) (stage : Stage) (c : Instr) : Prop :=
  ((∃ left, stage = .pollWait left) ∧ (c = .nothing l ∨ RequestOn l c))
    ∨ ((∃ sel left, stage = .selectWait sel left) ∧ (c = .received l ∨ c = .busy l))

section
variable {s : State} {l : LineNo} {d : DropNo} {stage : Stage} {cut : Bool} {c : Instr}

/-- An awaited answer that is heard works on the card as the answer taken leaves it (R134). -/
theorem Awaited.heard (h : (s.termLines[l]).inFlight = some ⟨d, stage, cut⟩) (hc : Awaited l stage c)
    (hh : s.heard l ⟨d, stage, cut⟩ = true) (hu : (s.answerTaken (termOf l d)).heard l ⟨d, stage, cut⟩ = true) :
    exec c s = exec c (s.answerTaken (termOf l d)) := by
  have htwice := s.answerTaken_twice (termOf l d)
  have hbusy := s.answerTaken_countBusy l (termOf l d)
  have hbusy' := (s.answerTaken (termOf l d)).answerTaken_countBusy l (termOf l d)
  have hline : ((s.answerTaken (termOf l d)).termLines[l]).inFlight = some ⟨d, stage, cut⟩ := by
    rw [State.answerTaken_frame]
    exact h
  rw [htwice] at hbusy'
  rcases hc with ⟨⟨left, rfl⟩, rfl | hr⟩ | ⟨⟨sel, left, rfl⟩, rfl | rfl⟩
  · rw [exec_nothing h, exec_nothing hline, if_pos hh, if_pos hu, htwice]
  · obtain ⟨run, hrun⟩ := hr.run
    rw [hrun, hrun, State.request_heard h hh, State.request_heard hline hu, htwice]
  · rw [exec_received h, exec_received hline, if_pos hh, if_pos hu, State.receivedAt_answerTaken]
  · rw [exec_busy h, exec_busy hline, if_pos hh, if_pos hu, State.busyAt, State.busyAt, hbusy, hbusy']

/-- An awaited answer that is not heard ends the transaction, with the line's own count (R131). -/
theorem Awaited.unheard (h : (s.termLines[l]).inFlight = some ⟨d, stage, cut⟩) (hc : Awaited l stage c)
    (hh : ¬ s.heard l ⟨d, stage, cut⟩ = true) :
    (RequestOn l c → exec c s = .next ((s.retry l).endTransaction l))
      ∧ (c = .busy l → exec c s = .next ((s.countBusy l).endTransaction l))
      ∧ (c = .nothing l ∨ c = .received l → exec c s = .next (s.endTransaction l)) := by
  rcases hc with ⟨⟨left, rfl⟩, rfl | hr⟩ | ⟨⟨sel, left, rfl⟩, rfl | rfl⟩
  · rw [exec_nothing h, if_neg hh]
    exact ⟨fun hr => absurd rfl hr.ne.1, nofun, fun _ => rfl⟩
  · obtain ⟨run, hrun⟩ := hr.run
    rw [hrun, State.request_unheard h hh]
    exact ⟨fun _ => rfl, fun e => absurd e hr.ne.2.2, fun e => absurd e (not_or.2 ⟨hr.ne.1, hr.ne.2.1⟩)⟩
  · rw [exec_received h, if_neg hh]
    exact ⟨fun hr => absurd rfl hr.ne.2.1, nofun, fun _ => rfl⟩
  · rw [exec_busy h, if_neg hh]
    exact ⟨fun hr => absurd rfl hr.ne.2.2, fun _ => rfl, fun e => absurd e (by simp)⟩

end

/-- Settles O44: a terminal that is heard first returns, and one that is not leaves the line alone to go on. -/
theorem otherTerminalsAnswer : Obligations.OtherTerminalsAnswer := by
  intro s l d stage cut h t x request awaited
  refine ⟨fun hcut hx => ?_, fun hx c hc => ?_⟩
  · subst hcut
    have hon : x.state ≠ .online := by rcases hx with e | e <;> rw [e] <;> decide
    have hdis : x.state ≠ .disabled := by rcases hx with e | e <;> rw [e] <;> decide
    have hterm := State.answerTaken_terminal (s := s) (t := t) hon
    refine ⟨s.answerTaken t, s.answerTaken_frame t, ?_, ?_, fun y hy => (hterm y).trans (if_neg hy), fun c hc => ?_⟩
    · rw [State.answerTaken_returns hon]
      rfl
    · rw [hterm t, if_pos rfl]
      exact s.feedOffered t _ _
    · refine Awaited.heard h hc ((s.heard_iff l _).2 ⟨hdis, rfl⟩) ((State.heard_iff _ l _).2 ⟨?_, rfl⟩)
      have hself := (hterm t).trans (if_pos rfl)
      dsimp only
      rw [hself, (Terminal.offerFeed_state _ _ _).1]
      exact (nofun : TerminalState.online ≠ .disabled)
  · have hunheard := Awaited.unheard h hc fun e => by
      obtain ⟨h1, h2⟩ := (s.heard_iff l _).1 e
      rcases hx with hx | hx
      · exact h1 hx
      · exact Bool.false_ne_true (h2.symm.trans hx)
    obtain ⟨hrequest, hbusy, hother⟩ := hunheard
    have hends {y : TermLine} {v : State} (hself : v.termLines[l] = y) (hframe : v = { s with termLines := v.termLines })
        (hlines : ∀ k : LineNo, k ≠ l → v.termLines[k] = s.termLines[k]) :
        v.endTransaction l = { s with termLines := (v.endTransaction l).termLines }
          ∧ (∀ k : LineNo, k ≠ l → (v.endTransaction l).termLines[k] = s.termLines[k])
          ∧ State.Polls y (v.endTransaction l) l := by
      obtain ⟨hpolls, hv, hothers⟩ := v.endTransaction_ended l
      rw [hself] at hpolls
      exact ⟨hv.trans (by rw [hframe]), fun k hk => (hothers k hk).trans (hlines k hk), hpolls⟩
    have hcount (f : TermLine → TermLine) := hends ((s.countLine_line l l f).trans (if_pos rfl)) rfl
      fun k hk => (s.countLine_line l k f).trans (if_neg hk)
    have hne (hr : request c) := RequestOn.ne (l := l) (c := c) hr
    rcases hc with ⟨-, hc | hc⟩ | ⟨-, hc | hc⟩
    · obtain ⟨hframe, hlines, hpolls⟩ := hends rfl (v := s) rfl fun k _ => rfl
      exact ⟨_, hother (.inl hc), hframe, hlines, fun hr => absurd hc (hne hr).1, fun e => absurd (hc.symm.trans e) nofun,
        fun _ => hpolls⟩
    · obtain ⟨hframe, hlines, hpolls⟩ := hcount fun x => { x with retries := satInc x.retries, lastAck := some 0x15 }
      exact ⟨_, hrequest hc, hframe, hlines, fun _ => hpolls, fun e => absurd e (hne hc).2.2,
        fun e => absurd e (not_or.2 ⟨(hne hc).1, (hne hc).2.1⟩)⟩
    · obtain ⟨hframe, hlines, hpolls⟩ := hends rfl (v := s) rfl fun k _ => rfl
      exact ⟨_, hother (.inr hc), hframe, hlines, fun hr => absurd hc (hne hr).2.1, fun e => absurd (hc.symm.trans e) nofun,
        fun _ => hpolls⟩
    · obtain ⟨hframe, hlines, hpolls⟩ := hcount fun x => { x with busies := satInc x.busies }
      exact ⟨_, hbusy hc, hframe, hlines, fun hr => absurd hc (hne hr).2.2, fun _ => hpolls,
        fun e => e.elim (fun e => absurd (hc.symm.trans e) nofun) fun e => absurd (hc.symm.trans e) nofun⟩

end Sys2Proof.Machine
end

