-- ==== Sys2Proof/Proofs/Alerting.lean ====
section
/-! PROOFS. A change notice at the alert slots of its issue, slot after slot (R156 to R159). -/

namespace Sys2Proof.Machine

/-! ### One terminal's slots -/

/-- The slots of a list that fire at a notice of issue n, whose record is r. -/
def firing (n : Nat) (r : IssueRecord) (slots : Vector AlertSlot 8) (ks : List SlotNo) : List (SlotNo × AlertSetting) :=
  ks.filterMap fun k => (slots[k]).bind fun a =>
    if a.issue = n ∧ a.holds r = true ∧ a.fired = false then some (k, a) else none

/-- How many messages a terminal's queue still takes (R143). -/
def Terminal.openPlaces (y : Terminal) : Nat := if y.state = .disabled then 0 else 8 - y.queue.length

/-- A slot after a notice; `owes` is whether its message has found no place. -/
def AlertSetting.noticed (a : AlertSetting) (n : Nat) (r : IssueRecord) (owes : Bool) : AlertSetting :=
  if a.issue ≠ n then a
  else if a.holds r = false then { a with fired := false, owed := false }
  else if a.fired = true then a
  else { a with fired := true, owed := owes }

/-- A terminal and its slots before and after a notice has come to the slots of a list. -/
structure Alerted (n : Nat) (r : IssueRecord) (clock : BitVec 32) (ks : List SlotNo) (y z : Terminal)
    (slots new : Vector AlertSlot 8) : Prop where
  terminal : z = { y with queue := y.queue ++
    ((firing n r slots ks).take y.openPlaces).map fun p => .alert (alertChars p.1 p.2 r clock) }
  slot : ∀ k : SlotNo, new[k] = if k ∈ ks then (slots[k]).map fun a =>
    a.noticed n r (decide (k ∉ ((firing n r slots ks).take y.openPlaces).map Prod.fst)) else slots[k]

theorem Terminal.openPlaces_push {y : Terminal} (h : y.takesOffer = true) (m : OutMessage) :
    y.openPlaces = (y.push m).openPlaces + 1 := by
  obtain ⟨hl, hs⟩ := y.takesOffer_iff.1 h
  rw [openPlaces, openPlaces, if_neg hs]
  refine (?_ : _ = (if y.state = .disabled then 0 else 8 - (y.queue ++ [m]).length) + 1)
  rw [if_neg hs, List.length_append, List.length_singleton]
  omega

theorem Terminal.openPlaces_full {y : Terminal} (h : y.takesOffer = false) : y.openPlaces = 0 := by
  rw [openPlaces]
  split
  · rfl
  · rename_i hs
    have hl : ¬ y.queue.length < 8 := fun hl => Bool.false_ne_true (h.symm.trans (y.takesOffer_iff.2 ⟨hl, hs⟩))
    omega

theorem firing_cons_quiet {n : Nat} {r : IssueRecord} {slots : Vector AlertSlot 8} {k : SlotNo} (ks : List SlotNo)
    (h : ∀ a, slots[k] = some a → ¬ (a.issue = n ∧ a.holds r = true ∧ a.fired = false)) :
    firing n r slots (k :: ks) = firing n r slots ks := by
  refine List.filterMap_cons_none ?_
  rcases ha : slots[k] with _ | a
  · rfl
  · exact if_neg (h a ha)

theorem firing_cons_fires {n : Nat} {r : IssueRecord} {slots : Vector AlertSlot 8} {k : SlotNo} {a : AlertSetting}
    (ks : List SlotNo) (ha : slots[k] = some a) (h : a.issue = n ∧ a.holds r = true ∧ a.fired = false) :
    firing n r slots (k :: ks) = (k, a) :: firing n r slots ks := by
  refine List.filterMap_cons_some ?_
  rw [ha]
  exact if_pos h

theorem firing_congr {n : Nat} {r : IssueRecord} {slots new : Vector AlertSlot 8} {ks : List SlotNo}
    (h : ∀ k ∈ ks, new[k] = slots[k]) : firing n r new ks = firing n r slots ks :=
  List.filterMap_congr fun k hk => by rw [h k hk]

theorem mem_of_firing {n : Nat} {r : IssueRecord} {slots : Vector AlertSlot 8} {ks : List SlotNo} {k : SlotNo} {m : Nat}
    (h : k ∈ ((firing n r slots ks).take m).map Prod.fst) : k ∈ ks := by
  obtain ⟨p, hp, rfl⟩ := List.mem_map.1 h
  obtain ⟨j, hj, hm⟩ := List.mem_filterMap.1 (List.mem_of_mem_take hp)
  obtain ⟨a, -, hif⟩ := Option.bind_eq_some_iff.1 hm
  split at hif
  · cases hif
    exact hj
  · cases hif

theorem AlertSetting.noticed_quiet {a : AlertSetting} {n : Nat} {r : IssueRecord}
    (h : ¬ (a.issue = n ∧ a.holds r = true ∧ a.fired = false)) (o p : Bool) : a.noticed n r o = a.noticed n r p := by
  unfold noticed
  split
  · rfl
  · split
    · rfl
    · split
      · rfl
      · rename_i hi hh hf
        exact absurd ⟨not_not.1 hi, Bool.not_eq_false _ ▸ hh, Bool.not_eq_true _ ▸ hf⟩ h

theorem AlertSetting.noticed_stays {a : AlertSetting} {n : Nat} {r : IssueRecord}
    (h : a.issue ≠ n ∨ a.holds r = true ∧ a.fired = true) (o : Bool) : a.noticed n r o = a := by
  unfold noticed
  split
  · rfl
  · obtain ⟨hh, hf⟩ := h.resolve_left ‹_›
    rw [if_neg (by rw [hh]; decide), if_pos hf]

theorem AlertSetting.noticed_fires {a : AlertSetting} {n : Nat} {r : IssueRecord}
    (h : a.issue = n ∧ a.holds r = true ∧ a.fired = false) (o : Bool) :
    a.noticed n r o = { a with fired := true, owed := o } := by
  obtain ⟨hi, hh, hf⟩ := h
  unfold noticed
  rw [if_neg (not_not.2 hi), if_neg (by rw [hh]; decide), if_neg (by rw [hf]; decide)]

/-! ### A slot of the card at a notice -/

theorem State.setAlert_self (s : State) (t : TermNo) (k : SlotNo) : s.setAlert t k (s.alerts[t])[k] = s := by
  simp [setAlert]

section
variable {s : State} {n : Nat} {r : IssueRecord} {t : TermNo} {k : SlotNo}

theorem State.noticeSlot_names {a : AlertSetting} (ha : (s.alerts[t])[k] = some a) (h : a.issue = n) :
    s.noticeSlot n (t, k) = s.evaluate t k := by
  refine if_pos ?_
  dsimp only
  rw [ha]
  exact beq_iff_eq.2 h

theorem State.noticeSlot_other (h : ∀ a, (s.alerts[t])[k] = some a → a.issue ≠ n) : s.noticeSlot n (t, k) = s := by
  refine if_neg ?_
  dsimp only
  rcases ha : (s.alerts[t])[k] with _ | a
  · exact Bool.false_ne_true
  · exact fun e => h a ha (beq_iff_eq.1 e)

/-- A slot that does not fire: changed at most to ARMED and owing nothing. -/
theorem State.noticeSlot_quiet (hr : findRecord s.issues.records n = some r)
    (h : ∀ a, (s.alerts[t])[k] = some a → ¬ (a.issue = n ∧ a.holds r = true ∧ a.fired = false)) :
    s.noticeSlot n (t, k) = s.setAlert t k (((s.alerts[t])[k]).map fun a => a.noticed n r false) := by
  have hstay (hmap : ((s.alerts[t])[k]).map (fun a => a.noticed n r false) = (s.alerts[t])[k]) :
      s = s.setAlert t k (((s.alerts[t])[k]).map fun a => a.noticed n r false) := by
    rw [hmap, State.setAlert_self]
  rcases ha : (s.alerts[t])[k] with _ | a
  · rw [ha] at hstay
    rw [State.noticeSlot_other fun a e => nomatch ha.symm.trans e]
    exact hstay rfl
  · rw [ha] at hstay
    by_cases hi : a.issue = n
    · obtain ⟨-, hfired, hfails⟩ := State.evaluate_slot ha (hi ▸ hr)
      rw [State.noticeSlot_names ha hi]
      by_cases hh : a.holds r = true
      · have hf : a.fired = true := by
          by_contra hf
          exact h a ha ⟨hi, hh, Bool.eq_false_iff.2 hf⟩
        rw [hfired hh hf]
        exact hstay (congrArg some (AlertSetting.noticed_stays (.inr ⟨hh, hf⟩) false))
      · have hh' : a.holds r = false := Bool.eq_false_iff.2 hh
        rw [hfails hh', Option.map_some, AlertSetting.noticed, if_neg (not_not.2 hi), if_pos hh']
    · rw [State.noticeSlot_other fun b e => by
        obtain rfl := Option.some.inj (ha.symm.trans e)
        exact hi]
      exact hstay (congrArg some (AlertSetting.noticed_stays (.inl hi) false))

theorem State.noticeSlot_fires (hr : findRecord s.issues.records n = some r) {a : AlertSetting}
    (ha : (s.alerts[t])[k] = some a) (h : a.issue = n ∧ a.holds r = true ∧ a.fired = false) :
    s.noticeSlot n (t, k) = s.fire t k a r := by
  obtain ⟨hi, hh, hf⟩ := h
  rw [State.noticeSlot_names ha hi]
  exact (State.evaluate_slot ha (hi ▸ hr)).1 hh hf

end

/-! ### The slots of a terminal, and of all terminals -/

section
variable {n : Nat} {r : IssueRecord} (t : TermNo)

theorem State.noticeTerminal_alerted {s : State} (hr : findRecord s.issues.records n = some r) {ks : List SlotNo}
    (hks : ks.Nodup) :
    let u := ks.foldl (fun s k => s.noticeSlot n (t, k)) s
    Alerted n r s.issues.clock ks s.terminals[t] u.terminals[t] s.alerts[t] u.alerts[t]
      ∧ (∀ v : TermNo, v ≠ t → u.terminals[v] = s.terminals[v] ∧ u.alerts[v] = s.alerts[v])
      ∧ u = { s with alerts := u.alerts, terminals := u.terminals } := by
  induction ks generalizing s with
  | nil => exact ⟨⟨by simp [firing], fun _ => rfl⟩, fun _ _ => ⟨rfl, rfl⟩, rfl⟩
  | cons k ks ih =>
    obtain ⟨hk, hks⟩ := List.nodup_cons.1 hks
    have hslot (v : AlertSlot) (u : State) (hu : u.alerts = (s.setAlert t k v).alerts) (j : SlotNo) :
        (u.alerts[t])[j] = if j = k then v else (s.alerts[t])[j] := by
      rw [hu, State.setAlert_slot]
      simp only [true_and]
    have hfiring (v : AlertSlot) (u : State) (hu : u.alerts = (s.setAlert t k v).alerts) :
        firing n r u.alerts[t] ks = firing n r s.alerts[t] ks := firing_congr fun j hj => by
      rw [hslot v u hu, if_neg]
      rintro rfl
      exact hk hj
    have hothers (v : AlertSlot) (u : State) (hu : u.alerts = (s.setAlert t k v).alerts) {w : TermNo} (hw : w ≠ t) :
        u.alerts[w] = s.alerts[w] := by
      rw [hu, setAlert_alerts, getElem_set_fin, if_neg hw]
    by_cases hf : ∃ a, (s.alerts[t])[k] = some a ∧ a.issue = n ∧ a.holds r = true ∧ a.fired = false
    · obtain ⟨a, ha, hfires⟩ := hf
      have hstep := State.noticeSlot_fires hr ha hfires
      have hcons := firing_cons_fires ks ha hfires
      rcases s.fire_cases t k a r with ⟨htakes, hfire⟩ | ⟨htakes, hfire⟩
      · obtain ⟨w, hw⟩ : ∃ w : State, w = (s.setAlert t k (some { a with fired := true, owed := false })).setTerm t
            ((s.terminals[t]).push (.alert (alertChars k a r s.issues.clock))) := ⟨_, rfl⟩
        have halerts : w.alerts = (s.setAlert t k (some { a with fired := true, owed := false })).alerts := by rw [hw]; rfl
        have hself : w.terminals[t] = (s.terminals[t]).push (.alert (alertChars k a r s.issues.clock)) := by
          rw [hw]
          exact State.setTerm_terminal _ _ _
        have hclock : w.issues = s.issues := by rw [hw]; rfl
        rw [List.foldl_cons, hstep, hfire, ← hw]
        obtain ⟨⟨hterm, hnew⟩, hrest, hframe⟩ := ih (s := w) (by rw [hclock]; exact hr) hks
        rw [hfiring _ _ halerts, hself, hclock] at hterm
        rw [hfiring _ _ halerts, hself] at hnew
        have hplaces := Terminal.openPlaces_push htakes (.alert (alertChars k a r s.issues.clock))
        refine ⟨⟨?_, fun j => ?_⟩, fun v hv => ?_, ?_⟩
        · rw [hterm, hcons, hplaces, List.take_succ_cons, List.map_cons, Terminal.push, List.append_assoc,
            List.singleton_append]
        · rw [hnew j, hslot _ _ halerts, hcons, hplaces, List.take_succ_cons, List.map_cons]
          by_cases hj : j = k
          · subst hj
            rw [if_neg hk, if_pos rfl, if_pos List.mem_cons_self, ha, Option.map_some, AlertSetting.noticed_fires hfires]
            simp only [List.mem_cons_self, not_true_eq_false, decide_false]
          · simp only [hj, if_false, List.mem_cons, false_or]
        · rw [(hrest v hv).1, (hrest v hv).2, hothers _ _ halerts hv]
          refine ⟨?_, rfl⟩
          rw [hw]
          exact State.setTerm_others _ t _ hv
        · rw [hframe, hw]
          rfl
      · have hplaces := Terminal.openPlaces_full htakes
        rw [List.foldl_cons, hstep, hfire]
        obtain ⟨⟨hterm, hnew⟩, hrest, hframe⟩ := ih (s := s.setAlert t k (some { a with fired := true, owed := true })) hr hks
        rw [hfiring _ _ rfl] at hterm hnew
        refine ⟨⟨?_, fun j => ?_⟩, fun v hv => ?_, hframe⟩
        · rw [setAlert_terminals, hplaces, List.take_zero] at hterm
          rw [hplaces, List.take_zero]
          exact hterm
        · rw [hnew j, hslot _ _ rfl]
          rw [setAlert_terminals, hplaces, List.take_zero, List.take_zero]
          by_cases hj : j = k
          · subst hj
            rw [if_neg hk, if_pos rfl, if_pos List.mem_cons_self, ha, Option.map_some, AlertSetting.noticed_fires hfires]
            simp only [List.map_nil, List.not_mem_nil, not_false_eq_true, decide_true]
          · simp only [hj, if_false, List.mem_cons, false_or]
        · rw [(hrest v hv).1, (hrest v hv).2, hothers _ _ rfl hv]
          exact ⟨rfl, rfl⟩
    · have hquiet (a : AlertSetting) (ha : (s.alerts[t])[k] = some a) :
          ¬ (a.issue = n ∧ a.holds r = true ∧ a.fired = false) := fun h => hf ⟨a, ha, h⟩
      have hstep := State.noticeSlot_quiet hr hquiet
      rw [List.foldl_cons, hstep]
      obtain ⟨⟨hterm, hnew⟩, hrest, hframe⟩ := ih (s := s.setAlert t k (((s.alerts[t])[k]).map fun a =>
        a.noticed n r false)) hr hks
      rw [hfiring _ _ rfl] at hterm hnew
      refine ⟨⟨?_, fun j => ?_⟩, fun v hv => ?_, hframe⟩
      · rw [firing_cons_quiet ks hquiet]
        exact hterm
      · rw [firing_cons_quiet ks hquiet, hnew j, hslot _ _ rfl]
        by_cases hj : j = k
        · subst hj
          rw [if_neg hk, if_pos rfl, if_pos List.mem_cons_self]
          exact Option.map_congr fun a ha => AlertSetting.noticed_quiet (hquiet a ha) _ _
        · simp only [hj, if_false, List.mem_cons, false_or]
          rfl
      · rw [(hrest v hv).1, (hrest v hv).2, hothers _ _ rfl hv]
        exact ⟨rfl, rfl⟩

end

/-- The slots of several terminals, one terminal after another. -/
theorem State.noticeTerminals_alerted {s : State} {n : Nat} {r : IssueRecord}
    (hr : findRecord s.issues.records n = some r) {ts : List TermNo} (hts : ts.Nodup) :
    let u := ts.foldl (fun s t => (List.finRange 8).foldl (fun s k => s.noticeSlot n (t, k)) s) s
    (∀ x ∈ ts, Alerted n r s.issues.clock (List.finRange 8) s.terminals[x] u.terminals[x] s.alerts[x] u.alerts[x])
      ∧ (∀ x ∉ ts, u.terminals[x] = s.terminals[x] ∧ u.alerts[x] = s.alerts[x])
      ∧ u = { s with alerts := u.alerts, terminals := u.terminals } := by
  induction ts generalizing s with
  | nil => exact ⟨fun x hx => (nomatch hx), fun _ _ => ⟨rfl, rfl⟩, rfl⟩
  | cons t ts ih =>
    obtain ⟨ht, hts⟩ := List.nodup_cons.1 hts
    obtain ⟨hself, hothers, hframe⟩ := State.noticeTerminal_alerted t hr (List.nodup_finRange 8)
    rw [List.foldl_cons]
    generalize (List.finRange 8).foldl (fun s k => s.noticeSlot n (t, k)) s = w at *
    have hissues : w.issues = s.issues := by rw [hframe]
    obtain ⟨hin, hout, hrest⟩ := ih (s := w) (by rw [hissues]; exact hr) hts
    rw [hissues] at hin
    refine ⟨fun x hx => ?_, fun x hx => ?_, ?_⟩
    · by_cases hxt : x = t
      · subst hxt
        rw [(hout x ht).1, (hout x ht).2]
        exact hself
      · have hmem := hin x ((List.mem_cons.1 hx).resolve_left hxt)
        rw [(hothers x hxt).1, (hothers x hxt).2] at hmem
        exact hmem
    · obtain ⟨hxt, hxs⟩ := not_or.1 fun e => hx (List.mem_cons.2 e)
      rw [(hout x hxs).1, (hout x hxs).2]
      exact hothers x hxt
    · rw [hrest, hframe]

/-- A condition tested against a record, as the rules write it (R156). -/
theorem conditionTrue_iff (c : Condition) (limit : Int) (r : IssueRecord) :
    conditionTrue c limit r = true ↔ match c with
      | .lastAbove => r.traded = true ∧ limit < r.last
      | .lastBelow => r.traded = true ∧ r.last < limit
      | .changeAbove => r.traded = true ∧ limit < r.netChange
      | .changeBelow => r.traded = true ∧ r.netChange < limit
      | .uptick => r.tick = .up ∨ r.tick = .zeroUp
      | .atHigh => r.traded = true ∧ r.high = some r.last
      | .atLow => r.traded = true ∧ r.low = some r.last
      | .halted => r.halted = true := by
  cases c <;> simp [conditionTrue]

/-- Settles O48: the eight conditions, and every slot of the issue of a notice. -/
theorem alertNoticeEvaluates : Obligations.AlertNoticeEvaluates := by
  refine ⟨fun a r => ⟨fun hn => ?_, fun hn => ?_⟩, fun s n rest r hq hr => ?_⟩
  · have hiff := conditionTrue_iff a.condition a.limit r
    rw [AlertSetting.holds, hn, Bool.bne_false]
    exact hiff
  · have hiff := conditionTrue_iff a.condition a.limit r
    rw [AlertSetting.holds, hn, Bool.bne_true, Bool.not_eq_true', ← Bool.not_eq_true]
    exact not_congr hiff
  · have hexec : exec .alertChangeNotice s = .next ((List.finRange 32).foldl
        (fun s t => (List.finRange 8).foldl (fun s k => s.noticeSlot n.issue (t, k)) s) { s with alertNotices := rest }) := by
      change execAlertChangeNotice s = _
      rw [execAlertChangeNotice, hq]
      dsimp only
      rw [allSlots, List.foldl_flatMap]
      simp only [List.foldl_map]
    obtain ⟨hin, -, hframe⟩ := State.noticeTerminals_alerted (s := { s with alertNotices := rest }) hr
      (List.nodup_finRange 32)
    generalize List.foldl _ _ (List.finRange 32) = t at *
    refine ⟨t, hexec, fun x => ?_, hframe⟩
    obtain ⟨hterm, hslot⟩ := hin x (List.mem_finRange x)
    refine ⟨hterm, fun k => ?_⟩
    rw [hslot k, if_pos (List.mem_finRange k)]
    rfl

end Sys2Proof.Machine
end

