-- ==== Sys2Proof/Proofs/Operands.lean ====
section
/-! PROOFS. Operands read from messages: symbol fields, yes or no, conditions and their limits, slots and terminals
(R22, R161, R197, R200). -/

namespace Sys2Proof.Machine

/-! ### Symbols -/

theorem takeWhile_isLetter_pad (n : Nat) : (List.replicate n (0x20 : Byte)).takeWhile isLetter = [] := by
  rw [List.takeWhile_replicate]
  exact if_neg (by decide)

/-- A field holds a symbol exactly when it is the symbol's letters padded with 20h to four characters (R197). -/
theorem symbolOf_iff (field symbol : Text) :
    symbolOf field = some symbol ↔
      SymbolOk symbol ∧ field = symbol ++ List.replicate (4 - symbol.length) 0x20 := by
  refine ⟨fun h => ⟨symbolOk_of_symbolOf h, ?_⟩, fun ⟨⟨hmin, hmax, hletters⟩, hfield⟩ => ?_⟩
  · simp only [symbolOf] at h
    split at h
    · rename_i hf
      obtain ⟨hlen, -, hrest⟩ := hf
      obtain rfl := Option.some.inj h
      have hpad : field.drop (field.takeWhile isLetter).length =
          List.replicate (field.drop (field.takeWhile isLetter).length).length 0x20 :=
        List.eq_replicate_of_mem fun c hc => beq_iff_eq.1 (List.all_eq_true.1 hrest c hc)
      rw [List.length_drop, hlen] at hpad
      rw [← hpad]
      have htake : field.takeWhile isLetter = field.take (field.takeWhile isLetter).length :=
        (List.prefix_iff_eq_take).1 (List.takeWhile_prefix _)
      conv_lhs => rw [← List.take_append_drop (field.takeWhile isLetter).length field, ← htake]
    · cases h
  · have hwhile : field.takeWhile isLetter = symbol := by
      rw [hfield, List.takeWhile_append_of_pos (List.all_eq_true.1 hletters), takeWhile_isLetter_pad, List.append_nil]
    have hdrop : field.drop symbol.length = List.replicate (4 - symbol.length) 0x20 := by
      rw [hfield, List.drop_left]
    simp only [symbolOf, hwhile, hdrop]
    refine if_pos ⟨?_, List.length_pos_iff.1 hmin, ?_⟩
    · rw [hfield, List.length_append, List.length_replicate]
      omega
    · exact List.all_eq_true.2 fun c hc => beq_iff_eq.2 (List.eq_of_mem_replicate hc)

theorem findSymbol_mem {records : Records} {symbol : Text} {n : Nat} (h : findSymbol records symbol = some n) :
    ∃ p ∈ records, p.1 = n ∧ p.2.symbol = symbol := by
  induction records with
  | nil => cases h
  | cons p rs ih =>
    rw [findSymbol] at h
    split at h
    · exact ⟨p, List.mem_cons_self, Option.some.inj h, ‹_›⟩
    · obtain ⟨q, hq, hn, hs⟩ := ih h
      exact ⟨q, List.mem_cons_of_mem _ hq, hn, hs⟩

theorem findSymbol_none {records : Records} {symbol : Text} (h : findSymbol records symbol = none) :
    ∀ p ∈ records, p.2.symbol ≠ symbol := by
  induction records with
  | nil => exact fun p hp => (nomatch hp)
  | cons p rs ih =>
    rw [findSymbol] at h
    split at h
    · cases h
    · intro q hq
      rcases List.mem_cons.1 hq with rfl | hq
      · assumption
      · exact ih h q hq

theorem findSymbol_unique {records : Records} (h : (records.map fun p => p.2.symbol).Nodup) {p : Nat × IssueRecord}
    (hp : p ∈ records) : findSymbol records p.2.symbol = some p.1 := by
  induction records with
  | nil => cases hp
  | cons q rs ih =>
    obtain ⟨hq, hrs⟩ := List.nodup_cons.1 h
    rw [findSymbol]
    rcases List.mem_cons.1 hp with rfl | hp
    · exact if_pos rfl
    · rw [if_neg fun e => hq (List.mem_map.2 ⟨p, hp, e.symm⟩)]
      exact ih hrs hp

/-! ### Flags, conditions and slots -/

theorem yesNo_eq_none {c : Byte} (h : 1 < c.toNat) : yesNo c = none := by
  rw [yesNo, if_neg, if_neg]
  · rintro rfl
    exact absurd h (by decide)
  · rintro rfl
    exact absurd h (by decide)

theorem yesNo_isSome {c : Byte} (h : ¬ 1 < c.toNat) : (yesNo c).isSome = true := by
  rcases (by omega : c.toNat = 0 ∨ c.toNat = 1) with e | e
  · rw [show c = 0 from BitVec.eq_of_toNat_eq e]
    rfl
  · rw [show c = 1 from BitVec.eq_of_toNat_eq e]
    rfl

theorem slotOf_eq {slot : Byte} {k : SlotNo} (h : slot.toNat = k.val) : slotOf slot = some k := by
  rw [slotOf, dif_pos (by omega)]
  exact congrArg some (Fin.ext h)

theorem slotOf_none {slot : Byte} (h : 7 < slot.toNat) : slotOf slot = none := dif_neg (by omega)

end Sys2Proof.Machine
end

