-- ==== Sys2Proof/Proofs/Requests.lean ====
section
/-! PROOFS. Requests of an ONLINE terminal: taken with their reply, or put off with RETRY (R136 to R142, R161). -/

namespace Sys2Proof.Machine

/-! ### A request taken -/

/-- The card as a request of a terminal finds it: its count 0, and TAKEN sent (R134, R136). -/
def State.acked (u : State) (l : LineNo) (t : TermNo) : State :=
  (u.setTerm t { u.terminals[t] with timeouts := 0 }).takenAck l

/-- The card with a request's reply in the select that follows, `queue` being the messages behind it (R136). -/
def State.carrying (u : State) (l : LineNo) (d : DropNo) (reply : Text) (queue : List OutMessage) : State :=
  let t := termOf l d
  { u with
    terminals := u.terminals.set t { u.terminals[t] with timeouts := 0, queue := .reply reply :: queue }
    termLines := u.termLines.set l { u.termLines[l] with
      lastAck := some 0x06
      inFlight := some ⟨d, .selectSending ⟨.queued, selectChars d reply⟩, false⟩ } }

theorem State.setTermLine_again (s : State) (l : LineNo) (y : TermLine) (f : TermLine → TermLine) :
    (s.setTermLine l y).setTermLine l (f (s.setTermLine l y).termLines[l]) = s.setTermLine l (f y) := by
  rw [State.setTermLine_line, if_pos rfl, State.setTermLine_setTermLine]

theorem State.setAlert_setAlert (s : State) (t : TermNo) (k : SlotNo) (x y : AlertSlot) :
    (s.setAlert t k x).setAlert t k y = s.setAlert t k y := by
  simp [setAlert]

section
variable {s u v : State} {l : LineNo} {d : DropNo} {left : Nat} {run : TermNo → State → Answered} {reply : Text}

theorem State.beginSelect_head {m : OutMessage} {ms : List OutMessage}
    (h : (v.terminals[termOf l d]).queue = m :: ms) (st : Stage) :
    v.beginSelect l ⟨d, st, false⟩ = v.setTermLine l { v.termLines[l] with
      inFlight := some ⟨d, .selectSending ⟨.queued, selectChars d m.chars⟩, false⟩ } := by
  rw [State.beginSelect_carries (x := ⟨d, st, false⟩) (Terminal.select_queued h), State.setTerm_self]
  rfl

/-- A request of an ONLINE terminal whose queue has room (R136). -/
theorem State.request_taken (h : (s.termLines[l]).inFlight = some ⟨d, .pollWait left, false⟩)
    (hon : (s.terminals[termOf l d]).state = .online) (hroom : (s.terminals[termOf l d]).queue.length < 8) :
    s.request l run = ((s.setTerm (termOf l d) { s.terminals[termOf l d] with timeouts := 0 }).runRequest l (termOf l d)
      (run (termOf l d))).beginSelect l ⟨d, .pollWait left, false⟩ := by
  rw [State.request_heard h ((s.heard_iff l _).2 ⟨by dsimp only; rw [hon]; exact nofun, rfl⟩),
    State.answerTaken_online hon, State.answerRequest]
  refine if_pos ?_
  rw [State.setTerm_terminal]
  exact hroom

/-- A request of an ONLINE terminal whose queue is full (R136). -/
theorem State.request_full (h : (s.termLines[l]).inFlight = some ⟨d, .pollWait left, false⟩)
    (hon : (s.terminals[termOf l d]).state = .online) {m : OutMessage} {ms : List OutMessage}
    (hq : (s.terminals[termOf l d]).queue = m :: ms) (hfull : 8 ≤ (s.terminals[termOf l d]).queue.length) :
    s.request l run = { s with
      terminals := s.terminals.set (termOf l d) { s.terminals[termOf l d] with timeouts := 0 }
      termLines := s.termLines.set l { s.termLines[l] with
        retries := min ((s.termLines[l]).retries + 1) 65535
        lastAck := some 0x15
        inFlight := some ⟨d, .selectSending ⟨.queued, selectChars d m.chars⟩, false⟩ } } := by
  have hself := s.setTerm_terminal (termOf l d) { s.terminals[termOf l d] with timeouts := 0 }
  rw [State.request_heard h ((s.heard_iff l _).2 ⟨by dsimp only; rw [hon]; exact nofun, rfl⟩),
    State.answerTaken_online hon, State.answerRequest]
  refine (if_neg (by rw [hself]; exact not_lt.2 hfull)).trans ?_
  refine (State.beginSelect_head (m := m) (ms := ms) ?_ _).trans ?_
  · exact (congrArg Terminal.queue hself).trans hq
  exact State.setTermLine_again _ l _ fun y =>
    { y with inFlight := some ⟨d, .selectSending ⟨.queued, selectChars d m.chars⟩, false⟩ }

theorem State.runRequest_replies {t : TermNo} {f : State → Answered} {w : State}
    (h : f (s.takenAck l) = ⟨w, reply, none⟩) : s.runRequest l t f = w.pushReply t reply := by
  unfold runRequest
  rw [h]

theorem State.runRequest_evaluates {t : TermNo} {f : State → Answered} {w : State} {k : SlotNo}
    (h : f (s.takenAck l) = ⟨w, reply, some k⟩) : s.runRequest l t f = (w.pushReply t reply).evaluate t k := by
  unfold runRequest
  rw [h]

/-- The reply joins at the head of the queue (R136). -/
theorem State.acked_pushReply (u : State) (l : LineNo) (t : TermNo) (reply : Text) :
    (u.acked l t).pushReply t reply = (u.setTerm t { u.terminals[t] with
      timeouts := 0, queue := .reply reply :: (u.terminals[t]).queue }).takenAck l := by
  have hself := u.setTerm_terminal t { u.terminals[t] with timeouts := 0 }
  have hpush (x : Terminal) (hx : (u.acked l t).terminals[t] = x) : (u.acked l t).pushReply t reply =
      ((u.setTerm t { u.terminals[t] with timeouts := 0 }).setTerm t
        { x with queue := .reply reply :: x.queue }).takenAck l := by
    rw [← hx]
    rfl
  rw [hpush _ hself, State.setTerm_setTerm]

/-- The select that follows carries the reply (R137). -/
theorem State.replySelected {y : Terminal} {more : List OutMessage}
    (hy : y = { u.terminals[termOf l d] with timeouts := 0, queue := .reply reply :: more }) (st : Stage) :
    ((u.setTerm (termOf l d) y).takenAck l).beginSelect l ⟨d, st, false⟩ = u.carrying l d reply more := by
  have hself := u.setTerm_terminal (termOf l d) y
  subst hy
  refine (State.beginSelect_head (m := .reply reply) (ms := more) ?_ _).trans ?_
  · exact congrArg Terminal.queue hself
  exact State.setTermLine_again _ l _ fun y =>
    { y with inFlight := some ⟨d, .selectSending ⟨.queued, selectChars d reply⟩, false⟩ }

/-- A request whose run leaves no slot to evaluate: its reply is carried by the select that follows (R136). -/
theorem State.request_replied (h : (s.termLines[l]).inFlight = some ⟨d, .pollWait left, false⟩)
    (hon : (s.terminals[termOf l d]).state = .online) (hroom : (s.terminals[termOf l d]).queue.length < 8)
    (hrun : run (termOf l d) (s.acked l (termOf l d)) = ⟨u.acked l (termOf l d), reply, none⟩) :
    s.request l run = u.carrying l d reply (u.terminals[termOf l d]).queue := by
  rw [State.request_taken h hon hroom, State.runRequest_replies hrun, State.acked_pushReply]
  exact State.replySelected rfl _

/-- An ALERT SET taken: the slot it has set is evaluated once the reply has joined (R161). -/
theorem State.request_alerted (h : (s.termLines[l]).inFlight = some ⟨d, .pollWait left, false⟩)
    (hon : (s.terminals[termOf l d]).state = .online) (hroom : (s.terminals[termOf l d]).queue.length < 8) {k : SlotNo}
    {a : AlertSetting} {r : IssueRecord} (hrun : run (termOf l d) (s.acked l (termOf l d)) =
      ⟨(s.setAlert (termOf l d) k (some a)).acked l (termOf l d), reply, some k⟩)
    (hf : a.fired = false) (ho : a.owed = false) (hr : findRecord s.issues.records a.issue = some r) :
    let queue := (s.terminals[termOf l d]).queue
    let slotted (v : AlertSetting) : State := s.setAlert (termOf l d) k (some v)
    (a.holds r = false → s.request l run = (slotted a).carrying l d reply queue)
      ∧ (a.holds r = true → queue.length < 7 → s.request l run =
          (slotted { a with fired := true }).carrying l d reply (queue ++ [.alert (alertChars k a r s.issues.clock)]))
      ∧ (a.holds r = true → queue.length = 7 → s.request l run =
          (slotted { a with fired := true, owed := true }).carrying l d reply queue) := by
  intro queue slotted
  obtain ⟨y, hy⟩ : ∃ y : Terminal, y = { s.terminals[termOf l d] with timeouts := 0, queue := .reply reply :: queue } :=
    ⟨_, rfl⟩
  obtain ⟨w, hw⟩ : ∃ w : State, w = ((slotted a).setTerm (termOf l d) y).takenAck l := ⟨_, rfl⟩
  have hexec : s.request l run = (w.evaluate (termOf l d) k).beginSelect l ⟨d, .pollWait left, false⟩ := by
    rw [State.request_taken h hon hroom, State.runRequest_evaluates hrun, State.acked_pushReply, hw, hy]
    rfl
  have hterm : w.terminals[termOf l d] = y := by
    rw [hw]
    exact State.setTerm_terminal _ _ _
  have hslot : (w.alerts[termOf l d])[k] = some a := by
    rw [hw]
    exact (State.setAlert_slot s _ _ k k (some a)).trans (if_pos ⟨rfl, rfl⟩)
  obtain ⟨hfires, -, hstays⟩ := State.evaluate_slot (s := w) hslot (by rw [hw]; exact hr)
  have hset (v : AlertSetting) : w.setAlert (termOf l d) k (some v) =
      ((slotted v).setTerm (termOf l d) y).takenAck l := by
    have htwice : (slotted a).setAlert (termOf l d) k (some v) = slotted v := State.setAlert_setAlert _ _ _ _ _
    rw [hw, ← htwice]
    rfl
  have hplace : w.terminals[termOf l d].takesOffer = true ↔ queue.length < 7 := by
    rw [hterm, Terminal.takesOffer_iff, hy]
    simp only [List.length_cons, hon]
    exact ⟨fun e => by omega, fun e => ⟨by omega, nofun⟩⟩
  have hselect (v : AlertSetting) {z : Terminal} {more : List OutMessage}
      (hz : z = { s.terminals[termOf l d] with timeouts := 0, queue := .reply reply :: more }) :
      (((slotted v).setTerm (termOf l d) z).takenAck l).beginSelect l ⟨d, .pollWait left, false⟩ =
        (slotted v).carrying l d reply more := State.replySelected (u := slotted v) hz _
  refine ⟨fun hh => ?_, fun hh hq => ?_, fun hh hq => ?_⟩
  · have hsame : ({ a with fired := false, owed := false } : AlertSetting) = a :=
      (congrArg₂ (fun f o => ({ a with fired := f, owed := o } : AlertSetting)) hf ho).symm
    rw [hexec, hstays hh, hsame, hset]
    exact hselect a hy
  · rw [hexec, hfires hh hf]
    rcases w.fire_cases (termOf l d) k a r with ⟨-, e⟩ | ⟨e, -⟩
    · have hpush (v : State) (m : OutMessage) : ((v.setTerm (termOf l d) y).takenAck l).setTerm (termOf l d) (y.push m) =
          (v.setTerm (termOf l d) (y.push m)).takenAck l :=
        congrArg (State.takenAck · l) (State.setTerm_setTerm v _ y (y.push m))
      have hclock : w.issues.clock = s.issues.clock := by rw [hw]; rfl
      rw [e, hset, hterm, hpush, hclock]
      refine (hselect _ (more := queue ++ [.alert (alertChars k a r s.issues.clock)]) ?_).trans ?_
      · rw [hy]
        rfl
      · rw [← ho]
    · exact absurd (hplace.2 hq) (by rw [e]; decide)
  · rw [hexec, hfires hh hf]
    rcases w.fire_cases (termOf l d) k a r with ⟨e, -⟩ | ⟨-, e⟩
    · exact absurd (hplace.1 e) (by omega)
    · rw [e, hset]
      exact hselect _ hy

end

/-! ### The runs of the requests -/

section
variable {s : State} {l : LineNo} {t : TermNo} {field : Text}

theorem State.acked_watchIssues (s : State) (l : LineNo) (t : TermNo) :
    (s.acked l t).watchIssues t = s.watchIssues t := by
  have hterm := s.setTerm_terminal t { s.terminals[t] with timeouts := 0 }
  have hissues := congrArg (fun x : Terminal => x.watch.map WatchEntry.issue) hterm
  exact hissues

theorem Terminal.rewatch_frame (x : Terminal) (new : List Nat) :
    x.rewatch new = { x with watch := (x.rewatch new).watch, lengthOwed := (x.rewatch new).lengthOwed } := by
  unfold rewatch
  dsimp only
  split <;> rfl

theorem State.rewatch_terminal (s : State) (t : TermNo) (new : List Nat) :
    (s.rewatch t new).terminals[t] = (s.terminals[t]).rewatch new := State.setTerm_terminal _ _ _

theorem State.acked_rewatch (s : State) (l : LineNo) (t : TermNo) (new : List Nat) :
    (s.acked l t).rewatch t new = (s.rewatch t new).acked l t := by
  have hterm : (s.acked l t).terminals[t] = { s.terminals[t] with timeouts := 0 } := s.setTerm_terminal t _
  have hcount : ({ s.terminals[t] with timeouts := 0 } : Terminal).rewatch new =
      { (s.terminals[t]).rewatch new with timeouts := 0 } := by
    unfold Terminal.rewatch
    dsimp only
    split <;> rfl
  have hput (v : State) (x y : Terminal) : ((v.setTerm t x).takenAck l).setTerm t y = (v.setTerm t y).takenAck l :=
    congrArg (State.takenAck · l) (State.setTerm_setTerm v t x y)
  have hleft : (s.acked l t).rewatch t new =
      (((s.setRecords (mapRecords (remask t ((s.acked l t).terminals[t].watch.map WatchEntry.issue) new)
        s.issues.records)).setTerm t { s.terminals[t] with timeouts := 0 }).takenAck l).setTerm t
          ((s.acked l t).terminals[t].rewatch new) := rfl
  have hright : (s.rewatch t new).acked l t =
      (((s.setRecords (mapRecords (remask t ((s.terminals[t]).watch.map WatchEntry.issue) new)
        s.issues.records)).setTerm t ((s.terminals[t]).rewatch new)).setTerm t
          { (s.rewatch t new).terminals[t] with timeouts := 0 }).takenAck l := rfl
  rw [hleft, hright, hput, hterm, hcount, State.setTerm_setTerm, State.rewatch_terminal]

theorem State.lookup_iff (s : State) (field : Text) (n : Nat) :
    s.lookup field = some n ↔ ∃ symbol, (SymbolOk symbol ∧ field = symbol ++ List.replicate (4 - symbol.length) 0x20)
      ∧ findSymbol s.issues.records symbol = some n := by
  rw [lookup]
  simp only [← symbolOf_iff]
  rcases symbolOf field with _ | symbol
  · simp
  · simp

theorem quoteRun_none (h : s.lookup field = none) : quoteRun field t s = ⟨s, [0x01, 0x01, 0x04], none⟩ := by
  rw [quoteRun, h]
  rfl

theorem quoteRun_some {n : Nat} {r : IssueRecord} (h : s.lookup field = some n)
    (hr : findRecord s.issues.records n = some r) :
    quoteRun field t s = ⟨s, [0x01, 0x01, 0x00] ++ recordView r, none⟩ := by
  rw [quoteRun, h, Option.bind_some, hr]
  rfl

theorem watchAddRun_none (h : s.lookup field = none) : watchAddRun field t s = ⟨s, [0x01, 0x02, 0x04], none⟩ := by
  rw [watchAddRun, h]
  rfl

theorem watchDropRun_none (h : s.lookup field = none) : watchDropRun field t s = ⟨s, [0x01, 0x03, 0x08], none⟩ := by
  rw [watchDropRun, h]
  rfl

theorem watchAddRun_some {n : Nat} (h : s.lookup field = some n) : watchAddRun field t s =
    ⟨(s.watchAppend t n).1, replyChars 0x02 (s.watchAppend t n).2 [], none⟩ := by
  rw [watchAddRun, h]

theorem watchDropRun_some {n : Nat} (h : s.lookup field = some n) : watchDropRun field t s =
    ⟨(s.watchRemove t n).1, replyChars 0x03 (s.watchRemove t n).2 [], none⟩ := by
  rw [watchDropRun, h]

/-! What becomes of an issue that joins a list, and of one that leaves it (R141, R142, R147). -/

theorem State.watchAppend_duplicate {n : Nat} (h : n ∈ s.watchIssues t) : s.watchAppend t n = (s, .duplicate) :=
  if_pos h

theorem State.watchAppend_full {n : Nat} (h : n ∉ s.watchIssues t) (hl : 24 ≤ (s.watchIssues t).length) :
    s.watchAppend t n = (s, .listFull) := (if_neg h).trans (if_neg (not_lt.2 hl))

theorem State.watchAppend_done {n : Nat} (h : n ∉ s.watchIssues t) (hl : (s.watchIssues t).length < 24) :
    s.watchAppend t n = (s.rewatch t (s.watchIssues t ++ [n]), .done) := (if_neg h).trans (if_pos hl)

theorem State.watchRemove_absent {n : Nat} (h : n ∉ s.watchIssues t) : s.watchRemove t n = (s, .notPresent) := if_neg h

theorem State.watchRemove_done {n : Nat} (h : n ∈ s.watchIssues t) :
    s.watchRemove t n = (s.rewatch t ((s.watchIssues t).erase n), .done) := if_pos h

/-! The checks of a slot's setting, in their order (R161, R162). -/

theorem State.setSlot_badFirst {slot cond neg : Byte} (limit : Int) (issue : Except Result Nat)
    (h : 7 < slot.toNat ∨ conditionOf cond = none ∨ 1 < neg.toNat) :
    s.setSlot t slot cond neg limit issue = .error .badOperand := by
  rw [setSlot]
  rcases h with h | h | h
  · rw [slotOf_none h]
  · rw [h]
    rcases slotOf slot with _ | k <;> rfl
  · rw [yesNo_eq_none h]
    rcases slotOf slot with _ | k
    · rfl
    · rcases conditionOf cond with _ | c <;> rfl

section
variable {slot cond neg : Byte} {limit : Int} {k : SlotNo} {c : Condition} {ng : Bool}

theorem State.setSlot_noIssue {e : Result} (hslot : ¬ (7 < slot.toNat ∨ conditionOf cond = none ∨ 1 < neg.toNat)) :
    s.setSlot t slot cond neg limit (.error e) = .error e := by
  obtain ⟨hk, hc, hn⟩ : ¬ 7 < slot.toNat ∧ conditionOf cond ≠ none ∧ ¬ 1 < neg.toNat := by simpa [not_or] using hslot
  obtain ⟨c, hc⟩ := Option.ne_none_iff_exists'.1 hc
  obtain ⟨ng, hn⟩ := Option.isSome_iff_exists.1 (yesNo_isSome hn)
  rw [setSlot, slotOf_eq (k := ⟨slot.toNat, by omega⟩) rfl, hc, hn]

theorem State.setSlot_issue {n : Nat} (hk : slot.toNat = k.val) (hc : conditionOf cond = some c)
    (hn : yesNo neg = some ng) :
    (limitOk c limit = false → s.setSlot t slot cond neg limit (.ok n) = .error .badOperand)
      ∧ (limitOk c limit = true → s.setSlot t slot cond neg limit (.ok n) =
          .ok (s.setAlert t k (some ⟨false, n, c, ng, limitTaken c limit, false⟩), k)) := by
  rw [setSlot, slotOf_eq hk, hc, hn]
  exact ⟨fun h => if_neg (by rw [h]; exact Bool.false_ne_true), fun h => if_pos h⟩

end

end

/-- Settles O45: a lookup finds the symbol of its field, and a request is taken with its reply or put off. -/
theorem requestsAnswered : Obligations.RequestsAnswered := by
  refine ⟨fun s field => ⟨fun n h => ?_, fun h p hp hnames => ?_, fun hnodup p hp hnames => ?_⟩,
    ?_⟩
  · obtain ⟨symbol, hsymbol, hfind⟩ := (s.lookup_iff field n).1 h
    obtain ⟨p, hp, hn, rfl⟩ := findSymbol_mem hfind
    exact ⟨p, hp, hn, hsymbol⟩
  · rw [State.lookup, (symbolOf_iff field p.2.symbol).2 hnames] at h
    exact findSymbol_none h p hp rfl
  · exact (s.lookup_iff field p.1).2 ⟨_, hnames, findSymbol_unique hnodup hp⟩
  intro s l d left h t x hon line replied full
  have hreply {c : Instr} {u : State} {run : TermNo → State → Answered} {reply : Text} (hroom : x.queue.length < 8)
      (hc : exec c s = .next (s.request l run)) (hq : (u.terminals[t]).queue = x.queue)
      (hl : u.termLines = s.termLines) (hrun : run t (s.acked l t) = ⟨u.acked l t, reply, none⟩) :
      replied c u reply [] := by
    refine hc.trans (congrArg Host.Outcome.next ((State.request_replied h hon hroom hrun).trans ?_))
    rw [State.carrying, hq, hl, List.append_nil]
  have hfull {c : Instr} {run : TermNo → State → Answered} (hc : exec c s = .next (s.request l run)) : full c :=
    fun m ms hq h8 => hc.trans (congrArg Host.Outcome.next (State.request_full h hon hq h8))
  refine ⟨fun field slot cond neg limit req => ⟨hfull rfl, hfull rfl, hfull rfl, hfull rfl, hfull rfl, hfull rfl⟩,
    fun hroom field => ⟨fun hn => ?_, fun n hn => ?_⟩, fun hroom slot k => ⟨fun hk => ?_, fun hk => ?_⟩,
    fun hroom slot cond neg field limit => ⟨fun hbad => ?_, fun hgood hn => ?_, fun k e ng n r hk he hg hn hr => ?_⟩,
    fun hroom kind rest => ?_, fun hroom => ?_⟩
  · exact ⟨hreply hroom rfl rfl rfl (quoteRun_none hn), hreply hroom rfl rfl rfl (watchAddRun_none hn),
      hreply hroom rfl rfl rfl (watchDropRun_none hn)⟩
  · have hadd := watchAddRun_some (s := s.acked l t) (t := t) hn
    have hdrop := watchDropRun_some (s := s.acked l t) (t := t) hn
    have hlist := s.acked_watchIssues l t
    have hkept (new : List Nat) : ((s.rewatch t new).terminals[t]).queue = x.queue := by
      rw [State.rewatch_terminal, Terminal.rewatch_frame]
    refine ⟨fun r hr => hreply hroom rfl rfl rfl (quoteRun_some hn hr), fun hw => hreply hroom rfl rfl rfl ?_,
      fun hw h24 => hreply hroom rfl rfl rfl ?_, fun hw h24 => hreply hroom rfl (hkept _) rfl ?_,
      fun hw => hreply hroom rfl rfl rfl ?_, fun hw => hreply hroom rfl (hkept _) rfl ?_⟩
    · rw [hadd, State.watchAppend_duplicate (by rw [hlist]; exact hw)]
      rfl
    · rw [hadd, State.watchAppend_full (by rw [hlist]; exact hw) (by rw [hlist]; exact h24)]
      rfl
    · rw [hadd, State.watchAppend_done (by rw [hlist]; exact hw) (by rw [hlist]; exact h24), hlist, State.acked_rewatch]
      rfl
    · rw [hdrop, State.watchRemove_absent (by rw [hlist]; exact hw)]
      rfl
    · rw [hdrop, State.watchRemove_done (by rw [hlist]; exact hw), hlist, State.acked_rewatch]
      rfl
  · refine hreply hroom rfl rfl rfl ?_
    rw [alertClearRun, slotOf_none hk]
    rfl
  · refine hreply hroom rfl rfl rfl ?_
    rw [alertClearRun, slotOf_eq hk]
    rfl
  · refine hreply hroom rfl rfl rfl ?_
    rw [alertSetRun, State.setSlot_badFirst _ _ hbad]
    rfl
  · refine hreply hroom rfl rfl rfl ?_
    have hlook : (s.acked l t).lookup field = none := hn
    rw [alertSetRun, hlook, State.setSlot_noIssue hgood]
    rfl
  · have hlook : (s.acked l t).lookup field = some n := hn
    obtain ⟨hbad, hok⟩ := State.setSlot_issue (s := s.acked l t) (t := t) (limit := limit.toInt) (n := n) hk he hg
    refine ⟨fun hl => hreply hroom rfl rfl rfl ?_, fun hl => ?_⟩
    · rw [alertSetRun, hlook, hbad hl]
      rfl
    · intro a slotted
      have hrun : alertSetRun slot field cond neg limit t (s.acked l t) =
          ⟨(s.setAlert t k (some a)).acked l t, [0x01, 0x04, 0x00], some k⟩ := by
        rw [alertSetRun, hlook, hok hl]
        rfl
      obtain ⟨hquiet, hfires, howes⟩ := State.request_alerted h hon hroom hrun rfl rfl hr
      refine ⟨fun hh => ?_, fun hh hq => ?_, fun hh hq => ?_⟩
      · refine (congrArg Host.Outcome.next (hquiet hh)).trans ?_
        rw [State.carrying, List.append_nil]
        rfl
      · exact congrArg Host.Outcome.next (hfires hh hq)
      · refine (congrArg Host.Outcome.next (howes hh hq)).trans ?_
        rw [State.carrying, List.append_nil]
        rfl
  · exact hreply hroom rfl rfl rfl rfl
  · exact hreply (u := { s with freeCount := s.freeCount + 1 }) hroom rfl rfl rfl rfl

end Sys2Proof.Machine
end

