-- ==== Sys2Proof/Proofs/Control.lean ====
section
/-! PROOFS. A control message due to be executed: what its command answers, in one form for an addressed and a broadcast
one (R164 to R168). -/

namespace Sys2Proof.Machine

section
variable {s : State} {addressed : Bool} {body : Text} {serial : Nat} {rest : List Handed} {mine : Text → Bool}

/-- The turn of a control message: an addressed one is executed and its reply fills its claim, a broadcast one is
executed as it is taken (R164, R165, R166). -/
theorem State.ControlTurn.takes (h : s.ControlTurn addressed body serial rest) (hm : mine body = true)
    (table : Text → Byte) (run whole : Text → State → Done) :
    s.takeControl mine table run whole = .next (if addressed
      then (run body (s.taken rest)).replied body (table body) else (whole body (s.taken rest)).card) := by
  cases addressed
  case false =>
    obtain ⟨hi, hq⟩ := h
    rw [State.takeControl_broadcast hi hq hm, State.taken_of_idle hi]
    rfl
  case true =>
    obtain ⟨hi, hq⟩ := h
    rw [State.takeControl_execute hi hm]
    subst hq
    rfl

/-- A reply of an addressed message, with nothing of a broadcast one. -/
theorem Done.answered_eq (d : Done) (addressed : Bool) (body : Text) (table : Byte) :
    (if addressed then d.replied body table else d.card) =
      d.card.answered addressed (replyBody d.card.unitSwitch body table d.result d.data) := by
  cases addressed <;> rfl

theorem opIs_of_length (hl : 4 ≤ body.length) {code : Byte} (hc : byteAt body 3 = code) : opIs code body = true := by
  simp [opIs, hl, hc]

theorem opCode_of_length (hl : 4 ≤ body.length) : opCode body = byteAt body 3 := if_neg (by omega)

/-- An operation executed, addressed or broadcast, whose data is empty (R166, R167, R201). -/
theorem State.ControlTurn.operates {run : Text → State → Done} {u : State} {r : Result} {code : Byte}
    (h : s.ControlTurn addressed body serial rest) (hl : 4 ≤ body.length) (hc : byteAt body 3 = code)
    (hd : run body (s.taken rest) = ⟨u, r, []⟩) (hu : u.unitSwitch = s.unitSwitch) :
    s.takeOperation (opIs code) run = .next (u.answered addressed
      [0x41, s.unitSwitch, byteAt body 2, code, 0x00, resultCode r]) := by
  rw [State.takeOperation, h.takes (opIs_of_length hl hc), Done.answered_eq, hd, replyBody, opCode_of_length hl, hc, hu]

/-- An operation refused changes nothing but its reply (R167). -/
theorem State.ControlTurn.refuses {run : Text → State → Done} {r : Result} {code : Byte}
    (h : s.ControlTurn addressed body serial rest) (hl : 4 ≤ body.length) (hc : byteAt body 3 = code)
    (hd : run body (s.taken rest) = (s.taken rest).refuse r) :
    s.takeOperation (opIs code) run = .next ((s.taken rest).answered addressed
      [0x41, s.unitSwitch, byteAt body 2, code, 0x00, resultCode r]) :=
  h.operates hl hc hd rfl

end

end Sys2Proof.Machine
end

