-- ==== Sys2Proof/Proofs/Parameters.lean ====
section
/-! PROOFS. CLEAR COUNTS, and the parameters that SET TAPE, SET FLASH LIST, SET LAMPS and SET FEED load (R87, R88, R125,
R173 to R178). -/

namespace Sys2Proof.Machine

/-! ### CLEAR COUNTS -/

theorem flatMap_zeros {α : Type} (k : Nat) (xs : List α) :
    (xs.flatMap fun _ => List.replicate k 0) = List.replicate (xs.length * k) 0 := by
  rw [List.flatMap_def, List.map_const', List.flatten_replicate_replicate]

theorem State.counters_clearCounts (s : State) : s.clearCounts.counters = List.replicate 36 0 := by
  have hboards : s.clearCounts.boards.toList.flatMap (fun b => [b.holds, b.timeouts]) = List.replicate 8 0 := by
    rw [State.clearCounts, Vector.toList_map, List.flatMap_map]
    exact (flatMap_zeros 2 _).trans (by rw [Vector.length_toList])
  have hlines : s.clearCounts.termLines.toList.flatMap (fun x => [x.timeouts, x.busies, x.retries]) =
      List.replicate 12 0 := by
    rw [State.clearCounts, Vector.toList_map, List.flatMap_map]
    exact (flatMap_zeros 3 _).trans (by rw [Vector.length_toList])
  rw [counters, hboards, hlines]
  rfl

/-- Settles O28: each counter is 0 in the card that CLEAR COUNTS leaves, and no other part moves. -/
theorem clearCountsClears : Obligations.ClearCountsClears := by
  intro s addressed body serial rest h hl hc
  exact ⟨(s.taken rest).clearCounts,
    h.operates (run := fun _ s => s.clearCounts.done) (r := .done) hl hc rfl rfl,
    (s.taken rest).counters_clearCounts, rfl, rfl, rfl, rfl,
    fun l => ⟨Vector.getElem_map .., Vector.getElem_map ..⟩, rfl, rfl, rfl⟩

/-! ### SET TAPE -/

theorem readNat_one (body : Text) (i : Nat) : readNat body i 1 = (byteAt body i).toNat := by
  simp [readNat]

theorem Thresholds.ok_iff (t : Thresholds) :
    t.ok = true ↔ (∀ x ∈ [t.up1, t.up2, t.up3, t.down1, t.down2, t.down3], x.scale ≤ 3)
      ∧ t.down1.cs < t.up1.cs ∧ t.down2.cs < t.up2.cs ∧ t.down3.cs < t.up3.cs ∧ t.up1.cs < t.up2.cs
      ∧ t.up2.cs < t.up3.cs := by
  simp only [Thresholds.ok, Bool.and_eq_true, List.all_eq_true, decide_eq_true_eq, and_assoc]

theorem channelOf_none {c : Byte} (ha : c ≠ 0x41) (hb : c ≠ 0x42) : channelOf c = none := by
  rw [channelOf, if_neg ha, if_neg hb]

theorem TapeChannel.loadParams_eq (c : TapeChannel) (p : TapeParams) :
    c.loadParams p = { c with
      loaded := p
      working := if c.emission = none ∧ c.queue = [] then ⟨p.thresholds, p.block, p.minimum⟩ else c.working } := by
  rw [TapeChannel.loadParams]
  simp only [Option.isNone_iff_eq_none]
  rfl

section
variable {body : Text} {u : State}

theorem setTapeRun_bad (h : channelOf (byteAt body 4) = none ∨ (tapeOperands body).thresholds.ok = false) :
    setTapeRun body u = u.refuse .badOperand := by
  rw [setTapeRun]
  rcases hch : channelOf (byteAt body 4) with _ | ch
  · rfl
  · rcases h with h | h
    · exact absurd (hch.symm.trans h) nofun
    · exact if_neg (by simp [h])

theorem setTapeRun_loads {ch : Channel} (hch : channelOf (byteAt body 4) = some ch)
    (h : (tapeOperands body).thresholds.ok = true) :
    setTapeRun body u = (u.setTape ch ((u.tape ch).loadParams (tapeOperands body))).done := by
  rw [setTapeRun, hch]
  exact if_pos h

end

/-- Settles O25: the clamped operands are the parameters the model reads, and an accepted SET TAPE loads them into the
channel it names. -/
theorem setTapeLoads : Obligations.SetTapeLoads := by
  intro s addressed body serial rest h hl hc byte threshold p cs ordered reply loaded
  have hread (i : Nat) : thresholdAt body i = threshold i := by rw [thresholdAt, readNat_one]
  have hp : tapeOperands body = p := by
    simp only [tapeOperands, hread, clamp, Nat.zero_max]
    rfl
  have hord : (tapeOperands body).thresholds.ok = true ↔ ordered := by
    rw [hp, Thresholds.ok_iff]
    simp only [ordered, List.forall_mem_cons, List.not_mem_nil, IsEmpty.forall_iff, implies_true, and_true]
    rfl
  have hloaded (c : TapeChannel) : c.loadParams (tapeOperands body) = loaded c := by rw [hp, TapeChannel.loadParams_eq]
  have hrun : withLength 33 setTapeRun body (s.taken rest) = setTapeRun body (s.taken rest) := withLength_enough hl _
  refine ⟨fun hbad => ?_, fun ha ho => ?_, fun hb ho => ?_⟩
  · refine h.refuses (run := withLength 33 setTapeRun) (r := .badOperand) (by omega) hc (hrun.trans (setTapeRun_bad ?_))
    rcases hbad with ⟨ha, hb⟩ | ho
    · exact .inl (channelOf_none ha hb)
    · exact .inr (Bool.eq_false_iff.2 (mt hord.1 ho))
  · refine h.operates (run := withLength 33 setTapeRun) (r := .done) (by omega) hc (hrun.trans ?_) rfl
    rw [setTapeRun_loads (ch := .a) (if_pos ha) (hord.2 ho), hloaded]
    rfl
  · have hch : channelOf (byteAt body 4) = some .b := by rw [hb]; rfl
    refine h.operates (run := withLength 33 setTapeRun) (r := .done) (by omega) hc (hrun.trans ?_) rfl
    rw [setTapeRun_loads hch (hord.2 ho), hloaded]
    rfl

/-! ### SET FLASH LIST -/

section
variable {s : State} {ns : List Nat}

theorem State.checkIssues_high (h : ∃ m ∈ ns, 1023 < m) : s.checkIssues ns = some .badOperand :=
  if_pos (List.any_eq_true.2 (h.imp fun _ hm => ⟨hm.1, decide_eq_true hm.2⟩))

theorem none_high (h : ∀ m ∈ ns, m ≤ 1023) : ¬ (ns.any fun n => decide (Config.maxIssue < n)) = true := by
  rw [List.any_eq_true]
  rintro ⟨m, hm, hhigh⟩
  exact absurd (h m hm) (not_le.2 (of_decide_eq_true hhigh))

theorem State.checkIssues_unlisted (hle : ∀ m ∈ ns, m ≤ 1023) (h : ∃ m ∈ ns, listed s m = none) :
    s.checkIssues ns = some .noIssue := by
  rw [checkIssues, if_neg (none_high hle)]
  exact if_pos (List.any_eq_true.2 (h.imp fun _ hm => ⟨hm.1, Option.isNone_iff_eq_none.2 hm.2⟩))

/-- A list of LISTED issues is refused where an issue stands in it twice, and only there (R147, R174). -/
theorem State.checkIssues_listed (h : ∀ m ∈ ns, m ≤ 1023 ∧ (listed s m).isSome = true) :
    s.checkIssues ns = if ns.Nodup then none else some .duplicate := by
  have hall : ¬ (ns.any fun n => (listed s n).isNone) = true := by
    simpa [← Option.isSome_iff_ne_none] using fun m hm => (h m hm).2
  rw [checkIssues, if_neg (none_high fun m hm => (h m hm).1), if_neg hall]

end

section
variable {body : Text} {u : State}

theorem setFlashListRun_bad (h : body.length < 5 + 2 * (byteAt body 4).toNat ∨ 16 < (byteAt body 4).toNat) :
    setFlashListRun body u = u.refuse .badOperand := if_pos h

theorem setFlashListRun_eq (h : 5 + 2 * (byteAt body 4).toNat ≤ body.length) (hn : (byteAt body 4).toNat ≤ 16) :
    setFlashListRun body u = match u.checkIssues (readIssues body 5 (byteAt body 4).toNat) with
      | some e => u.refuse e
      | none => State.done { u with
          issues := { u.issues with flashList := readIssues body 5 (byteAt body 4).toNat } } :=
  if_neg (by simp only [Config.flashPlaces]; omega)

theorem setFlashListRun_refuses (h : 5 + 2 * (byteAt body 4).toNat ≤ body.length) (hn : (byteAt body 4).toNat ≤ 16)
    {e : Result} (he : u.checkIssues (readIssues body 5 (byteAt body 4).toNat) = some e) :
    setFlashListRun body u = u.refuse e := by
  rw [setFlashListRun_eq h hn, he]

theorem setFlashListRun_loads (h : 5 + 2 * (byteAt body 4).toNat ≤ body.length) (hn : (byteAt body 4).toNat ≤ 16)
    (he : u.checkIssues (readIssues body 5 (byteAt body 4).toNat) = none) :
    setFlashListRun body u = State.done { u with
      issues := { u.issues with flashList := readIssues body 5 (byteAt body 4).toNat } } := by
  rw [setFlashListRun_eq h hn, he]

end

/-! ### SET LAMPS and SET FEED -/

theorem Arrow.cut_eq (count : Nat) (a : Arrow) :
    (a.cut count).stateAndPhase = a.stateAndPhase ∧ (a.cut count).timer = a.timer
      ∧ (a.cut count).flash?.map Flash.remaining = a.flash?.map fun f => min f.remaining count := by
  cases a <;> exact ⟨rfl, rfl, rfl⟩

theorem clamp_byte (b : Byte) : clamp 1 255 b.toNat = max 1 b.toNat := by
  rw [clamp, min_eq_right (by omega)]

theorem altCodeOk_iff (c : Byte) : altCodeOk c = true ↔ c.toNat = 0 ∨ (0x50 ≤ c.toNat ∧ c.toNat ≤ 0x5F) := by
  have hzero : c = 0 ↔ c.toNat = 0 := by bv_omega
  rw [altCodeOk, Bool.or_eq_true, beq_iff_eq, decide_eq_true_eq, hzero]

/-- Settles O26: a refused list is one the model's check refuses, and the loaded parameters are the operands clamped. -/
theorem parametersLoaded : Obligations.ParametersLoaded := by
  intro s addressed body serial rest h byte given reply refused
  have hflash (hl : 5 ≤ body.length) : withLength 5 setFlashListRun body (s.taken rest) =
      setFlashListRun body (s.taken rest) := withLength_enough hl _
  refine ⟨?shorter, ?flashes, ?lamps, ?feed⟩
  case shorter =>
    intro hl hshort hc
    exact h.refuses (run := withLength 5 setFlashListRun) (r := .badOperand) (by omega) hc
      ((hflash hl).trans (setFlashListRun_bad (.inl hshort)))
  case flashes =>
    intro hl hc
    have hrun := hflash (by omega)
    refine ⟨fun hbad => ?_, fun hn hle hfree => ?_, fun hn hall => ⟨fun hdup => ?_, fun hnodup => ?_⟩⟩
    · refine h.refuses (run := withLength 5 setFlashListRun) (r := .badOperand) (by omega) hc (hrun.trans ?_)
      by_cases hn : byte 4 ≤ 16
      · exact setFlashListRun_refuses hl hn (State.checkIssues_high (hbad.resolve_left (by omega)))
      · exact setFlashListRun_bad (.inr (not_le.1 hn))
    · exact h.refuses (run := withLength 5 setFlashListRun) (r := .noIssue) (by omega) hc
        (hrun.trans (setFlashListRun_refuses hl hn (State.checkIssues_unlisted hle hfree)))
    · exact h.refuses (run := withLength 5 setFlashListRun) (r := .duplicate) (by omega) hc
        (hrun.trans (setFlashListRun_refuses hl hn ((State.checkIssues_listed hall).trans (if_neg hdup))))
    · exact h.operates (run := withLength 5 setFlashListRun) (r := .done) (by omega) hc
        (hrun.trans (setFlashListRun_loads hl hn ((State.checkIssues_listed hall).trans (if_pos hnodup)))) rfl
  case lamps =>
    intro hl hc p
    have hp : (⟨clamp 1 255 (byteAt body 4).toNat, clamp 1 255 (byteAt body 5).toNat,
        clamp 1 15 (byteAt body 6).toNat⟩ : LampParams) = p := by rw [clamp_byte, clamp_byte]; rfl
    refine ⟨(s.taken rest).loadLamps p, ?_, rfl, fun r => ?_⟩
    · refine h.operates (run := withLength 7 setLampsRun) (r := .done) (by omega) hc
        ((withLength_enough hl _).trans ?_) rfl
      rw [setLampsRun, hp]
      rfl
    · have hlamps : ((s.taken rest).loadLamps p).lamps[r] =
          { s.lamps[r] with arrow := (s.lamps[r]).arrow.cut p.flashCount } := Vector.getElem_map ..
      rw [hlamps]
      exact ⟨rfl, Arrow.cut_eq ..⟩
  case feed =>
    intro hl hc known
    refine ⟨fun hk => ?_, fun hk => ?_⟩
    · exact h.refuses (run := withLength 6 setFeedRun) (r := .badOperand) (by omega) hc
        ((withLength_enough hl _).trans (if_neg (mt (altCodeOk_iff _).1 hk)))
    · exact h.operates (run := withLength 6 setFeedRun) (r := .done) (by omega) hc
        ((withLength_enough hl _).trans (if_pos ((altCodeOk_iff _).2 hk))) rfl

end Sys2Proof.Machine
end

