-- ==== Sys2Proof/Proofs/Taking.lean ====
section
/-! PROOFS. How a control message is taken: claimed, discarded, left waiting while another is in hand, or refused for its
length (R164 to R168). -/

namespace Sys2Proof.Machine

/-! ### The messages that name no operation -/

section
variable {body : Text} {u : State}

theorem opIs_eq_false {code : Byte} (h : body.length < 4 ∨ byteAt body 3 ≠ code) : opIs code body = false := by
  rw [opIs, Bool.and_eq_false_iff]
  exact h.imp (fun hl => decide_eq_false (by omega)) (fun hc => beq_eq_false_iff_ne.2 hc)

theorem opKnown_eq_false {c : Byte} (h : c = 0 ∨ 0x10 < c.toNat) : opKnown c = false := by
  refine decide_eq_false fun hk => ?_
  rcases h with rfl | h
  · exact absurd hk.1 (by decide)
  · exact absurd hk.2 (by omega)

theorem tableKnown_eq_false {c : Byte} (h : c = 0 ∨ 8 < c.toNat) : tableKnown c = false := by
  refine decide_eq_false fun hk => ?_
  rcases h with rfl | h
  · exact absurd hk.1 (by decide)
  · exact absurd hk.2 (by omega)

/-- A message that names no operation: with no operation code or an unknown one, or a READ with no table code or an
unknown one (R164, R167, R181, log 14). -/
inductive NoOperation (body : Text) : Byte → Result → Prop
  | unknown (hread : opIs 0x10 body = false) (hop : opKnown (opCode body) = false) : NoOperation body 0 .badOperation
  | badTable (hl : 5 ≤ body.length) (hread : byteAt body 3 = 0x10) (ht : tableKnown (byteAt body 4) = false) :
      NoOperation body (byteAt body 4) .badTable

theorem NoOperation.mine {table : Byte} {r : Result} (h : NoOperation body table r) : noOperation body = true := by
  rw [noOperation]
  cases h with
  | unknown hread hop => rw [hread, hop]; rfl
  | badTable hl hread ht => rw [opIs_of_length (by omega) hread, ht, Bool.not_false, Bool.or_true]; rfl

theorem NoOperation.table {table : Byte} {r : Result} (h : NoOperation body table r) :
    noOperationTable u body = table := by
  rw [noOperationTable]
  cases h with
  | unknown hread hop => rw [hread]; rfl
  | badTable hl hread ht => rw [opIs_of_length (by omega) hread, if_pos rfl, if_neg (by omega)]

theorem NoOperation.run {table : Byte} {r : Result} (h : NoOperation body table r) :
    noOperationRun body u = u.refuse r := by
  rw [noOperationRun, noOperationResult]
  cases h with
  | unknown hread hop => rw [hread]; rfl
  | badTable hl hread ht =>
    rw [opIs_of_length (by omega) hread, if_pos rfl, if_neg (by omega : ¬ body.length < 5), if_neg (by omega)]

end

section
variable {body : Text} {u : State} (hl : body.length = 4) (hc : byteAt body 3 = 0x10)
include hl hc

/-- A READ with no table code: a free value stands for it in the reply (R181, log 8). -/
theorem noOperationTable_bareRead : noOperationTable u body = u.freeAt 0 := by
  rw [noOperationTable, opIs_of_length (by omega) hc, if_pos rfl, if_pos (by omega)]

theorem noOperationRun_bareRead : noOperationRun body u = (u.drawFree 1).refuse .badOperand := by
  have hread := opIs_of_length (by omega) hc
  have hshort : body.length < 5 := by omega
  rw [noOperationRun, if_pos ⟨hread, hshort⟩, noOperationResult, if_pos hread, if_pos hshort]

theorem noOperation_bareRead : noOperation body = true := by
  rw [noOperation, opIs_of_length (by omega) hc, decide_eq_true (by omega : body.length < 5)]
  rfl

end

/-! ### Claims -/

theorem State.takeClaim_free {s : State} (op : Operation) (h : s.upstream.replies.length + s.upstream.claims < 8) :
    s.takeClaim op = s.claim op := if_pos (decide_eq_true h)

theorem State.takeClaim_full {s : State} (op : Operation) (h : 8 ≤ s.upstream.replies.length + s.upstream.claims) :
    s.takeClaim op = s.discardControl := if_neg (mt of_decide_eq_true (not_lt.2 h))

/-- A command of the Control Unit takes the messages `mine` tells: where one of them is an addressed head it claims, and
where it is not due it changes nothing (R164, R165, log 1). -/
structure Takes (c : Instr) (mine : Text → Bool) : Prop where
  claims (s : State) (op : Operation) : s.turn mine = .claim op → exec c s = .next (s.dropHead.takeClaim op)
  waits (s : State) : s.turn mine = .waits → exec c s = .next s

theorem takes_of_takeControl {c : Instr} {mine : Text → Bool} (table : State → Text → Byte)
    (run whole : Text → State → Done) (h : ∀ s, exec c s = s.takeControl mine (table s) run whole) : Takes c mine where
  claims s op ht := by rw [h, State.takeControl, ht]
  waits s ht := by rw [h, State.takeControl, ht]

section
variable {c : Instr} {mine : Text → Bool} {s : State} {body : Text} {serial : Nat} {rest : List Handed}

/-- An addressed message at the head, with none in hand: in hand where a reply place is free, else discarded and counted
(R164, R187). -/
theorem Takes.claimed (h : Takes c mine) (hi : s.control.inHand = none)
    (hq : s.feed.handOver = ⟨.control true, body, serial⟩ :: rest) (hm : mine body = true) :
    (s.upstream.replies.length + s.upstream.claims < 8 → exec c s = .next
        { s with
          feed := { s.feed with handOver := rest }
          upstream := { s.upstream with claims := s.upstream.claims + 1 }
          control := { s.control with inHand := some ⟨body, serial⟩ } })
      ∧ (8 ≤ s.upstream.replies.length + s.upstream.claims → exec c s = .next
        { s with
          feed := { s.feed with handOver := rest }
          control := { s.control with discards := min (s.control.discards + 1) 65535 } }) := by
  have hturn : s.turn mine = .claim ⟨body, serial⟩ := by simp [State.turn, State.controlHead, hi, hq, hm]
  have hdrop : s.dropHead = { s with feed := { s.feed with handOver := rest } } := by rw [State.dropHead, hq]; rfl
  rw [h.claims s _ hturn, hdrop]
  exact ⟨fun hfree => congrArg Host.Outcome.next (State.takeClaim_free _ hfree),
    fun hfull => congrArg Host.Outcome.next (State.takeClaim_full _ hfull)⟩

/-- While an operation of another command is in hand the command is not due (R165). -/
theorem Takes.inHand (h : Takes c mine) {op : Operation} (hi : s.control.inHand = some op) (hm : mine op.body = false) :
    exec c s = .next s := h.waits s (by simp [State.turn, hi, hm])

end

theorem takes_noOperation : Takes .noOperationCode noOperation :=
  takes_of_takeControl noOperationTable noOperationRun (fun _ s => s.done) fun _ => rfl

/-- Settles O20: a message that names no operation is one that NO_OPERATION_CODE takes, and it is refused with the
result and the table code that stand for it. -/
theorem noOperationRefused : Obligations.NoOperationRefused := by
  intro s body serial rest unknown bare noTable badTable reply
  have hbare (hb : bare) : NoOperation body 0 .badOperation ∧ opCode body = 0 := by
    have hop : opCode body = 0 := if_pos (by omega)
    exact ⟨.unknown (opIs_eq_false (.inl (by omega))) (opKnown_eq_false (.inl hop)), hop⟩
  have hunknown (hu : unknown) : NoOperation body 0 .badOperation := by
    obtain ⟨hl, hc⟩ := hu
    refine .unknown (opIs_eq_false (.inr ?_)) (opKnown_eq_false ((opCode_of_length hl).symm ▸ hc))
    rcases hc with hc | hc
    · exact hc ▸ by decide
    · exact fun h => absurd (h ▸ hc) (by decide)
  have hbad (hb : badTable) : NoOperation body (byteAt body 4) .badTable :=
    .badTable hb.1 hb.2.1 (tableKnown_eq_false hb.2.2)
  have hmine (h : bare ∨ unknown ∨ badTable ∨ noTable) : noOperation body = true := by
    rcases h with h | h | h | h
    · exact (hbare h).1.mine
    · exact (hunknown h).mine
    · exact (hbad h).mine
    · exact noOperation_bareRead h.1 h.2
  have hrefused {table : Byte} {r : Result} (h : s.ControlTurn true body serial rest) (hn : NoOperation body table r) :
      exec .noOperationCode s = .next ((s.taken rest).answered true
        [0x41, s.unitSwitch, byteAt body 2, opCode body, table, resultCode r]) := by
    refine (h.takes hn.mine (noOperationTable s) noOperationRun fun _ s => s.done).trans ?_
    rw [hn.run, hn.table]
    rfl
  refine ⟨fun h => ⟨fun hb => ?_, fun hu => ?_, fun hb => ?_, fun hn => ?_⟩, fun hany => ⟨fun h => ?_, fun hi hq =>
    takes_noOperation.claimed hi hq (hmine hany)⟩⟩
  · rw [hrefused h (hbare hb).1, (hbare hb).2]
    rfl
  · rw [hrefused h (hunknown hu), opCode_of_length hu.1]
    rfl
  · rw [hrefused h (hbad hb), opCode_of_length (by omega), hb.2.1]
    rfl
  · refine (h.takes (hmine (.inr (.inr (.inr hn)))) (noOperationTable s) noOperationRun fun _ s => s.done).trans ?_
    rw [noOperationRun_bareRead hn.1 hn.2, noOperationTable_bareRead hn.1 hn.2, Done.replied, replyBody,
      opCode_of_length (by omega), hn.2]
    rfl
  · exact h.takes (hmine hany) (noOperationTable s) noOperationRun fun _ s => s.done

/-! ### Every operation -/

/-- A command takes exactly the bodies that carry its operation, and for a read its table (R164, R200). -/
def TakesCarried (x : Instr × Byte × Option Byte) : Prop :=
  ∃ mine, Takes x.1 mine ∧ ∀ body, mine body = true ↔ carries body x

theorem opIs_iff (code : Byte) (body : Text) : opIs code body = true ↔ 4 ≤ body.length ∧ byteAt body 3 = code := by
  rw [opIs, Bool.and_eq_true, decide_eq_true_eq, beq_iff_eq]

theorem readIs_iff (table : Byte) (body : Text) :
    readIs table body = true ↔ 4 ≤ body.length ∧ byteAt body 3 = 0x10 ∧ 5 ≤ body.length ∧ byteAt body 4 = table := by
  rw [readIs, Bool.and_eq_true, Bool.and_eq_true, opIs_iff, decide_eq_true_eq, beq_iff_eq, and_assoc, and_assoc]

theorem carries_operation (body : Text) (c : Instr) (code : Byte) :
    carries body (c, code, none) ↔ 4 ≤ body.length ∧ byteAt body 3 = code :=
  ⟨fun h => ⟨h.1, h.2.1⟩, fun h => ⟨h.1, h.2, nofun⟩⟩

theorem carries_read (body : Text) (c : Instr) (code table : Byte) :
    carries body (c, code, some table) ↔
      4 ≤ body.length ∧ byteAt body 3 = code ∧ 5 ≤ body.length ∧ byteAt body 4 = table := by
  refine and_congr_right fun _ => and_congr_right fun _ => ⟨fun h => h table rfl, ?_⟩
  rintro h _ ⟨⟩
  exact h

theorem takesCarried_operation {c : Instr} {code : Byte} {run : Text → State → Done}
    (h : ∀ s, exec c s = s.takeOperation (opIs code) run) : TakesCarried (c, code, none) :=
  ⟨_, takes_of_takeControl (fun _ _ => 0) run run h, fun _ => (opIs_iff ..).trans (carries_operation ..).symm⟩

theorem takesCarried_read {c : Instr} {table : Byte} {run : Text → State → Done}
    (h : ∀ s, exec c s = s.takeRead table run) : TakesCarried (c, 0x10, some table) :=
  ⟨_, takes_of_takeControl (fun _ _ => table) run (fun _ s => s.done) h,
    fun _ => (readIs_iff ..).trans (carries_read ..).symm⟩

theorem takes_restart : Takes .restart (opIs 0x0F) where
  claims s op ht := by change execRestart s = _; rw [execRestart, ht]
  waits s ht := by change execRestart s = _; rw [execRestart, ht]

theorem operationCodes_takesCarried : ∀ x ∈ operationCodes, TakesCarried x := by
  have hop {c : Instr} {code : Byte} (run : Text → State → Done)
      (h : ∀ s, exec c s = s.takeOperation (opIs code) run) := takesCarried_operation h
  have hread {c : Instr} {table : Byte} (run : Text → State → Done)
      (h : ∀ s, exec c s = s.takeRead table run) := takesCarried_read h
  simp only [operationCodes, List.forall_mem_cons]
  exact ⟨hop (withLength 16 loadIssueRun) fun _ => rfl, hop (withLength 6 deleteIssueRun) fun _ => rfl,
    hop (withLength 11 setRowRun) fun _ => rfl, hop (withLength 6 (withTerminal setWatchListRun)) fun _ => rfl,
    hop (withLength 7 (withTerminal addWatchRun)) fun _ => rfl,
    hop (withLength 7 (withTerminal dropWatchRun)) fun _ => rfl,
    hop (withLength 14 (withTerminal setAlertRun)) fun _ => rfl,
    hop (withLength 6 (withTerminal clearAlertRun)) fun _ => rfl, hop (withLength 33 setTapeRun) fun _ => rfl,
    hop (withLength 5 setFlashListRun) fun _ => rfl, hop (withLength 7 setLampsRun) fun _ => rfl,
    hop (withLength 6 setFeedRun) fun _ => rfl, hop (withLength 6 (withTerminal setTerminalRun)) fun _ => rfl,
    hop (fun _ s => s.clearCounts.done) fun _ => rfl,
    ⟨_, takes_restart, fun _ => (opIs_iff ..).trans (carries_operation ..).symm⟩,
    hread (withLength 7 readIssueRun) fun _ => rfl, hread (withLength 7 readRowRun) fun _ => rfl,
    hread (withLength 7 (withPart readWatchListRun)) fun _ => rfl,
    hread (withLength 7 (withPart readAlertsRun)) fun _ => rfl, hread (withLength 6 readTapeRun) fun _ => rfl,
    hread (withLength 8 readLineRun) fun _ => rfl, hread (withLength 6 readCountsRun) fun _ => rfl,
    hread (fun _ s => s.answer 0 (unitData s)) fun _ => rfl, nofun⟩

theorem noOperation_carried {body : Text} (h : ∃ x ∈ operationCodes, carries body x) : noOperation body = false := by
  have hknown : ∀ x ∈ operationCodes, (x.2.1 ≠ 0x10 ∧ opKnown x.2.1 = true)
      ∨ (x.2.1 = 0x10 ∧ x.2.2.map tableKnown = some true) := by decide
  obtain ⟨⟨c, code, table⟩, hx, hl, hcode, htable⟩ := h
  rcases hknown _ hx with ⟨hne, hop⟩ | ⟨rfl, ht⟩
  · rw [noOperation, opIs_eq_false (.inr fun h => hne (hcode.symm.trans h)), opCode_of_length hl, hcode, hop]
    rfl
  · obtain ⟨t, rfl, hk⟩ := Option.map_eq_some_iff.1 ht
    obtain ⟨hlong, ht⟩ := htable t rfl
    rw [noOperation, opIs_of_length hl hcode, if_pos rfl, ht, hk, decide_eq_false (by omega)]
    rfl

section
variable {s : State} {body : Text} {serial : Nat} {rest : List Handed} {op : Operation}

theorem data_inHand {c : Instr} {k : DataKind} {mine : Text → Bool} {apply : Text → State → State × Verdict}
    (hi : s.control.inHand = some op) (h : exec c s = s.takeData k mine apply) : exec c s = .next s :=
  h.trans (State.takeData_waits fun _ hd => absurd ((State.dataHead_inHand hi k).symm.trans hd) nofun)

theorem data_waits (hi : s.control.inHand = some op) :
    ∀ c ∈ ([.heartbeat, .trade, .outOfSequenceTrade, .alternatePrint, .quote, .issueStatus, .correction, .marketOpen,
      .marketClose] : List Instr), exec c s = .next s := by
  simp only [List.forall_mem_cons]
  exact ⟨data_inHand (k := .heartbeat) (mine := fun _ => true) (apply := fun _ s => (s, .applied)) hi rfl,
    data_inHand (k := .trade) (mine := fun b => !outOfSequence b) (apply := applyTrade) hi rfl,
    data_inHand (k := .trade) (mine := outOfSequence) (apply := applyLate) hi rfl,
    data_inHand (k := .alternate) (mine := fun _ => true) (apply := applyAlternate) hi rfl,
    data_inHand (k := .quote) (mine := fun _ => true) (apply := applyQuote) hi rfl,
    data_inHand (k := .issueStatus) (mine := fun _ => true) (apply := applyStatus) hi rfl,
    data_inHand (k := .correction) (mine := fun _ => true) (apply := applyCorrection) hi rfl,
    data_inHand (k := .market) (mine := fun b => byteAt b 3 != 2) (apply := applyOpen) hi rfl,
    data_inHand (k := .market) (mine := fun b => byteAt b 3 != 1) (apply := applyClose) hi rfl, nofun⟩

/-- A broadcast read is discarded (R168). -/
theorem read_broadcast {c : Instr} {table : Byte} {run : Text → State → Done} (hi : s.control.inHand = none)
    (hq : s.feed.handOver = ⟨.control false, body, serial⟩ :: rest) (h : exec c s = s.takeRead table run)
    (hc : carries body (c, 0x10, some table)) :
    exec c s = .next { s with feed := { s.feed with handOver := rest } } :=
  h.trans (State.takeControl_broadcast hi hq ((readIs_iff ..).2 ((carries_read ..).1 hc)))

theorem reads_broadcast (hi : s.control.inHand = none)
    (hq : s.feed.handOver = ⟨.control false, body, serial⟩ :: rest) :
    ∀ x ∈ operationCodes, carries body x → x.2.1 = 0x10 →
      exec x.1 s = .next { s with feed := { s.feed with handOver := rest } } := by
  simp only [operationCodes, List.forall_mem_cons]
  refine ⟨?_, ?_, ?_, ?_, ?_, ?_, ?_, ?_, ?_, ?_, ?_, ?_, ?_, ?_, ?_,
    fun h _ => read_broadcast (run := withLength 7 readIssueRun) hi hq rfl h,
    fun h _ => read_broadcast (run := withLength 7 readRowRun) hi hq rfl h,
    fun h _ => read_broadcast (run := withLength 7 (withPart readWatchListRun)) hi hq rfl h,
    fun h _ => read_broadcast (run := withLength 7 (withPart readAlertsRun)) hi hq rfl h,
    fun h _ => read_broadcast (run := withLength 6 readTapeRun) hi hq rfl h,
    fun h _ => read_broadcast (run := withLength 8 readLineRun) hi hq rfl h,
    fun h _ => read_broadcast (run := withLength 6 readCountsRun) hi hq rfl h,
    fun h _ => read_broadcast (run := fun _ s => s.answer 0 (unitData s)) hi hq rfl h, nofun⟩
  all_goals exact fun _ h => absurd h (by decide)

/-- A body too short for an operation's operands is refused (R167). -/
theorem operation_short {c : Instr} {code : Byte} {n : Nat} {run : Text → State → Done}
    (h : s.ControlTurn true body serial rest) (he : exec c s = s.takeOperation (opIs code) (withLength n run))
    (hc : carries body (c, code, none)) (hl : body.length < n) :
    exec c s = .next ((s.taken rest).answered true [0x41, s.unitSwitch, byteAt body 2, code, 0x00, 0x03]) :=
  he.trans (h.refuses hc.1 hc.2.1 (withLength_short hl _))

/-- A read executed, with its data (R166, R181, R201). -/
theorem State.ControlTurn.reads {table : Byte} {run : Text → State → Done} {u : State} {r : Result} {data : Text}
    (h : s.ControlTurn true body serial rest) (hm : readIs table body = true)
    (hd : run body (s.taken rest) = ⟨u, r, data⟩) (hu : u.unitSwitch = s.unitSwitch) :
    s.takeRead table run = .next (u.answered true
      (0x41 :: s.unitSwitch :: byteAt body 2 :: 0x10 :: table :: resultCode r :: data)) := by
  obtain ⟨hl, hc, _⟩ := (readIs_iff ..).1 hm
  have hreplied := Done.answered_eq (run body (s.taken rest)) true body table
  rw [State.takeRead, h.takes hm, if_pos rfl, (if_pos rfl).symm.trans hreplied, hd, replyBody, opCode_of_length hl, hc, hu]

theorem read_short {c : Instr} {table : Byte} {n : Nat} {run : Text → State → Done}
    (h : s.ControlTurn true body serial rest) (he : exec c s = s.takeRead table (withLength n run))
    (hc : carries body (c, 0x10, some table)) (hl : body.length < n) :
    exec c s = .next ((s.taken rest).answered true [0x41, s.unitSwitch, byteAt body 2, 0x10, table, 0x03]) :=
  he.trans (h.reads ((readIs_iff ..).2 ((carries_read ..).1 hc)) (withLength_short hl _) rfl)

theorem operations_short (h : s.ControlTurn true body serial rest) :
    ∀ x ∈ operationCodes.zip [16, 6, 11, 6, 7, 7, 14, 6, 33, 5, 7, 6, 6, 4, 4, 7, 7, 7, 7, 6, 8, 6, 5],
      carries body x.1 → body.length < x.2 → exec x.1.1 s = .next ((s.taken rest).answered true
        [0x41, s.unitSwitch, byteAt body 2, x.1.2.1, x.1.2.2.getD 0x00, 0x03]) := by
  simp only [operationCodes, List.zip_cons_cons, List.zip_nil_left, List.forall_mem_cons]
  exact ⟨operation_short (run := loadIssueRun) h rfl, operation_short (run := deleteIssueRun) h rfl,
    operation_short (run := setRowRun) h rfl, operation_short (run := withTerminal setWatchListRun) h rfl,
    operation_short (run := withTerminal addWatchRun) h rfl, operation_short (run := withTerminal dropWatchRun) h rfl,
    operation_short (run := withTerminal setAlertRun) h rfl, operation_short (run := withTerminal clearAlertRun) h rfl,
    operation_short (run := setTapeRun) h rfl, operation_short (run := setFlashListRun) h rfl,
    operation_short (run := setLampsRun) h rfl, operation_short (run := setFeedRun) h rfl,
    operation_short (run := withTerminal setTerminalRun) h rfl,
    fun hc hl => absurd hc.1 (not_le.2 hl), fun hc hl => absurd hc.1 (not_le.2 hl),
    read_short (run := readIssueRun) h rfl, read_short (run := readRowRun) h rfl,
    read_short (run := withPart readWatchListRun) h rfl, read_short (run := withPart readAlertsRun) h rfl,
    read_short (run := readTapeRun) h rfl, read_short (run := readLineRun) h rfl, read_short (run := readCountsRun) h rfl,
    fun hc hl => absurd (hc.2.2 _ rfl).1 (not_le.2 hl), nofun⟩

end

/-- Settles O19: each operation's command takes the bodies that carry it, by a claim or, for a broadcast read, without
effect; what is in hand holds up every other message; and a short body is refused. -/
theorem controlMessagesTaken : Obligations.ControlMessagesTaken := by
  refine ⟨fun s body serial rest hi x hx hc => ⟨fun hq => ?_, fun hq hread => reads_broadcast hi hq x hx hc hread⟩,
    fun s op hi => ⟨data_waits hi, fun x hx hc => ?_, fun h => ?_⟩,
    fun s body serial rest h => operations_short h⟩
  · obtain ⟨mine, htakes, hmine⟩ := operationCodes_takesCarried x hx
    exact htakes.claimed hi hq ((hmine body).2 hc)
  · obtain ⟨mine, htakes, hmine⟩ := operationCodes_takesCarried x hx
    exact htakes.inHand hi (Bool.eq_false_iff.2 (mt (hmine op.body).1 hc))
  · exact takes_noOperation.inHand hi (noOperation_carried h)

end Sys2Proof.Machine
end

