-- ==== Sys2Proof/Proofs/Reads.lean ====
section
/-! PROOFS. The reads: the data of each table, and the operands that are refused (R181 to R186). -/

namespace Sys2Proof.Machine

section
variable {s : State} {body : Text} {serial : Nat} {rest : List Handed} {table : Byte} {run : Text → State → Done}

theorem readIs_of_length {n : Nat} (hn : 5 ≤ n) (hc : byteAt body 3 = 0x10)
    (ha : n ≤ body.length ∧ byteAt body 4 = table) : readIs table body = true :=
  (readIs_iff ..).2 ⟨by omega, hc, by omega, ha.2⟩

/-- A read that answers: its data, and nothing changed but the free values drawn (R181, log 8). -/
theorem State.ControlTurn.readAnswers (h : s.ControlTurn true body serial rest) (hm : readIs table body = true)
    {n : Nat} {data : Text} (hd : run body (s.taken rest) = (s.taken rest).answer n data) :
    s.takeRead table run = .next (State.answered { s.taken rest with freeCount := s.freeCount + n } true
      ([0x41, s.unitSwitch, byteAt body 2, 0x10, table, 0x00] ++ data)) :=
  h.reads hm hd rfl

theorem State.ControlTurn.readRefused (h : s.ControlTurn true body serial rest) (hm : readIs table body = true)
    {r : Result} (hd : run body (s.taken rest) = (s.taken rest).refuse r) :
    s.takeRead table run = .next (State.answered { s.taken rest with freeCount := s.freeCount + 0 } true
      ([0x41, s.unitSwitch, byteAt body 2, 0x10, table, resultCode r] ++ [])) :=
  h.reads hm hd rfl

end

/-! ### What each read finds -/

section
variable {body : Text} {u : State}

theorem readIssueRun_high (h : 1023 < readNat body 5 2) : readIssueRun body u = u.refuse .badOperand := if_pos h

theorem readIssueRun_zero (h : readNat body 5 2 = 0) : readIssueRun body u = u.refuse .noIssue := by
  rw [readIssueRun, h]
  rfl

theorem readIssueRun_answers (h1 : 1 ≤ readNat body 5 2) (h : readNat body 5 2 ≤ 1023) :
    readIssueRun body u = match findRecord u.issues.records (readNat body 5 2) with
      | some r => u.answer 0 (issueData true r)
      | none => u.answer 0 (issueData false .vacant) := by
  rw [readIssueRun]
  exact (if_neg (not_lt.2 h)).trans (if_neg (by omega))

theorem readRowRun_bad (h : 3 < (byteAt body 5).toNat ∨ 31 < (byteAt body 6).toNat) :
    readRowRun body u = u.refuse .badOperand := by
  rw [readRowRun]
  by_cases hl : (byteAt body 5).toNat < 4
  · rw [dif_pos hl, dif_neg (by omega)]
  · exact dif_neg hl

theorem readRowRun_answers {l : LineNo} {i : ModuleNo} (hl : (byteAt body 5).toNat = l.val)
    (hi : (byteAt body 6).toNat = i.val) :
    readRowRun body u = u.answer (if (u.lamps[rowOf l i]).arrow.flash?.isSome then 0 else 2)
      (mappingData ((u.boards[l]).modules[i]).mapping ++ moduleRecord (u.boards[l]).modules[i]
        ++ lampData u.lamps[rowOf l i] u.freeAt) := by
  have hlt : (byteAt body 5).toNat < 4 := hl ▸ l.isLt
  have hit : (byteAt body 6).toNat < 32 := hi ▸ i.isLt
  obtain rfl : l = ⟨_, hlt⟩ := Fin.ext hl.symm
  obtain rfl : i = ⟨_, hit⟩ := Fin.ext hi.symm
  exact (dif_pos hlt).trans (dif_pos hit)

/-- The lamp data of a row: the arrow first and the halt lamp last, the phase and remaining count of a flash between
(R118, R202). -/
theorem lampData_laid (x : RowLamps) (free : Nat → Byte) :
    (lampData x free).length = 4 ∧ (lampData x free).head? = some (arrowCode x.arrow)
      ∧ (lampData x free).getLast? = some (flagByte x.halt)
      ∧ ∀ f, x.arrow.flash? = some f →
          (lampData x free)[1]? = some (phaseCode f.phase) ∧ (lampData x free)[2]? = some (BitVec.ofNat 8 f.remaining) := by
  rw [lampData]
  rcases x.arrow.flash? with _ | f
  · exact ⟨rfl, rfl, rfl, nofun⟩
  · refine ⟨rfl, rfl, rfl, ?_⟩
    rintro _ ⟨⟩
    exact ⟨rfl, rfl⟩

theorem withPart_bad {run : TermNo → Nat → State → Done} (h : 31 < (byteAt body 5).toNat ∨ 1 < (byteAt body 6).toNat) :
    withPart run body u = u.refuse .badOperand := by
  rw [withPart]
  by_cases hl : (byteAt body 5).toNat < 32
  · rw [dif_pos hl, if_neg (by omega)]
  · exact dif_neg hl

theorem withPart_runs {run : TermNo → Nat → State → Done} {t : TermNo} (ht : (byteAt body 5).toNat = t.val)
    (hp : (byteAt body 6).toNat ≤ 1) : withPart run body u = run t (byteAt body 6).toNat u := by
  obtain ⟨t, hlt⟩ := t
  subst ht
  exact (dif_pos hlt).trans (if_pos (by omega))

theorem readTapeRun_answers {ch : Channel} (h : channelOf (byteAt body 5) = some ch) :
    readTapeRun body u = u.answer 0 (tapeData (u.tape ch)) := by
  rw [readTapeRun, h]

theorem readTapeRun_bad (ha : byteAt body 5 ≠ 0x41) (hb : byteAt body 5 ≠ 0x42) :
    readTapeRun body u = u.refuse .badOperand := by
  rw [readTapeRun, channelOf_none ha hb]

theorem readLineRun_board {l : LineNo} {k : Fin 4} (hl : (byteAt body 6).toNat = l.val) (ha : byteAt body 5 = 1)
    (hk : (byteAt body 7).toNat = k.val) :
    readLineRun body u = u.answer (if (u.boards[l]).inFlight.isNone then 1 else 0)
      (boardLineData u.boards[l] k (u.freeAt 0)) := by
  have hlt : (byteAt body 6).toNat < 4 := hl ▸ l.isLt
  have hkt : (byteAt body 7).toNat < 4 := hk ▸ k.isLt
  obtain rfl : l = ⟨_, hlt⟩ := Fin.ext hl.symm
  obtain rfl : k = ⟨_, hkt⟩ := Fin.ext hk.symm
  exact (dif_pos hlt).trans ((if_pos ha).trans (dif_pos hkt))

theorem readLineRun_terminal {l : LineNo} (hl : (byteAt body 6).toNat = l.val) (ha : byteAt body 5 = 2)
    (hp : byteAt body 7 = 0) :
    readLineRun body u = u.answer (if (u.termLines[l]).inFlight.isNone then 1 else 0)
      (termLineData u l (u.freeAt 0)) := by
  have hlt : (byteAt body 6).toNat < 4 := hl ▸ l.isLt
  obtain rfl : l = ⟨_, hlt⟩ := Fin.ext hl.symm
  exact (dif_pos hlt).trans ((if_neg (by rw [ha]; decide)).trans (if_pos ⟨ha, hp⟩))

theorem readLineRun_bad (h : ¬ ((byteAt body 6).toNat ≤ 3 ∧ ((byteAt body 5 = 1 ∧ (byteAt body 7).toNat ≤ 3)
    ∨ (byteAt body 5 = 2 ∧ byteAt body 7 = 0)))) : readLineRun body u = u.refuse .badOperand := by
  rw [readLineRun]
  by_cases hl : (byteAt body 6).toNat < 4
  · obtain ⟨hboard, hterm⟩ := not_or.1 (not_and.1 h (by omega))
    rw [dif_pos hl]
    by_cases ha : byteAt body 5 = 1
    · rw [if_pos ha, dif_neg (fun hk => hboard ⟨ha, by omega⟩)]
    · rw [if_neg ha, if_neg hterm]
  · exact dif_neg hl

theorem readCountsRun_bad (h : 1 < (byteAt body 5).toNat) : readCountsRun body u = u.refuse .badOperand := by
  rw [readCountsRun, if_neg (fun h0 => absurd h (by rw [h0]; decide)), if_neg (fun h1 => absurd h (by rw [h1]; decide))]

end

/-- Settles O30: each read's run on the taken card, by its operands. -/
theorem readsAnswer : Obligations.ReadsAnswer := by
  intro s body serial rest h hc a b reply sent asks
  have hasks {n : Nat} {table : Byte} (hn : 5 ≤ n) (ha : asks n table) : readIs table body = true :=
    readIs_of_length hn hc ha
  refine ⟨?issue, ?row, ?watch, ?alerts, ?watchBad, ?alertsBad, ?tape, ?line, ?counts, ?unit⟩
  case issue =>
    intro ha n
    have hm := hasks (by decide) ha
    have hrun : withLength 7 readIssueRun body (s.taken rest) = readIssueRun body (s.taken rest) :=
      withLength_enough ha.1 _
    refine ⟨fun hn => ?_, fun hn => ?_, fun h1 hn => ?_⟩
    · exact h.readRefused (run := withLength 7 readIssueRun) (r := .badOperand) hm (hrun.trans (readIssueRun_high hn))
    · exact h.readRefused (run := withLength 7 readIssueRun) (r := .noIssue) hm (hrun.trans (readIssueRun_zero hn))
    · refine h.readAnswers (run := withLength 7 readIssueRun) (n := 0) hm
        (hrun.trans ((readIssueRun_answers h1 hn).trans ?_))
      change (match findRecord s.issues.records n with
        | some r => _
        | none => _) = _
      cases findRecord s.issues.records n <;> rfl
  case row =>
    intro ha
    have hm := hasks (by decide) ha
    have hrun : withLength 7 readRowRun body (s.taken rest) = readRowRun body (s.taken rest) :=
      withLength_enough ha.1 _
    refine ⟨fun hbad => ?_, fun l i hl hi => ?_⟩
    · exact h.readRefused (run := withLength 7 readRowRun) (r := .badOperand) hm (hrun.trans (readRowRun_bad hbad))
    · intro m
      refine ⟨lampData s.lamps[rowOf l i] (s.taken rest).freeAt, ?_, lampData_laid ..⟩
      exact h.readAnswers (run := withLength 7 readRowRun) hm (hrun.trans (readRowRun_answers hl hi))
  case watch =>
    intro ha t ht hb
    exact h.readAnswers (run := withLength 7 (withPart readWatchListRun)) (n := 0) (hasks (by decide) ha)
      ((withLength_enough ha.1 _).trans (withPart_runs ht hb))
  case alerts =>
    intro ha t ht hb
    exact h.readAnswers (run := withLength 7 (withPart readAlertsRun)) (n := 0) (hasks (by decide) ha)
      ((withLength_enough ha.1 _).trans (withPart_runs ht hb))
  case watchBad =>
    intro ha hbad
    exact h.readRefused (run := withLength 7 (withPart readWatchListRun)) (r := .badOperand) (hasks (by decide) ha)
      ((withLength_enough ha.1 _).trans (withPart_bad hbad))
  case alertsBad =>
    intro ha hbad
    exact h.readRefused (run := withLength 7 (withPart readAlertsRun)) (r := .badOperand) (hasks (by decide) ha)
      ((withLength_enough ha.1 _).trans (withPart_bad hbad))
  case tape =>
    intro ha
    have hm := hasks (by decide) ha
    have hrun : withLength 6 readTapeRun body (s.taken rest) = readTapeRun body (s.taken rest) :=
      withLength_enough ha.1 _
    refine ⟨fun hA => ?_, fun hB => ?_, fun hA hB => ?_⟩
    · exact h.readAnswers (run := withLength 6 readTapeRun) (n := 0) hm
        (hrun.trans (readTapeRun_answers (ch := .a) (if_pos hA)))
    · have hch : channelOf a = some .b := by rw [hB]; rfl
      exact h.readAnswers (run := withLength 6 readTapeRun) (n := 0) hm (hrun.trans (readTapeRun_answers hch))
    · exact h.readRefused (run := withLength 6 readTapeRun) (r := .badOperand) hm (hrun.trans (readTapeRun_bad hA hB))
  case line =>
    intro ha part
    have hm := hasks (by decide) ha
    have hrun : withLength 8 readLineRun body (s.taken rest) = readLineRun body (s.taken rest) :=
      withLength_enough ha.1 _
    refine ⟨fun hbad => ?_, fun l hl => ⟨fun k h1 hk => ?_, fun h2 hp => ?_⟩⟩
    · exact h.readRefused (run := withLength 8 readLineRun) (r := .badOperand) hm (hrun.trans (readLineRun_bad hbad))
    · exact h.readAnswers (run := withLength 8 readLineRun) hm (hrun.trans (readLineRun_board hl h1 hk))
    · exact h.readAnswers (run := withLength 8 readLineRun) hm (hrun.trans (readLineRun_terminal hl h2 hp))
  case counts =>
    intro ha
    have hm := hasks (by decide) ha
    have hrun : withLength 6 readCountsRun body (s.taken rest) = readCountsRun body (s.taken rest) :=
      withLength_enough ha.1 _
    refine ⟨fun h0 => ?_, fun h1 => ?_, fun hbad => ?_⟩
    · exact h.readAnswers (run := withLength 6 readCountsRun) (n := 0) hm (hrun.trans (if_pos h0))
    · refine h.readAnswers (run := withLength 6 readCountsRun) (n := 0) hm (hrun.trans ((if_neg ?_).trans (if_pos h1)))
      exact fun h0 => absurd (h1.symm.trans h0) (by decide)
    · exact h.readRefused (run := withLength 6 readCountsRun) (r := .badOperand) hm (hrun.trans (readCountsRun_bad hbad))
  case unit =>
    intro ha
    refine (h.readAnswers (run := fun _ s => s.answer 0 (unitData s)) (n := 0) (hasks (by decide) ha) rfl).trans ?_
    have hsession : sessionCode s.issues.session = if s.issues.session = .opened then 0 else 1 := by
      cases s.issues.session <;> rfl
    refine congrArg (fun d => Host.Outcome.next (sent 0x08 0x00 0 d)) ?_
    rw [← hsession]
    rfl

end Sys2Proof.Machine
end

