-- ==== Sys2Proof/Proofs/Layouts.lean ====
section
/-! PROOFS. The layouts of read data, field by field (R197, R202). -/

namespace Sys2Proof.Machine

/-- A text is laid out as fields, each in its width. -/
def Laid (data : Text) (fields : List (Nat × Text)) : Prop :=
  data = (fields.map Prod.snd).flatten ∧ ∀ x ∈ fields, x.2.length = x.1

theorem Laid.nil : Laid [] [] := ⟨rfl, nofun⟩

theorem Laid.append {x y : Text} {xs ys : List (Nat × Text)} (hx : Laid x xs) (hy : Laid y ys) :
    Laid (x ++ y) (xs ++ ys) := by
  refine ⟨?_, List.forall_mem_append.2 ⟨hx.2, hy.2⟩⟩
  rw [List.map_append, List.flatten_append, ← hx.1, ← hy.1]

theorem Laid.flatMap {α : Type} {f : α → Text} {g : α → List (Nat × Text)} (xs : List α) (h : ∀ a, Laid (f a) (g a)) :
    Laid (xs.flatMap f) (xs.flatMap g) := by
  induction xs with
  | nil => exact .nil
  | cons a xs ih => exact (h a).append ih

/-- Single characters. -/
theorem Laid.bytes (cs : Text) : Laid cs (cs.map fun c => (1, [c])) := by
  induction cs with
  | nil => exact .nil
  | cons c cs ih => exact Laid.append (x := [c]) (xs := [(1, [c])]) ⟨rfl, by simp⟩ ih

theorem length_writeNat (w n : Nat) : (writeNat w n).length = w := by
  induction w generalizing n with
  | zero => rfl
  | succ w ih => rw [writeNat, List.length_append, ih, List.length_singleton]

/-! ### The bytes -/

theorem flagByte_eq (b : Bool) : flagByte b = BitVec.ofNat 8 b.toNat := by cases b <;> rfl

theorem flagByte_pair (a b : Bool) : flagByte a ||| (flagByte b <<< 1) = BitVec.ofNat 8 (a.toNat + 2 * b.toNat) := by
  cases a <;> cases b <;> rfl

theorem tickCode_eq (t : Tick) :
    tickCode t = BitVec.ofNat 8 (([.none, .up, .down, .zeroUp, .zeroDown] : List Tick).idxOf t) := by cases t <;> rfl

theorem moduleFlags_eq (m : BoardModule) (h : m.timeouts ≤ 3) :
    moduleFlags m = BitVec.ofNat 8 ([ModuleState.unknown, .live, .dark].idxOf m.state + 4 * m.blanking.toNat
      + 8 * m.backOff.isSome.toNat + 16 * m.timeouts) := by
  have hstate : moduleStateCode m.state = [ModuleState.unknown, .live, .dark].idxOf m.state := by
    cases m.state <;> rfl
  rw [moduleFlags, hstate, Nat.mod_eq_of_lt (by omega)]

theorem terminalStateCode_eq (x : TerminalState) :
    terminalStateCode x = [TerminalState.disabled, .unknown, .online, .offline].idxOf x := by cases x <;> rfl

theorem moduleRecord_laid (m : BoardModule) (h : m.timeouts ≤ 3) : Laid (moduleRecord m)
    [(1, [BitVec.ofNat 8 ([ModuleState.unknown, .live, .dark].idxOf m.state + 4 * m.blanking.toNat
        + 8 * m.backOff.isSome.toNat + 16 * m.timeouts)]),
      (1, [m.dirty.toByte]), (2, writeNat 2 (m.mark.getD 65535))] := by
  refine ⟨?_, by simp [length_writeNat]⟩
  rw [moduleRecord, moduleFlags_eq m h]
  simp

theorem issueData_laid (r : IssueRecord) (hs : r.symbol.length ≤ 4) (hr : r.rows.length ≤ 4) : Laid (issueData true r)
    [(1, [BitVec.ofNat 8 1]), (4, r.symbol ++ List.replicate (4 - r.symbol.length) 0x20), (1, [BitVec.ofNat 8 r.denom]),
      (1, [BitVec.ofNat 8 (r.eligA.toNat + 2 * r.eligB.toNat)]), (3, writeNat 3 r.close), (3, writeNat 3 r.last),
      (3, writeNat 3 (r.high.getD 0)), (3, writeNat 3 (r.low.getD 0)), (3, writeNat 3 (r.bid.getD 0)),
      (3, writeNat 3 (r.ask.getD 0)), (3, writeInt 3 r.netChange),
      (1, [BitVec.ofNat 8 (([.none, .up, .down, .zeroUp, .zeroDown] : List Tick).idxOf r.tick)]),
      (1, [BitVec.ofNat 8 (r.traded.toNat + 2 * r.halted.toNat)]), (4, writeNat 4 r.volume),
      (1, [BitVec.ofNat 8 r.rows.length]),
      (4, r.rows.map (fun q : RowNo => BitVec.ofNat 8 q.val) ++ List.replicate (4 - r.rows.length) 0xFF),
      (4, writeNat 4 r.watchers.toNat)] := by
  have hrows : rowPlaces r.rows =
      r.rows.map (fun q : RowNo => BitVec.ofNat 8 q.val) ++ List.replicate (4 - r.rows.length) 0xFF := by
    simp only [rowPlaces, List.length_map, Config.rowPlaces]
  refine ⟨?_, by simp [length_writeNat, writeInt, hs, hr]⟩
  rw [issueData, flagByte_pair, flagByte_pair, flagByte_eq, hrows, tickCode_eq, symbolField]
  simp [writePrice]

theorem slotData_laid (a : AlertSetting) : Laid (slotData (some a))
    [(1, [BitVec.ofNat 8 (if a.fired then 2 else 1)]), (2, writeNat 2 a.issue), (1, [conditionCode a.condition]),
      (1, [BitVec.ofNat 8 a.negate.toNat]), (4, writeInt 4 a.limit), (1, [BitVec.ofNat 8 a.owed.toNat])] := by
  refine ⟨?_, by simp [length_writeNat, writeInt]⟩
  have hfired : (if a.fired then 2 else 1 : Byte) = BitVec.ofNat 8 (if a.fired then 2 else 1) := by
    cases a.fired <;> rfl
  rw [slotData, hfired, flagByte_eq, flagByte_eq]
  simp

/-- A place of a watch list; past its end 0 and no field (R184). -/
theorem watchPlace_laid (watch : List WatchEntry) (i : Nat) : Laid (watchPlace watch i)
    ((watch[i]?).elim [(2, writeNat 2 0), (1, [BitVec.ofNat 8 0])]
      fun e => [(2, writeNat 2 e.issue), (1, [e.pending.toByte])]) := by
  rw [watchPlace]
  cases watch[i]? with
  | none => exact ⟨rfl, by simp [length_writeNat]⟩
  | some e => exact ⟨rfl, by simp [length_writeNat]⟩

theorem dropRecord_laid (x : Terminal) (h : x.timeouts ≤ 3) : Laid (dropRecord x)
    [(1, [BitVec.ofNat 8 ([TerminalState.disabled, .unknown, .online, .offline].idxOf x.state + 16 * x.timeouts)]),
      (1, [BitVec.ofNat 8 x.queue.length]), (1, [BitVec.ofNat 8 (x.feedOwed.toNat + 2 * x.lengthOwed.toNat)])] := by
  refine ⟨?_, by simp⟩
  rw [dropRecord, flagByte_pair, terminalStateCode_eq, Nat.mod_eq_of_lt (by omega)]
  rfl

/-- A list of two-character numbers. -/
theorem counts_laid (ns : List Nat) : Laid (ns.flatMap count2) (ns.map fun n => (2, writeNat 2 n)) := by
  induction ns with
  | nil => exact .nil
  | cons n ns ih =>
    exact Laid.append (xs := [(2, writeNat 2 n)]) ⟨(List.append_nil _).symm, by simp [length_writeNat]⟩ ih

theorem partModules_records (b : BoardLine) (k : Fin 4) (record : BoardModule → List (Nat × Text))
    (h : ∀ i : ModuleNo, Laid (moduleRecord b.modules[i]) (record b.modules[i])) :
    Laid ((partModules k).flatMap fun i => moduleRecord b.modules[i])
      ((List.range 8).flatMap fun j => (b.modules[8 * k.val + j]?).elim [] fun m => record m) := by
  rw [partModules, List.flatMap_map, ← List.map_coe_finRange_eq_range, List.flatMap_map]
  refine .flatMap _ fun j => ?_
  have hj : 8 * k.val + j.val = k.val * 8 + j.val := by omega
  have hlt : 8 * k.val + j.val < 32 := by omega
  rw [Vector.getElem?_eq_getElem hlt]
  simp only [hj]
  exact h ⟨k.val * 8 + j.val, by omega⟩

theorem boardLineData_laid (b : BoardLine) (k : Fin 4) (free : Byte) (record : BoardModule → List (Nat × Text))
    (h : ∀ i : ModuleNo, Laid (moduleRecord b.modules[i]) (record b.modules[i])) :
    Laid (boardLineData b k free)
      ([(2, writeNat 2 b.holds), (2, writeNat 2 b.timeouts), (2, writeNat 2 b.markReg), (1, [BitVec.ofNat 8 b.sweep.val]),
          (1, [transferCode b.inFlight]), (1, [transferModule b.inFlight free]), (1, [broadcastCode b.broadcast])]
        ++ (List.range 8).flatMap fun j => (b.modules[8 * k.val + j]?).elim [] fun m => record m) := by
  have hdata : boardLineData b k free = (count2 b.holds ++ (count2 b.timeouts ++ (count2 b.markReg
      ++ [BitVec.ofNat 8 b.sweep.val, transferCode b.inFlight, transferModule b.inFlight free,
        broadcastCode b.broadcast]))) ++ (partModules k).flatMap fun i => moduleRecord b.modules[i] := by
    simp [boardLineData]
  rw [hdata]
  exact Laid.append ⟨by simp [count2], by simp [length_writeNat]⟩ (partModules_records b k record h)

theorem termLineData_laid (s : State) (l : LineNo) (free : Byte) (record : DropNo → List (Nat × Text))
    (h : ∀ d : DropNo, Laid (dropRecord s.terminals[termOf l d]) (record d)) :
    Laid (termLineData s l free)
      ([(2, writeNat 2 (s.termLines[l]).timeouts), (2, writeNat 2 (s.termLines[l]).busies),
          (2, writeNat 2 (s.termLines[l]).retries), (1, [BitVec.ofNat 8 (s.termLines[l]).pollPtr.val]),
          (1, [((s.termLines[l]).inFlight.map fun y => BitVec.ofNat 8 y.drop.val).getD 0xFF]),
          (1, [stageCode (s.termLines[l]).inFlight free])]
        ++ (List.finRange 8).flatMap record) := by
  have hdata : termLineData s l free = (count2 (s.termLines[l]).timeouts ++ (count2 (s.termLines[l]).busies
      ++ (count2 (s.termLines[l]).retries ++ [BitVec.ofNat 8 (s.termLines[l]).pollPtr.val,
        ((s.termLines[l]).inFlight.map fun y => BitVec.ofNat 8 y.drop.val).getD 0xFF,
        stageCode (s.termLines[l]).inFlight free]))) ++
      (List.finRange 8).flatMap fun d => dropRecord s.terminals[termOf l d] := by
    simp [termLineData]
  rw [hdata]
  exact Laid.append ⟨by simp [count2], by simp [length_writeNat]⟩ (.flatMap _ h)

theorem watchData_laid (x : Terminal) (p : Nat) : Laid (watchData x p)
    ([(1, [BitVec.ofNat 8 ([TerminalState.disabled, .unknown, .online, .offline].idxOf x.state)]),
        (1, [BitVec.ofNat 8 x.watch.length]), (1, [BitVec.ofNat 8 x.cursor]), (1, [BitVec.ofNat 8 x.lengthOwed.toNat])]
      ++ (List.range 12).flatMap fun j =>
        (x.watch[12 * p + j]?).elim [(2, writeNat 2 0), (1, [BitVec.ofNat 8 0])]
          fun e => [(2, writeNat 2 e.issue), (1, [e.pending.toByte])]) := by
  rw [watchData, terminalStateCode_eq, flagByte_eq]
  exact Laid.append (x := [_, _, _, _]) ⟨rfl, by simp⟩ (.flatMap _ fun j => watchPlace_laid _ _)

theorem tapeData_laid (c : TapeChannel) (threshold : Threshold → List (Nat × Text))
    (ht : ∀ t, threshold t = [(2, writeNat 2 t.value), (1, [BitVec.ofNat 8 t.scale])]) :
    Laid (tapeData c) ([(1, [BitVec.ofNat 8 c.loaded.normal]), (1, [BitVec.ofNat 8 c.loaded.rush])]
      ++ threshold c.loaded.thresholds.up1 ++ threshold c.loaded.thresholds.up2 ++ threshold c.loaded.thresholds.up3
      ++ threshold c.loaded.thresholds.down1 ++ threshold c.loaded.thresholds.down2
      ++ threshold c.loaded.thresholds.down3
      ++ [(3, writeNat 3 c.loaded.block), (3, writeNat 3 c.loaded.minimum), (2, writeNat 2 c.loaded.interval),
        (1, [BitVec.ofNat 8 c.level]), (3, writeNat 3 c.lateness), (1, [BitVec.ofNat 8 c.rate]),
        (1, [BitVec.ofNat 8 (if c.level ≤ 1 then c.loaded.normal else c.loaded.rush)]),
        (2, writeNat 2 c.queue.length), (3, writeNat 3 c.backlog),
        (1, [BitVec.ofNat 8 (c.emission.isSome.toNat + 2 * c.flashTimer.isSome.toNat)]),
        (2, writeNat 2 c.dropped), (2, writeNat 2 c.merged)]) := by
  have htarget : c.target = if c.level ≤ 1 then c.loaded.normal else c.loaded.rush := by
    simp only [TapeChannel.target, Nat.lt_succ_iff]
  simp only [ht]
  refine ⟨?_, by simp [length_writeNat]⟩
  rw [tapeData, flagByte_pair, htarget]
  simp [thresholdData, count2]

theorem countsPart0_laid (s : State) : Laid (countsPart0 s) (s.feed.counts.list.map (fun n => (2, writeNat 2 n))
    ++ [(1, [BitVec.ofNat 8 (if s.feed.feedState = .quiet then 1 else 0)]), (1, [BitVec.ofNat 8 s.feed.lock.toNat]),
      (1, [s.feed.expected])]
    ++ [s.issues.mismatches, s.tapeA.dropped, s.tapeA.merged, s.tapeB.dropped, s.tapeB.merged, s.control.discards,
      s.upstream.lost].map fun n => (2, writeNat 2 n)) := by
  have hstate : feedStateCode s.feed.feedState = BitVec.ofNat 8 (if s.feed.feedState = .quiet then 1 else 0) := by
    cases s.feed.feedState <;> rfl
  have hdata : countsPart0 s = (s.feed.counts.list.flatMap count2
      ++ [BitVec.ofNat 8 (if s.feed.feedState = .quiet then 1 else 0), BitVec.ofNat 8 s.feed.lock.toNat, s.feed.expected])
      ++ [s.issues.mismatches, s.tapeA.dropped, s.tapeA.merged, s.tapeB.dropped, s.tapeB.merged, s.control.discards,
        s.upstream.lost].flatMap count2 := by
    rw [countsPart0, hstate, flagByte_eq, List.append_assoc]
    rfl
  rw [hdata]
  exact ((counts_laid _).append (.bytes [_, _, _])).append (counts_laid _)

theorem countsPart1_laid (s : State) : Laid (countsPart1 s)
    ((List.finRange 4).flatMap (fun l : LineNo =>
        [(2, writeNat 2 (s.boards[l]).holds), (2, writeNat 2 (s.boards[l]).timeouts)])
      ++ (List.finRange 4).flatMap fun l : LineNo => [(2, writeNat 2 (s.termLines[l]).timeouts),
        (2, writeNat 2 (s.termLines[l]).busies), (2, writeNat 2 (s.termLines[l]).retries)]) := by
  refine Laid.append (.flatMap _ fun l => ?_) (.flatMap _ fun l => ?_)
  · exact ⟨by simp [count2], by simp [length_writeNat]⟩
  · exact ⟨by simp [count2], by simp [length_writeNat]⟩

/-- Settles O31: each layout is its reply's text, cut field by field. -/
theorem readDataLaid : Obligations.ReadDataLaid := by
  unfold Obligations.ReadDataLaid
  intro laid one num price set ticks record state
  refine ⟨issueData_laid, moduleRecord_laid, ⟨⟨rfl, ?_⟩, fun p => ⟨?_, ?_⟩⟩, ⟨rfl, rfl, fun f => rfl⟩,
    fun b k free hb => ?_, fun s l free hs => ?_, watchData_laid, ⟨⟨rfl, ?_⟩, rfl, rfl, slotData_laid⟩,
    fun c => tapeData_laid c (fun t => [num 2 t.value, one t.scale]) fun _ => rfl, fun s => ⟨countsPart0_laid s, countsPart1_laid s⟩⟩
  · simp [one, num, length_writeNat]
  · rfl
  · simp [one, num, set, length_writeNat]
  · have hlaid := boardLineData_laid b k free record fun i => moduleRecord_laid _ (hb i)
    rcases hf : b.inFlight with _ | ⟨_ | _ | _ | _, _, _⟩ <;> rcases hc : b.broadcast with _ | _ | _ <;>
      rw [hf, hc] at hlaid <;> exact hlaid
  · intro x
    have hlaid := termLineData_laid s l free _ fun d => dropRecord_laid _ (hs d)
    rcases hf : (s.termLines[l]).inFlight with _ | ⟨d, _ | _ | _ | _, c⟩ <;> rw [hf] at hlaid <;>
      exact hlaid
  · simp [one, num, length_writeNat]

end Sys2Proof.Machine
end

