-- ==== Sys2Proof/Proofs/AlertOps.lean ====
section
/-! PROOFS. SET ALERT and CLEAR ALERT (R162, R172). -/

namespace Sys2Proof.Machine

section
variable {body : Text} {u : State} {run : TermNo → Text → State → Done}

theorem withTerminal_bad (h : 31 < (byteAt body 4).toNat) : withTerminal run body u = u.refuse .badOperand :=
  dif_neg (by omega)

theorem withTerminal_runs {t : TermNo} (ht : (byteAt body 4).toNat = t.val) : withTerminal run body u = run t body u := by
  have hlt : (byteAt body 4).toNat < 32 := ht ▸ t.isLt
  obtain rfl : t = ⟨_, hlt⟩ := Fin.ext ht.symm
  exact dif_pos hlt

end

theorem conditionOf_iff (c : Byte) (k : Condition) : conditionOf c = some k ↔ 1 ≤ c.toNat ∧
    ([.lastAbove, .lastBelow, .changeAbove, .changeBelow, .uptick, .atHigh, .atLow, .halted] :
      List Condition)[c.toNat - 1]? = some k := by
  rw [conditionOf]
  generalize c.toNat = n
  rcases n with _ | _ | _ | _ | _ | _ | _ | _ | _ | n
  case zero => exact ⟨nofun, fun h => absurd h.1 (by decide)⟩
  case succ.succ.succ.succ.succ.succ.succ.succ.succ => exact ⟨nofun, nofun⟩
  all_goals exact ⟨fun h => ⟨by decide, h⟩, fun h => h.2⟩

theorem conditionOf_code (c : Byte) (k : Condition) : conditionOf c = some k ↔ c = conditionCode k := by
  revert c
  cases k <;> decide +kernel

theorem limitOk_iff (k : Condition) (limit : Int) : limitOk k limit = true ↔
    (k ∈ ([.lastAbove, .lastBelow] : List Condition) → 1 ≤ limit ∧ limit ≤ 2559999)
      ∧ (k ∈ ([.changeAbove, .changeBelow] : List Condition) → -2559998 ≤ limit ∧ limit ≤ 2559998) := by
  cases k <;> simp [limitOk, Config.maxPrice, Config.maxChange] <;> exact decide_eq_true_iff

theorem limitTaken_eq (k : Condition) (limit : Int) : limitTaken k limit =
    if k ∈ ([.lastAbove, .lastBelow] : List Condition) ∨ k ∈ ([.changeAbove, .changeBelow] : List Condition)
    then limit else 0 := by
  cases k <;> rfl

section
variable {s : State} {t : TermNo} {k : SlotNo}

/-- An ARMED slot evaluated: it stands, or it fires and its message joins or is owed (R157, R158, R159). -/
theorem State.evaluate_armed {a : AlertSetting} {r : IssueRecord} (h : (s.alerts[t])[k] = some a) (hf : a.fired = false)
    (ho : a.owed = false) (hr : findRecord s.issues.records a.issue = some r) :
    (a.holds r = false → s.evaluate t k = s)
      ∧ (a.holds r = true → (s.terminals[t]).takesOffer = true → s.evaluate t k =
          (s.setAlert t k (some { a with fired := true })).setTerm t
            ((s.terminals[t]).push (.alert (alertChars k a r s.issues.clock))))
      ∧ (a.holds r = true → (s.terminals[t]).takesOffer = false → s.evaluate t k =
          s.setAlert t k (some { a with fired := true, owed := true })) := by
  obtain ⟨hfires, -, hstays⟩ := State.evaluate_slot h hr
  refine ⟨fun hh => ?_, fun hh hroom => ?_, fun hh hroom => ?_⟩
  · have hsame : ({ a with fired := false, owed := false } : AlertSetting) = a := by
      rcases a with ⟨f, n, c, g, l, o⟩
      cases hf
      cases ho
      rfl
    rw [hstays hh, hsame, ← h, State.setAlert_self]
  · rw [hfires hh hf]
    rcases s.fire_cases t k a r with ⟨-, he⟩ | ⟨hfull, -⟩
    · rw [he, ← ho]
    · exact absurd (hfull.symm.trans hroom) Bool.false_ne_true
  · rw [hfires hh hf]
    rcases s.fire_cases t k a r with ⟨hopen, -⟩ | ⟨-, he⟩
    · exact absurd (hroom.symm.trans hopen) Bool.false_ne_true
    · exact he

end

/-- A slot set ARMED and evaluated at once (R162). -/
theorem State.setAlert_evaluate (s : State) (t : TermNo) (k : SlotNo) {a : AlertSetting} {r : IssueRecord}
    (hf : a.fired = false) (ho : a.owed = false) (hr : findRecord s.issues.records a.issue = some r) :
    let u := (s.setAlert t k (some a)).evaluate t k
    let x := s.terminals[t]
    (a.holds r = false → (u.alerts[t])[k] = some a ∧ u.terminals = s.terminals)
      ∧ (a.holds r = true → x.queue.length < 8 ∧ x.state ≠ .disabled →
          (u.alerts[t])[k] = some { a with fired := true }
            ∧ u.terminals[t] = { x with queue := x.queue ++ [.alert (alertChars k a r s.issues.clock)] })
      ∧ (a.holds r = true → ¬ (x.queue.length < 8 ∧ x.state ≠ .disabled) →
          (u.alerts[t])[k] = some { a with fired := true, owed := true } ∧ u.terminals = s.terminals)
      ∧ (∀ (v : TermNo) (j : SlotNo), (v, j) ≠ (t, k) → (u.alerts[v])[j] = (s.alerts[v])[j])
      ∧ (∀ v : TermNo, v ≠ t → u.terminals[v] = s.terminals[v]) := by
  intro u x
  have hset (b : AlertSetting) : (s.setAlert t k (some a)).setAlert t k (some b) = s.setAlert t k (some b) :=
    State.setAlert_setAlert ..
  have hslot (b : AlertSetting) : ((s.setAlert t k (some b)).alerts[t])[k] = some b :=
    (State.setAlert_slot _ t t k k _).trans (if_pos ⟨rfl, rfl⟩)
  have hother (b : AlertSetting) (v : TermNo) (j : SlotNo) (hne : (v, j) ≠ (t, k)) :
      ((s.setAlert t k (some b)).alerts[v])[j] = (s.alerts[v])[j] :=
    (State.setAlert_slot _ t v k j _).trans (if_neg fun he => hne (Prod.ext he.1 he.2))
  obtain ⟨hstays, hjoins, howes⟩ := State.evaluate_armed (hslot a) hf ho hr
  rcases hh : a.holds r with _ | _
  · have hu : u = s.setAlert t k (some a) := hstays hh
    rw [hu]
    exact ⟨fun _ => ⟨hslot a, rfl⟩, nofun, nofun, hother a, fun _ _ => rfl⟩
  by_cases hroom : x.queue.length < 8 ∧ x.state ≠ .disabled
  · have hu : u = (s.setAlert t k (some { a with fired := true })).setTerm t
        (x.push (.alert (alertChars k a r s.issues.clock))) := by
      refine (hjoins hh (x.takesOffer_iff.2 hroom)).trans ?_
      rw [hset]
      rfl
    rw [hu]
    exact ⟨nofun, fun _ _ => ⟨hslot _, State.setTerm_terminal _ _ _⟩, fun _ h => absurd hroom h, hother _,
      fun v hv => (State.setTerm_term _ _ _ _).trans (if_neg hv)⟩
  · have hu : u = s.setAlert t k (some { a with fired := true, owed := true }) := by
      refine (howes hh (Bool.eq_false_iff.2 (mt x.takesOffer_iff.1 hroom))).trans ?_
      rw [hset]
    rw [hu]
    exact ⟨nofun, fun _ h => absurd h hroom, fun _ _ => ⟨hslot _, rfl⟩, hother _, fun _ _ => rfl⟩

theorem State.answered_frame (s : State) (addressed : Bool) (reply : Text) : s.answered addressed reply =
    { s with upstream := if addressed then s.upstream.fill reply else s.upstream } := by
  cases addressed <;> rfl

theorem State.alertIssue_high {s : State} {n : Nat} (h : 1023 < n) : s.alertIssue n = .error .badOperand := if_pos h

theorem State.alertIssue_free {s : State} {n : Nat} (hn : n ≤ 1023) (h : listed s n = none) :
    s.alertIssue n = .error .noIssue := by
  rw [alertIssue, h]
  exact if_neg (not_lt.2 hn)

theorem State.alertIssue_listed {s : State} {n : Nat} {r : IssueRecord} (h : listed s n = some r) :
    s.alertIssue n = .ok n := by
  rw [alertIssue, h]
  exact if_neg (not_lt.2 (listed_eq_some.1 h).2.1)

section
variable {s : State} {body : Text} {t : TermNo}

theorem setAlertRun_error {e : Result} (h : s.setSlot t (byteAt body 5) (byteAt body 8) (byteAt body 9)
    (readInt32 body 10) (s.alertIssue (readNat body 6 2)) = .error e) : setAlertRun t body s = s.refuse e := by
  rw [setAlertRun, h]

theorem setAlertRun_ok {u : State} {k : SlotNo} (h : s.setSlot t (byteAt body 5) (byteAt body 8) (byteAt body 9)
    (readInt32 body 10) (s.alertIssue (readNat body 6 2)) = .ok (u, k)) : setAlertRun t body s = (u.evaluate t k).done := by
  rw [setAlertRun, h]

theorem clearAlertRun_bad (h : 7 < (byteAt body 5).toNat) : clearAlertRun t body s = s.refuse .badOperand := by
  rw [clearAlertRun, slotOf_none h]

theorem clearAlertRun_clears {k : SlotNo} (h : (byteAt body 5).toNat = k.val) :
    clearAlertRun t body s = (s.setAlert t k none).done := by
  rw [clearAlertRun, slotOf_eq h]

end

/-- Settles O24: the slot that SET ALERT sets is ARMED and is evaluated at once, which is one case of a change notice. -/
theorem alertOperationsTaken : Obligations.AlertOperationsTaken := by
  refine ⟨fun c k limit => ⟨conditionOf_iff c k, conditionOf_code c k, limitOk_iff k limit, limitTaken_eq k limit⟩, ?_⟩
  intro s addressed body serial rest h term slot n limit reply refused badFirst
  refine ⟨fun hl hc => ?set, fun hl hc => ?clear⟩
  case clear =>
    have hrun : withLength 6 (withTerminal clearAlertRun) body (s.taken rest) =
        withTerminal clearAlertRun body (s.taken rest) := withLength_enough hl _
    have hrefuses := h.refuses (run := withLength 6 (withTerminal clearAlertRun)) (r := .badOperand) (by omega) hc
    refine ⟨fun hbad => hrefuses (hrun.trans ?_), fun t k ht hk => ?_⟩
    · by_cases hlt : 31 < term
      · exact withTerminal_bad hlt
      · exact (withTerminal_runs (t := ⟨term, by omega⟩) rfl).trans (clearAlertRun_bad (hbad.resolve_left hlt))
    · exact h.operates (run := withLength 6 (withTerminal clearAlertRun)) (r := .done) (by omega) hc
        (hrun.trans ((withTerminal_runs ht).trans (clearAlertRun_clears hk))) rfl
  case set =>
    have hrun : withLength 14 (withTerminal setAlertRun) body (s.taken rest) =
        withTerminal setAlertRun body (s.taken rest) := withLength_enough hl _
    have hrefuses {r : Result} (t : TermNo) (ht : term = t.val) (he : (s.taken rest).setSlot t (byteAt body 5)
        (byteAt body 8) (byteAt body 9) (readInt32 body 10) ((s.taken rest).alertIssue (readNat body 6 2)) = .error r) :
        exec .setAlert s = .next (refused 0x07 (resultCode r)) :=
      h.refuses (run := withLength 14 (withTerminal setAlertRun)) (by omega) hc
        (hrun.trans ((withTerminal_runs ht).trans (setAlertRun_error he)))
    refine ⟨fun hbad => ?_, fun ht hb hn => ?_, fun ht hb hn hfree => ?_, fun t k c ng r ht hk hcond hneg hr =>
      ⟨fun hlimit => ?_, fun hlimit => ?_⟩⟩
    · by_cases hlt : 31 < term
      · exact h.refuses (run := withLength 14 (withTerminal setAlertRun)) (r := .badOperand) (by omega) hc
          (hrun.trans (withTerminal_bad hlt))
      · exact hrefuses ⟨term, by omega⟩ rfl (State.setSlot_badFirst _ _ (hbad.resolve_left hlt))
    · refine hrefuses (r := .badOperand) ⟨term, by omega⟩ rfl ?_
      rw [State.alertIssue_high hn]
      exact State.setSlot_noIssue hb
    · refine hrefuses (r := .noIssue) ⟨term, by omega⟩ rfl ?_
      rw [State.alertIssue_free (s := s.taken rest) (n := readNat body 6 2) hn hfree]
      exact State.setSlot_noIssue hb
    · refine hrefuses (r := .badOperand) t ht ?_
      rw [State.alertIssue_listed (s := s.taken rest) (n := readNat body 6 2) hr]
      exact (State.setSlot_issue hk hcond hneg).1 hlimit
    · intro a x room
      have hok : (s.taken rest).setSlot t (byteAt body 5) (byteAt body 8) (byteAt body 9) (readInt32 body 10)
          ((s.taken rest).alertIssue (readNat body 6 2)) = .ok ((s.taken rest).setAlert t k (some a), k) := by
        rw [State.alertIssue_listed
          (s := s.taken rest) (n := readNat body 6 2) hr]
        exact (State.setSlot_issue hk hcond hneg).2 hlimit
      have hframe := ((s.taken rest).setAlert t k (some a)).evaluate_frame t k
      have hspec := (s.taken rest).setAlert_evaluate t k (a := a) rfl rfl (listed_eq_some.1 hr).2.2
      generalize hv : ((s.taken rest).setAlert t k (some a)).evaluate t k = v at hframe hspec
      obtain ⟨hstays, hjoins, howes, hslots, hterms⟩ := hspec
      have hexec := h.operates (run := withLength 14 (withTerminal setAlertRun)) (u := v) (r := .done)
        (by omega) hc (hrun.trans ((withTerminal_runs ht).trans ((setAlertRun_ok hok).trans (by rw [hv]; rfl))))
        (by rw [hframe]; rfl)
      refine ⟨_, hexec, ?_⟩
      rw [State.answered_frame]
      refine ⟨hstays, hjoins, howes, hslots, ?_, hterms, ?_⟩
      · rw [hframe]
        rfl
      · rw [hframe]
        rfl

end Sys2Proof.Machine
end

