-- ==== Sys2Proof/Proofs/WatchOps.lean ====
section
/-! PROOFS. A watch list changed, and SET WATCH LIST, ADD WATCH and DROP WATCH (R24, R147, R148, R171). -/

namespace Sys2Proof.Machine

/-! ### The entries of a changed list -/

theorem pendingOf_eq (ws : List WatchEntry) (n : Nat) :
    pendingOf ws n = ((ws.find? fun e => e.issue == n).map WatchEntry.pending).getD .empty := by
  induction ws with
  | nil => rfl
  | cons e es ih =>
    rw [pendingOf]
    by_cases he : e.issue = n
    · rw [if_pos he, List.find?_cons_of_pos (by simpa using he)]
      rfl
    · rw [if_neg he, List.find?_cons_of_neg (by simpa using he), ih]

theorem getElem?_markFrom (k : Nat) (ws : List WatchEntry) (p : Nat) :
    (markFrom k ws)[p]? = ws[p]?.map fun e => if k ≤ p then { e with pending := .terminal } else e := by
  induction ws generalizing k p with
  | nil => cases k <;> rfl
  | cons e es ih =>
    cases k with
    | zero =>
      cases p with
      | zero => rfl
      | succ p => rw [markFrom, List.getElem?_cons_succ, ih, List.getElem?_cons_succ]; simp
    | succ k =>
      cases p with
      | zero => rfl
      | succ p => rw [markFrom, List.getElem?_cons_succ, ih, List.getElem?_cons_succ]; simp

/-- A place of the new list stands at or after the first changed position (R148). -/
theorem firstChanged_le_iff {old new : List Nat} {p : Nat} (h : p < new.length) :
    firstChanged old new ≤ p ↔ ∃ j, j ≤ p ∧ old[j]? ≠ new[j]? := by
  induction new generalizing old p with
  | nil => exact absurd h (by simp)
  | cons b bs ih =>
    cases old with
    | nil => exact ⟨fun _ => ⟨0, Nat.zero_le _, nofun⟩, fun _ => Nat.zero_le _⟩
    | cons a as =>
      rw [firstChanged]
      by_cases hab : a = b
      · subst hab
        rw [if_pos rfl]
        cases p with
        | zero =>
          refine ⟨fun hk => absurd hk (by omega), ?_⟩
          rintro ⟨j, hj, hne⟩
          obtain rfl : j = 0 := by omega
          exact absurd rfl hne
        | succ p =>
          rw [Nat.add_le_add_iff_right, ih (by simpa using h)]
          constructor
          · rintro ⟨j, hj, hne⟩
            exact ⟨j + 1, by omega, hne⟩
          · rintro ⟨_ | j, hj, hne⟩
            · exact absurd rfl hne
            · exact ⟨j, by omega, hne⟩
      · rw [if_neg hab]
        exact ⟨fun _ => ⟨0, Nat.zero_le _, by simpa using hab⟩, fun _ => Nat.zero_le _⟩

theorem getElem?_newEntries (old : List WatchEntry) (new : List Nat) (p : Nat) :
    (newEntries old new)[p]? = new[p]?.map fun n => ⟨n, pendingOf old n⟩ := List.getElem?_map ..

/-- An entry of a changed list: fully pending from the first changed position on, else with the pending set its issue
had; a DISABLED terminal is not marked (R147, R148). -/
theorem Terminal.rewatch_entry {x : Terminal} {new : List Nat} {p : Nat} {e : WatchEntry}
    (h : (x.rewatch new).watch[p]? = some e) : e.pending =
      if x.state ≠ .disabled ∧ firstChanged (x.watch.map WatchEntry.issue) new ≤ p then .terminal
      else pendingOf x.watch e.issue := by
  rw [rewatch] at h
  by_cases hs : x.state = .disabled
  · rw [if_pos hs] at h
    obtain ⟨n, -, rfl⟩ := Option.map_eq_some_iff.1 ((getElem?_newEntries ..).symm.trans h)
    exact (if_neg fun hn => hn.1 hs).symm
  · rw [if_neg hs] at h
    obtain ⟨e, he, rfl⟩ := Option.map_eq_some_iff.1 ((getElem?_markFrom ..).symm.trans h)
    obtain ⟨n, -, rfl⟩ := Option.map_eq_some_iff.1 ((getElem?_newEntries ..).symm.trans he)
    by_cases hk : firstChanged (x.watch.map WatchEntry.issue) new ≤ p
    · rw [if_pos hk, if_pos ⟨hs, hk⟩]
    · rw [if_neg hk, if_neg fun hn => hk hn.2]

theorem Terminal.rewatch_owed (x : Terminal) (new : List Nat) : (x.rewatch new).lengthOwed =
    (x.lengthOwed || decide (x.state ≠ .disabled ∧ (x.watch.map WatchEntry.issue).length ≠ new.length)) := by
  rw [rewatch]
  by_cases hs : x.state = .disabled
  · rw [if_pos hs, decide_eq_false (fun hn => hn.1 hs), Bool.or_false]
  · rw [if_neg hs]
    simp only [ne_eq, hs, not_false_eq_true, true_and]

/-- A watcher mask after a terminal's list changes from `old` to `new` (R24). -/
def remasked (t : TermNo) (old new : List Nat) (n : Nat) (m : BitVec 32) : BitVec 32 :=
  if n ∈ new then markWatcher m t else if n ∈ old then clearWatcher m t else m

theorem remask_remasked (t : TermNo) (old new : List Nat) (n : Nat) (r : IssueRecord) :
    remask t old new n r = { r with watchers := remasked t old new n r.watchers } := by
  have hlinks := congrArg Prod.snd (remask_links t old new n r)
  rw [remask_eq]
  exact congrArg (fun m => ({ r with watchers := m } : IssueRecord)) hlinks

theorem remasked_getLsbD (t : TermNo) (old new : List Nat) (n : Nat) (m : BitVec 32) (y : TermNo) :
    (remasked t old new n m).getLsbD y.val =
      if y = t then decide (n ∈ new) || (m.getLsbD y.val && decide (n ∉ old)) else m.getLsbD y.val := by
  rw [remasked]
  by_cases hnew : n ∈ new
  · rw [if_pos hnew, markWatcher_getLsbD]
    by_cases hy : y = t <;> simp [hy, hnew]
  · rw [if_neg hnew]
    by_cases hold : n ∈ old
    · rw [if_pos hold, clearWatcher_getLsbD]
      by_cases hy : y = t <;> simp [hy, hnew, hold]
    · rw [if_neg hold]
      by_cases hy : y = t <;> simp [hy, hnew, hold]

/-- A change of a watch list: the entries, the owed length and the watcher masks (R24, R147, R148). -/
theorem State.rewatch_rewatched (s : State) (t : TermNo) (new : List Nat) : s.Rewatched (s.rewatch t new) t new := by
  unfold State.Rewatched
  intro x old kept
  have hterm := s.rewatch_terminal t new
  have hissues := x.rewatch_issues new
  rw [hterm]
  refine ⟨hissues, fun p e he => ?_, x.rewatch_owed new, x.rewatch_frame new, fun y hy => ?_, ?_, ?_⟩
  · have hp : p < new.length := by
      rw [← hissues, List.length_map]
      exact (List.getElem?_eq_some_iff.1 he).1
    have hiff : firstChanged old new ≤ p ↔ _ := firstChanged_le_iff hp
    rw [Terminal.rewatch_entry he, pendingOf_eq]
    refine ⟨fun hs hj => if_pos ⟨hs, hiff.2 hj⟩, fun hor => if_neg ?_⟩
    rintro ⟨hs, hk⟩
    obtain ⟨j, hj, hne⟩ := hiff.1 hk
    exact hor.elim hs fun hsame => hne (hsame j hj)
  · rw [State.rewatch, State.setTerm_term, if_neg hy]
    rfl
  · refine ⟨remasked t old new, List.map_congr_left fun p _ => ?_, fun n m y => remasked_getLsbD ..⟩
    exact congrArg (Prod.mk p.1) (remask_remasked ..)
  · exact s.rewatch_frame t new

/-! ### The operations -/

section
variable {s : State} {body : Text} {t : TermNo}

theorem addWatchRun_high (h : 1023 < readNat body 5 2) : addWatchRun t body s = s.refuse .badOperand := if_pos h

theorem addWatchRun_free (hn : readNat body 5 2 ≤ 1023) (h : listed s (readNat body 5 2) = none) :
    addWatchRun t body s = s.refuse .noIssue := by
  rw [addWatchRun, h]
  exact if_neg (not_lt.2 hn)

theorem addWatchRun_listed (h : (listed s (readNat body 5 2)).isSome = true) :
    addWatchRun t body s = doneOf (s.watchAppend t (readNat body 5 2)) := by
  obtain ⟨r, hr⟩ := Option.isSome_iff_exists.1 h
  rw [addWatchRun, hr]
  exact if_neg (not_lt.2 (listed_eq_some.1 hr).2.1)

theorem setWatchListRun_bad (h : body.length < 6 + 2 * (byteAt body 5).toNat ∨ 24 < (byteAt body 5).toNat) :
    setWatchListRun t body s = s.refuse .badOperand := if_pos h

section
variable (hl : 6 + 2 * (byteAt body 5).toNat ≤ body.length) (hn : (byteAt body 5).toNat ≤ 24)
include hl hn

theorem setWatchListRun_eq : setWatchListRun t body s =
    match s.checkIssues (readIssues body 6 (byteAt body 5).toNat) with
    | some e => s.refuse e
    | none => (s.rewatch t (readIssues body 6 (byteAt body 5).toNat)).done :=
  if_neg (by simp only [Config.watchPlaces]; omega)

theorem setWatchListRun_refuses {e : Result} (he : s.checkIssues (readIssues body 6 (byteAt body 5).toNat) = some e) :
    setWatchListRun t body s = s.refuse e := by
  rw [setWatchListRun_eq hl hn, he]

theorem setWatchListRun_sets (he : s.checkIssues (readIssues body 6 (byteAt body 5).toNat) = none) :
    setWatchListRun t body s = (s.rewatch t (readIssues body 6 (byteAt body 5).toNat)).done := by
  rw [setWatchListRun_eq hl hn, he]

end

end

/-- Settles O23: an accepted change is `rewatch` with the new list, and each refusal is the model's own check. -/
theorem watchOperationsTaken : Obligations.WatchOperationsTaken := by
  refine ⟨State.rewatch_rewatched, ?_⟩
  intro s addressed body serial rest h term n count given reply refused changed
  have hterm {k : Nat} {run : TermNo → Text → State → Done} {t : TermNo} (hl : k ≤ body.length) (ht : term = t.val) :
      withLength k (withTerminal run) body (s.taken rest) = run t body (s.taken rest) :=
    (withLength_enough hl _).trans (withTerminal_runs ht)
  have hbad {k : Nat} {run : TermNo → Text → State → Done} (hl : k ≤ body.length) (ht : 31 < term) :
      withLength k (withTerminal run) body (s.taken rest) = (s.taken rest).refuse .badOperand :=
    (withLength_enough hl _).trans (withTerminal_bad ht)
  refine ⟨?terminal, fun hl hc t ht => ?add, fun hl hc t ht => ?drop, fun hl hshort hc => ?short, fun hl hc t ht => ?set⟩
  case terminal =>
    simp only [List.forall_mem_cons]
    exact ⟨fun hl hc ht => h.refuses (run := withLength 6 (withTerminal setWatchListRun)) (by omega) hc (hbad hl ht),
      fun hl hc ht => h.refuses (run := withLength 7 (withTerminal addWatchRun)) (by omega) hc (hbad hl ht),
      fun hl hc ht => h.refuses (run := withLength 7 (withTerminal dropWatchRun)) (by omega) hc (hbad hl ht), nofun⟩
  case add =>
    have hrefuses {r : Result} (hr : addWatchRun t body (s.taken rest) = (s.taken rest).refuse r) :
        exec .addWatch s = .next (refused 0x05 (resultCode r)) :=
      h.refuses (run := withLength 7 (withTerminal addWatchRun)) (by omega) hc ((hterm hl ht).trans hr)
    have hlisted (hs : (listed s n).isSome = true) : addWatchRun t body (s.taken rest) =
      doneOf ((s.taken rest).watchAppend t n) := addWatchRun_listed (s := s.taken rest) hs
    refine ⟨fun hn => hrefuses (addWatchRun_high hn), fun hn hfree => hrefuses (addWatchRun_free hn hfree),
      fun hs hin => hrefuses (r := .duplicate) ?_, fun hs hin hfull => hrefuses (r := .listFull) ?_, fun hs hin hroom => ?_⟩
    · rw [hlisted hs, State.watchAppend_duplicate (s := s.taken rest) hin]
      rfl
    · rw [hlisted hs, State.watchAppend_full (s := s.taken rest) hin hfull]
      rfl
    · refine ⟨(s.taken rest).rewatch t (s.watchIssues t ++ [n]), ?_, State.rewatch_rewatched ..⟩
      refine h.operates (run := withLength 7 (withTerminal addWatchRun)) (r := .done) (by omega) hc
        ((hterm hl ht).trans ?_) rfl
      rw [hlisted hs, State.watchAppend_done (s := s.taken rest) hin hroom]
      rfl
  case drop =>
    refine ⟨fun hout => ?_, fun hin => ⟨(s.taken rest).rewatch t ((s.watchIssues t).erase n), ?_,
      State.rewatch_rewatched ..⟩⟩
    · refine h.refuses (run := withLength 7 (withTerminal dropWatchRun)) (r := .notPresent) (by omega) hc
        ((hterm hl ht).trans ?_)
      exact congrArg doneOf (State.watchRemove_absent (s := s.taken rest) hout)
    · refine h.operates (run := withLength 7 (withTerminal dropWatchRun)) (r := .done) (by omega) hc
        ((hterm hl ht).trans ?_) rfl
      exact congrArg doneOf (State.watchRemove_done (s := s.taken rest) hin)
  case short =>
    refine h.refuses (run := withLength 6 (withTerminal setWatchListRun)) (r := .badOperand) (by omega) hc ?_
    by_cases ht : 31 < term
    · exact hbad hl ht
    · exact (hterm (t := ⟨term, by omega⟩) hl rfl).trans (setWatchListRun_bad (.inl hshort))
  case set =>
    have hrefuses {r : Result} (hr : setWatchListRun t body (s.taken rest) = (s.taken rest).refuse r) :
        exec .setWatchList s = .next (refused 0x04 (resultCode r)) :=
      h.refuses (run := withLength 6 (withTerminal setWatchListRun)) (by omega) hc ((hterm (by omega) ht).trans hr)
    refine ⟨fun hbad => hrefuses (r := .badOperand) ?_, fun hn hle hfree => ?_, fun hn hall hdup => ?_,
      fun hn hall hnodup => ?_⟩
    · by_cases hn : count ≤ 24
      · exact setWatchListRun_refuses hl hn (State.checkIssues_high (hbad.resolve_left (by omega)))
      · exact setWatchListRun_bad (.inr (not_le.1 hn))
    · exact hrefuses (r := .noIssue) (setWatchListRun_refuses hl hn (State.checkIssues_unlisted hle hfree))
    · exact hrefuses (r := .duplicate)
        (setWatchListRun_refuses hl hn ((State.checkIssues_listed hall).trans (if_neg hdup)))
    · refine ⟨(s.taken rest).rewatch t given, ?_, State.rewatch_rewatched ..⟩
      exact h.operates (run := withLength 6 (withTerminal setWatchListRun)) (r := .done) (by omega) hc
        ((hterm (by omega) ht).trans (setWatchListRun_sets hl hn ((State.checkIssues_listed hall).trans (if_pos hnodup)))) rfl

end Sys2Proof.Machine
end

