-- ==== Sys2Proof/Proofs/IssueOps.lean ====
section
/-! PROOFS. Symbol fields and records, LOAD ISSUE and DELETE ISSUE (R22, R38, R39, R169). -/

namespace Sys2Proof.Machine

theorem yesNo_eq (c : Byte) : yesNo c = if c = 0x00 then some false else if c = 0x01 then some true else none := rfl

theorem findRecord_iff {rs : Records} (ok : recordsOk rs = true) (m : Nat) (r : IssueRecord) :
    findRecord rs m = some r ↔ (m, r) ∈ rs := ⟨findRecord_mem, findRecord_of_mem ok⟩

theorem findRecord_putRecord (rs : Records) (n m : Nat) (r : IssueRecord) :
    findRecord (putRecord rs n r) m = if m = n then some r else findRecord rs m := by
  by_cases h : m = n
  · subst h
    rw [if_pos rfl, findRecord_putRecord_self]
  · rw [if_neg h, findRecord_putRecord_ne r h]

theorem findRecord_freeRecord (rs : Records) (n m : Nat) :
    findRecord (freeRecord rs n) m = if m = n then none else findRecord rs m := by
  by_cases h : m = n
  · subst h
    rw [if_pos rfl, findRecord_freeRecord_self]
  · rw [if_neg h, findRecord_freeRecord_ne h]

theorem listed_eq (s : State) (n : Nat) :
    listed s n = if 1 ≤ n ∧ n ≤ 1023 then findRecord s.issues.records n else none := by
  rw [listed]
  by_cases h : 1 ≤ n ∧ n ≤ 1023
  · rw [if_pos h, if_neg (by simp only [Config.maxIssue]; omega)]
  · rw [if_neg h, if_pos (by simp only [Config.maxIssue]; omega)]

theorem denomOk_iff (c : Byte) : denomOk c = true ↔ c ∈ [0x08#8, 0x10#8, 0x20#8, 0x40#8] := by
  simp only [denomOk, Bool.or_eq_true, beq_iff_eq, List.mem_cons, List.not_mem_nil, or_false, or_assoc]
  rfl

theorem symbolHeld_iff (rs : Records) (n : Nat) (symbol : Text) :
    symbolHeld rs n symbol = true ↔ ∃ p ∈ rs, p.1 ≠ n ∧ p.2.symbol = symbol := by
  simp only [symbolHeld, List.any_eq_true, Bool.and_eq_true, bne_iff_ne, beq_iff_eq]

/-- A FREE number has no links, and a LISTED one keeps its own (R18, R38). -/
theorem IssueRecord.load_getD (old : Option IssueRecord) (symbol : Text) (denom close : Nat) (a b : Bool) :
    (old.getD .vacant).load symbol denom close a b = ⟨symbol, denom, a, b, close, close, 0, .none, false, none, none, 0,
      none, none, false, (old.map IssueRecord.rows).getD [], (old.map IssueRecord.watchers).getD 0⟩ := by
  cases old <;> rfl

theorem State.alertNames_slot (s : State) (n : Nat) : s.alertNames n = true ↔
    ∃ (t : TermNo) (k : SlotNo) (x : AlertSetting), (s.alerts[t])[k] = some x ∧ x.issue = n := by
  simp only [alertNames, allSlots, List.any_eq_true, List.mem_flatMap, List.mem_map, List.mem_finRange, true_and,
    slotNames, Option.any_eq_true, beq_iff_eq]
  constructor
  · rintro ⟨_, ⟨t, k, rfl⟩, x, hx⟩
    exact ⟨t, k, x, hx⟩
  · rintro ⟨t, k, x, hx⟩
    exact ⟨_, ⟨t, k, rfl⟩, x, hx⟩

theorem State.inUse_iff (s : State) (n : Nat) (r : IssueRecord) : s.inUse n r = true ↔
    r.rows ≠ [] ∨ r.watchers ≠ 0 ∨ n ∈ s.issues.flashList
      ∨ ∃ (t : TermNo) (k : SlotNo) (x : AlertSetting), (s.alerts[t])[k] = some x ∧ x.issue = n := by
  simp only [inUse, Bool.or_eq_true, Bool.not_eq_true', List.isEmpty_eq_false_iff, bne_iff_ne, State.alertNames_slot,
    List.contains_iff_mem, or_assoc]
  exact or_congr_right (or_congr_right or_comm)

/-! ### LOAD ISSUE -/

section
variable {body : Text} {u : State}

theorem loadIssueRun_zero (h : readNat body 4 2 = 0) : loadIssueRun body u = u.refuse .noIssue := if_pos h

/-- The checks of LOAD ISSUE passed but for the symbol's: the issue is loaded, or its symbol stands at another number
(R38, R169). -/
theorem loadIssueRun_good {symbol : Text} {a b : Bool} (h1 : 1 ≤ readNat body 4 2) (hn : readNat body 4 2 ≤ 1023)
    (hs : symbolAt body 6 = some symbol) (hd : byteAt body 10 ∈ [0x08#8, 0x10#8, 0x20#8, 0x40#8])
    (hc1 : 1 ≤ readNat body 11 3) (hc : readNat body 11 3 ≤ 2559999) (ha : yesNo (byteAt body 14) = some a)
    (hb : yesNo (byteAt body 15) = some b) :
    loadIssueRun body u = if symbolHeld u.issues.records (readNat body 4 2) symbol then u.refuse .duplicate
      else (u.loadIssue (readNat body 4 2) symbol (byteAt body 10).toNat (readNat body 11 3) a b).done := by
  rw [loadIssueRun, hs, (denomOk_iff _).2 hd, ha, hb]
  exact (if_neg (by omega)).trans ((if_neg (not_lt.2 hn)).trans
    (if_neg (by simp only [Config.maxPrice]; omega)))

theorem loadIssueRun_bad (h0 : readNat body 4 2 ≠ 0) (h : 1023 < readNat body 4 2 ∨ symbolAt body 6 = none
    ∨ byteAt body 10 ∉ [0x08#8, 0x10#8, 0x20#8, 0x40#8] ∨ readNat body 11 3 = 0 ∨ 2559999 < readNat body 11 3
    ∨ 1 < (byteAt body 14).toNat ∨ 1 < (byteAt body 15).toNat) : loadIssueRun body u = u.refuse .badOperand := by
  refine (if_neg h0).trans ?_
  by_cases hn : 1023 < readNat body 4 2
  · exact if_pos hn
  refine (if_neg hn).trans ?_
  rcases h.resolve_left hn with hs | hd | hrest
  · rw [hs]
  · rw [Bool.eq_false_iff.2 (mt (denomOk_iff _).1 hd)]
    cases symbolAt body 6 <;> rfl
  by_cases hclose : readNat body 11 3 = 0 ∨ 2559999 < readNat body 11 3
  · split
    · exact if_pos hclose
    · rfl
  · rcases hrest with hc | hc | ha | hb
    · exact absurd (.inl hc) hclose
    · exact absurd (.inr hc) hclose
    · rw [yesNo_eq_none ha]
      cases symbolAt body 6 <;> cases denomOk (byteAt body 10) <;> rfl
    · rw [yesNo_eq_none hb]
      cases symbolAt body 6 <;> cases denomOk (byteAt body 10) <;> cases yesNo (byteAt body 14) <;> rfl

/-! ### DELETE ISSUE -/

theorem deleteIssueRun_high (h : 1023 < readNat body 4 2) : deleteIssueRun body u = u.refuse .badOperand := if_pos h

theorem deleteIssueRun_free (hn : readNat body 4 2 ≤ 1023) (h : listed u (readNat body 4 2) = none) :
    deleteIssueRun body u = u.refuse .noIssue := by
  rw [deleteIssueRun, h]
  exact if_neg (not_lt.2 hn)

theorem deleteIssueRun_listed {r : IssueRecord} (h : listed u (readNat body 4 2) = some r) :
    deleteIssueRun body u = if u.inUse (readNat body 4 2) r then u.refuse .inUse
      else (u.setRecords (freeRecord u.issues.records (readNat body 4 2))).done := by
  rw [deleteIssueRun, h]
  exact if_neg (not_lt.2 (listed_eq_some.1 h).2.1)

end

/-- Settles O21: the record laws, an accepted LOAD ISSUE as a record stored with its full notice, and each refusal as
the first check that fails. -/
theorem issueOperationsTaken : Obligations.IssueOperationsTaken := by
  refine ⟨fun body i symbol => symbolOf_iff _ symbol, yesNo_eq, fun rs n m r ok => ⟨findRecord_iff ok m r,
    findRecord_putRecord rs n m r, findRecord_freeRecord rs n m⟩, listed_eq, ?load, ?checks⟩
  case load =>
    intro s addressed body serial rest symbol a b h hl hc n d close h1 hn hs hd hc1 hc2 ha hb halone old rows watchers
      r notice
    refine h.operates (run := withLength 16 loadIssueRun) (r := .done) (by omega) hc
      ((withLength_enough hl _).trans ((loadIssueRun_good h1 hn hs hd hc1 hc2 ha hb).trans ?_)) rfl
    have hheld : ¬ symbolHeld s.issues.records n symbol = true := by
      rw [symbolHeld_iff]
      rintro ⟨p, hp, hne, he⟩
      exact hne (halone p hp he)
    refine (if_neg hheld).trans ?_
    rw [State.loadIssue, IssueRecord.load_getD]
    rfl
  case checks =>
    intro s addressed body serial rest h n refused bad
    refine ⟨fun hl hc => ⟨fun h0 => ?_, fun h0 hbad => ?_, fun h0 hgood hheld => ?_⟩, fun hl hc => ⟨fun hn => ?_,
      fun hn hfree => ?_, fun r hr => ⟨fun hnamed => ?_, fun hnamed => ?_⟩⟩⟩
    · exact h.refuses (run := withLength 16 loadIssueRun) (r := .noIssue) (by omega) hc
        ((withLength_enough hl _).trans (loadIssueRun_zero h0))
    · exact h.refuses (run := withLength 16 loadIssueRun) (r := .badOperand) (by omega) hc
        ((withLength_enough hl _).trans (loadIssueRun_bad h0 hbad))
    · obtain ⟨hn, hs, hd, hc0, hc1, ha, hb⟩ : ¬ 1023 < n ∧ symbolAt body 6 ≠ none
          ∧ ¬ byteAt body 10 ∉ [0x08#8, 0x10#8, 0x20#8, 0x40#8] ∧ ¬ readNat body 11 3 = 0 ∧ ¬ 2559999 < readNat body 11 3
          ∧ ¬ 1 < (byteAt body 14).toNat ∧ ¬ 1 < (byteAt body 15).toNat := by
        simpa only [bad, not_or] using hgood
      obtain ⟨symbol, hs⟩ := Option.ne_none_iff_exists'.1 hs
      obtain ⟨a, ha⟩ := Option.isSome_iff_exists.1 (yesNo_isSome ha)
      obtain ⟨b, hb⟩ := Option.isSome_iff_exists.1 (yesNo_isSome hb)
      obtain ⟨p, hp, hne, he⟩ := hheld
      refine h.refuses (run := withLength 16 loadIssueRun) (r := .duplicate) (by omega) hc
        ((withLength_enough hl _).trans ((loadIssueRun_good (by omega) (not_lt.1 hn) hs (not_not.1 hd) (by omega)
          (not_lt.1 hc1) ha hb).trans (if_pos ?_)))
      exact (symbolHeld_iff ..).2 ⟨p, hp, hne, Option.some.inj (he.trans hs)⟩
    · exact h.refuses (run := withLength 6 deleteIssueRun) (r := .badOperand) (by omega) hc
        ((withLength_enough hl _).trans (deleteIssueRun_high hn))
    · exact h.refuses (run := withLength 6 deleteIssueRun) (r := .noIssue) (by omega) hc
        ((withLength_enough hl _).trans (deleteIssueRun_free hn hfree))
    · exact h.refuses (run := withLength 6 deleteIssueRun) (r := .inUse) (by omega) hc
        ((withLength_enough hl _).trans ((deleteIssueRun_listed (u := s.taken rest) hr).trans (if_pos (((s.taken rest).inUse_iff n r).2 hnamed))))
    · exact h.operates (run := withLength 6 deleteIssueRun) (r := .done) (by omega) hc
        ((withLength_enough hl _).trans ((deleteIssueRun_listed (u := s.taken rest) hr).trans (if_neg (mt ((s.taken rest).inUse_iff n r).1 hnamed)))) rfl

end Sys2Proof.Machine
end

