-- ==== Sys2Proof/Proofs/RowOps.lean ====
section
/-! PROOFS. SET ROW: the row, its module, the row lists and the lamps (R23, R95, R96, R126). -/

namespace Sys2Proof.Machine

/-! ### The module -/

theorem BoardLine.change_congr {b : BoardLine} {i : ModuleNo} {f g : BoardModule → BoardModule}
    (h : f b.modules[i] = g b.modules[i]) : b.change i f = b.change i g := by
  rw [BoardLine.change, BoardLine.change, vupd, vupd, h]

theorem BoardModule.remap_eq (m : BoardModule) (p : Option Mapping) : m.remap p = { m with
    mapping := p
    dirty := if m.state = .dark ∨ p = none then .empty else (p.map Mapping.mask).getD .empty
    blanking := decide (m.state ≠ .dark ∧ p = none) } := by
  rw [BoardModule.remap]
  by_cases hd : m.state = .dark
  · rw [if_pos hd, if_pos (.inl hd), decide_eq_false (fun h => h.1 hd)]
  · rw [if_neg hd]
    cases p with
    | none => rw [if_pos (.inr rfl), decide_eq_true ⟨hd, rfl⟩]; rfl
    | some q => rw [if_neg (not_or.2 ⟨hd, nofun⟩), decide_eq_false (fun h => nomatch h.2)]; rfl

theorem FieldSet.union_inter_self (x y : FieldSet) : x.union (y.inter x) = x := by
  have habsorb (a b : Bool) : (a || (b && a)) = a := by cases a <;> cases b <;> rfl
  simp only [FieldSet.union, FieldSet.inter, habsorb]

/-- The fields of a set that a module takes when they are marked. -/
def BoardLine.taken (b : BoardLine) (fs : FieldSet) (i : ModuleNo) : FieldSet :=
  if (b.modules[i]).state = .dark then .empty else fs.inter (b.modules[i]).shown

/-- A module just set to a row is marked already: its lamps add nothing to what its row shows (R96). -/
theorem BoardLine.markFields_remapped (b : BoardLine) (i : ModuleNo) (p : Option Mapping) (fs : FieldSet) :
    (b.change i fun m => m.remap p).markFields i fs = b.change i fun m => m.remap p := by
  obtain ⟨c, hc⟩ : ∃ c : BoardLine, c = b.change i fun m => m.remap p := ⟨_, rfl⟩
  obtain ⟨m, hm⟩ : ∃ m : BoardModule, m = (b.modules[i]).remap p := ⟨_, rfl⟩
  have hmodule : ∃ k, c.modules[i] = { m with mark := k } := by
    obtain ⟨k, hk⟩ := b.change_module i (fun m => m.remap p) i
    rw [if_pos rfl] at hk
    exact ⟨k, by rw [hc, hm, hk]⟩
  have hat : c.taken fs i = if m.state = .dark then .empty else fs.inter m.shown := by
    obtain ⟨k, hk⟩ := hmodule
    rw [BoardLine.taken, hk]
    rfl
  have hjoined : m.dirty.union (c.taken fs i) = m.dirty := by
    rw [hat]
    by_cases hd : m.state = .dark
    · rw [if_pos hd, FieldSet.union_empty]
    · have hshown : m.dirty = m.shown := by
        have hlive : (b.modules[i]).state ≠ .dark := by
          rw [hm, BoardModule.remap_eq] at hd
          exact hd
        rw [hm, BoardModule.remap, if_neg hlive]
        rfl
      rw [if_neg hd, hshown, FieldSet.union_inter_self]
  rw [← hc, BoardLine.markFields_eq (marked := c.taken fs) rfl]
  refine BoardLine.MarkedAt.again ⟨?_, fun hne => ?_⟩
  · obtain ⟨k, hk⟩ := hmodule
    rw [hk]
    exact hjoined
  · have hwaits := waits_of_marked (m := m) hne
    rw [hjoined] at hwaits
    rw [hc, BoardLine.change_isSome, if_pos rfl, ← hm]
    exact hwaits

/-! ### The card -/

theorem State.setBoard_self (s : State) (l : LineNo) : s.setBoard l s.boards[l] = s := by
  rw [setBoard, Fin.getElem_fin, Vector.set_getElem_self]

/-- A card with the parts that SET ROW gives a row: the row lists, the module and the lamps (R23, R96, R126). -/
def State.rowSet (s : State) (r : RowNo) (l : LineNo) (i : ModuleNo) (p : Option Mapping) : State :=
  { s with
    issues := { s.issues with
      records := mapRecords (relink r (s.rowIssue r) (p.map Mapping.issue)) s.issues.records }
    boards := s.boards.set l ((s.boards[l]).change i fun m => m.remap p)
    lamps := if s.rowIssue r = p.map Mapping.issue then s.lamps
      else s.lamps.set r (.remapped (s.mappingHalted p)) }

/-- An accepted SET ROW, with the module's part, the lamps' and the choice of its line (R23, R96, R110, R126). -/
theorem State.mapRow_eq (s : State) (r : RowNo) (p : Option Mapping) :
    s.mapRow r p = (s.rowSet r (rowLine r) (rowModule r) p).chooseBoard (rowLine r) := by
  obtain ⟨t, ht⟩ : ∃ t : State, t = (s.setRecords (mapRecords
    (relink r (s.rowIssue r) (p.map Mapping.issue)) s.issues.records)).setBoard (rowLine r)
      ((s.boards[rowLine r]).change (rowModule r) fun m => m.remap p) := ⟨_, rfl⟩
  have hmap : s.mapRow r p = (if s.rowIssue r = p.map Mapping.issue then t
      else t.moveLamps r (.remapped (s.mappingHalted p))).chooseBoard (rowLine r) := by
    rw [ht]
    rfl
  have hmark (y : RowLamps) : (t.setLamps r y).markRow .lampsOnly r = t.setLamps r y := by
    have hboard : (t.setLamps r y).boards[rowLine r] =
        (s.boards[rowLine r]).change (rowModule r) fun m => m.remap p := by
      rw [ht]
      exact (State.setBoard_board _ _ _ _).trans (if_pos rfl)
    rw [markRow, hboard, BoardLine.markFields_remapped, ← hboard, State.setBoard_self]
  have hmove (y : RowLamps) : t.moveLamps r y = t.setLamps r y := by
    rw [moveLamps, hmark]
    exact ite_self _
  rw [hmap, hmove, ht, rowSet]
  split <;> rfl

theorem State.mapRow_rowOf (s : State) (l : LineNo) (i : ModuleNo) (p : Option Mapping) :
    s.mapRow (rowOf l i) p = (s.rowSet (rowOf l i) l i p).chooseBoard l := by
  have hmap := s.mapRow_eq (rowOf l i) p
  rwa [rowLine_rowOf, rowModule_rowOf] at hmap

theorem State.mappingHalted_eq (s : State) (p : Option Mapping) : s.mappingHalted p =
    ((p.map Mapping.issue).bind (findRecord s.issues.records)).any IssueRecord.halted := by
  cases p with
  | none => rfl
  | some q =>
    have hany (o : Option IssueRecord) : (o.map IssueRecord.halted).getD false = o.any IssueRecord.halted := by
      cases o <;> rfl
    exact hany _

/-! ### The checks -/

theorem maskOk_iff (c : Byte) : maskOk c = true ↔ c.toNat &&& 0xE0 = 0 ∧ c.toNat &&& 0x1F ≠ 0 := by
  have hhigh : (c &&& 0xE0).toNat = c.toNat &&& 0xE0 := BitVec.toNat_and ..
  have hlow : (c &&& 0x1F).toNat = c.toNat &&& 0x1F := BitVec.toNat_and ..
  rw [maskOk, Bool.and_eq_true, bne_iff_ne, beq_iff_eq, ← hhigh, ← hlow, and_comm]
  exact and_congr BitVec.toNat_inj.symm (not_congr BitVec.toNat_inj.symm)

/-- What SET ROW does with a row of the map that is not set blank. -/
def mapIssueRun (r : RowNo) (body : Text) (s : State) : Done :=
  if Config.maxIssue < readNat body 7 2 then s.refuse .badOperand
  else
    match listed s (readNat body 7 2) with
    | none => s.refuse .noIssue
    | some x =>
      if maskOk (byteAt body 9) = false ∨ 3 < (byteAt body 10).toNat then s.refuse .badOperand
      else if (x.rows.filter fun q => q != r).length < Config.rowPlaces then
        (s.mapRow r (some ⟨readNat body 7 2, FieldSet.ofByte (byteAt body 9), (byteAt body 10).toNat⟩)).done
      else s.refuse .rowLimit

section
variable {body : Text} {u : State} {l : LineNo} {i : ModuleNo} {r : RowNo}

theorem setRowRun_bad (h : 3 < (byteAt body 4).toNat ∨ 31 < (byteAt body 5).toNat) :
    setRowRun body u = u.refuse .badOperand := by
  rw [setRowRun]
  by_cases hl : (byteAt body 4).toNat < 4
  · rw [dif_pos hl, dif_neg (by omega)]
  · exact dif_neg hl

theorem setRowRun_row (hl : (byteAt body 4).toNat = l.val) (hi : (byteAt body 5).toNat = i.val) :
    setRowRun body u = if byteAt body 6 = 1 then (u.mapRow (rowOf l i) none).done else mapIssueRun (rowOf l i) body u := by
  have hlt : (byteAt body 4).toNat < 4 := hl ▸ l.isLt
  have hit : (byteAt body 5).toNat < 32 := hi ▸ i.isLt
  obtain rfl : l = ⟨_, hlt⟩ := Fin.ext hl.symm
  obtain rfl : i = ⟨_, hit⟩ := Fin.ext hi.symm
  exact (dif_pos hlt).trans (dif_pos hit)

theorem mapIssueRun_high (h : 1023 < readNat body 7 2) : mapIssueRun r body u = u.refuse .badOperand := if_pos h

theorem mapIssueRun_free (hn : readNat body 7 2 ≤ 1023) (h : listed u (readNat body 7 2) = none) :
    mapIssueRun r body u = u.refuse .noIssue := by
  rw [mapIssueRun, h]
  exact if_neg (not_lt.2 hn)

theorem mapIssueRun_listed {x : IssueRecord} (h : listed u (readNat body 7 2) = some x) : mapIssueRun r body u =
    if maskOk (byteAt body 9) = false ∨ 3 < (byteAt body 10).toNat then u.refuse .badOperand
    else if (x.rows.filter fun q => q != r).length < Config.rowPlaces then
      (u.mapRow r (some ⟨readNat body 7 2, FieldSet.ofByte (byteAt body 9), (byteAt body 10).toNat⟩)).done
    else u.refuse .rowLimit := by
  rw [mapIssueRun, h]
  exact if_neg (not_lt.2 (listed_eq_some.1 h).2.1)

end

/-- Settles O22: the checks in their order, and an accepted SET ROW as the row set and its line's choice. -/
theorem setRowActs : Obligations.SetRowActs := by
  refine ⟨?checks, ?acts⟩
  case checks =>
    intro s addressed body serial rest h hl hc l i n mask badMask refused
    have hrefuses {r : Result} (hr : setRowRun body (s.taken rest) = (s.taken rest).refuse r) :
        exec .setRow s = .next (refused (resultCode r)) :=
      h.refuses (run := withLength 11 setRowRun) (by omega) hc ((withLength_enough hl _).trans hr)
    refine ⟨fun hbad => hrefuses (setRowRun_bad hbad), fun hl3 hi31 h6 => ?_⟩
    have hrun : setRowRun body (s.taken rest) =
        mapIssueRun (rowOf ⟨l, by omega⟩ ⟨i, by omega⟩) body (s.taken rest) :=
      (setRowRun_row rfl rfl).trans (if_neg h6)
    refine ⟨fun hn => hrefuses (hrun.trans (mapIssueRun_high hn)),
      fun hn hfree => hrefuses (hrun.trans (mapIssueRun_free hn hfree)), fun r hr => ?_⟩
    have hlisted := mapIssueRun_listed (r := rowOf ⟨l, by omega⟩ ⟨i, by omega⟩) (u := s.taken rest) hr
    have hmask : (maskOk (byteAt body 9) = false ∨ 3 < (byteAt body 10).toNat) ↔ badMask := by
      rw [← Bool.not_eq_true, maskOk_iff, not_and_or, not_not, or_assoc]
    refine ⟨fun hbad => hrefuses (hrun.trans (hlisted.trans (if_pos (hmask.2 hbad)))), fun hgood hfull => ?_⟩
    refine hrefuses (r := .rowLimit) (hrun.trans (hlisted.trans ((if_neg (mt hmask.1 hgood)).trans (if_neg ?_))))
    have hfilter : (fun q : RowNo => q != rowOf ⟨l, by omega⟩ ⟨i, by omega⟩) = fun q => decide (q.val ≠ l * 32 + i) := by
      funext q
      rw [Bool.eq_iff_iff, bne_iff_ne, decide_eq_true_eq, Ne, Fin.ext_iff]
      rfl
    rw [hfilter]
    exact not_lt.2 hfull
  case acts =>
    intro s addressed body serial rest l i h hlen hc hl hi n blank bit mask row m old hgood p new
    have hrun : setRowRun body (s.taken rest) = ((s.taken rest).mapRow row p).done := by
      rw [setRowRun_row hl hi]
      by_cases hb : blank
      · rw [if_pos hb, show p = none from if_pos hb]
      · obtain ⟨hhigh, hlow, hclass, r, hr, hroom⟩ := hgood hb
        rw [if_neg hb, show p = some ⟨n, mask, (byteAt body 10).toNat⟩ from if_neg hb,
          mapIssueRun_listed (u := s.taken rest) hr, if_neg, if_pos]
        · rfl
        · have hfilter : (fun q : RowNo => q != row) = fun q => decide (q ≠ row) := by
            funext q
            rw [Bool.eq_iff_iff, bne_iff_ne, decide_eq_true_eq]
          exact (congrArg (fun f => (r.rows.filter f).length < 4) hfilter).mpr hroom
        · rw [← Bool.not_eq_true, maskOk_iff]
          exact not_or.2 ⟨not_not.2 ⟨hhigh, hlow⟩, not_lt.2 hclass⟩
    have hexec := h.operates (run := withLength 11 setRowRun) (u := (s.taken rest).mapRow row p) (r := .done) (by omega) hc
      ((withLength_enough hlen _).trans hrun) (by rw [State.mapRow_frame]; rfl)
    refine ⟨_, hexec, ?_⟩
    obtain ⟨w, hw⟩ : ∃ w : State, w = (s.taken rest).rowSet row l i p := ⟨_, rfl⟩
    rw [State.mapRow_rowOf, State.answered_frame, ← hw, State.chooseBoard]
    have hboard : w.boards[l] = (s.boards[l]).change i fun m => m.remap p := by
      rw [hw]
      exact Vector.getElem_set_self _
    have hother (k : LineNo) (hk : k ≠ l) : w.boards[k] = s.boards[k] := by
      rw [hw]
      exact (getElem_set_fin _ _ _ _).trans (if_neg hk)
    have hlamps : w.lamps = if old = new then s.lamps else s.lamps.set row (.remapped (s.mappingHalted p)) := by
      rw [hw]
      rfl
    refine ⟨?_, fun k hk => ?_, ?_, fun r hr => ?_, ?_, ?_, ?_⟩
    · intro dark x
      have hmodule : m.remap p = { m with
          mapping := p
          dirty := if dark ∨ blank then .empty else mask
          blanking := decide (¬ dark ∧ blank) } := by
        rw [BoardModule.remap_eq]
        by_cases hb : blank
        · simp only [p, hb, if_true, or_true, and_true]
          rfl
        · simp only [p, hb, if_false, or_false, and_false, reduceCtorEq]
          rfl
      have hx : (s.boards[l]).change i (fun m => m.remap p) = x := BoardLine.change_congr hmodule
      refine (State.setBoard_board _ _ _ _).trans ((if_pos rfl).trans ?_)
      rw [hboard, hx]
      rfl
    · exact (State.setBoard_board _ _ _ _).trans ((if_neg hk).trans (hother k hk))
    · change w.lamps[row] = _
      rw [hlamps]
      by_cases hn : old = new
      · rw [if_pos hn, if_pos hn]
      · rw [if_neg hn, if_neg hn, State.mappingHalted_eq]
        exact (getElem_set_fin _ _ _ _).trans (if_pos rfl)
    · change w.lamps[r] = _
      rw [hlamps]
      by_cases hn : old = new
      · rw [if_pos hn]
      · rw [if_neg hn]
        exact (getElem_set_fin _ _ _ _).trans (if_neg hr)
    · rw [hw]
      rfl
    · rw [hw]
      rfl
    · rw [hw]
      rfl

end Sys2Proof.Machine
end

