-- ==== Sys2Proof/Proofs/TerminalOps.lean ====
section
/-! PROOFS. SET TERMINAL: a terminal disabled, and one enabled with its places freed (R130, R131, R144, R177). -/

namespace Sys2Proof.Machine

section
variable {s : State} {t : TermNo} {body : Text}

theorem Terminal.enabled_iff (x : Terminal) : x.enabled = true ↔ x.state ≠ .disabled := by
  rw [enabled, decide_eq_true_eq]

theorem setTerminalRun_bad (h1 : byteAt body 5 ≠ 1) (h2 : byteAt body 5 ≠ 2) :
    setTerminalRun t body s = s.refuse .badOperand := (if_neg h1).trans (if_neg h2)

theorem setTerminalRun_enable (h : byteAt body 5 = 1) : setTerminalRun t body s = (s.enableTerm t).done := if_pos h

theorem setTerminalRun_disable (h : byteAt body 5 = 2) : setTerminalRun t body s = (s.disableTerm t).done :=
  (if_neg (by rw [h]; decide)).trans (if_pos h)

/-- A terminal disabled: its queue, pending sets and owed marks empty, and a transaction in flight to it cut (R131). -/
theorem State.disableTerm_enabled (h : (s.terminals[t]).state ≠ .disabled) :
    let u := s.disableTerm t
    u.alerts = s.alerts
      ∧ u.terminals[t] = { s.terminals[t] with
          state := .disabled
          queue := []
          watch := (s.terminals[t]).watch.map fun e => ⟨e.issue, .empty⟩
          lengthOwed := false
          feedOwed := false
          timeouts := 0 }
      ∧ u.termLines[termLine t] = { s.termLines[termLine t] with
          inFlight := (s.termLines[termLine t]).inFlight.map fun y =>
            if y.drop = termDrop t then ⟨y.drop, y.stage, true⟩ else y }
      ∧ (∀ k : LineNo, k ≠ termLine t → u.termLines[k] = s.termLines[k])
      ∧ (∀ v : TermNo, v ≠ t → u.terminals[v] = s.terminals[v]) := by
  intro u
  have hu : u = (s.setTerm t (s.terminals[t]).disable).countLine (termLine t) fun x =>
      { x with inFlight := x.inFlight.map fun y => if y.drop = termDrop t then { y with cut := true } else y } :=
    if_pos ((Terminal.enabled_iff _).2 h)
  rw [hu]
  refine ⟨rfl, s.setTerm_terminal t _, ?_, fun k hk => ?_, fun v hv => State.setTerm_others s t _ hv⟩
  · exact (State.countLine_line _ _ _ _).trans (if_pos rfl)
  · exact (State.countLine_line _ _ _ _).trans (if_neg hk)

theorem State.disableTerm_disabled (h : (s.terminals[t]).state = .disabled) : s.disableTerm t = s :=
  if_neg fun he => (Terminal.enabled_iff _).1 he h

theorem State.enableTerm_enabled (h : (s.terminals[t]).state ≠ .disabled) : s.enableTerm t = s :=
  if_pos ((Terminal.enabled_iff _).2 h)

/-- A terminal enabled: its places freed, and an idle line's choice (R130, R132, R144). -/
theorem State.enableTerm_disabled (h : (s.terminals[t]).state = .disabled) :
    let u := s.enableTerm t
    s.Freed u t (s.terminals[t]).queue
      ∧ u.terminals[t] = { s.terminals[t] with
          state := .unknown
          timeouts := 0
          queue := (u.terminals[t]).queue
          feedOwed := (u.terminals[t]).feedOwed }
      ∧ ((s.termLines[termLine t]).inFlight.isSome = true → u.termLines[termLine t] = s.termLines[termLine t])
      ∧ ((s.termLines[termLine t]).inFlight = none → State.Polls s.termLines[termLine t] u (termLine t))
      ∧ (∀ k : LineNo, k ≠ termLine t → u.termLines[k] = s.termLines[k])
      ∧ (∀ v : TermNo, v ≠ t → u.terminals[v] = s.terminals[v] ∧ u.alerts[v] = s.alerts[v]) := by
  intro u
  obtain ⟨hfreed, hform, hothers, hrest⟩ := State.freePlaces_set (s := s) (t := t)
    (y := { s.terminals[t] with state := .unknown, timeouts := 0 }) nofun rfl
  have hu : u = ((s.setTerm t { s.terminals[t] with state := .unknown, timeouts := 0 }).freePlaces t).chooseTerm
      (termLine t) := if_neg fun he => (Terminal.enabled_iff _).1 he h
  generalize (s.setTerm t { s.terminals[t] with state := .unknown, timeouts := 0 }).freePlaces t = v at *
  have hlines : v.termLines = s.termLines := by rw [hrest]
  have hterms : u.terminals = v.terminals := by rw [hu, State.chooseTerm_frame]
  have halerts : u.alerts = v.alerts := by rw [hu, State.chooseTerm_frame]
  rw [hterms]
  refine ⟨?_, hform, fun hbusy => ?_, fun hidle => ?_, fun k hk => ?_, fun w hw => ?_⟩
  · rw [State.Freed, hterms, halerts]
    exact hfreed
  · rw [hu, ← hlines]
    exact congrArg (fun w : State => w.termLines[termLine t]) (if_pos (by rw [hlines]; exact hbusy))
  · rw [hu]
    refine State.chooseTerm_polls ?_
    rw [hlines, ← hidle]
  · rw [hu, State.chooseTerm_ne v hk, hlines]
  · rw [halerts]
    exact hothers w hw

end

/-- Settles O27: the two actions, each on a terminal in the state that it changes. -/
theorem setTerminalActs : Obligations.SetTerminalActs := by
  intro s addressed body serial rest h hl hc term action reply
  have hrun := withLength_enough (run := withTerminal setTerminalRun) hl (s.taken rest)
  have hdone {u : State} {t : TermNo} (ht : term = t.val) (hd : setTerminalRun t body (s.taken rest) = u.done)
      (hu : u.unitSwitch = s.unitSwitch) : exec .setTerminal s = .next (u.answered addressed (reply 0x00)) :=
    h.operates (run := withLength 6 (withTerminal setTerminalRun)) (r := .done) (by omega) hc
      (hrun.trans ((withTerminal_runs ht).trans hd)) hu
  refine ⟨fun hbad => ?_, fun t ht => ?_⟩
  · refine h.refuses (run := withLength 6 (withTerminal setTerminalRun)) (r := .badOperand) (by omega) hc (hrun.trans ?_)
    by_cases hlt : 31 < term
    · exact withTerminal_bad hlt
    · obtain ⟨h1, h2⟩ := hbad.resolve_left hlt
      exact (withTerminal_runs (t := ⟨term, by omega⟩) rfl).trans (setTerminalRun_bad h1 h2)
  intro x
  refine ⟨?_, ?_⟩
  · rintro (⟨h1, hs⟩ | ⟨h2, hs⟩)
    · exact hdone ht ((setTerminalRun_enable h1).trans
        (congrArg State.done (State.enableTerm_enabled (s := s.taken rest) hs))) rfl
    · exact hdone ht ((setTerminalRun_disable h2).trans
        (congrArg State.done (State.disableTerm_disabled (s := s.taken rest) hs))) rfl
  · rintro (⟨h2, hs⟩ | ⟨h1, hs⟩)
    · obtain ⟨halerts, hterm, hline, hlines, hterms⟩ := State.disableTerm_enabled (s := s.taken rest) hs
      have hframe := (s.taken rest).disableTerm_frame t
      have hexec := hdone ht (setTerminalRun_disable h2) (by rw [hframe]; rfl)
      generalize (s.taken rest).disableTerm t = u at *
      refine ⟨_, hexec, ?_⟩
      rw [State.answered_frame]
      refine ⟨fun _ => ⟨halerts, hterm, hline⟩, fun h1 => absurd (h2.symm.trans h1) (by decide), hlines,
        fun v hv => ⟨hterms v hv, by rw [halerts]; rfl⟩, ?_, ?_⟩
      · rw [hframe]
        rfl
      · rw [hframe]
    · obtain ⟨hfreed, hterm, hbusy, hidle, hlines, hterms⟩ := State.enableTerm_disabled (s := s.taken rest) hs
      have hframe := (s.taken rest).enableTerm_frame t
      have hexec := hdone ht (setTerminalRun_enable h1) (by rw [hframe]; rfl)
      generalize (s.taken rest).enableTerm t = u at *
      refine ⟨_, hexec, ?_⟩
      rw [State.answered_frame]
      refine ⟨fun h2 => absurd (h1.symm.trans h2) (by decide), fun _ => ⟨hfreed, hterm, hbusy, hidle⟩, hlines, hterms,
        ?_, ?_⟩
      · rw [hframe]
        rfl
      · rw [hframe]

end Sys2Proof.Machine
end

