-- ==== Sys2Proof/Proofs/Restart.lean ====
section
/-! PROOFS. RESTART, each block's part (R66, R92, R117, R128, R154, R179, R194). -/

namespace Sys2Proof.Machine

/-! ### The marks of a restarted line -/

theorem BoardLine.Remarked.trans {b c d : BoardLine} {k j : ModuleNo → Option Nat} {r q : Nat} (h : b.Remarked c k r)
    (g : c.Remarked d j q) : b.Remarked d j q :=
  ⟨by rw [g.line, h.line], fun i => by rw [g.module, h.module]⟩

theorem BoardLine.Remarked.waits {b c : BoardLine} {k : ModuleNo → Option Nat} {r : Nat} (h : b.Remarked c k r)
    (i : ModuleNo) : (c.modules[i]).waits = (b.modules[i]).waits := by
  rw [h.module]
  rfl

/-- A module without a mark settled below the last mark: where it waits it takes the register's number (R98). -/
theorem BoardLine.settleMark_unmarked {b : BoardLine} {i : ModuleNo} (hm : b.mark i = none)
    (hr : b.markReg < Config.markMax) : b.Remarked (b.settleMark i)
      (fun j => if j = i then if (b.modules[i]).waits then some b.markReg else none else b.mark j)
      (b.markReg + if (b.modules[i]).waits then 1 else 0) := by
  rcases hw : (b.modules[i]).waits with _ | _
  · exact BoardLine.settleMark_rests hw
  · exact BoardLine.settleMark_takes hw hm hr.ne

/-- Marks taken one after another by the waiting modules of a rising list, none of which holds one (R98, R117). -/
theorem BoardLine.settleMarks_unmarked {is : List ModuleNo} (hs : is.Pairwise (· < ·)) {b : BoardLine}
    (hn : ∀ i ∈ is, b.mark i = none) (hr : b.markReg + is.length ≤ Config.markMax) :
    b.Remarked (is.foldl BoardLine.settleMark b)
      (fun i => if i ∈ is then
          if (b.modules[i]).waits then
            some (b.markReg + (is.filter fun j => decide (j < i) && (b.modules[j]).waits).length) else none
        else b.mark i)
      (b.markReg + (is.filter fun j => (b.modules[j]).waits).length) := by
  induction is generalizing b with
  | nil => exact b.remarked_self
  | cons a is ih =>
    obtain ⟨ha, hs⟩ := List.pairwise_cons.1 hs
    rw [List.length_cons] at hr
    have hne {i : ModuleNo} (hi : i ∈ is) : i ≠ a := (ha i hi).ne'
    have hstep := BoardLine.settleMark_unmarked (hn a List.mem_cons_self) (by omega)
    obtain ⟨c, hc⟩ : ∃ c, c = b.settleMark a := ⟨_, rfl⟩
    rw [← hc] at hstep
    have hmark (i : ModuleNo) : c.mark i =
        if i = a then if (b.modules[a]).waits then some b.markReg else none else b.mark i := by
      rw [BoardLine.mark, hstep.module]
    have hreg : c.markReg = b.markReg + if (b.modules[a]).waits then 1 else 0 := by rw [hstep.line]
    have hlater := ih hs (b := c) (fun i hi => by rw [hmark, if_neg (hne hi), hn i (List.mem_cons_of_mem _ hi)]) (by
      rw [hreg]
      split <;> omega)
    simp only [hstep.waits, hmark, hreg] at hlater
    rw [List.foldl_cons, ← hc]
    have hcount (p : ModuleNo → Bool) : ((a :: is).filter p).length = (if p a then 1 else 0) + (is.filter p).length := by
      rw [List.filter_cons]
      split <;> simp [Nat.add_comm]
    convert hstep.trans hlater using 1
    · funext i
      by_cases hi : i = a
      · subst hi
        have hnot : i ∉ is := fun h => hne h rfl
        have hfirst : is.filter (fun j => decide (j < i) && (b.modules[j]).waits) = [] :=
          List.filter_eq_nil_iff.2 fun j hj => by simp [not_lt.2 (ha j hj).le]
        simp only [hcount, hfirst, hnot, List.mem_cons, true_or, if_true, if_false, lt_irrefl, decide_false,
          Bool.false_and, Bool.false_eq_true, List.length_nil, Nat.add_zero]
      · by_cases hmem : i ∈ is
        · have hlt : a < i := ha i hmem
          simp only [hcount, hmem, List.mem_cons, or_true, if_true, hlt, decide_true, Bool.true_and, Nat.add_assoc]
        · simp only [hmem, hi, List.mem_cons, or_self, if_false]
    · rw [hcount, Nat.add_assoc]

theorem BoardModule.waits_eq (m : BoardModule) : m.waits = (decide (m.dirty ≠ .empty) || m.blanking) := by
  rw [Bool.eq_iff_iff, BoardModule.waits_iff, Bool.or_eq_true, decide_eq_true_eq]

/-- A board line at RESTART: its sweep begins again, its modules are UNKNOWN and fully dirty, and it sends the feed
state (R117). -/
theorem BoardLine.restart_chosen (b : BoardLine) (f : FeedState) (records : Records) (lampsOf : ModuleNo → RowLamps) :
    let t := (b.restart f).choose records lampsOf
    let waits (m : BoardModule) : Bool := decide (m.dirty ≠ .empty) || m.blanking
    t.holds = 0 ∧ t.timeouts = 0 ∧ t.sweep = 31 ∧ t.broadcast = none
      ∧ t.inFlight = some ⟨.broadcast f, [319#9, 0x0F#9, if f = .quiet then 0x01#9 else 0x00#9,
          if f = .quiet then 0x10#9 else 0x0F#9], none⟩
      ∧ t.markReg = ((List.finRange 32).filter fun j => waits t.modules[j]).length
      ∧ ∀ i : ModuleNo,
          let m := b.modules[i]
          let u := t.modules[i]
          u.mapping = m.mapping ∧ u.state = .unknown ∧ u.timeouts = 0 ∧ u.backOff = none
            ∧ u.dirty = (m.mapping.map Mapping.mask).getD .empty
            ∧ (u.blanking = true ↔ m.mapping = none ∧ (m.blanking = true ∨ m.state = .dark))
            ∧ u.mark = if waits u then some ((List.finRange 32).filter fun j =>
                decide (j < i) && waits t.modules[j]).length else none := by
  obtain ⟨d, hd⟩ : ∃ d : BoardLine, d = b.restart f := ⟨_, rfl⟩
  rw [← hd]
  intro t waits
  obtain ⟨c, hc⟩ : ∃ c : BoardLine, c = ⟨b.modules.map BoardModule.restart, 0, 31, none, some f, 0, 0⟩ := ⟨_, rfl⟩
  have hmodule (j : ModuleNo) : c.modules[j] = (b.modules[j]).restart := by
    rw [hc]
    exact Vector.getElem_map _ _
  have hreg : c.markReg = 0 := by rw [hc]
  have hmarks := BoardLine.settleMarks_unmarked (List.pairwise_lt_finRange 32) (b := c)
    (fun i _ => by rw [BoardLine.mark, hmodule]; rfl) (by rw [hreg]; decide)
  have hrestart : d = (List.finRange 32).foldl BoardLine.settleMark c := by rw [hd, hc]; rfl
  rw [← hrestart] at hmarks
  have hfree : d.inFlight = none := by rw [hmarks.line, hc]
  have hpending : d.broadcast = some f := by rw [hmarks.line, hc]
  have ht : t = d.startBroadcast f := by
    simp only [t, BoardLine.choose, hfree, hpending, Option.isSome_none, Bool.false_eq_true, if_false]
  have hwaits (j : ModuleNo) : waits t.modules[j] = (c.modules[j]).waits := by
    rw [← hmarks.waits j, BoardModule.waits_eq, ht, BoardLine.startBroadcast_eq]
  have hmod (i : ModuleNo) : t.modules[i] = { (b.modules[i]).restart with
      mark := if (c.modules[i]).waits then some ((List.finRange 32).filter fun j =>
        decide (j < i) && (c.modules[j]).waits).length else none } := by
    rw [ht, BoardLine.startBroadcast_eq]
    refine (hmarks.module i).trans ?_
    simp only [List.mem_finRange, if_true, hreg, Nat.zero_add, hmodule]
  simp only [hwaits]
  have hline : t = { c with
      modules := t.modules
      markReg := ((List.finRange 32).filter fun j => (c.modules[j]).waits).length
      broadcast := none
      inFlight := t.inFlight } := by
    rw [ht, BoardLine.startBroadcast_eq, hmarks.line, hreg, Nat.zero_add]
  refine ⟨by rw [hline, hc], by rw [hline, hc], by rw [hline, hc], by rw [hline], ?_, by rw [hline], fun i => ?_⟩
  · rw [ht, BoardLine.startBroadcast_eq]
    cases f <;> rfl
  · rw [hmod i]
    refine ⟨rfl, rfl, rfl, rfl, BoardModule.shown_eq _, ?_, rfl⟩
    simp only [BoardModule.restart, Bool.and_eq_true, Option.isNone_iff_eq_none, Bool.or_eq_true, decide_eq_true_eq]

/-! ### The Feed Receiver -/

theorem FeedReceiver.restart_frame (f : FeedReceiver) (serial : Nat) : f.restart serial = { f with
    lock := false
    counts := .zero
    through := (f.restart serial).through
    transmitting := (f.restart serial).transmitting } := by
  rw [restart, FeedReceiver.pump_frame]

/-- The through path at RESTART: messages checked before it are cut and removed, and the next of the others is begun
(R66, R180, log 18). -/
theorem FeedReceiver.restart_path (f : FeedReceiver) (serial : Nat) :
    let t := f.restart serial
    let kept := f.through.filter fun e => decide (serial ≤ e.serial)
    (∀ e, f.transmitting = some e → serial ≤ e.serial → t.transmitting = some e ∧ t.through = kept)
      ∧ ((∀ e, f.transmitting = some e → e.serial < serial) →
        ∀ gone : List ThroughEntry, (∀ x ∈ gone, x.doomed = true) →
          (∀ x next, x.doomed = false → kept = gone ++ x :: next → t.transmitting = some x ∧ t.through = next)
            ∧ (kept = gone → t.transmitting = none ∧ t.through = [])) := by
  intro t kept
  obtain ⟨g, hg⟩ : ∃ g : FeedReceiver, g = { f with
    lock := false, through := kept, transmitting := f.transmitting.filter fun e => decide (serial ≤ e.serial),
    counts := .zero } := ⟨_, rfl⟩
  have ht : t = g.pump := by rw [hg]; rfl
  have hthrough : g.through = kept := by rw [hg]
  refine ⟨fun e he hs => ?_, fun hold gone hgone => ?_⟩
  · have hbusy : g.transmitting = some e := by
      rw [hg]
      exact Option.filter_eq_some_iff.2 ⟨he, decide_eq_true hs⟩
    rw [ht, FeedReceiver.pump_busy (by rw [hbusy]; rfl)]
    exact ⟨hbusy, hthrough⟩
  · have hidle : g.transmitting = none := by
      rw [hg]
      exact Option.filter_eq_none_iff.2 fun e he => by simpa using hold e he
    rw [ht, FeedReceiver.pump_idle hidle, hthrough]
    refine ⟨fun x next hx hk => ?_, fun hk => ?_⟩
    · have hnext : nextThrough kept = (some x, next) := by
        rw [hk, nextThrough_append hgone, nextThrough, if_neg (by rw [hx]; decide)]
      exact ⟨congrArg Prod.fst hnext, congrArg Prod.snd hnext⟩
    · have hnext : nextThrough kept = (none, []) := by
        rw [hk, ← List.append_nil gone, nextThrough_append hgone]
        rfl
      exact ⟨congrArg Prod.fst hnext, congrArg Prod.snd hnext⟩

/-! ### The terminals -/

/-- Places freed at several terminals, each seen from the card before (R144, R160). -/
theorem State.freeAll_freed (s : State) {ts : List TermNo} (hts : ts.Nodup) :
    let u := ts.foldl (fun s t => if (s.terminals[t]).enabled then s.freePlaces t else s) s
    (∀ x ∈ ts, (s.terminals[x]).state ≠ .disabled → s.Freed u x (s.terminals[x]).queue
        ∧ u.terminals[x] = { s.terminals[x] with
            queue := (u.terminals[x]).queue, feedOwed := (u.terminals[x]).feedOwed })
      ∧ ∀ x : TermNo, x ∉ ts ∨ (s.terminals[x]).state = .disabled →
          u.terminals[x] = s.terminals[x] ∧ u.alerts[x] = s.alerts[x] := by
  induction ts generalizing s with
  | nil => exact ⟨nofun, fun _ _ => ⟨rfl, rfl⟩⟩
  | cons t ts ih =>
    obtain ⟨ht, hts⟩ := List.nodup_cons.1 hts
    by_cases he : (s.terminals[t]).state = .disabled
    · obtain ⟨hin, hout⟩ := ih s hts
      rw [List.foldl_cons, if_neg fun h => (Terminal.enabled_iff _).1 h he]
      refine ⟨fun x hx hs => ?_, fun x hx => hout x (hx.imp_left fun h hm => h (List.mem_cons_of_mem _ hm))⟩
      rcases List.mem_cons.1 hx with rfl | hx
      · exact absurd he hs
      · exact hin x hx hs
    · obtain ⟨hfreed, hform, hothers⟩ := State.freePlaces_freed he
      have hframe := s.freePlaces_frame t
      rw [List.foldl_cons, if_pos ((Terminal.enabled_iff _).2 he)]
      generalize s.freePlaces t = v at *
      obtain ⟨hin, hout⟩ := ih v hts
      generalize ts.foldl (fun s t => if (s.terminals[t]).enabled then s.freePlaces t else s) v = u at *
      have hself := hout t (.inl ht)
      refine ⟨fun x hx hs => ?_, fun x hx => ?_⟩
      · rcases List.mem_cons.1 hx with rfl | hx
        · rw [State.Freed, hself.1, hself.2]
          exact ⟨hfreed, hform⟩
        · obtain ⟨hterm, halerts⟩ := hothers x fun h => ht (h ▸ hx)
          obtain ⟨hf, hq⟩ := hin x hx (by rw [hterm]; exact hs)
          rw [hterm] at hf hq
          exact ⟨hf.congr (by rw [hterm]) (by rw [hframe]) halerts.symm (by rw [hframe]) (by rw [hframe]), hq⟩
      · have hne : x ≠ t := by
          rintro rfl
          exact hx.elim (fun h => h List.mem_cons_self) he
        obtain ⟨hterm, halerts⟩ := hothers x hne
        obtain ⟨h1, h2⟩ := hout x (hx.imp (fun h hm => h (List.mem_cons_of_mem _ hm)) fun h => by rw [hterm]; exact h)
        exact ⟨h1.trans hterm, h2.trans halerts⟩

theorem State.owedSlots_length (s : State) (t : TermNo) : (s.owedSlots t).length ≤ 8 :=
  (List.length_filterMap_le _ _).trans (List.length_finRange).le

theorem Terminal.restart_disabled {x : Terminal} (h : x.state = .disabled) : x.restart = x := if_pos h

theorem Terminal.restart_enabled {x : Terminal} (h : x.state ≠ .disabled) : x.restart = ⟨.unknown,
    x.watch.map fun e => ⟨e.issue, ⟨true, true, true, true, false, true, true⟩⟩, true, 23, [], false, 0⟩ := if_neg h

/-- The terminals at RESTART: a DISABLED one stands, and an enabled one is UNKNOWN with its list pending and its owed
alerts queued (R154, R160). -/
theorem State.restartTerminals_freed (s : State) (x : TermNo) :
    let u := s.restartTerminals
    ((s.terminals[x]).state = .disabled → u.terminals[x] = s.terminals[x] ∧ u.alerts[x] = s.alerts[x])
      ∧ ((s.terminals[x]).state ≠ .disabled →
        u.terminals[x] = ⟨.unknown,
            (s.terminals[x]).watch.map fun e => ⟨e.issue, ⟨true, true, true, true, false, true, true⟩⟩,
            true, 23, (s.owedSlots x).map Prod.snd, false, 0⟩
          ∧ ∀ k : SlotNo, (u.alerts[x])[k] = if k ∈ (s.owedSlots x).map Prod.fst
              then ((s.alerts[x])[k]).map fun a => { a with owed := false } else (s.alerts[x])[k]) := by
  intro u
  obtain ⟨a, hu, ha⟩ := s.restartTerminals_eq
  have hterm : a.terminals[x] = (s.terminals[x]).restart := by
    rw [ha]
    exact Vector.getElem_map ..
  have halerts : a.alerts = s.alerts := by rw [ha]
  have howed : a.owedSlots x = s.owedSlots x := by
    rw [ha]
    rfl
  obtain ⟨hin, hout⟩ := a.freeAll_freed (List.nodup_finRange 32)
  rw [← hu] at hin hout
  refine ⟨fun hd => ?_, fun he => ?_⟩
  · have hsame := hterm.trans (Terminal.restart_disabled hd)
    rw [← hsame, ← halerts]
    exact hout x (.inr (by rw [hsame]; exact hd))
  · have hfresh := hterm.trans (Terminal.restart_enabled he)
    obtain ⟨⟨hqueue, hfeed, hslots⟩, hform⟩ := hin x (List.mem_finRange x) (by rw [hfresh]; exact nofun)
    rw [hfresh] at hqueue hfeed hslots hform
    simp only [Bool.false_eq_true, false_and, if_false, List.append_nil, List.nil_append, List.length_nil, Nat.sub_zero,
      List.isEmpty_nil, Bool.and_true, howed, halerts, List.take_of_length_le (s.owedSlots_length x)] at hqueue hfeed hslots
    refine ⟨?_, hslots⟩
    rw [hqueue, hfeed] at hform
    exact hform

theorem State.Polls.congr {x : TermLine} {u v : State} {l : LineNo} (h : State.Polls x u l)
    (ht : v.terminals = u.terminals) (hl : v.termLines[l] = u.termLines[l]) : State.Polls x v l := by
  rw [State.Polls, ht, hl]
  exact h

/-- Idle lines choosing one after another: each polls as if it chose alone (R132). -/
theorem State.chooseTerms_polls {x : LineNo → TermLine} {ls : List LineNo} (hls : ls.Nodup) {s : State}
    (h : ∀ l, s.termLines[l] = { x l with inFlight := none }) :
    (ls.foldl State.chooseTerm s).terminals = s.terminals
      ∧ (∀ l ∈ ls, State.Polls (x l) (ls.foldl State.chooseTerm s) l)
      ∧ ∀ l, l ∉ ls → (ls.foldl State.chooseTerm s).termLines[l] = s.termLines[l] := by
  have hframe (ls : List LineNo) (s : State) : (ls.foldl State.chooseTerm s).terminals = s.terminals :=
    foldl_view (view := State.terminals) (fun s l => by rw [State.chooseTerm_frame]) ls s
  have hstands (ls : List LineNo) (s : State) (l : LineNo) (hl : l ∉ ls) :
      (ls.foldl State.chooseTerm s).termLines[l] = s.termLines[l] := by
    induction ls generalizing s with
    | nil => rfl
    | cons k ls ih =>
      rw [List.foldl_cons, ih _ fun hm => hl (List.mem_cons_of_mem _ hm), State.chooseTerm_ne s]
      rintro rfl
      exact hl List.mem_cons_self
  refine ⟨hframe ls s, ?_, hstands ls s⟩
  intro l hl
  obtain ⟨before, after, rfl⟩ := List.append_of_mem hl
  obtain ⟨hbefore, hafter⟩ := not_or.1 fun hm => (List.nodup_cons.1 (List.nodup_middle.1 hls)).1 (List.mem_append.2 hm)
  rw [List.foldl_append, List.foldl_cons]
  refine State.Polls.congr (State.chooseTerm_polls ?_) (hframe after _) (hstands after _ l hafter)
  rw [hstands before s l hbefore, h]

/-! ### The Upstream Port -/

theorem UpstreamPort.arbitrate_own {u : UpstreamPort} {r : Text} {rs : List Text} (ht : u.transmitting = none)
    (hr : u.readyAbove = true) (hq : u.replies = r :: rs) (hb : u.buffer = [] ∨ u.lastServed = .passed) :
    u.arbitrate = u.beginOwn r rs := by
  have hg : ¬ (u.transmitting.isSome || !u.readyAbove) = true := by simp [ht, hr]
  rw [arbitrate, if_neg hg, hq]
  rcases hb with hb | hl
  · rw [hb]
  · cases u.buffer with
    | nil => rfl
    | cons f fs => exact if_pos hl

/-- The Upstream Port at RESTART: where the card above is ready, the first of the frames is begun, and a RESTARTED notice
begun clears the start-up hold (R194). -/
theorem UpstreamPort.restart_begun (u : UpstreamPort) (addressed : Bool) {reply restarted : Text}
    (hr : isRestarted reply = false) (hn : isRestarted restarted = true) :
    u.restart ((if addressed then [reply] else []) ++ [restarted]) = { u with
      claims := 0
      buffer := []
      lastServed := .own
      assembler := .hunt
      lost := 0
      replies := if u.readyAbove then ((if addressed then [reply] else []) ++ [restarted]).tail
        else (if addressed then [reply] else []) ++ [restarted]
      transmitting := if u.readyAbove
        then ((if addressed then [reply] else []) ++ [restarted]).head?.map fun body => (.own, frameOf body) else none
      hold := addressed || !u.readyAbove } := by
  rw [restart]
  rcases hup : u.readyAbove with _ | _
  · rw [UpstreamPort.arbitrate_waits (.inr rfl), Bool.not_false, Bool.or_true]
    rfl
  · cases addressed
    · rw [UpstreamPort.arbitrate_own (r := restarted) (rs := []) rfl rfl rfl (.inl rfl), beginOwn, hn]
      rfl
    · rw [UpstreamPort.arbitrate_own (r := reply) (rs := [restarted]) rfl rfl rfl (.inl rfl), beginOwn, hr]
      rfl

/-! ### RESTART -/

/-- RESTART executed, addressed or broadcast (R179). -/
theorem State.ControlTurn.restarts {s : State} {addressed : Bool} {body : Text} {serial : Nat} {rest : List Handed}
    (h : s.ControlTurn addressed body serial rest) (hm : opIs 0x0F body = true) :
    exec .restart s = .next ((s.taken rest).restart addressed body serial) := by
  change execRestart s = _
  cases addressed
  case false =>
    obtain ⟨hi, hq⟩ := h
    have hhead : s.controlHead = some (false, ⟨body, serial⟩) := by rw [State.controlHead, hq]
    have hturn : s.turn (opIs 0x0F) = .broadcast ⟨body, serial⟩ := by
      rw [State.turn, hi, hhead]
      exact if_pos hm
    have hdrop : s.dropHead = s.dropped rest := by rw [State.dropHead, hq]; rfl
    rw [execRestart, hturn, State.taken_of_idle hi, ← hdrop]
  case true =>
    obtain ⟨hi, hq⟩ := h
    have hturn : s.turn (opIs 0x0F) = .execute ⟨body, serial⟩ := by
      rw [State.turn, hi]
      exact if_pos hm
    rw [execRestart, hturn]
    subst hq
    rfl

theorem State.rowHalted_eq (s : State) (r : RowNo) :
    s.rowHalted r = ((s.rowIssue r).bind (findRecord s.issues.records)).any IssueRecord.halted := by
  have hany (o : Option IssueRecord) : (o.map IssueRecord.halted).getD false = o.any IssueRecord.halted := by
    cases o <;> rfl
  rw [rowHalted]
  cases s.rowIssue r with
  | none => rfl
  | some n => exact hany _

theorem State.restartBlocks_eq (s : State) (serial : Nat) : ∃ u : State,
    s.restartBlocks serial = u.restartTerminals.chooseTerms ∧ u.terminals = s.terminals ∧ u.termLines = s.termLines
      ∧ u.alerts = s.alerts ∧ u.issues.records = s.issues.records ∧ u.issues.clock = s.issues.clock := by
  have frame (a : State) : a.chooseBoards.terminals = a.terminals ∧ a.chooseBoards.termLines = a.termLines
      ∧ a.chooseBoards.alerts = a.alerts ∧ a.chooseBoards.issues.records = a.issues.records
      ∧ a.chooseBoards.issues.clock = a.issues.clock := by
    rw [State.chooseBoards_frame]
    exact ⟨rfl, rfl, rfl, rfl, rfl⟩
  unfold restartBlocks
  exact ⟨_, rfl, frame _⟩

theorem State.restartTerminals_lines (s : State) (l : LineNo) : s.restartTerminals.termLines[l] =
    { s.termLines[l] with pollPtr := 7, inFlight := none, timeouts := 0, busies := 0, retries := 0 } := by
  obtain ⟨a, hu, ha⟩ := s.restartTerminals_eq
  rw [hu, State.freeAll_frame, ha]
  exact Vector.getElem_map ..

/-- The terminals, the alert slots and the terminal lines at RESTART (R154). -/
theorem State.restartBlocks_terminals (s : State) (serial : Nat) :
    let t := s.restartBlocks serial
    (∀ x : TermNo, (s.terminals[x]).state = .disabled →
        t.terminals[x] = s.terminals[x] ∧ t.alerts[x] = s.alerts[x])
      ∧ (∀ x : TermNo, (s.terminals[x]).state ≠ .disabled →
        t.terminals[x] = ⟨.unknown,
            (s.terminals[x]).watch.map fun e => ⟨e.issue, ⟨true, true, true, true, false, true, true⟩⟩,
            true, 23, (s.owedSlots x).map Prod.snd, false, 0⟩
          ∧ ∀ k : SlotNo, (t.alerts[x])[k] = if k ∈ (s.owedSlots x).map Prod.fst
              then ((s.alerts[x])[k]).map fun a => { a with owed := false } else (s.alerts[x])[k])
      ∧ ∀ l : LineNo, State.Polls { s.termLines[l] with pollPtr := 7, timeouts := 0, busies := 0, retries := 0 } t l := by
  obtain ⟨u, ht, hterms, hlines, halerts, hrecords, hclock⟩ := s.restartBlocks_eq serial
  rw [ht]
  have howed (x : TermNo) : u.owedSlots x = s.owedSlots x := by
    unfold owedSlots
    rw [halerts, hrecords, hclock]
  obtain ⟨hsame, hpolls, -⟩ := State.chooseTerms_polls (s := u.restartTerminals) (List.nodup_finRange 4)
    (x := fun l => { s.termLines[l] with pollPtr := 7, timeouts := 0, busies := 0, retries := 0 })
    fun l => by rw [State.restartTerminals_lines, hlines]
  have hslots : u.restartTerminals.chooseTerms.alerts = u.restartTerminals.alerts := by rw [State.chooseTerms_frame]
  rw [State.chooseTerms] at hslots ⊢
  dsimp only
  rw [hsame, hslots]
  refine ⟨fun x hd => ?_, fun x he => ?_, fun l => hpolls l (List.mem_finRange l)⟩
  · rw [← hterms, ← halerts]
    exact (u.restartTerminals_freed x).1 (by rw [hterms]; exact hd)
  · rw [← hterms, ← halerts, ← howed]
    exact (u.restartTerminals_freed x).2 (by rw [hterms]; exact he)

/-- Settles O29: the parts of the blocks, each from its own lemma, in the card that RESTART leaves. -/
theorem restartActs : Obligations.RestartActs := by
  intro s addressed body serial rest h hl hc frames waits
  have hframe := (s.taken rest).restart_frame addressed body serial
  refine ⟨_, h.restarts (opIs_of_length hl hc), ?_⟩
  obtain ⟨hlamps, hboards⟩ := (s.taken rest).restartBlocks_displays serial
  obtain ⟨hoff, hon, hpolls⟩ := (s.taken rest).restartBlocks_terminals serial
  have hfeed := (s.taken rest).feed.restart_frame serial
  have hpath := (s.taken rest).feed.restart_path serial
  have hreply : replyBody s.unitSwitch body 0 .done [] = [0x41, s.unitSwitch, byteAt body 2, 0x0F, 0x00, 0x00] := by
    rw [replyBody, opCode_of_length hl, hc]
    rfl
  have hport := s.upstream.restart_begun addressed (reply := replyBody s.unitSwitch body 0 .done [])
    (restarted := restartedBody s.unitSwitch 1) rfl rfl
  rw [hreply] at hport
  have hframes : restartReplies s.unitSwitch addressed body =
      (if addressed then [[0x41, s.unitSwitch, byteAt body 2, 0x0F, 0x00, 0x00]] else [])
        ++ [restartedBody s.unitSwitch 1] := by
    rw [restartReplies, hreply]
  generalize (s.taken rest).restartBlocks serial = w at *
  generalize (s.taken rest).feed.restart serial = f at *
  rw [hframe]
  refine ⟨?_, ?_, ?_, ?_, ?_, ?_, ?_, ?_, hpath, rfl, fun ch => ?_, fun l => ?_, fun r => ?_, hoff, hon, hpolls, rfl,
    ?_, rfl⟩
  · rw [hfeed]
  · rw [hfeed]
    rfl
  · rw [hfeed]
    rfl
  · rw [hfeed]
    rfl
  · rw [hfeed]
    rfl
  · rw [hfeed]
    rfl
  · rw [hfeed]
    rfl
  · rw [hfeed]
    rfl
  · cases ch <;> rfl
  · have hchosen := BoardLine.restart_chosen s.boards[l] s.feed.feedState s.issues.records fun m => w.lamps[rowOf l m]
    have hline : w.boards[l] = ((s.boards[l]).restart s.feed.feedState).choose s.issues.records fun m =>
        w.lamps[rowOf l m] := hboards l
    rw [← hline] at hchosen
    exact hchosen
  · refine (congrArg (fun v : Vector RowLamps 128 => v[r]) hlamps).trans ((Vector.getElem_ofFn _).trans ?_)
    rw [State.rowHalted_eq]
    rfl
  · exact (congrArg s.upstream.restart hframes).trans hport

end Sys2Proof.Machine
end

