-- ==== Sys2Proof/Proofs/Port.lean ====
section
/-! PROOFS. The stores of the Upstream Port and its arbiter (R189 to R193). -/

namespace Sys2Proof.Machine

section
variable {u : UpstreamPort}

theorem UpstreamPort.arbitrate_passed {f : Frame} {fs : List Frame} (ht : u.transmitting = none)
    (hr : u.readyAbove = true) (hb : u.buffer = f :: fs) (hq : u.replies = [] ∨ u.lastServed = .own) :
    u.arbitrate = u.beginPassed f fs := by
  have hg : ¬ (u.transmitting.isSome || !u.readyAbove) = true := by simp [ht, hr]
  rw [arbitrate, if_neg hg, hb]
  rcases hq with hq | hl
  · rw [hq]
  · cases u.replies with
    | nil => rfl
    | cons r rs => exact if_neg (by rw [hl]; decide)

theorem UpstreamPort.arbitrate_empty (hq : u.replies = []) (hb : u.buffer = []) : u.arbitrate = u := by
  rw [arbitrate, hq, hb]
  exact ite_self u

end

/-! ### What joins -/

section
variable {s : State} {c : Byte}

theorem exec_upstreamInCharacter_frame {f : Frame} (h : (assemble s.upstream.assembler c).2 = .frame f)
    (hroom : s.upstream.buffer.length < 2) : exec (.upstreamInCharacter c) s = .next { s with
      upstream := UpstreamPort.arbitrate { s.upstream with
        assembler := (assemble s.upstream.assembler c).1
        buffer := s.upstream.buffer ++ [f] } } := by
  change execUpstreamInCharacter c s = _
  rw [execUpstreamInCharacter]
  simp only [h]
  exact if_pos hroom

theorem exec_upstreamInCharacter_other (h : ∀ f, (assemble s.upstream.assembler c).2 ≠ .frame f) :
    exec (.upstreamInCharacter c) s = .next { s with
      upstream := { s.upstream with assembler := (assemble s.upstream.assembler c).1 } } := by
  change execUpstreamInCharacter c s = _
  rw [execUpstreamInCharacter]
  cases ho : (assemble s.upstream.assembler c).2 with
  | frame f => exact absurd ho (h f)
  | failure => simp only [ho]
  | nothing => simp only [ho]

end

/-- A frame of this card that joins the reply queue of an empty port is begun at once (R193). -/
theorem UpstreamPort.joined_begun {u : UpstreamPort} (ht : u.transmitting = none) (hr : u.readyAbove = true)
    (hq : u.replies = []) (hb : u.buffer = []) (body : Text) (claims : Nat) :
    ({ u with replies := u.replies ++ [body], claims := claims } : UpstreamPort).arbitrate = { u with
      claims := claims
      transmitting := some (.own, frameOf body)
      lastServed := .own
      hold := u.hold && !(byteAt body 0 == 0x42 && byteAt body 2 == 0x01) } := by
  rw [UpstreamPort.arbitrate_own (u := { u with replies := u.replies ++ [body], claims := claims }) (r := body) (rs := [])
    ht hr (congrArg (· ++ [body]) hq) (.inl hb), beginOwn]
  simp only [hq, isRestarted]

/-- Settles O49: each store takes what joins it at its tail, and the arbiter then serves an empty port or waits. -/
theorem portStoresTake : Obligations.PortStoresTake := by
  refine ⟨fun s c => ⟨fun f hf hroom => ?_, exec_upstreamInCharacter_other⟩, fun u body => ?_, fun u => ?_⟩
  · refine ⟨exec_upstreamInCharacter_frame hf hroom, fun hw => UpstreamPort.arbitrate_waits hw, ?_⟩
    rintro ⟨ht, hr, hq, hb⟩
    rw [UpstreamPort.arbitrate_passed (u := { s.upstream with
      assembler := (assemble s.upstream.assembler c).1, buffer := s.upstream.buffer ++ [f] }) (f := f) (fs := [])
      ht hr (congrArg (· ++ [f]) hb) (.inl hq), UpstreamPort.beginPassed]
    simp only [hb]
  · intro begun waits idle
    refine ⟨fun hroom => ⟨fun hw => ?_, ?_⟩, fun hfull => if_neg (not_lt.2 hfull), fun hw => ?_, ?_⟩
    · exact (if_pos hroom).trans (UpstreamPort.arbitrate_waits hw)
    · rintro ⟨ht, hr, hq, hb⟩
      exact (if_pos hroom).trans (UpstreamPort.joined_begun ht hr hq hb body u.claims)
    · exact UpstreamPort.arbitrate_waits hw
    · rintro ⟨ht, hr, hq, hb⟩
      exact UpstreamPort.joined_begun ht hr hq hb body (u.claims - 1)
  · rw [UpstreamPort.readyBelow, Bool.and_eq_true, Bool.not_eq_true', decide_eq_true_eq]
    rfl

/-! ### The arbiter -/

/-- What the arbiter chooses for a port whose line is free and whose card above is ready, in a command that answers its
choice (R193). -/
theorem arbiter_chooses {s : State} {c : Instr} (hc : exec c s = .next { s with
      upstream := UpstreamPort.arbitrate { s.upstream with transmitting := none, readyAbove := true } }) :
    (∀ r rs, s.upstream.replies = r :: rs → s.upstream.buffer = [] ∨ s.upstream.lastServed = .passed →
        exec c s = .next { s with upstream := { s.upstream with
          readyAbove := true, replies := rs, transmitting := some (.own, frameOf r), lastServed := .own,
          hold := s.upstream.hold && !(byteAt r 0 == 0x42 && byteAt r 2 == 0x01) } })
      ∧ (∀ f fs, s.upstream.buffer = f :: fs → s.upstream.replies = [] ∨ s.upstream.lastServed = .own →
        exec c s = .next { s with upstream := { s.upstream with
          readyAbove := true, buffer := fs, transmitting := some (.passed, f), lastServed := .passed } })
      ∧ (s.upstream.replies = [] → s.upstream.buffer = [] →
        exec c s = .next { s with upstream := { s.upstream with readyAbove := true, transmitting := none } }) := by
  obtain ⟨v, hv⟩ : ∃ v : UpstreamPort, v = { s.upstream with transmitting := none, readyAbove := true } := ⟨_, rfl⟩
  have hchosen {w : UpstreamPort} (hw : v.arbitrate = w) : exec c s = .next { s with upstream := w } := by
    rw [hc, ← hv, hw]
  subst hv
  exact ⟨fun r rs hq hb => hchosen (UpstreamPort.arbitrate_own rfl rfl hq hb),
    fun f fs hb hq => hchosen (UpstreamPort.arbitrate_passed rfl rfl hb hq),
    fun hq hb => hchosen (UpstreamPort.arbitrate_empty hq hb)⟩

/-- Settles O50: the two commands that let the arbiter choose, and those that leave the line as it is. -/
theorem arbiterChooses : Obligations.ArbiterChooses := by
  intro s u own passed chooses
  have hend (hbusy : u.transmitting.isSome = true) : exec .upstreamFrameEnd s =
      .next { s with upstream := UpstreamPort.arbitrate { u with transmitting := none } } := by
    obtain ⟨x, hx⟩ := Option.isSome_iff_exists.1 hbusy
    change execUpstreamFrameEnd s = _
    rw [execUpstreamFrameEnd, hx]
  refine ⟨fun hbusy hready => arbiter_chooses ?_, fun hfree => arbiter_chooses ?_, fun hbusy hready => ?_,
    fun active hor => ?_⟩
  · rw [hend hbusy, ← hready]
  · change execReadyLineChange true s = _
    rw [execReadyLineChange, ← hfree]
  · rw [hend hbusy, UpstreamPort.arbitrate_waits (u := { u with transmitting := none }) (.inr hready)]
  · change execReadyLineChange active s = _
    rw [execReadyLineChange, UpstreamPort.arbitrate_waits (u := { u with readyAbove := active }) hor.symm]

end Sys2Proof.Machine
end

