-- ==== Sys2Proof/Proofs/Transfers.lean ====
section
/-! PROOFS. The end of a transfer, and the answer waits of the board and terminal lines (R103 to R112, R133, R138). -/

namespace Sys2Proof.Machine

/-! ### A transfer that ends -/

theorem BoardLine.change_counts (b : BoardLine) (i : ModuleNo) (f : BoardModule → BoardModule)
    (holds timeouts : Nat) :
    ({ b with holds := holds, timeouts := timeouts } : BoardLine).change i f =
      { b.change i f with holds := holds, timeouts := timeouts } := by
  have hsettle (c : BoardLine) : ({ c with holds := holds, timeouts := timeouts } : BoardLine).settleMark i =
      { c.settleMark i with holds := holds, timeouts := timeouts } := by
    rw [BoardLine.settleMark_eq, BoardLine.settleMark_eq]
    cases (c.modules[i]).waits
    · rfl
    · cases (c.mark i).isNone
      · rfl
      · rw [if_pos rfl, if_pos rfl, if_pos rfl, if_pos rfl, BoardLine.takeMark, BoardLine.takeMark]
        split <;> rfl
  exact hsettle { b with modules := vupd b.modules i f }

theorem BoardLine.awaiting_some {b : BoardLine} {t : Transfer} {left : Nat} {i : ModuleNo} (h : b.inFlight = some t)
    (hw : t.wait = some left) (hi : t.body.module? = some i) : b.awaiting = some (i, t) := by
  rw [BoardLine.awaiting, h]
  simp only [hw, hi]

theorem State.setBoard_raiseAll (s : State) (l : LineNo) (x : BoardLine) (ns : List (Byte × Text)) :
    (s.setBoard l x).raiseAll ns = (s.raiseAll ns).setBoard l x := by
  induction ns generalizing s with
  | nil => rfl
  | cons n ns ih => exact ih (s.raise n.1 n.2)

/-- A line given a new state that then chooses, with the notices raised between (R110). -/
theorem State.setBoard_chooses (s : State) (l : LineNo) (x : BoardLine) (ns : List (Byte × Text)) :
    ((s.setBoard l x).raiseAll ns).chooseBoard l = { s with
      boards := s.boards.set l (x.choose s.issues.records fun m => s.lamps[rowOf l m])
      upstream := (s.raiseAll ns).upstream } := by
  rw [State.setBoard_raiseAll, State.raiseAll_frame, chooseBoard, State.setBoard_board, if_pos rfl]
  exact congrArg (fun v => ({ s with boards := v, upstream := (s.raiseAll ns).upstream } : State)) (Vector.set_set ..)

theorem State.raiseAll_if (s : State) (p : Prop) [Decidable p] (kind : Byte) (fields : Text) :
    (s.raiseAll (if p then [(kind, fields)] else [])).upstream =
      if p then s.upstream.offer (noticeBody s.unitSwitch kind fields) else s.upstream := by
  split <;> rfl

/-- What R107 puts back: to the dirty set where the row still shows the issue sent, and the blanking owed where the
row is still blank. -/
theorem BoardModule.restored_eq (y : BoardModule) (body : TransferBody) : y.restored body = { y with
    dirty := match body, y.mapping with
      | .update _ n fs, some p => if p.issue = n then y.dirty.union (fs.inter p.mask) else y.dirty
      | .refresh _ n fs, some p => if p.issue = n then y.dirty.union (fs.inter p.mask) else y.dirty
      | _, _ => y.dirty
    blanking := match body, y.mapping with
      | .blanking _, none => true
      | _, _ => y.blanking } := by
  obtain ⟨mapping, state, dirty, blanking, mark, timeouts, backOff⟩ := y
  have hfields (p : Mapping) (n : Nat) (fs : FieldSet) : ((if p.issue = n then
        ⟨some p, state, dirty.union (fs.inter p.mask), blanking, mark, timeouts, backOff⟩ else
        ⟨some p, state, dirty, blanking, mark, timeouts, backOff⟩) : BoardModule) =
      ⟨some p, state, if p.issue = n then dirty.union (fs.inter p.mask) else dirty, blanking, mark, timeouts,
        backOff⟩ := by
    split <;> rfl
  cases body with
  | update i n fs =>
    cases mapping with
    | none => rfl
    | some p => exact hfields p n fs
  | refresh i n fs =>
    cases mapping with
    | none => rfl
    | some p => exact hfields p n fs
  | blanking i => cases mapping <;> rfl
  | broadcast f => cases mapping <;> rfl

theorem BoardLine.ended_eq {b : BoardLine} {i : ModuleNo} {f : BoardModule → BoardModule} {u : BoardModule}
    (h : f b.modules[i] = u) : b.ended i f = { b with inFlight := none }.change i fun _ => u :=
  BoardLine.change_congr h

theorem BoardLine.ended_holds {b : BoardLine} {i : ModuleNo} {f : BoardModule → BoardModule} {u : BoardModule}
    (h : f b.modules[i] = u) : { b.ended i f with holds := satInc (b.ended i f).holds } =
      { b with inFlight := none, holds := min (b.holds + 1) 65535 }.change i fun _ => u := by
  have hkept := BoardLine.change_counts { b with inFlight := none } i (fun _ => u) b.holds b.timeouts
  have hcounted := BoardLine.change_counts { b with inFlight := none } i (fun _ => u) (min (b.holds + 1) 65535)
    b.timeouts
  rw [BoardLine.ended_eq h, hcounted]
  exact congrArg (fun c : BoardLine => { c with holds := satInc c.holds }) hkept

theorem BoardLine.ended_timeouts {b : BoardLine} {i : ModuleNo} {f : BoardModule → BoardModule} {u : BoardModule}
    (h : f b.modules[i] = u) : { b.ended i f with timeouts := satInc (b.ended i f).timeouts } =
      { b with inFlight := none, timeouts := min (b.timeouts + 1) 65535 }.change i fun _ => u := by
  have hkept := BoardLine.change_counts { b with inFlight := none } i (fun _ => u) b.holds b.timeouts
  have hcounted := BoardLine.change_counts { b with inFlight := none } i (fun _ => u) b.holds
    (min (b.timeouts + 1) 65535)
  rw [BoardLine.ended_eq h, hcounted]
  exact congrArg (fun c : BoardLine => { c with timeouts := satInc c.timeouts }) hkept

theorem BoardModule.missed_dark {m : BoardModule} (h : m.state = .dark) (body : TransferBody) : m.missed body = m :=
  if_pos h

theorem BoardModule.missed_below {m : BoardModule} (h : m.state ≠ .dark) (hn : m.timeouts + 1 < 3)
    (body : TransferBody) : m.missed body = { m with timeouts := m.timeouts + 1 }.restored body :=
  (if_neg h).trans (if_pos hn)

theorem BoardModule.missed_third {m : BoardModule} (h : m.state ≠ .dark) (hn : 3 ≤ m.timeouts + 1)
    (body : TransferBody) : m.missed body =
      { m with timeouts := 3, state := .dark, dirty := .empty, blanking := false } :=
  (if_neg h).trans (if_neg (Nat.not_lt.mpr hn))

/-- A line's miss, once the module's new state and the notice are known (R106, R108). -/
theorem missAt_eq {s : State} {l : LineNo} {i : ModuleNo} {t : Transfer} {u : BoardModule} {up : UpstreamPort}
    (hu : ((s.boards[l]).modules[i]).missed t.body = u)
    (hup : (s.raiseAll (darkNotice l i (s.boards[l]).modules[i])).upstream = up) :
    missAt l i t s = { s with
      boards := s.boards.set l
        (({ s.boards[l] with inFlight := none, timeouts := min (s.boards[l].timeouts + 1) 65535 }.change i
          fun _ => u).choose s.issues.records fun m => s.lamps[rowOf l m])
      upstream := up } := by
  subst hup
  refine (State.setBoard_chooses _ _ _ _).trans ?_
  rw [BoardLine.ended_timeouts (f := fun m => m.missed t.body) hu]

/-- Settles O39. -/
theorem transfersEnd : Obligations.TransfersEnd := by
  intro s l b chooses notice
  have hnone (i : ModuleNo) (h : ¬ (b.modules[i].state ≠ .dark ∧ 3 ≤ b.modules[i].timeouts + 1)) :
      (s.raiseAll (darkNotice l i b.modules[i])).upstream = s.upstream :=
    (State.raiseAll_if ..).trans (if_neg h)
  refine ⟨?_, ?_, ?_, ?_, ?_⟩
  · intro i t left hfl hw hi m back restored owed reowed ended missed
    have haw := BoardLine.awaiting_some hfl hw hi
    have hback : (s.raiseAll (backNotice l i m)).upstream = back := State.raiseAll_if ..
    have hexpiry (h : left = 0) : exec (.boardAnswerWaitExpiry l) s = .next (missAt l i t s) := by
      subst h
      change execBoardAnswerWaitExpiry l s = _
      rw [execBoardAnswerWaitExpiry, haw]
      exact if_pos hw
    refine ⟨?_, ?_, fun h hd => ?_, fun h hd hn => ?_, fun h hd hn => ?_, fun h => ?_⟩
    · change execAccept l s = _
      rw [execAccept, haw, ← hback]
      exact congrArg Host.Outcome.next ((State.setBoard_chooses ..).trans rfl)
    · change execHold l s = _
      rw [execHold, haw, ← hback]
      refine congrArg Host.Outcome.next ((State.setBoard_chooses ..).trans ?_)
      have hu : { m.answered.restored t.body with backOff := some Config.backOff } = { m with
          state := .live, timeouts := 0, dirty := restored m.dirty, blanking := reowed owed, backOff := some 5 } := by
        rw [BoardModule.restored_eq]
        rfl
      rw [BoardLine.ended_holds (f := fun m => { m.answered.restored t.body with backOff := some Config.backOff }) hu]
    · exact (hexpiry h).trans (congrArg _ (missAt_eq (BoardModule.missed_dark hd _) (hnone i fun h => h.1 hd)))
    · refine (hexpiry h).trans (congrArg _ (missAt_eq ((BoardModule.missed_below hd hn _).trans ?_)
        (hnone i fun hb => Nat.not_le.mpr hn hb.2)))
      exact BoardModule.restored_eq _ _
    · exact (hexpiry h).trans (congrArg _ (missAt_eq (BoardModule.missed_third hd hn _)
        ((State.raiseAll_if ..).trans (if_pos ⟨hd, hn⟩))))
    · change execBoardAnswerWaitExpiry l s = _
      rw [execBoardAnswerWaitExpiry, haw]
      exact if_neg (by rw [hw]; exact fun he => h (Option.some.inj he))
  · intro t hfl hb
    change execBroadcastSent l s = _
    rw [execBroadcastSent]
    rw [show (s.boards[l]).inFlight = some t from hfl]
    dsimp only
    rw [hb]
    exact congrArg Host.Outcome.next (State.setBoard_chooses s l _ [])
  · intro i hbo hfl free
    change execHoldBackOffExpiry l i s = _
    rw [execHoldBackOffExpiry, if_pos hbo]
    exact congrArg Host.Outcome.next (State.setBoard_chooses s l _ [])
  · intro i hbo hfl free cleared
    change execHoldBackOffExpiry l i s = _
    rw [execHoldBackOffExpiry, if_pos hbo]
    refine congrArg Host.Outcome.next ((State.setBoard_chooses s l _ []).trans ?_)
    exact congrArg (fun x => ({ s with boards := s.boards.set l x } : State))
      (BoardLine.choose_busy (b := cleared) _ _ hfl)
  · intro i hbo
    exact if_neg hbo

/-! ### Answer waits, and characters that are not awaited -/

/-- A line awaits no answer while no wait runs, and none to a broadcast (R103). -/
theorem BoardLine.awaiting_none {b : BoardLine}
    (h : b.inFlight.bind Transfer.wait = none ∨ ∃ t, b.inFlight = some t ∧ t.body.module? = none) :
    b.awaiting = none := by
  rw [BoardLine.awaiting]
  rcases h with h | ⟨t, ht, hbody⟩
  · cases hfl : b.inFlight with
    | none => rfl
    | some t =>
      rw [hfl] at h
      have hwait : t.wait = none := h
      dsimp only
      rw [hwait]
  · rw [ht]
    dsimp only
    rw [hbody]
    cases t.wait <;> rfl

theorem TermLine.pollAwaited_none {x : TermLine}
    (h : ∀ left, x.inFlight.map Transaction.stage ≠ some (.pollWait left)) :
    x.pollAwaited = none := by
  rw [TermLine.pollAwaited]
  cases hfl : x.inFlight with
  | none => rfl
  | some y =>
    obtain ⟨d, stage, cut⟩ := y
    cases stage with
    | pollWait left => exact absurd (congrArg (Option.map Transaction.stage) hfl) (h left)
    | _ => rfl

theorem TermLine.selectAwaited_none {x : TermLine}
    (h : ∀ sel left, x.inFlight.map Transaction.stage ≠ some (.selectWait sel left)) : x.selectAwaited = none := by
  rw [TermLine.selectAwaited]
  cases hfl : x.inFlight with
  | none => rfl
  | some y =>
    obtain ⟨d, stage, cut⟩ := y
    cases stage with
    | selectWait sel left => exact absurd (congrArg (Option.map Transaction.stage) hfl) (h sel left)
    | _ => rfl

theorem State.request_unawaited {s : State} {l : LineNo} (h : s.termLines[l].pollAwaited = none)
    (run : TermNo → State → Answered) : s.request l run = s := by
  rw [State.request, h]

theorem transferSent_starts {s : State} {l : LineNo} {t : Transfer} (hfl : (s.boards[l]).inFlight = some t)
    (hwait : t.wait = none) (hbody : t.body.module?.isSome = true) : execTransferSent l s = .next
      (s.setBoard l { s.boards[l] with inFlight := some { t with wait := some Config.boardWait } }) := by
  obtain ⟨i, hi⟩ := Option.isSome_iff_exists.mp hbody
  rw [execTransferSent, hfl]
  dsimp only
  rw [hwait, hi]

theorem transferSent_ignored {s : State} {l : LineNo}
    (h : (s.boards[l]).inFlight = none ∨ (s.boards[l]).inFlight.bind Transfer.wait ≠ none ∨
      ∃ t, (s.boards[l]).inFlight = some t ∧ t.body.module? = none) : execTransferSent l s = .next s := by
  rw [execTransferSent]
  rcases h with h | h | ⟨t, ht, hbody⟩
  · rw [h]
  · cases hfl : (s.boards[l]).inFlight with
    | none => rfl
    | some t =>
      rw [hfl] at h
      obtain ⟨left, hleft⟩ : ∃ left, t.wait = some left := Option.ne_none_iff_exists'.mp h
      dsimp only
      rw [hleft]
  · rw [ht]
    dsimp only
    rw [hbody]
    cases t.wait <;> rfl

theorem broadcastSent_ignored {s : State} {l : LineNo}
    (h : ¬ ∃ t, (s.boards[l]).inFlight = some t ∧ t.body.module? = none) : execBroadcastSent l s = .next s := by
  rw [execBroadcastSent]
  cases hfl : (s.boards[l]).inFlight with
  | none => rfl
  | some t =>
    dsimp only
    cases hbody : t.body.module? with
    | none => exact absurd ⟨t, hfl, hbody⟩ h
    | some i => rfl

theorem pollSent_ignored {s : State} {l : LineNo}
    (h : ∀ c, (s.termLines[l]).inFlight.map Transaction.stage ≠ some (.pollSending c)) :
    execPollSent l s = .next s := by
  rw [execPollSent]
  cases hfl : (s.termLines[l]).inFlight with
  | none => rfl
  | some y =>
    obtain ⟨d, stage, cut⟩ := y
    cases stage with
    | pollSending c => exact absurd (congrArg (Option.map Transaction.stage) hfl) (h c)
    | _ => rfl

theorem selectSent_ignored {s : State} {l : LineNo}
    (h : ∀ sel, (s.termLines[l]).inFlight.map Transaction.stage ≠ some (.selectSending sel)) :
    execSelectSent l s = .next s := by
  rw [execSelectSent]
  cases hfl : (s.termLines[l]).inFlight with
  | none => rfl
  | some y =>
    obtain ⟨d, stage, cut⟩ := y
    cases stage with
    | selectSending sel => exact absurd (congrArg (Option.map Transaction.stage) hfl) (h sel)
    | _ => rfl

/-- Settles O40. -/
theorem answerWaitsStart : Obligations.AnswerWaitsStart := by
  refine ⟨?_, ?_, ?_, ?_, ?_, ?_⟩
  · intro s l t hfl hwait hbody waiting
    exact transferSent_starts hfl hwait hbody
  · intro s l d c cut hfl waiting
    change execPollSent l s = _
    rw [execPollSent, hfl]
    rfl
  · intro s l d sel cut hfl waiting
    change execSelectSent l s = _
    rw [execSelectSent, hfl]
    rfl
  · exact fun s l c => ⟨rfl, rfl⟩
  · intro s l x broadcast
    refine ⟨fun h => ?_, transferSent_ignored, broadcastSent_ignored⟩
    have haw := BoardLine.awaiting_none h
    refine ⟨?_, ?_, ?_⟩
    · change execAccept l s = _
      rw [execAccept, haw]
    · change execHold l s = _
      rw [execHold, haw]
    · change execBoardAnswerWaitExpiry l s = _
      rw [execBoardAnswerWaitExpiry, haw]
  · intro s l stage
    refine ⟨fun h => ?_, fun h => ?_, pollSent_ignored, selectSent_ignored, fun h => ?_⟩
    · have haw := TermLine.pollAwaited_none h
      have hrequest (run : TermNo → State → Answered) :
          (.next (s.request l run) : Host.Outcome State Fault Refusal) = .next s :=
        congrArg _ (State.request_unawaited haw run)
      refine ⟨?_, fun field => ⟨hrequest _, hrequest _, hrequest _⟩,
        fun slot cond neg field limit => ⟨hrequest _, hrequest _⟩, fun req => hrequest _⟩
      change execNothing l s = _
      rw [execNothing, haw]
    · have haw := TermLine.selectAwaited_none h
      refine ⟨?_, ?_⟩
      · change execReceived l s = _
        rw [execReceived, haw]
      · change execBusy l s = _
        rw [execBusy, haw]
    · change execTerminalAnswerWaitExpiry l s = _
      have hfl : (s.termLines[l]).inFlight = none := Option.map_eq_none_iff.mp h
      rw [execTerminalAnswerWaitExpiry, hfl]

end Sys2Proof.Machine
end

