-- ==== Sys2Proof/Proofs/Texts.lean ====
section
/-! PROOFS. What the card sends on its lines, and the answers it reads there (R102, R140, R151, R159, R203). -/

namespace Sys2Proof.Machine

/-! ### Sums and single characters -/

theorem foldl_add_ofNat (cs : Text) (n : Nat) :
    cs.foldl (· + ·) (BitVec.ofNat 8 n) = BitVec.ofNat 8 (n + (cs.map BitVec.toNat).sum) := by
  induction cs generalizing n with
  | nil => rfl
  | cons c cs ih =>
    have hc : BitVec.ofNat 8 n + c = BitVec.ofNat 8 (n + c.toNat) := by
      rw [BitVec.ofNat_add, BitVec.ofNat_toNat, BitVec.setWidth_eq]
    rw [List.foldl_cons, hc, ih, List.map_cons, List.sum_cons, Nat.add_assoc]

/-- A sum character is the sum of the characters modulo 256 (R203). -/
theorem sumChars_eq (cs : Text) : sumChars cs = BitVec.ofNat 8 (cs.map BitVec.toNat).sum :=
  (foldl_add_ofNat cs 0).trans (by rw [Nat.zero_add])

theorem sumChars_counted (cs : Text) : sumChars (BitVec.ofNat 8 cs.length :: cs) =
    BitVec.ofNat 8 (cs.length + (cs.map BitVec.toNat).sum) :=
  (congrArg (List.foldl (· + ·) · cs) (BitVec.zero_add _)).trans (foldl_add_ofNat cs _)

theorem stateChar_eq (r : IssueRecord) : stateChar r = BitVec.ofNat 8 (r.traded.toNat + 2 * r.halted.toNat
    + 16 * ([.none, .up, .down, .zeroUp, .zeroDown] : List Tick).idxOf r.tick) := by
  rw [stateChar]
  cases r.traded <;> cases r.halted <;> cases r.tick <;> rfl

theorem flagByte_if (b : Bool) : flagByte b = if b then 0x01 else 0x00 := by cases b <;> rfl

theorem priceField_elim (d : Nat) (p : Option Nat) : priceField d p =
    p.elim [0x00] fun v => BitVec.ofNat 8 (priceText d v).length :: priceText d v := by
  cases p <;> rfl

theorem limitText_eq (a : AlertSetting) (r : IssueRecord) : limitText a r =
    if a.condition = .lastAbove ∨ a.condition = .lastBelow then priceText r.denom a.limit.toNat
    else if a.condition = .changeAbove ∨ a.condition = .changeBelow then changeText r.denom a.limit
    else [] := by
  rw [limitText]
  cases a.condition <;> rfl

/-! ### Lamps, field blocks and fields -/

/-- The lamps a row shows lit. -/
theorem lampChar_bits (x : RowLamps) :
    ((lampChar x).getLsbD 0 = true ↔ x.arrow = .steadyUp ∨ ∃ f, x.arrow = .flashUp f ∧ f.phase = .on) ∧
    ((lampChar x).getLsbD 1 = true ↔ x.arrow = .steadyDown ∨ ∃ f, x.arrow = .flashDown f ∧ f.phase = .on) ∧
    (lampChar x).getLsbD 2 = x.halt ∧ (lampChar x).toNat < 8 := by
  obtain ⟨arrow, halt⟩ := x
  have hphase (p : Phase) : p = .on ∨ p = .off := by cases p <;> simp
  cases arrow with
  | steadyNone => cases halt <;> simp [lampChar, flagByte]
  | steadyUp => cases halt <;> simp [lampChar, flagByte]
  | steadyDown => cases halt <;> simp [lampChar, flagByte]
  | flashUp f => rcases hphase f.phase with h | h <;> cases halt <;> simp [lampChar, flagByte, h]
  | flashDown f => rcases hphase f.phase with h | h <;> cases halt <;> simp [lampChar, flagByte, h]

theorem flatMap_sent_cons (c : Bool) (t : Text) (fields : List (Bool × Text)) :
    (((c, t) :: fields).filter Prod.fst).flatMap Prod.snd =
      (if c then t else []) ++ (fields.filter Prod.fst).flatMap Prod.snd := by
  cases c <;> rfl

theorem fieldBlocks_eq (r : IssueRecord) (x : RowLamps) (fs : FieldSet) : fieldBlocks r x fs =
    (([(fs.symbol, 0x01 :: textField r.symbol), (fs.last, 0x02 :: textField (priceText r.denom r.last)),
      (fs.change, 0x03 :: textField (changeText r.denom r.netChange)),
      (fs.volume, 0x04 :: textField (volumeText r.volume)), (fs.lamps, [0x05, 0x01, lampChar x])] :
      List (Bool × Text)).filter Prod.fst).flatMap Prod.snd := by
  simp only [flatMap_sent_cons, List.filter_nil, List.flatMap_nil, List.append_nil, fieldBlocks, List.append_assoc]
  rfl

theorem entryFields_eq (r : IssueRecord) (fs : FieldSet) : entryFields r fs =
    (([(fs.symbol, textField r.symbol), (fs.last, textField (priceText r.denom r.last)),
      (fs.change, textField (changeText r.denom r.netChange)), (fs.volume, textField (volumeText r.volume)),
      (fs.bidask, priceField r.denom r.bid ++ priceField r.denom r.ask), (fs.state, [stateChar r])] :
      List (Bool × Text)).filter Prod.fst).flatMap Prod.snd := by
  simp only [flatMap_sent_cons, List.filter_nil, List.flatMap_nil, List.append_nil, entryFields, List.append_assoc]

/-! ### The texts -/

theorem transferChars_eq (address : Nat) (data : Text) : transferChars address data =
    BitVec.ofNat 9 (256 + address) :: data.map (fun c => BitVec.ofNat 9 c.toNat)
      ++ [BitVec.ofNat 9 ((data.map BitVec.toNat).sum % 256)] := by
  have hsum : (data.foldl (· + ·) 0 : Byte) = BitVec.ofNat 8 (data.map BitVec.toNat).sum := sumChars_eq data
  have hwide (c : Byte) : c.setWidth 9 = BitVec.ofNat 9 c.toNat := (BitVec.ofNat_toNat 9 c).symm
  have hmap : (fun c : Byte => c.setWidth 9) = fun c => BitVec.ofNat 9 c.toNat := funext hwide
  rw [transferChars, hsum, List.map_append, hmap]
  exact congrArg (fun v => BitVec.ofNat 9 (256 + address) :: data.map (fun c => BitVec.ofNat 9 c.toNat)
    ++ [BitVec.ofNat 9 v]) (BitVec.toNat_ofNat _ 8)

/-- Settles O42. -/
theorem lineTextsBuilt : Obligations.LineTextsBuilt := by
  unfold Obligations.LineTextsBuilt
  intro text sent flag
  refine ⟨?_, fun address data _ => transferChars_eq address data, ?_, pollChar_eq, fun n => rfl, fun f => ?_⟩
  · intro records n r hr price change volume state
    have hprice (p : Option Nat) : priceField r.denom p = price p := priceField_elim r.denom p
    have hstate : stateChar r = state := stateChar_eq r
    refine ⟨?_, ?_, ?_, ?_⟩
    · intro x fs up down
      obtain ⟨hup, hdown, hhalt, hlit⟩ := lampChar_bits x
      refine ⟨lampChar x, hup, hdown, hhalt, hlit, ?_⟩
      rw [rowBlocks, hr]
      exact fieldBlocks_eq r x fs
    · rw [recordView]
      simp only [hprice, hstate]
      rfl
    · intro position length fs
      rw [entryUpdate, hr]
      dsimp only
      rw [entryFields_eq, hprice, hprice, hstate]
      rfl
    · intro k a clock limit
      rw [alertChars, limitText_eq, flagByte_if, flagByte_if]
      simp only [List.cons_append, List.append_assoc, List.nil_append]
      rfl
  · intro d message _
    rw [selectChars, sumChars_counted]
    rfl
  · cases f <;> rfl

/-! ### Answers written and read back -/

theorem requestAnswer_eq (request : Text) : requestAnswer request =
    [0x05, BitVec.ofNat 8 request.length] ++ request
      ++ [BitVec.ofNat 8 (request.length + (request.map BitVec.toNat).sum)] := by
  rw [requestAnswer, sumChars_counted]
  rfl

theorem extract_four (x : BitVec 32) :
    x.extractLsb' 24 8 ++ x.extractLsb' 16 8 ++ x.extractLsb' 8 8 ++ x.extractLsb' 0 8 = x := by
  rw [BitVec.extractLsb'_append_extractLsb'_eq_extractLsb' (show 24 = 16 + 8 from rfl),
    BitVec.extractLsb'_append_extractLsb'_eq_extractLsb' (show 16 = 8 + 8 from rfl)]
  exact BitVec.extractLsb'_append_extractLsb'

theorem limitChars_eq (limit : BitVec 32) : limitChars limit = writeNat 4 limit.toNat := by
  have hbyte (k : Nat) : limit.extractLsb' k 8 = BitVec.ofNat 8 (limit.toNat / 2 ^ k) := by
    apply BitVec.eq_of_toNat_eq
    rw [BitVec.extractLsb'_toNat, BitVec.toNat_ofNat, Nat.shiftRight_eq_div_pow]
  rw [limitChars, hbyte, hbyte, hbyte, hbyte]
  simp [writeNat, Nat.div_div_eq_div_mul]

theorem terminalAnswer_request (l : LineNo) (request : Text) (last : Byte) (hlen : request.length < 256) :
    terminalAnswer l ([0x05, BitVec.ofNat 8 request.length] ++ request ++ [last]) =
      if last = BitVec.ofNat 8 (request.length + (request.map BitVec.toNat).sum) then some (requestOf l request)
      else none := by
  have hlast : (request ++ [last]).getLast? = some last := List.getLast?_concat
  have hinit : (request ++ [last]).dropLast = request := List.dropLast_concat
  have hcount : (request ++ [last]).length = (BitVec.ofNat 8 request.length).toNat + 1 := by
    rw [BitVec.toNat_ofNat, Nat.mod_eq_of_lt hlen, List.length_append]
    rfl
  have hread : terminalAnswer l ([0x05, BitVec.ofNat 8 request.length] ++ request ++ [last]) =
      if (request ++ [last]).length = (BitVec.ofNat 8 request.length).toNat + 1 ∧ (request ++ [last]).getLast? =
        some (sumChars (BitVec.ofNat 8 request.length :: (request ++ [last]).dropLast)) then
        some (requestOf l (request ++ [last]).dropLast)
      else none := rfl
  rw [hread, hlast, hinit, sumChars_counted]
  simp only [hcount, true_and, Option.some.injEq]

theorem terminalAnswer_requestAnswer (l : LineNo) {request : Text} (hlen : request.length < 256) :
    terminalAnswer l (requestAnswer request) = some (requestOf l request) := by
  rw [requestAnswer_eq, terminalAnswer_request l request _ hlen, if_pos rfl]

theorem symbolFieldOk_iff {f : Text} (h : symbolFieldOk f = true) : ∃ a b c d, f = [a, b, c, d] :=
  List.length_eq_four.mp (eq_of_beq h)

/-- Every well-formed answer is read back as its command (R203, log 21). -/
theorem answer_read_back {i : Instr} {l : LineNo} (hwf : WellFormed i = true)
    (h : i ∈ [.nothing l, .received l, .busy l]
      ∨ (∃ f, i = .quoteRequest l f ∨ i = .watchAdd l f ∨ i = .watchDrop l f)
      ∨ (∃ k f c n v, i = .alertSet l k f c n v) ∨ (∃ k, i = .alertClear l k)
      ∨ ∃ q, i = .requestBadOperation l q) :
    (answerChars i).bind (terminalAnswer l) = some i := by
  rcases h with h | ⟨f, rfl | rfl | rfl⟩ | ⟨k, f, c, n, v, rfl⟩ | ⟨k, rfl⟩ | ⟨q, rfl⟩
  · rcases List.mem_cons.mp h with rfl | h
    · rfl
    · rcases List.mem_cons.mp h with rfl | h
      · rfl
      · obtain rfl := List.mem_singleton.mp h
        rfl
  · obtain ⟨a, b, c, d, rfl⟩ := symbolFieldOk_iff hwf
    exact terminalAnswer_requestAnswer l (show 5 < 256 by decide)
  · obtain ⟨a, b, c, d, rfl⟩ := symbolFieldOk_iff hwf
    exact terminalAnswer_requestAnswer l (show 5 < 256 by decide)
  · obtain ⟨a, b, c, d, rfl⟩ := symbolFieldOk_iff hwf
    exact terminalAnswer_requestAnswer l (show 5 < 256 by decide)
  · obtain ⟨a, b, c', d, rfl⟩ := symbolFieldOk_iff hwf
    refine (terminalAnswer_requestAnswer l (request := 0x04 :: k :: ([a, b, c', d] ++ c :: n :: limitChars v))
      (show 12 < 256 by decide)).trans ?_
    exact congrArg (fun x => some (Instr.alertSet l k [a, b, c', d] c n x)) (extract_four v)
  · exact terminalAnswer_requestAnswer l (show 2 < 256 by decide)
  · obtain ⟨hbad, hlen⟩ := Bool.and_eq_true_iff.mp hwf
    refine (terminalAnswer_requestAnswer l (of_decide_eq_true hlen)).trans (congrArg some ?_)
    exact if_pos hbad

/-- Settles O51. -/
theorem answerRoundTrip : Obligations.AnswerRoundTrip := by
  refine ⟨fun l c => rfl, ?_, ?_⟩
  · intro sum answer l symbol slot cond neg limit request last
    have hanswer (q : Text) : some (requestAnswer q) = answer q := congrArg some (requestAnswer_eq q)
    refine ⟨rfl, rfl, rfl, hanswer _, hanswer _, hanswer _, ?_, hanswer _, hanswer _, fun hlen hlast => ?_⟩
    · refine (hanswer _).trans ?_
      rw [limitChars_eq]
      simp
    · exact (terminalAnswer_request l request last hlen).trans (if_neg hlast)
  · intro i cs l hwf hcs h
    have hback := answer_read_back hwf h
    rw [hcs] at hback
    exact hback

end Sys2Proof.Machine
end

