-- ==== Sys2Proof/Proofs/Numbers.lean ====
section
/-! PROOFS. Feed prices, decimal digits, and numbers in messages (R2, R6, R197). -/

namespace Sys2Proof.Machine

/-! ### Feed prices -/

theorem normalise_iff (w n k p : Nat) : normalise w n k = some p ↔
    w ≤ 9999 ∧ 1 ≤ k ∧ k ≤ 8 ∧ n < 2 ^ k ∧ p = w * 256 + n * (256 / 2 ^ k) ∧ p ≠ 0 := by
  rw [normalise]
  by_cases hbad : 9999 < w ∨ k = 0 ∨ 8 < k ∨ 2 ^ k ≤ n
  · rw [if_pos hbad]
    refine ⟨nofun, fun ⟨hw, hk, hk8, hn, _⟩ => ?_⟩
    rcases hbad with h | h | h | h
    · exact absurd hw (Nat.not_le.mpr h)
    · exact absurd h (Nat.pos_iff_ne_zero.mp hk)
    · exact absurd hk8 (Nat.not_le.mpr h)
    · exact absurd hn (Nat.not_lt.mpr h)
  · rw [if_neg hbad]
    simp only [not_or, not_lt, not_le] at hbad
    obtain ⟨hw, hk, hk8, hn⟩ := hbad
    by_cases hz : w * 256 + n * (256 / 2 ^ k) = 0
    · refine ⟨fun h => ?_, fun ⟨_, _, _, _, hp, hpz⟩ => absurd (hp.trans hz) hpz⟩
      exact absurd ((if_pos hz).symm.trans h) nofun
    · refine ⟨fun h => ?_, fun ⟨_, _, _, _, hp, _⟩ => (if_neg hz).trans (congrArg some hp.symm)⟩
      obtain rfl := Option.some.inj ((if_neg hz).symm.trans h)
      exact ⟨hw, Nat.pos_of_ne_zero hk, hk8, hn, rfl, hz⟩

/-- The normalised price is exact: the denominator divides 256 (R2). -/
theorem normalise_exact {w n k p : Nat} (h : normalise w n k = some p) : p * 2 ^ k = (w * 2 ^ k + n) * 256 := by
  obtain ⟨_, _, hk8, _, rfl, _⟩ := (normalise_iff w n k p).mp h
  have hunit : 256 / 2 ^ k * 2 ^ k = 256 := Nat.div_mul_cancel (pow_dvd_pow 2 hk8)
  rw [Nat.add_mul, Nat.mul_assoc n, hunit, Nat.add_mul, Nat.mul_right_comm]

/-! ### Decimal digits -/

theorem digitsOnto_succ (fuel n : Nat) (acc : Text) : digitsOnto (fuel + 1) n acc =
    if n / 10 = 0 then BitVec.ofNat 8 (0x30 + n % 10) :: acc
    else digitsOnto fuel (n / 10) (BitVec.ofNat 8 (0x30 + n % 10) :: acc) := rfl

/-- Any fuel over the number writes all its digits. -/
theorem digitsOnto_eq (n : Nat) :
    ∀ (fuel : Nat) (acc : Text), n < fuel → digitsOnto fuel n acc = decimal n ++ acc := by
  induction n using Nat.strong_induction_on with
  | _ n ih =>
    intro fuel acc hfuel
    obtain ⟨fuel, rfl⟩ : ∃ m, fuel = m + 1 := ⟨fuel - 1, by omega⟩
    rw [decimal, digitsOnto_succ, digitsOnto_succ]
    by_cases hz : n / 10 = 0
    · rw [if_pos hz, if_pos hz]
      rfl
    · rw [if_neg hz, if_neg hz, ih (n / 10) (by omega) fuel _ (by omega), ih (n / 10) (by omega) n _ (by omega),
        List.append_assoc]
      rfl

theorem decimal_step {n : Nat} (h : 10 ≤ n) : decimal n = decimal (n / 10) ++ [BitVec.ofNat 8 (0x30 + n % 10)] := by
  have hz : n / 10 ≠ 0 := by omega
  rw [decimal, digitsOnto_succ, if_neg hz, digitsOnto_eq _ _ _ (by omega)]

theorem toNat_digit {d : Nat} (h : d < 10) : (BitVec.ofNat 8 (0x30 + d)).toNat = 0x30 + d := by
  rw [BitVec.toNat_ofNat]
  omega

theorem decimal_value (n : Nat) : (decimal n).foldl (fun a c => a * 10 + (c.toNat - 0x30)) 0 = n := by
  induction n using Nat.strong_induction_on with
  | _ n ih =>
    rcases Nat.lt_or_ge n 10 with h | h
    · rw [decimal_of_lt_ten h, List.foldl_cons, List.foldl_nil, toNat_digit h]
      omega
    · rw [decimal_step h, List.foldl_append, ih _ (by omega), List.foldl_cons, List.foldl_nil,
        toNat_digit (by omega)]
      omega

theorem decimal_digits (n : Nat) : ∀ c ∈ decimal n, 0x30 ≤ c.toNat ∧ c.toNat ≤ 0x39 := by
  have hdigit {d : Nat} (h : d < 10) {c : Byte} (hc : c ∈ [BitVec.ofNat 8 (0x30 + d)]) :
      0x30 ≤ c.toNat ∧ c.toNat ≤ 0x39 := by
    rw [List.mem_singleton.mp hc, toNat_digit h]
    omega
  induction n using Nat.strong_induction_on with
  | _ n ih =>
    intro c hc
    rcases Nat.lt_or_ge n 10 with h | h
    · rw [decimal_of_lt_ten h] at hc
      exact hdigit h hc
    · rw [decimal_step h] at hc
      rcases List.mem_append.mp hc with hc | hc
      · exact ih _ (by omega) c hc
      · exact hdigit (by omega) hc

theorem decimal_ne_nil (n : Nat) : decimal n ≠ [] := List.ne_nil_of_length_pos (length_decimal_pos n)

/-- Only the number 0 starts with the digit 0. -/
theorem decimal_head (n : Nat) (h : (decimal n).head? = some 0x30) : decimal n = [0x30] := by
  induction n using Nat.strong_induction_on with
  | _ n ih =>
    rcases Nat.lt_or_ge n 10 with hn | hn
    · rw [decimal_of_lt_ten hn] at h ⊢
      rw [Option.some.inj h]
    · rw [decimal_step hn, List.head?_append_of_ne_nil _ (decimal_ne_nil _)] at h
      have hval := decimal_value (n / 10)
      rw [ih _ (by omega) h] at hval
      have hzero : n / 10 = 0 := hval.symm
      omega

/-! ### Numbers in messages -/

theorem readNat_writeNat (w n : Nat) (pre post : Text) (h : n < 256 ^ w) :
    readNat (pre ++ writeNat w n ++ post) pre.length w = n := by
  induction w generalizing n post with
  | zero => exact (Nat.lt_one_iff.mp h).symm
  | succ w ih =>
    have hbody : pre ++ writeNat (w + 1) n ++ post =
        pre ++ writeNat w (n / 256) ++ (BitVec.ofNat 8 n :: post) := by
      rw [writeNat, ← List.append_assoc, List.append_assoc _ [_] post]
      rfl
    have hlen : (pre ++ writeNat w (n / 256)).length = pre.length + w := by
      rw [List.length_append, length_writeNat]
    have hlast : byteAt (pre ++ writeNat w (n / 256) ++ (BitVec.ofNat 8 n :: post)) (pre.length + w) =
        BitVec.ofNat 8 n := by
      rw [byteAt, List.getD_eq_getElem?_getD, ← hlen, List.getElem?_append_right (Nat.le_refl _), Nat.sub_self]
      rfl
    have hhigh : n / 256 < 256 ^ w := Nat.div_lt_of_lt_mul (by rwa [Nat.mul_comm, ← Nat.pow_succ])
    rw [hbody, readNat, hlast, ih _ _ hhigh, BitVec.toNat_ofNat]
    omega

theorem writeNat_eq (w n : Nat) :
    writeNat w n = (List.range w).map fun j => BitVec.ofNat 8 (n / 256 ^ (w - 1 - j)) := by
  induction w generalizing n with
  | zero => rfl
  | succ w ih =>
    rw [writeNat, ih, List.range_succ, List.map_append]
    refine congrArg₂ (· ++ ·) (List.map_congr_left fun j hj => ?_) ?_
    · have hw : w + 1 - 1 - j = w - 1 - j + 1 := by
        have hlt := List.mem_range.mp hj
        omega
      rw [Nat.div_div_eq_div_mul, hw, Nat.pow_succ, Nat.mul_comm]
    · rw [List.map_singleton, Nat.add_sub_cancel, Nat.sub_self, Nat.pow_zero, Nat.div_one]

theorem readIssues_eq (body : Text) (i n : Nat) :
    readIssues body i n = (List.range n).map fun j => readNat body (i + 2 * j) 2 := by
  induction n generalizing i with
  | zero => rfl
  | succ n ih =>
    rw [readIssues, ih, List.range_succ_eq_map, List.map_cons, List.map_map]
    refine congrArg (readNat body i 2 :: ·) (List.map_congr_left fun j _ => ?_)
    exact congrArg (readNat body · 2) (by omega)

theorem readInt32_writeInt (i : Int) (pre post : Text) (hlo : -(2 ^ 31) ≤ i) (hhi : i < 2 ^ 31) :
    readInt32 (pre ++ writeInt 4 i ++ post) pre.length = i := by
  have hrange : (i % (256 ^ 4 : Nat)).toNat < 256 ^ 4 := by omega
  rw [readInt32, writeInt, readNat_writeNat _ _ _ _ hrange, BitVec.toInt_ofNat', Int.bmod_def]
  omega

/-- Settles O3. -/
theorem numbersReadAndWritten : Obligations.NumbersReadAndWritten := by
  refine ⟨⟨normalise_iff, fun w n k p h => ?_, fun body i => ?_⟩, fun m => ?_, fun w n pre post h => ?_, writeNat_eq,
    fun w i => ?_, readIssues_eq, readInt32_writeInt⟩
  · obtain ⟨hlo, hhi⟩ := priceOk_of_normalise h
    exact ⟨normalise_exact h, hlo, hhi⟩
  · rw [feedPriceAt, readNat_one, readNat_one]
  · exact ⟨decimal_value m, decimal_digits m, decimal_head m, decimal_ne_nil m⟩
  · exact ⟨length_writeNat w n, readNat_writeNat w n pre post h⟩
  · rw [writeInt, Nat.cast_pow]
    rfl

end Sys2Proof.Machine
end
